-- ==== Sys2Proof/Word.lean ====
section
/-! DEFINITION. The plainest types of the part: a byte of a frame, a character code, a line number and a channel number. -/

namespace Sys2Proof

/-- A byte of a frame on a host channel link (R178). -/
abbrev Byte := BitVec 8

/-- A 7-bit character code (00_scope, "Characters"). -/
abbrev Code := BitVec 7

/-- A line number, 0 to 63 (00_scope, "Lines"). -/
abbrev LineNo := Fin 64

/-- A channel number, 0 to 3; channel 0 is host A (00_scope, "Channels"). -/
abbrev ChanNo := Fin 4

end Sys2Proof
end

