-- ==== Sys2Proof/Syntax.lean ====
section
/-! DEFINITION. The commands of the part: one constructor of `Instr` for each row of spec/opcode_table.json. -/

namespace Sys2Proof

/-- An order frame as it arrives: the sequence number and the body length of its header, and every byte that
follows the header (R178, R179). The order code is the constructor's. -/
structure OrderFrame where
  seq     : BitVec 16
  bodyLen : BitVec 16
  body    : List Byte
deriving DecidableEq, Repr

/-- A step of the part (00_scope, "The events have the names the trade gives them"; the table of operations and
events). A command that names a line takes effect at that line's unit; an order, a data block or a discarded frame
arrives on the channel it names. -/
inductive Instr where
  -- resets and supply
  | powerUp (switchOn reference batteryHeld : Bool)
  | resetInput (switchOn reference : Bool)
  | orderlyRestartReset (switchOn reference : Bool)
  | mainSupplyLoss
  | timekeeperSecond
  -- line events
  | ring (l : LineNo)
  | ringGapTimerExpiry (l : LineNo)
  | carrierRise (l : LineNo)
  | carrierLoss (l : LineNo)
  | answerTimerExpiry (l : LineNo)
  | speedAttempt (l : LineNo) (micros : Nat) (data : Code)
  | speedWindowExpiry (l : LineNo)
  | markRest (l : LineNo)
  | characterReceived (l : LineNo) (data : Code) (parity stop : Bool)
  | breakReceived (l : LineNo)
  | characterSent (l : LineNo)
  | lineHitTimerExpiry (l : LineNo)
  | guardTimerExpiry (l : LineNo)
  | quietTimerExpiry (l : LineNo)
  -- sign-on, command mode and budget timers
  | dialogTimerExpiry (l : LineNo)
  | attentionTimerExpiry (l : LineNo)
  | idleTimerExpiry (l : LineNo)
  | forwardTimerExpiry (l : LineNo)
  | graceTimerExpiry (slot : Nat)
  -- typed commands
  | connect (l : LineNo) (host : ChanNo)
  | resume (l : LineNo)
  | rotate (l : LineNo)
  | endSession (l : LineNo)
  | logoff (l : LineNo)
  | status (l : LineNo)
  -- port, queue and channel timers
  | waitTimerExpiry (c : ChanNo) (l : LineNo)
  | acceptTimerExpiry (c : ChanNo) (port : Nat)
  | closeTimerExpiry (c : ChanNo) (port : Nat)
  | silenceTimerExpiry (c : ChanNo)
  -- rating unit
  | billingSecond
  | referenceMissing
  | referenceSteady
  -- account store
  | accessComplete
  | writeBackCompleted
  -- port orders
  | accept (c : ChanNo) (f : OrderFrame)
  | refuse (c : ChanNo) (f : OrderFrame)
  | closePort (c : ChanNo) (f : OrderFrame)
  | closeAck (c : ChanNo) (f : OrderFrame)
  -- account orders
  | add (c : ChanNo) (f : OrderFrame)
  | edit (c : ChanNo) (f : OrderFrame)
  | delete (c : ChanNo) (f : OrderFrame)
  | read (c : ChanNo) (f : OrderFrame)
  | list (c : ChanNo) (f : OrderFrame)
  | probe (c : ChanNo) (f : OrderFrame)
  | charge (c : ChanNo) (f : OrderFrame)
  | flush (c : ChanNo) (f : OrderFrame)
  -- channel orders
  | attach (c : ChanNo) (f : OrderFrame)
  | detach (c : ChanNo) (f : OrderFrame)
  | idle (c : ChanNo) (f : OrderFrame)
  | sync (c : ChanNo) (f : OrderFrame)
  -- operator orders and reports
  | setTime (c : ChanNo) (f : OrderFrame)
  | setBanner (c : ChanNo) (f : OrderFrame)
  | loadTariff (c : ChanNo) (f : OrderFrame)
  | armTariff (c : ChanNo) (f : OrderFrame)
  | closePeriod (c : ChanNo) (f : OrderFrame)
  | enableLine (c : ChanNo) (f : OrderFrame)
  | disableLine (c : ChanNo) (f : OrderFrame)
  | restoreLine (c : ChanNo) (f : OrderFrame)
  | resetGroup (c : ChanNo) (f : OrderFrame)
  | restart (c : ChanNo) (f : OrderFrame)
  | readLine (c : ChanNo) (f : OrderFrame)
  | readTariff (c : ChanNo) (f : OrderFrame)
  | readConfig (c : ChanNo) (f : OrderFrame)
  | writeConfig (c : ChanNo) (f : OrderFrame)
  | badOrder (c : ChanNo) (code : Byte) (f : OrderFrame)
  -- other frames, and the link taking a record
  | dataBlock (c : ChanNo) (indications : Byte) (port bodyLen : BitVec 16) (chars : List Byte)
  | frameDiscarded (c : ChanNo) (bytes : List Byte)
  | replySent (c : ChanNo)
  | noticeSent (c : ChanNo)
  | dataBlockSent (c : ChanNo)
deriving DecidableEq, Repr

end Sys2Proof
end

