-- ==== Sys2Proof/Decode.lean ====
section
/-! DEFINITION. The command that a word spells by the table's bits. spec/opcode_table.json gives no row any bits
(its rows have no "fixed" and no "fields"), so no word spells a command. The frames of the host channel links, which
the description does give bytes, are read by the channel units (Sys2Proof/Machine/Operands.lean). -/

namespace Sys2Proof

/-- No row of the table gives bits, so there is no command for a word. -/
def decodeTableWord (nbits w : Nat) : Option Instr :=
  match nbits, w with
  | _, _ => none

end Sys2Proof
end

