-- ==== Sys2Proof/Config.lean ====
section
/-! DEFINITION. The capacities and limits the description states, and the one free value: what a field of three bytes
sends of a number that it cannot hold. -/

namespace Sys2Proof.Config

/-- Input buffer of a line, in characters (R1). -/
abbrev inputCap : Nat := 128
/-- Part-message buffer of a line, in characters (R1, R11). -/
abbrev partMsgCap : Nat := 160
/-- Output buffer of a BOUND port, in characters (R69). -/
abbrev outputCap : Nat := 256
/-- The output buffer count at which STOP is sent (R81). -/
abbrev stopAt : Nat := 192
/-- The output buffer count at which START is sent (R82). -/
abbrev startAt : Nat := 64
/-- The input buffer count at which a block is sent (R83). -/
abbrev forwardAt : Nat := 32
/-- Digits of the identifier field (R49). -/
abbrev identCap : Nat := 5
/-- Characters of the pass-phrase field (R49). -/
abbrev passCap : Nat := 12
/-- Characters of the command field (R67). -/
abbrev commandCap : Nat := 32
/-- Sessions of one line (R68). -/
abbrev stackCap : Nat := 4
/-- Ports of one channel (R87). -/
abbrev portCap : Nat := 48
/-- Orders of one channel (R171). -/
abbrev orderCap : Nat := 8
/-- Notices of one channel (R173). -/
abbrev noticeCap : Nat := 32
/-- Fault records of one channel (R124). -/
abbrev faultCap : Nat := 8
/-- Record slots (R27), and the roll index that means no slot is left (R143). -/
abbrev slotCount : Nat := 4096
/-- The largest number of units an account, a budget or a sign-on count holds (R30, R67). -/
abbrev unitMax : Nat := 16777215
/-- One unit in the accumulator's measure (R119). -/
abbrev unitMeasure : Nat := 6000000
/-- Half a unit, the NEAREST threshold (R121). -/
abbrev halfUnit : Nat := 3000000
/-- The pending count at which an entry is due (R131). -/
abbrev dueAt : Nat := 64
/-- Numbers of one LIST page (R160). -/
abbrev listPage : Nat := 16
/-- Characters of the banner (R46). -/
abbrev bannerCap : Nat := 80
/-- Characters of a host name (R167). -/
abbrev nameCap : Nat := 8
/-- Bytes of a frame's body (R178). -/
abbrev bodyCap : Nat := 512
/-- The failure count at which an account is suspended (R32). -/
abbrev failureCap : Nat := 5
/-- Score at which a line becomes BARRED (R18). -/
abbrev barredAt : Nat := 192
/-- Score at which a GOOD line becomes NOISY (R18). -/
abbrev noisyAt : Nat := 96
/-- Score below which a NOISY line becomes GOOD (R18). -/
abbrev goodBelow : Nat := 64
/-- The score after the quiet timer (R20). -/
abbrev probation : Nat := 128
/-- The largest score (R17). -/
abbrev scoreMax : Nat := 255
/-- Seconds of a day (R109). -/
abbrev daySeconds : Nat := 86400

/-- FREE VALUE (R181, assumption 44): the three bytes that SESSION END sends for final units above 16,777,215. -/
opaque freeUnits : Nat → BitVec 24

end Sys2Proof.Config
end

