-- ==== Sys2Proof/Machine/State.lean ====
section
/-! DEFINITION. Everything the description gives the part, as plain data, and the state right after reset. The value
beside each field is its value after a full reset of a newly initialised store, outside SETUP (R26, R28, R49, R50, R67,
R105, R126, R165; assumption 1). -/

namespace Sys2Proof.Machine

/-- The part never stops: the description gives no event that halts it, so no fault is raised. -/
inductive Fault
deriving DecidableEq, Repr

/-- Why a command has no meaning. -/
inductive Refusal where
  /-- Raised by an arm of `exec` for a command that the model does not give a meaning yet. Safe: the run stops. -/
  | notModelled (mnemonic : String)
deriving DecidableEq, Repr

/-! ## Lines -/

/-- The line states, in the order of R1 (the order READ LINE reports, R181). -/
inductive LineState where
  | off | idle | answer | speed | signOn | command | waiting | connected | clearing | barred
deriving DecidableEq, Repr

/-- The active states of R1: the line has been answered and is in use by a caller. -/
def LineState.active : LineState → Bool
  | .answer | .speed | .signOn | .command | .waiting | .connected => true
  | .off | .idle | .clearing | .barred => false

/-- Health states of a line (R18). -/
inductive Health where
  | good | noisy | barred
deriving DecidableEq, Repr

/-- The speeds of R5. -/
inductive Speed where
  | b110 | b150 | b300 | b600 | b1200 | b2400
deriving DecidableEq, Repr

/-- Speed classes (R5). -/
inductive SpeedClass where
  | slow | medium | fast
deriving DecidableEq, Repr

/-- The causes of a clear or of a close, in the numbering of R181 (NONE is the absent value). -/
inductive Cause where
  | noCarrier | speedFailed | carrierLost | lineBarred | signOnTimeout | signOnFailed | logoff | idle | budget
  | accountHeld | groupReset | lineDisabled | userEnd | billingFault | abandoned | hostClose | hostFailed
  | hostRestart | noAnswer
deriving DecidableEq, Repr

/-- A character on serial data out: its code, the parity bit (true is a mark) and the stop bits (R8). -/
structure TxChar where
  code   : Code
  parity : Bool
  stops  : Nat
deriving DecidableEq, Repr

/-- What a line unit holds (R1), with the two facts R5 and R11 add: whether a measurement still waits for the input
to rest at mark, and the character in progress. A timer is running (true) or stopped. -/
structure LineUnit where
  state       : LineState := .off
  enabled     : Bool := false
  ringCount   : Nat := 0
  speed       : Option Speed := none
  attempts    : Nat := 0
  awaitMark   : Bool := false
  score       : Nat := 0
  health      : Health := .good
  cause       : Option Cause := none
  account     : Nat := 0
  input       : List Code := []
  partMsg     : List Code := []
  sending     : Option TxChar := none
  answerOut   : Bool := false
  ringGap     : Bool := false
  answerTimer : Bool := false
  speedWindow : Bool := false
  lineHit     : Bool := false
  guardTimer  : Bool := false
  quietTimer  : Bool := false
deriving DecidableEq, Repr

/-- Phases of the sign-on dialog (R49). -/
inductive Phase where
  | none | ident | pass | checking | handover
deriving DecidableEq, Repr

/-- The sign-on entry of a line (R49). -/
structure Dialog where
  phase      : Phase := .none
  field      : List Code := []
  identifier : Option Nat := Option.none
  fold       : Option Nat := Option.none
  attempts   : Nat := 0
  timer      : Bool := false
  counted    : Option Nat := Option.none
deriving DecidableEq, Repr

/-- The sign-on record a line keeps from its sign-on to its clear (R62, R67). -/
structure SignOnRecord where
  account  : Nat
  slot     : Nat
  effClass : Nat
deriving DecidableEq, Repr

/-- Session states (R68). -/
inductive SessionState where
  | live | held
deriving DecidableEq, Repr

/-- An entry of a session stack (R68). -/
structure Session where
  channel : ChanNo
  port    : Nat
  state   : SessionState
deriving DecidableEq, Repr

/-- Attention states (R67). -/
inductive Attention where
  | none | pending
deriving DecidableEq, Repr

/-- The line context of the session switch (R67). The stack's first entry is its bottom. -/
structure LineContext where
  signOn         : Option SignOnRecord := Option.none
  units          : Nat := 0
  stack          : List Session := []
  field          : List Code := []
  idleTimer      : Bool := false
  attention      : Attention := .none
  attentionTimer : Bool := false
  forwardTimer   : Bool := false
deriving DecidableEq, Repr

/-- All that three blocks hold for one line: the line unit, the sign-on controller and the session switch. -/
structure Line where
  unit   : LineUnit := {}
  dialog : Dialog := {}
  ctx    : LineContext := {}
deriving DecidableEq, Repr

/-! ## Sign-on controller -/

/-- A check on the controller's list (R58). -/
structure Check where
  line       : LineNo
  identifier : Nat
  fold       : Nat
deriving DecidableEq, Repr

/-- Budget states (R136); unset is the absent value. -/
inductive BudgetState where
  | normal | warned | grace | spent
deriving DecidableEq, Repr

/-- An entry of the presence table (R50). -/
structure Presence where
  count      : Nat := 0
  budget     : Option BudgetState := none
  graceTimer : Bool := false
deriving DecidableEq, Repr

/-! ## Rating unit -/

/-- The calendar (R105): weekday 0 to 6 and time of day in seconds. -/
structure Calendar where
  weekday : Nat := 0
  time    : Nat := 0
deriving DecidableEq, Repr

/-- The billing exceptions of a channel (R122), as a set. -/
structure Exceptions where
  unrated   : Bool := false
  saturate  : Bool := false
  estimated : Bool := false
deriving DecidableEq, Repr

/-- The kinds of billing exception, in the order of R181. -/
inductive ExceptionKind where
  | unrated | saturate | estimated
deriving DecidableEq, Repr

/-- A fault record (R123). -/
structure FaultRecord where
  kind    : ExceptionKind
  account : Nat
  port    : Option Nat
  time    : Calendar
deriving DecidableEq, Repr

/-- Rounding modes (R113). -/
inductive Rounding where
  | up | nearest | down
deriving DecidableEq, Repr

/-- Rounding indicators of SESSION END (R121). -/
inductive Indicator where
  | exact | up | down
deriving DecidableEq, Repr

/-- A switch point (R111). -/
structure SwitchPoint where
  minute : Nat
  period : Nat
deriving DecidableEq, Repr

/-- Day kinds (R109). -/
inductive DayKind where
  | workday | restday
deriving DecidableEq, Repr

/-- A tariff bank (R113). The 48 rates are ordered by channel, then speed class, then tariff period; an absent rate
is ABSENT. The values are those a newly initialised store gives (R105). -/
structure Bank where
  rates    : Vector (Option Nat) 48 := Vector.replicate 48 none
  minimum  : Vector Nat 4 := Vector.replicate 4 0
  percent  : Vector Nat 4 := Vector.replicate 4 100
  rounding : Rounding := .up
  workday  : List SwitchPoint := []
  restday  : List SwitchPoint := []
deriving DecidableEq, Repr

/-- A meter (R117). -/
structure Meter where
  channel    : ChanNo
  port       : Nat
  line       : LineNo
  slot       : Nat
  speedClass : SpeedClass
  effClass   : Nat
  period     : Nat := 0
  rate       : Nat := 0
  percent    : Nat := 0
  acc        : Nat := 0
  seconds    : Nat := 0
  units      : Nat := 0
  unposted   : Nat := 0
  estimated  : Bool := false
  saturated  : Bool := false
deriving DecidableEq, Repr

/-- Clock-source states (R105). -/
inductive ClockSource where
  | reference | fallback
deriving DecidableEq, Repr

/-- What the rating unit holds for the whole part (R105). Meters stand in ascending order of channel and then of
port; `standby` is the PENDING bank. -/
structure Rating where
  clock        : ClockSource := .reference
  steady       : Nat := 0
  billingTimer : Bool := true
  calendar     : Calendar := {}
  active       : Bank := {}
  standby      : Bank := {}
  armed        : Bool := false
  meters       : List Meter := []
deriving DecidableEq, Repr

/-! ## Channels -/

/-- Port states (R87). -/
inductive PortState where
  | free | opening | bound | closing
deriving DecidableEq, Repr

/-- The flow state of a BOUND port (R69). -/
structure Flow where
  output   : List Code := []
  stopSent : Bool := false
  overrun  : Bool := false
  hostStop : Bool := false
deriving DecidableEq, Repr

/-- A port table entry (R87), with the flow state R69 gives a BOUND port. -/
structure Port where
  state   : PortState := .free
  circuit : Nat := 0
  line    : Option LineNo := none
  slot    : Option Nat := none
  cause   : Option Cause := none
  timer   : Bool := false
  flow    : Option Flow := none
deriving DecidableEq, Repr

/-- A wait-queue entry (R91). -/
structure WaitEntry where
  line     : LineNo
  slot     : Nat
  effClass : Nat
  timer    : Bool := true
deriving DecidableEq, Repr

/-- The indications that the part sends with its data blocks (R81, R82). -/
inductive Indication where
  | stop | start | overrun
deriving DecidableEq, Repr

/-- A data block from the part to a computer (R178, R81 to R84). -/
structure DataBlock where
  port    : Nat
  stop    : Bool := false
  start   : Bool := false
  overrun : Bool := false
  brk     : Bool := false
  chars   : List Code := []
deriving DecidableEq, Repr

/-- Reply outcome codes, in the numbering of R178. -/
inductive Outcome where
  | done | busy | noRight | notFound | exists_ | full | stale | inUse | badOrder | badValue | wrongState
  | faultPending | gone | saturated
deriving DecidableEq, Repr

/-- A reply (R178): outcome, the sequence number of its order, body. -/
structure Reply where
  outcome : Outcome
  seq     : BitVec 16
  body    : List Byte
deriving DecidableEq, Repr

/-- Notice kinds, in the numbering of R178. -/
inductive NoticeKind where
  | circuitRequest | circuitClosed | sessionEnd | held | resumed | lineNoisy | lineGood | lineBarred | lineRestored
  | accountSuspended | budgetState | tariffApplied | periodClosed | clockState | billingFault | detached
deriving DecidableEq, Repr

/-- A notice (R178): kind, the line concerned if any, body. -/
structure Notice where
  kind : NoticeKind
  line : Option LineNo
  body : List Byte
deriving DecidableEq, Repr

/-- A record the link takes from the part. -/
inductive LinkRecord where
  | reply (r : Reply)
  | notice (n : Notice)
  | data (b : DataBlock)
deriving DecidableEq, Repr

/-- An order in an order queue (R171): its code, the header fields, the bytes kept of its body, and the length of
the frame it came in (R179 judges the length when the order's turn comes). -/
structure Order where
  code     : Byte
  seq      : BitVec 16
  bodyLen  : BitVec 16
  body     : List Byte
  frameLen : Nat
deriving DecidableEq, Repr

/-- Channel states (R165). -/
inductive ChanState where
  | down | up | quiescing | failed
deriving DecidableEq, Repr

/-- Attach parameters (R165). -/
structure AttachParams where
  portCount : Nat
  minClass  : Nat
  base      : Nat
deriving DecidableEq, Repr

/-- What is held for one channel: by the channel unit (R165), by the session switch (R87, R91) and by the rating
unit (R105). -/
structure Channel where
  state          : ChanState := .down
  name           : Option (List Code) := none
  params         : Option AttachParams := none
  orders         : List Order := []
  reply          : Option Reply := none
  busy           : List Reply := []
  notices        : List Notice := []
  lost           : Bool := false
  silence        : Bool := false
  dataOut        : List DataBlock := []
  linkOut        : Option LinkRecord := none
  ports          : List Port := []
  queue          : List WaitEntry := []
  masks          : Exceptions := {}
  sticky         : Exceptions := {}
  faults         : List FaultRecord := []
  moreFaults     : Bool := false
  faultPending   : Bool := false
  fallbackRaised : Bool := false
deriving DecidableEq, Repr

/-! ## Charge cache -/

/-- States of a cache entry (R126). -/
inductive EntryState where
  | free | gathering | writing
deriving DecidableEq, Repr

/-- A cache entry (R126). -/
structure Entry where
  slot     : Option Nat := none
  pending  : Nat := 0
  state    : EntryState := .free
  snapshot : Nat := 0
  evicted  : Bool := false
deriving DecidableEq, Repr

/-- A CHARGE order that waits in an item (R128, R129). -/
structure ChargeWait where
  channel : ChanNo
  amount  : Nat
deriving DecidableEq, Repr

/-- An item of the waiting list (R128). The meters of an item are the open meters of its slot that hold unposted
units; each holds its own. -/
structure Item where
  slot    : Nat
  closed  : Vector Nat 4 := Vector.replicate 4 0
  charges : List ChargeWait := []
deriving DecidableEq, Repr

/-- A member of a flush set (R132): `again` says that the entry was WRITING when the FLUSH was taken, so that the
write-back then in progress does not take it out of the set. -/
structure FlushMember where
  entry : Fin 32
  again : Bool
deriving DecidableEq, Repr

/-- The charge cache (R126), but for the dirty marker, which is retained. -/
structure Cache where
  entries    : Vector Entry 32 := Vector.replicate 32 {}
  recency    : List (Fin 32) := []
  queue      : List (Fin 32) := []
  waiting    : List Item := []
  evicting   : Bool := false
  flush      : Vector (Option (List FlushMember)) 4 := Vector.replicate 4 none
  restarting : Bool := false
deriving DecidableEq, Repr

/-! ## Account store -/

/-- Account states, in the numbering of R180. -/
inductive AccountState where
  | active | suspended | held
deriving DecidableEq, Repr

/-- An account record (R30). Bit c of the host set is channel c. -/
structure Record where
  number     : Nat
  state      : AccountState
  passCheck  : Nat
  cls        : Nat
  homeHost   : Option ChanNo
  hostSet    : BitVec 4
  budget     : Option Nat
  limit      : Nat
  used       : Nat
  previous   : Nat
  stamp      : Nat
  failures   : Nat
  lastSignOn : Option Calendar
  revision   : Nat
deriving DecidableEq, Repr

/-- Rights of a channel on an account number, in the numbering of R42. -/
inductive Right where
  | none | charge | edit | both
deriving DecidableEq, Repr

/-- A rights window (R43); the values are those of R28. -/
structure Window where
  base  : Nat := 0
  exp   : Nat := 16
  right : Right := .none
deriving DecidableEq, Repr

/-- The retained configuration of a channel (R41). -/
structure ChanConfig where
  windows  : Vector Window 4 := Vector.replicate 4 {}
  default  : Right := .none
  operator : Bool := false
deriving DecidableEq, Repr

/-- Parity settings, in the numbering of R42. -/
inductive Parity where
  | even | odd | none
deriving DecidableEq, Repr

/-- The retained configuration of a line group (R23). Bit i of `enables` is the configured enable of the group's
line i. -/
structure GroupConfig where
  enables   : BitVec 8 := 0
  classCap  : Nat := 3
  parity    : Parity := .none
  attention : Code := 29
  ringCount : Nat := 1
deriving DecidableEq, Repr

/-- Period states (R47). -/
inductive PeriodState where
  | opened | closing
deriving DecidableEq, Repr

/-- The retained store (R27). `records` lists the occupied slots in ascending slot order; `directory` lists number
and slot in ascending number order (R34). -/
structure Store where
  records      : List (Nat × Record) := []
  directory    : List (Nat × Nat) := []
  chanConfig   : Vector ChanConfig 4 := Vector.replicate 4 {}
  groupConfig  : Vector GroupConfig 8 := Vector.replicate 8 {}
  banner       : List Code := []
  periodNumber : Nat := 0
  periodState  : PeriodState := .opened
  rollIndex    : Nat := 4096
  chargesLost  : Bool := false
  initialised  : Bool := true
  validityMark : Bool := true
deriving DecidableEq, Repr

/-- The seven requesters of the store, in the cyclic order of R38. -/
inductive Requester where
  | signOn
  | writeBack
  | roll
  | chan (c : ChanNo)
deriving DecidableEq, Repr

/-- The writes an access makes to the record slots and the directory, which take effect when it completes (R36). -/
inductive StoreWrite where
  | nothing
  | put (slot : Nat) (r : Record)
  | insert (slot : Nat) (r : Record)
  | remove (slot number : Nat)
deriving DecidableEq, Repr

/-- The outcome of a sign-on check (R59). A success carries what the controller uses afterwards (R62, R63). -/
inductive CheckOutcome where
  | refused
  | tooMany
  | exhausted
  | success (account slot cls : Nat) (home : Option ChanNo) (warned : Bool)
deriving DecidableEq, Repr

/-- What goes to the requester when an access completes (R36). -/
inductive AccessResult where
  /-- The reply is discarded: the channel entered FAILED while the access was in progress (R39). -/
  | discarded (c : ChanNo)
  /-- The access has completed and its result has been taken; the arbiter chooses the next access. -/
  | taken
  /-- A sign-on check: `suspended` carries the account number and the new revision when the check suspended the
  account (R60); `cleared` says that the line's clear was applied meanwhile (R64). -/
  | check (line : LineNo) (outcome : CheckOutcome) (suspended : Option (Nat × Nat)) (cleared : Bool)
  | writeBack (entry : Fin 32)
  /-- A write-back that found its entry gone from the queue (R158). -/
  | writeBackVoid
  | roll (slot : Nat)
  /-- The reply of the channel's order in execution. -/
  | reply (c : ChanNo) (outcome : Outcome) (body : List Byte)
  /-- A CHARGE that waits in an item: its reply is built when it posts (R129). -/
  | chargeWaits (c : ChanNo)
deriving DecidableEq, Repr

/-- The access in progress (R36). -/
structure Access where
  who    : Requester
  write  : StoreWrite
  result : AccessResult
deriving DecidableEq, Repr

/-- The store arbiter (R37, R38): the access in progress, and what each requester has waiting. The sign-on
controller's waiting access is the check at the head of its list; a channel's is that of its order in execution; a
write-back names the entry and the slot of the account it was offered for, no slot once a DELETE of that account has
been served (R158). -/
structure Arbiter where
  current   : Option Access := none
  signOn    : Bool := false
  writeBack : Option (Fin 32 × Option Nat) := none
  roll      : Option Nat := none
  chans     : Vector Bool 4 := Vector.replicate 4 false
deriving DecidableEq, Repr

/-! ## The whole part -/

/-- Causes of a full reset, in the numbering of R181. -/
inductive ResetCause where
  | power | resetInput | restart
deriving DecidableEq, Repr

/-- The state of the part, and the queue of the commands that wait for it. -/
structure State where
  lines       : Vector Line 64 := Vector.replicate 64 {}
  checks      : List Check := []
  presence    : List (Nat × Presence) := []
  channels    : Vector Channel 4 := Vector.replicate 4 {}
  rating      : Rating := {}
  cache       : Cache := {}
  dirtyMarker : Bool := false
  store       : Store := {}
  arbiter     : Arbiter := {}
  resetCause  : ResetCause := .power
  setup       : Bool := false
  powered     : Bool := true
  pending     : List Instr := []
deriving DecidableEq, Repr

/-- The part right after its first power-up: the store found not valid and initialised, the installation switch off,
the reference clock present (assumption 1). -/
def State.reset : State := {}

end Sys2Proof.Machine
end

