-- ==== Sys2Proof/Machine/Flags.lean ====
section
/-! DEFINITION. The computations of states, flags and figures that need no more than their operands: health, speed,
parity, rights, budget states, tariff periods, rounding, the pass fold and the revision count. -/

namespace Sys2Proof.Machine

/-! ## Line units -/

/-- The window a measured low interval falls in, in microseconds (R5). -/
def speedOf (micros : Nat) : Option Speed :=
  if 8000 ≤ micros ∧ micros ≤ 10182 then some .b110
  else if 5867 ≤ micros ∧ micros ≤ 7467 then some .b150
  else if 2933 ≤ micros ∧ micros ≤ 3733 then some .b300
  else if 1467 ≤ micros ∧ micros ≤ 1867 then some .b600
  else if 733 ≤ micros ∧ micros ≤ 933 then some .b1200
  else if 367 ≤ micros ∧ micros ≤ 467 then some .b2400
  else none

/-- The speed class of a speed (R5). -/
def Speed.cls : Speed → SpeedClass
  | .b110 | .b150 | .b300 => .slow
  | .b600 | .b1200 => .medium
  | .b2400 => .fast

/-- Stop bits sent at a speed (R8). -/
def Speed.stops : Speed → Nat
  | .b110 => 2
  | .b150 | .b300 | .b600 | .b1200 | .b2400 => 1

/-- Whether a code holds an odd number of ones. -/
def oddOnes (c : Code) : Bool := (List.range 7).foldl (fun b i => b ^^ c.getLsbD i) false

/-- The parity bit sent with a code (R8); a mark is true. -/
def parityBit (p : Parity) (c : Code) : Bool :=
  match p with
  | .even => oddOnes c
  | .odd => !oddOnes c
  | .none => true

/-- Whether a received character passes the parity check (R8). -/
def parityOk (p : Parity) (c : Code) (bit : Bool) : Bool :=
  match p with
  | .even | .odd => bit == parityBit p c
  | .none => true

/-- The health state after a change of the score (R18). -/
def healthAfter (h : Health) (score : Nat) : Health :=
  match h with
  | .barred => .barred
  | .good => if Config.barredAt ≤ score then .barred else if Config.noisyAt ≤ score then .noisy else .good
  | .noisy => if Config.barredAt ≤ score then .barred else if score < Config.goodBelow then .good else .noisy

/-- The notice of a change of health state (R18). -/
def healthNotice (old new : Health) : NoticeKind :=
  match old, new with
  | .barred, _ => .lineRestored
  | _, .barred => .lineBarred
  | _, .noisy => .lineNoisy
  | _, .good => .lineGood

/-! ## Sign-on -/

/-- The pass fold (R57). -/
def foldPass (cs : List Code) : Nat := cs.foldl (fun v c => (v * 31 + c.toNat) % 16777216) 0

/-- The value of a field of decimal digits. -/
def digitsValue (cs : List Code) : Nat := cs.foldl (fun v c => v * 10 + (c.toNat - 48)) 0

/-! ## Rights -/

/-- Whether a window covers an account number (R43). -/
def Window.covers (w : Window) (n : Nat) : Bool := n / 2 ^ w.exp = w.base / 2 ^ w.exp

/-- The right of a channel's windows on an account number: the first window that covers it, else the default (R44). -/
def ChanConfig.right (g : ChanConfig) (n : Nat) : Right :=
  match g.windows.toList.find? (fun w => w.covers n) with
  | some w => w.right
  | none => g.default

/-- CHARGE or BOTH. -/
def Right.charges : Right → Bool
  | .charge | .both => true
  | .none | .edit => false

/-- EDIT or BOTH. -/
def Right.edits : Right → Bool
  | .edit | .both => true
  | .none | .charge => false

/-- The right of channel `c` on account number `n`: BOTH in SETUP (R45), else by its windows (R44). -/
def State.right (s : State) (c : ChanNo) (n : Nat) : Right :=
  if s.setup then .both else (s.store.chanConfig.get c).right n

/-- Whether channel `c` has the operator right (R45). -/
def State.operator (s : State) (c : ChanNo) : Bool := s.setup || (s.store.chanConfig.get c).operator

/-! ## Budgets -/

/-- The budget state a recompute sets (R136). -/
def budgetStateFor (total : Nat) (budget : Option Nat) (presence : Nat) (old : Option BudgetState) : BudgetState :=
  match budget with
  | none => .normal
  | some b =>
    if total < b then (if total * 10 < b * 9 then .normal else .warned)
    else match old with
      | some .grace => .grace
      | some .spent => .spent
      | some .normal | some .warned | none => if 0 < presence then .grace else .spent

/-- How a total stands against a budget: 0 BELOW, 1 EQUAL, 2 ABOVE, 3 UNORDERED (R161). -/
def budgetComparison (total : Nat) : Option Nat → Nat
  | none => 3
  | some b => if total < b then 0 else if total = b then 1 else 2

/-- Sign-on test 5: the budget is absent or the total is below it (R59). -/
def budgetAllows (total : Nat) : Option Nat → Bool
  | none => true
  | some b => total < b

/-! ## Calendar and tariff -/

/-- The calendar one second later (R109). -/
def Calendar.tick (c : Calendar) : Calendar :=
  if c.time + 1 < Config.daySeconds then { c with time := c.time + 1 }
  else { weekday := if c.weekday < 6 then c.weekday + 1 else 0, time := 0 }

/-- The day kind of a weekday (R109). -/
def Calendar.dayKind (c : Calendar) : DayKind := if c.weekday < 5 then .workday else .restday

/-- The switch list of a day kind. -/
def Bank.switchList (b : Bank) : DayKind → List SwitchPoint
  | .workday => b.workday
  | .restday => b.restday

/-- The tariff period that a switch list gives at a minute (R111). -/
def periodAt (points : List SwitchPoint) (minute : Nat) : Nat :=
  match (points.filter fun p => p.minute ≤ minute).getLast? with
  | some p => p.period
  | none => (points.getLast?.map (·.period)).getD 0

/-- The tariff period in force: that of the ACTIVE bank (R111). -/
def Rating.period (r : Rating) : Nat :=
  periodAt (r.active.switchList r.calendar.dayKind) (r.calendar.time / 60)

/-- Whether the calendar stands at a tariff boundary: time of day 0, or the start of a minute that is a switch point
of the list in force (R112). -/
def Rating.atBoundary (r : Rating) : Bool :=
  r.calendar.time = 0 ||
    (r.calendar.time % 60 = 0 &&
      (r.active.switchList r.calendar.dayKind).any fun p => p.minute = r.calendar.time / 60)

/-- Place of a rate among the 48: by channel, then speed class, then tariff period (R181). -/
def rateIndex (c : ChanNo) (k : SpeedClass) (period : Nat) : Nat :=
  c.val * 12 + (match k with | .slow => 0 | .medium => 1 | .fast => 2) * 4 + period

/-- The rate of a bank; an absent value is ABSENT. -/
def Bank.rate (b : Bank) (c : ChanNo) (k : SpeedClass) (period : Nat) : Option Nat :=
  (b.rates[rateIndex c k period]?).join

/-- The class percentage of a bank. -/
def Bank.classPercent (b : Bank) (cls : Nat) : Nat := (b.percent[cls]?).getD 0

/-- Extra units and rounding indicator for a residue (R121). -/
def roundResidue (mode : Rounding) (acc : Nat) : Nat × Indicator :=
  if acc = 0 then (0, .exact)
  else match mode with
    | .down => (0, .down)
    | .up => (1, .up)
    | .nearest => if Config.halfUnit ≤ acc then (1, .up) else (0, .down)

/-! ## Records -/

/-- Raise a revision by a count of changed settings, wrapping from 65535 to 0 (R32). -/
def bumpRevision (rev changes : Nat) : Nat := (rev + changes) % 65536

/-- Add to a count of units that stops at its maximum (R67). -/
def addUnits (a b : Nat) : Nat := min (a + b) Config.unitMax

end Sys2Proof.Machine
end

