-- ==== Sys2Proof/Machine/Ops.lean ====
section
/-! DEFINITION. The named operations on the state that every block uses: reading and writing the tables, placing text
for a terminal, and queueing records for a computer. -/

namespace Sys2Proof.Machine

/-! ## Tables by slot or number: a list of key and value, keys strictly rising -/

/-- The value listed for a key. -/
def tabGet {α : Type} (k : Nat) : List (Nat × α) → Option α
  | [] => none
  | (j, a) :: t => if j = k then some a else tabGet k t

/-- List `a` for key `k`, in its place. -/
def tabPut {α : Type} (k : Nat) (a : α) : List (Nat × α) → List (Nat × α)
  | [] => [(k, a)]
  | (j, b) :: t => if k < j then (k, a) :: (j, b) :: t else if k = j then (k, a) :: t else (j, b) :: tabPut k a t

/-- List nothing for key `k`. -/
def tabErase {α : Type} (k : Nat) (t : List (Nat × α)) : List (Nat × α) :=
  t.filter fun e => e.1 != k

/-- The keys rise strictly. -/
def tabWf {α : Type} (t : List (Nat × α)) : Prop := t.Pairwise fun a b => a.1 < b.1

/-- The lowest key from `n` on that a rising table does not list (R29: the lowest-numbered free slot). -/
def lowestFree {α : Type} : Nat → List (Nat × α) → Nat
  | n, [] => n
  | n, (k, _) :: t => if k = n then lowestFree (n + 1) t else n

/-! ## Lines -/

/-- What the part holds for line `l`. -/
def State.line (s : State) (l : LineNo) : Line := s.lines.get l

def State.setLine (s : State) (l : LineNo) (x : Line) : State := { s with lines := s.lines.set l x }

/-- The line unit of line `l`. -/
def State.unit (s : State) (l : LineNo) : LineUnit := (s.line l).unit
/-- The sign-on entry of line `l`. -/
def State.dialog (s : State) (l : LineNo) : Dialog := (s.line l).dialog
/-- The line context of line `l`. -/
def State.ctx (s : State) (l : LineNo) : LineContext := (s.line l).ctx

def State.modUnit (s : State) (l : LineNo) (f : LineUnit → LineUnit) : State :=
  s.setLine l { s.line l with unit := f (s.unit l) }
def State.modDialog (s : State) (l : LineNo) (f : Dialog → Dialog) : State :=
  s.setLine l { s.line l with dialog := f (s.dialog l) }
def State.modCtx (s : State) (l : LineNo) (f : LineContext → LineContext) : State :=
  s.setLine l { s.line l with ctx := f (s.ctx l) }

/-- The lines in ascending order. -/
def allLines : List LineNo := List.finRange 64

/-- Line group of a line (00_scope: group g holds lines 8g to 8g+7). -/
def groupOf (l : LineNo) : Fin 8 := ⟨l.val / 8, by omega⟩

/-- The line-group settings of a line (R23). -/
def State.group (s : State) (l : LineNo) : GroupConfig := s.store.groupConfig.get (groupOf l)

/-- The configured enable of a line (R42: line 8g + i at weight 2^i). -/
def Store.configuredEnable (st : Store) (l : LineNo) : Bool :=
  (st.groupConfig.get (groupOf l)).enables.getLsbD (l.val % 8)

/-! ## Channels -/

def State.chan (s : State) (c : ChanNo) : Channel := s.channels.get c

def State.setChan (s : State) (c : ChanNo) (x : Channel) : State := { s with channels := s.channels.set c x }

def State.modChan (s : State) (c : ChanNo) (f : Channel → Channel) : State := s.setChan c (f (s.chan c))

/-- The channels in ascending order. -/
def allChans : List ChanNo := [0, 1, 2, 3]

/-- Port `p` of channel `c`, where the channel has that many ports. -/
def State.port? (s : State) (c : ChanNo) (p : Nat) : Option Port := (s.chan c).ports[p]?

def State.modPort (s : State) (c : ChanNo) (p : Nat) (f : Port → Port) : State :=
  match s.port? c p with
  | some x => s.modChan c fun ch => { ch with ports := ch.ports.set p (f x) }
  | none => s

/-- The circuit id of a port (R88), 0 where there is no such port. -/
def State.circuit (s : State) (c : ChanNo) (p : Nat) : Nat := ((s.port? c p).map (·.circuit)).getD 0

/-- The ports of a channel in a given state that name line `l`, ascending. -/
def State.portsFor (s : State) (c : ChanNo) (st : PortState) (l : LineNo) : List Nat :=
  (List.range (s.chan c).ports.length).filter fun p =>
    match s.port? c p with
    | some x => x.state = st ∧ x.line = some l
    | none => false

/-! ## Account records and presence -/

/-- The record in a slot, as the last completed access left it (R36). -/
def State.recordAt (s : State) (slot : Nat) : Option Record := tabGet slot s.store.records

/-- The directory lookup of R34. -/
def State.lookup (s : State) (number : Nat) : Option Nat := tabGet number s.store.directory

/-- The account number of the record in a slot, 0 ("no account") for a free slot. -/
def State.accountOf (s : State) (slot : Nat) : Nat := ((s.recordAt slot).map (·.number)).getD 0

def State.presenceOf (s : State) (slot : Nat) : Presence := (tabGet slot s.presence).getD {}

/-- Write a presence entry; an entry at its reset value is not listed. -/
def State.setPresence (s : State) (slot : Nat) (p : Presence) : State :=
  { s with presence := if p = {} then tabErase slot s.presence else tabPut slot p s.presence }

/-- The presence table keeps its form: slots rise and no entry at its reset value is listed. -/
def presenceWf (t : List (Nat × Presence)) : Prop := tabWf t ∧ ∀ e ∈ t, e.2 ≠ {}

/-- The lines signed on with the account in a slot (R50), ascending. -/
def State.signedOn (s : State) (slot : Nat) : List LineNo :=
  allLines.filter fun l => (s.dialog l).counted = some slot

/-! ## The other blocks -/

def State.modRating (s : State) (f : Rating → Rating) : State := { s with rating := f s.rating }

def State.modStore (s : State) (f : Store → Store) : State := { s with store := f s.store }

def State.modArbiter (s : State) (f : Arbiter → Arbiter) : State := { s with arbiter := f s.arbiter }

/-- Whether charges are held unwritten: an entry has pending above 0, or the waiting list is not empty (R133). -/
def Cache.holds (c : Cache) : Bool := c.entries.toList.any (fun e => 0 < e.pending) || !c.waiting.isEmpty

/-- Change the charge cache; the dirty marker follows it (R133). -/
def State.modCache (s : State) (f : Cache → Cache) : State :=
  { s with cache := f s.cache, dirtyMarker := (f s.cache).holds }

def State.entry (s : State) (e : Fin 32) : Entry := s.cache.entries.get e

def State.modEntry (s : State) (e : Fin 32) (f : Entry → Entry) : State :=
  s.modCache fun c => { c with entries := c.entries.set e (f (c.entries.get e)) }

/-- The entry of an account, if the cache holds one (R126). -/
def State.entryOf (s : State) (slot : Nat) : Option (Fin 32) :=
  (List.finRange 32).find? fun e => (s.entry e).slot = some slot

/-- An account's pending (R126). -/
def State.pendingOf (s : State) (slot : Nat) : Nat :=
  match s.entryOf slot with
  | some e => (s.entry e).pending
  | none => 0

/-- The meter of a port, if it is open (R117). -/
def State.meter? (s : State) (c : ChanNo) (p : Nat) : Option Meter :=
  s.rating.meters.find? fun m => m.channel = c ∧ m.port = p

def State.modMeter (s : State) (c : ChanNo) (p : Nat) (f : Meter → Meter) : State :=
  s.modRating fun r =>
    { r with meters := r.meters.map fun m => if m.channel = c ∧ m.port = p then f m else m }

def State.removeMeter (s : State) (c : ChanNo) (p : Nat) : State :=
  s.modRating fun r => { r with meters := r.meters.filter fun m => !decide (m.channel = c ∧ m.port = p) }

/-- Place a new meter, in ascending order of channel and then of port. -/
def insertMeter (m : Meter) : List Meter → List Meter
  | [] => [m]
  | x :: t =>
    if m.channel < x.channel ∨ (m.channel = x.channel ∧ m.port < x.port) then m :: x :: t
    else x :: insertMeter m t

/-- Whether a meter of the account in a slot is open. -/
def State.meterOpen (s : State) (slot : Nat) : Bool := s.rating.meters.any fun m => m.slot = slot

/-- The open meters, by channel and port, in ascending order. -/
def State.meterKeys (s : State) : List (ChanNo × Nat) := s.rating.meters.map fun m => (m.channel, m.port)

/-! ## Text for a terminal -/

/-- A character by its code. -/
def charCode (n : Nat) : Code := BitVec.ofNat 7 n

/-- The codes of a text. -/
def text (t : String) : List Code := t.toList.map fun ch => charCode ch.toNat

/-- Codes 13 and 10, sent for a new line (R51). -/
def newLine : List Code := [13, 10]

/-- Bell, code 7. -/
def bell : List Code := [7]

/-- What rubs a character out on the screen (R54, R73). -/
def rubOut : List Code := [8, 32, 8]

/-- A number in decimal digits, without leading zeros and without commas (R51). -/
def decimal (n : Nat) : List Code := (Nat.toDigits 10 n).map fun ch => charCode ch.toNat

/-- The letter of a channel, A to D. -/
def hostLetter (c : ChanNo) : Code := charCode (65 + c.val)

/-- `HOST x` and what follows it. -/
def hostText (c : ChanNo) (rest : String) : List Code := text "HOST " ++ [hostLetter c] ++ text rest

/-- Place characters in a line's part-message buffer: those that fit are kept, the rest discarded (R11). -/
def State.place (s : State) (l : LineNo) (cs : List Code) : State :=
  s.modUnit l fun u => { u with partMsg := u.partMsg ++ cs.take (Config.partMsgCap - u.partMsg.length) }

/-- The command-mode prompt, a new line and `>` (R72). -/
def State.prompt (s : State) (l : LineNo) : State := s.place l (newLine ++ [62])

/-- A new line and a text. -/
def State.placeLine (s : State) (l : LineNo) (cs : List Code) : State := s.place l (newLine ++ cs)

/-- Text from another block, as R85 places it by the line state: with the prompt and the field typed so far in COMMAND,
alone in WAITING and CONNECTED, in SIGNON from CHECKING on, and in CLEARING until answer drops; a line in any other
state is shown nothing. -/
def State.showText (s : State) (l : LineNo) (cs : List Code) : State :=
  match (s.unit l).state with
  | .command => ((s.placeLine l cs).prompt l).place l (s.ctx l).field
  | .waiting | .connected => s.placeLine l cs
  | .signOn =>
    match (s.dialog l).phase with
    | .checking | .handover => s.placeLine l cs
    | .none | .ident | .pass => s
  | .clearing => if (s.unit l).guardTimer then s else s.placeLine l cs
  | .off | .idle | .answer | .speed | .barred => s

/-! ## Records for a computer -/

/-- A channel whose notice queue takes a notice, or that loses it (R173). -/
def Channel.noted (ch : Channel) (n : Notice) : Channel :=
  match ch.state with
  | .up | .quiescing =>
    if ch.notices.length < Config.noticeCap then { ch with notices := ch.notices ++ [n] } else { ch with lost := true }
  | .down | .failed => { ch with lost := true }

/-- Queue a notice to a channel (R173). -/
def State.queueNotice (s : State) (c : ChanNo) (n : Notice) : State := s.modChan c fun ch => ch.noted n

/-- Queue a notice to every channel of a list for which a test holds, as it stands when its turn comes. -/
def State.noticeWhere (s : State) (test : State → ChanNo → Bool) (n : Notice) : State :=
  allChans.foldl (fun t c => if test t c then t.queueNotice c n else t) s

/-- Queue a notice to every channel that is UP (R174). -/
def State.noticeToUp (s : State) (n : Notice) : State :=
  s.noticeWhere (fun t c => (t.chan c).state = .up) n

/-- A data block goes to the link's list of the channel, behind those that wait (assumption 10). -/
def State.queueData (s : State) (c : ChanNo) (b : DataBlock) : State :=
  s.modChan c fun ch => { ch with dataOut := ch.dataOut ++ [b] }

/-- A data block that waits for the link with characters for port `p`. -/
def DataBlock.ready (b : DataBlock) (p : Nat) : Bool := b.port = p && !b.chars.isEmpty

/-- A data block carries an indication. -/
def DataBlock.mark (b : DataBlock) : Indication → DataBlock
  | .stop => { b with stop := true }
  | .start => { b with start := true }
  | .overrun => { b with overrun := true }

/-- Whether a block says the opposite of an indication: STOP of START, START of STOP. -/
def DataBlock.opposes (b : DataBlock) : Indication → Bool
  | .stop => b.start
  | .start => b.stop
  | .overrun => false

/-- An indication for port `p` goes with the next waiting block that has characters for the port, and with none ready in
a block of its own (R81, R82). It does not overtake a waiting block for the port that says the opposite (assumption
10). -/
def withIndication (p : Nat) (i : Indication) : List DataBlock → List DataBlock
  | [] => [({ port := p } : DataBlock).mark i]
  | b :: bs =>
    if b.ready p && !(b :: bs).any (fun x => x.port = p && x.opposes i) then b.mark i :: bs
    else b :: withIndication p i bs

/-- The switch sends an indication for a port of a channel (R81, R82). -/
def State.indicate (s : State) (c : ChanNo) (p : Nat) (i : Indication) : State :=
  s.modChan c fun ch => { ch with dataOut := withIndication p i ch.dataOut }

/-- The order in execution is answered: its reply is built and waits for the link (R171). -/
def State.answer (s : State) (c : ChanNo) (o : Outcome) (body : List Byte) : State :=
  s.modChan c fun ch =>
    match ch.orders with
    | ord :: _ => { ch with reply := some { outcome := o, seq := ord.seq, body := body } }
    | [] => ch

end Sys2Proof.Machine
end

