-- ==== Sys2Proof/Machine/Operands.lean ====
section
/-! DEFINITION. The fields of an order frame: where R180 places them, which values are refused and which are clamped
(R42, R114, R153, R154, R167). A parser answers none where the order is refused BAD VALUE. -/

namespace Sys2Proof.Machine

/-- A number of several bytes, most significant byte first (R178). -/
def beNat (bs : List Byte) : Nat := bs.foldl (fun v b => v * 256 + b.toNat) 0

/-- The field of `n` bytes that begins at byte `i` of a body. -/
def bodyField (body : List Byte) (i n : Nat) : Nat := beNat ((body.drop i).take n)

/-- Code characters of a text field: the low seven digits. -/
def codesOf (bs : List Byte) : List Code := bs.map fun b => b.setWidth 7

/-- Whether every character of a text has a code of 32 to 126; the eighth digit of a byte does not count (R178). -/
def textOk (bs : List Byte) : Bool := (codesOf bs).all fun x => 32 ≤ x.toNat && x.toNat ≤ 126

/-- A channel number, if the value is one. -/
def chanOf (n : Nat) : Option ChanNo := if h : n < 4 then some ⟨n, h⟩ else none

/-- A line number, if the value is one. -/
def lineOf (n : Nat) : Option LineNo := if h : n < 64 then some ⟨n, h⟩ else none

/-! ## Account settings -/

/-- Home host byte: 255 absent, 4 to 254 refused (R180). -/
def homeHostOf (n : Nat) : Option (Option ChanNo) :=
  if n = 255 then some none else (chanOf n).map some

/-- Host set byte: channel c at weight 2^c, any higher weight refused (R180). -/
def hostSetOf (n : Nat) : Option (BitVec 4) := if n < 16 then some (BitVec.ofNat 4 n) else none

/-- Pass check: above 16,777,215 refused (R153). -/
def passCheckOf (n : Nat) : Option Nat := if n ≤ Config.unitMax then some n else none

/-- Class: above 3 stored as 3 (R153). -/
def clampClass (n : Nat) : Nat := min n 3

/-- Limit: 0 stored as 1, above 4 stored as 4 (R153). -/
def clampLimit (n : Nat) : Nat := max 1 (min n 4)

/-- Budget: 4,294,967,295 absent, other values above 16,777,215 clamped (R180). -/
def budgetOf (n : Nat) : Option Nat := if n = 4294967295 then none else some (min n Config.unitMax)

/-- State byte of an EDIT: ACTIVE or HELD, anything else refused (R180). -/
def editStateOf (n : Nat) : Option AccountState :=
  if n = 0 then some .active else if n = 2 then some .held else none

/-- The fields of an ADD, as given or clamped (R153). -/
structure AddFields where
  number    : Nat
  passCheck : Nat
  cls       : Nat
  home      : Option ChanNo
  hostSet   : BitVec 4
  budget    : Option Nat
  limit     : Nat
deriving DecidableEq, Repr

/-- Read the body of an ADD (R153, R180). -/
def parseAdd (b : List Byte) : Option AddFields :=
  let number := bodyField b 0 2
  if number = 0 then none
  else match passCheckOf (bodyField b 2 4), homeHostOf (bodyField b 7 1), hostSetOf (bodyField b 8 1) with
    | some pass, some home, some hosts =>
      some { number := number, passCheck := pass, cls := clampClass (bodyField b 6 1), home := home, hostSet := hosts,
             budget := budgetOf (bodyField b 9 4), limit := clampLimit (bodyField b 13 1) }
    | _, _, _ => none

/-- The fields of an EDIT: a setting that the change set does not name is absent (R154). -/
structure EditFields where
  number    : Nat
  revision  : Nat
  state     : Option AccountState
  passCheck : Option Nat
  cls       : Option Nat
  home      : Option (Option ChanNo)
  hostSet   : Option (BitVec 4)
  budget    : Option (Option Nat)
  limit     : Option Nat
deriving DecidableEq, Repr

/-- A field that is read only where it is named: absent and accepted where it is not (R180). -/
def named {α : Type} (isNamed : Bool) (value : Option α) : Option (Option α) :=
  if isNamed then value.map some else some none

/-- Read the body of an EDIT (R154, R180). Account number 0 is refused as in an ADD. -/
def parseEdit (b : List Byte) : Option EditFields :=
  if bodyField b 0 2 = 0 then none
  else
  let set : Byte := BitVec.ofNat 8 (bodyField b 4 1)
  match named (set.getLsbD 0) (editStateOf (bodyField b 5 1)), named (set.getLsbD 1) (passCheckOf (bodyField b 6 4)),
      named (set.getLsbD 3) (homeHostOf (bodyField b 11 1)), named (set.getLsbD 4) (hostSetOf (bodyField b 12 1)) with
  | some st, some pass, some home, some hosts =>
    some { number := bodyField b 0 2, revision := bodyField b 2 2, state := st, passCheck := pass,
           cls := if set.getLsbD 2 then some (clampClass (bodyField b 10 1)) else none,
           home := home, hostSet := hosts,
           budget := if set.getLsbD 5 then some (budgetOf (bodyField b 13 4)) else none,
           limit := if set.getLsbD 6 then some (clampLimit (bodyField b 17 1)) else none }
  | _, _, _, _ => none

/-! ## ATTACH -/

/-- The fields of an ATTACH (R167). -/
structure AttachFields where
  params : AttachParams
  masks  : Exceptions
  name   : List Code
deriving DecidableEq, Repr

/-- Read the body of an ATTACH (R167, R180). -/
def parseAttach (b : List Byte) : Option AttachFields :=
  let name := b.drop 6
  let masks : Byte := BitVec.ofNat 8 (bodyField b 4 1)
  if bodyField b 1 1 ≤ 3 ∧ textOk name then
    some { params := { portCount := min (bodyField b 0 1) Config.portCap, minClass := bodyField b 1 1,
                       base := bodyField b 2 2 },
           masks := { unrated := masks.getLsbD 0, saturate := masks.getLsbD 1, estimated := masks.getLsbD 2 },
           name := codesOf (name.take Config.nameCap) }
  else none

/-! ## Tariff items -/

/-- An item of a LOAD TARIFF, its value clamped as R114 and R180 state. -/
inductive TariffItem where
  | rate (c : ChanNo) (k : SpeedClass) (period : Nat) (value : Option Nat)
  | minimum (c : ChanNo) (value : Nat)
  | percent (cls : Nat) (value : Nat)
  | rounding (mode : Rounding)
  | switchList (day : DayKind) (points : List SwitchPoint)
deriving DecidableEq, Repr

def speedClassOf (n : Nat) : Option SpeedClass :=
  if n = 0 then some .slow else if n = 1 then some .medium else if n = 2 then some .fast else none

def roundingOf (n : Nat) : Option Rounding :=
  if n = 0 then some .up else if n = 1 then some .nearest else if n = 2 then some .down else none

def dayKindOf (n : Nat) : Option DayKind :=
  if n = 0 then some .workday else if n = 1 then some .restday else none

/-- A rate field: 65535 is ABSENT, 60,001 to 65,534 clamped to 60,000 (R180). -/
def rateOf (n : Nat) : Option Nat := if n = 65535 then none else some (min n 60000)

/-- Read `n` switch points and what follows them; none where they run past the end. -/
def parsePoints : Nat → List Byte → Option (List SwitchPoint × List Byte)
  | 0, bs => some ([], bs)
  | n + 1, hi :: lo :: p :: bs =>
    (parsePoints n bs).map fun r => ({ minute := beNat [hi, lo], period := p.toNat } :: r.1, r.2)
  | _ + 1, _ => none

/-- The points of a switch list stand in ascending minute order, no two on one minute (R111). -/
def ascending : List SwitchPoint → Bool
  | a :: b :: t => decide (a.minute < b.minute) && ascending (b :: t)
  | _ => true

/-- What a switch-list item may hold (R114). -/
def pointsOk (ps : List SwitchPoint) : Bool :=
  decide (ps.length ≤ 6) && ps.all (fun p => p.minute ≤ 1439 && p.period ≤ 3) && ascending ps

/-- Read one item and what follows it (R114, R180). -/
def parseItem : List Byte → Option (TariffItem × List Byte)
  | tag :: bs =>
    if tag = 1#8 then
      match bs with
      | c :: k :: p :: hi :: lo :: rest =>
        match chanOf c.toNat, speedClassOf k.toNat with
        | some c, some k =>
          if p.toNat ≤ 3 then some (.rate c k p.toNat (rateOf (beNat [hi, lo])), rest) else none
        | _, _ => none
      | _ => none
    else if tag = 2#8 then
      match bs with
      | c :: hi :: lo :: rest => (chanOf c.toNat).map fun c => (.minimum c (min (beNat [hi, lo]) 255), rest)
      | _ => none
    else if tag = 3#8 then
      match bs with
      | k :: v :: rest => if k.toNat ≤ 3 then some (.percent k.toNat (min v.toNat 250), rest) else none
      | _ => none
    else if tag = 4#8 then
      match bs with
      | m :: rest => (roundingOf m.toNat).map fun m => (.rounding m, rest)
      | _ => none
    else if tag = 5#8 then
      match bs with
      | d :: n :: rest =>
        match dayKindOf d.toNat, parsePoints n.toNat rest with
        | some d, some (ps, rest) => if pointsOk ps then some (.switchList d ps, rest) else none
        | _, _ => none
      | _ => none
    else none
  | [] => none

/-- Read the items of a LOAD TARIFF, end to end; every item is examined before anything is written (R114). -/
def parseItems : Nat → List Byte → Option (List TariffItem)
  | _, [] => some []
  | 0, _ :: _ => none
  | fuel + 1, b :: bs =>
    match parseItem (b :: bs) with
    | some (item, rest) => (parseItems fuel rest).map fun items => item :: items
    | none => none

/-- The items of a LOAD TARIFF body. Each item takes at least one byte, so the length of the body bounds their number. -/
def parseTariff (body : List Byte) : Option (List TariffItem) := parseItems body.length body

/-- Write one item to a bank (R114). -/
def Bank.write (b : Bank) : TariffItem → Bank
  | .rate c k p v => { b with rates := b.rates.setIfInBounds (rateIndex c k p) v }
  | .minimum c v => { b with minimum := b.minimum.set c v }
  | .percent k v => { b with percent := b.percent.setIfInBounds k v }
  | .rounding m => { b with rounding := m }
  | .switchList .workday ps => { b with workday := ps }
  | .switchList .restday ps => { b with restday := ps }

/-! ## Configuration items -/

def rightNumber : Right → Nat
  | .none => 0
  | .charge => 1
  | .edit => 2
  | .both => 3

def rightOfNumber (n : Nat) : Option Right :=
  if n = 0 then some .none else if n = 1 then some .charge else if n = 2 then some .edit
  else if n = 3 then some .both else none

def parityNumber : Parity → Nat
  | .even => 0
  | .odd => 1
  | .none => 2

def parityOfNumber (n : Nat) : Option Parity :=
  if n = 0 then some .even else if n = 1 then some .odd else if n = 2 then some .none else none

/-- Write field `r` (the item number less 16c) of a channel's configuration (R42). -/
def ChanConfig.write (g : ChanConfig) (r v : Nat) : Option ChanConfig :=
  if h : r < 12 then
    let i : Fin 4 := ⟨r / 3, by omega⟩
    let w := g.windows.get i
    if r % 3 = 0 then some { g with windows := g.windows.set i { w with base := v } }
    else if r % 3 = 1 then some { g with windows := g.windows.set i { w with exp := max 8 (min v 16) } }
    else (rightOfNumber v).map fun x => { g with windows := g.windows.set i { w with right := x } }
  else if r = 12 then (rightOfNumber v).map fun x => { g with default := x }
  else if r = 13 then (if v ≤ 1 then some { g with operator := v = 1 } else none)
  else none

/-- Read field `r` of a channel's configuration (R41); 0 for a number that is not an item (R181). -/
def ChanConfig.read (g : ChanConfig) (r : Nat) : Nat :=
  if h : r < 12 then
    let w := g.windows.get ⟨r / 3, by omega⟩
    if r % 3 = 0 then w.base else if r % 3 = 1 then w.exp else rightNumber w.right
  else if r = 12 then rightNumber g.default
  else if r = 13 then (if g.operator then 1 else 0)
  else 0

/-- Write field `r` (the item number less 64 + 8g) of a line group's configuration (R42). -/
def GroupConfig.write (g : GroupConfig) (r v : Nat) : Option GroupConfig :=
  if r = 0 then (if v ≤ 255 then some { g with enables := BitVec.ofNat 8 v } else none)
  else if r = 1 then (if v ≤ 3 then some { g with classCap := v } else none)
  else if r = 2 then (parityOfNumber v).map fun p => { g with parity := p }
  else if r = 3 then (if 1 ≤ v ∧ v ≤ 31 then some { g with attention := charCode v } else none)
  else if r = 4 then (if 1 ≤ v ∧ v ≤ 4 then some { g with ringCount := v } else none)
  else none

/-- Read field `r` of a line group's configuration; 0 for a number that is not an item. -/
def GroupConfig.read (g : GroupConfig) (r : Nat) : Nat :=
  if r = 0 then g.enables.toNat
  else if r = 1 then g.classCap
  else if r = 2 then parityNumber g.parity
  else if r = 3 then g.attention.toNat
  else if r = 4 then g.ringCount
  else 0

/-- Store a configuration item (R42); none where the item number or its value is refused. -/
def Store.writeItem (st : Store) (item v : Nat) : Option Store :=
  if h : item < 64 then
    let c : Fin 4 := ⟨item / 16, by omega⟩
    ((st.chanConfig.get c).write (item % 16) v).map fun g => { st with chanConfig := st.chanConfig.set c g }
  else if h : item < 128 then
    let i : Fin 8 := ⟨(item - 64) / 8, by omega⟩
    ((st.groupConfig.get i).write ((item - 64) % 8) v).map fun g => { st with groupConfig := st.groupConfig.set i g }
  else none

/-- A configuration item as stored; 0 for a number that is not an item (R181). -/
def Store.readItem (st : Store) (item : Nat) : Nat :=
  if h : item < 64 then (st.chanConfig.get ⟨item / 16, by omega⟩).read (item % 16)
  else if h : item < 128 then (st.groupConfig.get ⟨(item - 64) / 8, by omega⟩).read ((item - 64) % 8)
  else 0

end Sys2Proof.Machine
end

