-- ==== Sys2Proof/Machine/Records.lean ====
section
/-! DEFINITION. The bodies of replies and notices, and the numbers their fields are sent as (R178, R181). -/

namespace Sys2Proof.Machine

/-- A number in `k` bytes, most significant byte first (R178). -/
def bytesBE : Nat → Nat → List Byte
  | 0, _ => []
  | k + 1, v => BitVec.ofNat 8 (v / 256 ^ k) :: bytesBE k v

/-- A flag in a byte of its own: 1 for set, on or yes, 0 for clear, off or no. R181 says so of the initialised flag and the
enables; that the notices-lost flag, the armed flag and the answers of PROBE are sent so too is assumptions 51 and 25. -/
def flagByte (b : Bool) : List Byte := [if b then 1 else 0]

/-- A calendar: weekday, then the time of day in 3 bytes (R181). -/
def calendarBytes (c : Calendar) : List Byte := bytesBE 1 c.weekday ++ bytesBE 3 c.time

/-- A budget: 4 bytes, 4,294,967,295 for absent (R181). -/
def budgetBytes (b : Option Nat) : List Byte := bytesBE 4 (b.getD 4294967295)

def speedNumber : Speed → Nat
  | .b110 => 0
  | .b150 => 1
  | .b300 => 2
  | .b600 => 3
  | .b1200 => 4
  | .b2400 => 5

/-- The locked speed: its position, 255 for none (R181). -/
def speedByte (v : Option Speed) : List Byte := bytesBE 1 ((v.map speedNumber).getD 255)

def lineStateNumber : LineState → Nat
  | .off => 0
  | .idle => 1
  | .answer => 2
  | .speed => 3
  | .signOn => 4
  | .command => 5
  | .waiting => 6
  | .connected => 7
  | .clearing => 8
  | .barred => 9

def healthNumber : Health → Nat
  | .good => 0
  | .noisy => 1
  | .barred => 2

/-- The numbers of the close and clearing causes (R181). -/
def causeNumber : Cause → Nat
  | .noCarrier => 1
  | .speedFailed => 2
  | .carrierLost => 3
  | .lineBarred => 4
  | .signOnTimeout => 5
  | .signOnFailed => 6
  | .logoff => 7
  | .idle => 8
  | .budget => 9
  | .accountHeld => 10
  | .groupReset => 11
  | .lineDisabled => 12
  | .userEnd => 13
  | .billingFault => 14
  | .abandoned => 15
  | .hostClose => 16
  | .hostFailed => 17
  | .hostRestart => 18
  | .noAnswer => 19

def budgetStateNumber : BudgetState → Nat
  | .normal => 0
  | .warned => 1
  | .grace => 2
  | .spent => 3

def accountStateNumber : AccountState → Nat
  | .active => 0
  | .suspended => 1
  | .held => 2

def clockNumber : ClockSource → Nat
  | .reference => 0
  | .fallback => 1

def periodStateNumber : PeriodState → Nat
  | .opened => 0
  | .closing => 1

def roundingNumber : Rounding → Nat
  | .up => 0
  | .nearest => 1
  | .down => 2

def dayKindNumber : DayKind → Nat
  | .workday => 0
  | .restday => 1

def resetCauseNumber : ResetCause → Nat
  | .power => 0
  | .resetInput => 1
  | .restart => 2

def exceptionNumber : ExceptionKind → Nat
  | .unrated => 0
  | .saturate => 1
  | .estimated => 2

def indicatorNumber : Indicator → Nat
  | .exact => 0
  | .up => 1
  | .down => 2

/-- The outcome codes (R178). -/
def outcomeNumber : Outcome → Nat
  | .done => 0
  | .busy => 1
  | .noRight => 2
  | .notFound => 3
  | .exists_ => 4
  | .full => 5
  | .stale => 6
  | .inUse => 7
  | .badOrder => 8
  | .badValue => 9
  | .wrongState => 10
  | .faultPending => 11
  | .gone => 12
  | .saturated => 13

/-- The notice kinds (R178). -/
def noticeNumber : NoticeKind → Nat
  | .circuitRequest => 1
  | .circuitClosed => 2
  | .sessionEnd => 3
  | .held => 4
  | .resumed => 5
  | .lineNoisy => 6
  | .lineGood => 7
  | .lineBarred => 8
  | .lineRestored => 9
  | .accountSuspended => 10
  | .budgetState => 11
  | .tariffApplied => 12
  | .periodClosed => 13
  | .clockState => 14
  | .billingFault => 15
  | .detached => 16

/-! ## Notices: the fields in the order their rule lists them (R181, assumption 25) -/

/-- CIRCUIT REQUEST (R95). -/
def noticeCircuitRequest (port circuit : Nat) (l : LineNo) (account cls : Nat) (v : Option Speed) : Notice :=
  { kind := .circuitRequest, line := some l,
    body := bytesBE 1 port ++ bytesBE 2 circuit ++ bytesBE 1 l.val ++ bytesBE 2 account ++ bytesBE 1 cls ++ speedByte v }

/-- CIRCUIT CLOSED (R97, R98). -/
def noticeCircuitClosed (port circuit : Nat) (l : Option LineNo) (cause : Cause) : Notice :=
  { kind := .circuitClosed, line := l,
    body := bytesBE 1 port ++ bytesBE 2 circuit ++ bytesBE 1 ((l.map (·.val)).getD 255) ++
      bytesBE 1 (causeNumber cause) }

/-- HELD or RESUMED (R72, R76). -/
def noticeSession (kind : NoticeKind) (port circuit : Nat) (l : LineNo) : Notice :=
  { kind := kind, line := some l, body := bytesBE 1 port ++ bytesBE 2 circuit ++ bytesBE 1 l.val }

/-- LINE NOISY, LINE GOOD, LINE BARRED or LINE RESTORED (R18). -/
def noticeHealth (kind : NoticeKind) (l : LineNo) (h : Health) (score : Nat) : Notice :=
  { kind := kind, line := some l, body := bytesBE 1 l.val ++ bytesBE 1 (healthNumber h) ++ bytesBE 1 score }

/-- ACCOUNT SUSPENDED (R60). -/
def noticeSuspended (account : Nat) (l : LineNo) (revision : Nat) : Notice :=
  { kind := .accountSuspended, line := some l, body := bytesBE 2 account ++ bytesBE 1 l.val ++ bytesBE 2 revision }

/-- BUDGET STATE (R139). -/
def noticeBudget (account : Nat) (b : BudgetState) (total : Nat) (budget : Option Nat) : Notice :=
  { kind := .budgetState, line := none,
    body := bytesBE 2 account ++ bytesBE 1 (budgetStateNumber b) ++ bytesBE 3 total ++ budgetBytes budget }

/-- TARIFF APPLIED (R112). -/
def noticeTariffApplied (c : Calendar) : Notice := { kind := .tariffApplied, line := none, body := calendarBytes c }

/-- PERIOD CLOSED (R145). -/
def noticePeriodClosed (number : Nat) (c : Calendar) : Notice :=
  { kind := .periodClosed, line := none, body := bytesBE 2 number ++ calendarBytes c }

/-- CLOCK STATE (R107, R108). -/
def noticeClockState (k : ClockSource) (c : Calendar) : Notice :=
  { kind := .clockState, line := none, body := bytesBE 1 (clockNumber k) ++ calendarBytes c }

/-- BILLING FAULT (R124). It names no line, so that its header says 65535 for every exception (R178, assumption 45). -/
def noticeBillingFault : Notice := { kind := .billingFault, line := none, body := [] }

/-- DETACHED (R169). -/
def noticeDetached : Notice := { kind := .detached, line := none, body := [] }

/-- The flags byte of SESSION END (R181). -/
def sessionEndFlags (ind : Indicator) (minimum estimated saturated : Bool) : Nat :=
  indicatorNumber ind + (if minimum then 4 else 0) + (if estimated then 8 else 0) + (if saturated then 16 else 0)

/-- Units in three bytes (R181): the number itself where three bytes hold it, else free (assumption 44). -/
def unitBytes (units : Nat) : List Byte :=
  bytesBE 3 (if units ≤ Config.unitMax then units else (Config.freeUnits units).toNat)

/-- SESSION END (R121, R181). -/
def noticeSessionEnd (account : Nat) (l : LineNo) (c : ChanNo) (port circuit seconds units flags : Nat)
    (cause : Cause) : Notice :=
  { kind := .sessionEnd, line := some l,
    body := bytesBE 2 account ++ bytesBE 1 l.val ++ bytesBE 1 c.val ++ bytesBE 1 port ++ bytesBE 2 circuit ++
      bytesBE 4 (min seconds 4294967295) ++ unitBytes units ++ bytesBE 1 flags ++ bytesBE 1 (causeNumber cause) }

/-! ## Replies -/

/-- DONE to READ (R181). -/
def readBody (r : Record) (pending count : Nat) (b : BudgetState) : List Byte :=
  bytesBE 2 r.number ++ bytesBE 1 (accountStateNumber r.state) ++ bytesBE 3 r.passCheck ++ bytesBE 1 r.cls ++
  bytesBE 1 ((r.homeHost.map (·.val)).getD 255) ++ bytesBE 1 r.hostSet.toNat ++ budgetBytes r.budget ++
  bytesBE 1 r.limit ++ bytesBE 3 r.used ++ bytesBE 3 r.previous ++ bytesBE 2 r.stamp ++ bytesBE 1 r.failures ++
  bytesBE 1 ((r.lastSignOn.map (·.weekday)).getD 255) ++ bytesBE 3 ((r.lastSignOn.map (·.time)).getD 0) ++
  bytesBE 2 r.revision ++ bytesBE 3 pending ++ bytesBE 1 count ++ bytesBE 1 (budgetStateNumber b)

/-- DONE to READ LINE (R25, R181). -/
def readLineBody (u : LineUnit) (configured : Bool) : List Byte :=
  bytesBE 1 (lineStateNumber u.state) ++ flagByte u.enabled ++ flagByte configured ++ speedByte u.speed ++
  bytesBE 1 (healthNumber u.health) ++ bytesBE 1 u.score ++ bytesBE 1 ((u.cause.map causeNumber).getD 0) ++
  bytesBE 2 u.account

/-- DONE to ATTACH (R167, R181). -/
def attachBody (s : State) : List Byte :=
  bytesBE 1 (resetCauseNumber s.resetCause) ++
  bytesBE 1 ((if s.store.chargesLost then 1 else 0) + (if s.setup then 2 else 0)) ++
  bytesBE 2 s.store.periodNumber ++ bytesBE 1 (periodStateNumber s.store.periodState) ++
  bytesBE 1 (clockNumber s.rating.clock) ++ calendarBytes s.rating.calendar

/-- DONE to IDLE (R173, R181). The byte of the notices-lost flag is as assumption 51 says. -/
def idleBody (lost : Bool) (c : Calendar) : List Byte := flagByte lost ++ calendarBytes c

/-- One fault record of a SYNC reply (R181). -/
def faultBytes (f : FaultRecord) : List Byte :=
  bytesBE 1 (exceptionNumber f.kind) ++ bytesBE 2 f.account ++ bytesBE 1 (f.port.getD 255) ++ calendarBytes f.time

/-- DONE to SYNC (R125, R181). -/
def syncBody (ch : Channel) : List Byte :=
  bytesBE 1 ch.faults.length ++ ch.faults.flatMap faultBytes ++
  bytesBE 1 ((if ch.moreFaults then 1 else 0) + (if ch.sticky.unrated then 2 else 0) +
    (if ch.sticky.saturate then 4 else 0) + (if ch.sticky.estimated then 8 else 0))

/-- A switch list as in a switch-list item without its tag (R181). -/
def switchListBytes (d : DayKind) (ps : List SwitchPoint) : List Byte :=
  bytesBE 1 (dayKindNumber d) ++ bytesBE 1 ps.length ++ ps.flatMap fun p => bytesBE 2 p.minute ++ bytesBE 1 p.period

/-- DONE to READ TARIFF (R116, R181). The byte of the armed flag is as assumption 51 says. -/
def readTariffBody (b : Bank) (r : Rating) : List Byte :=
  b.rates.toList.flatMap (fun v => bytesBE 2 (v.getD 65535)) ++ b.minimum.toList.flatMap (bytesBE 2) ++
  b.percent.toList.flatMap (bytesBE 1) ++ bytesBE 1 (roundingNumber b.rounding) ++
  switchListBytes .workday b.workday ++ switchListBytes .restday b.restday ++
  flagByte r.armed ++ bytesBE 1 (clockNumber r.clock) ++ calendarBytes r.calendar ++
  bytesBE 1 (dayKindNumber r.calendar.dayKind) ++ bytesBE 1 r.period

/-- DONE to READ CONFIG (R41, R181). -/
def readConfigBody (st : Store) : List Byte :=
  (List.range 128).flatMap (fun i => bytesBE 2 (st.readItem i)) ++ flagByte st.initialised

/-- DONE or SATURATED to CHARGE: the prior total and the amount applied (R162). -/
def chargeBody (prior applied : Nat) : List Byte := bytesBE 3 prior ++ bytesBE 3 applied

/-! ## Frames the part sends (R178) -/

def indicationWeights (b : DataBlock) : Nat :=
  (if b.stop then 1 else 0) + (if b.start then 2 else 0) + (if b.overrun then 4 else 0) + (if b.brk then 8 else 0)

/-- The bytes of a record the link takes: the 6-byte header and the body. -/
def LinkRecord.frame : LinkRecord → List Byte
  | .reply r => bytesBE 1 2 ++ bytesBE 1 (outcomeNumber r.outcome) ++ bytesBE 2 r.seq.toNat ++
      bytesBE 2 r.body.length ++ r.body
  | .notice n => bytesBE 1 3 ++ bytesBE 1 (noticeNumber n.kind) ++ bytesBE 2 ((n.line.map (·.val)).getD 65535) ++
      bytesBE 2 n.body.length ++ n.body
  | .data b => bytesBE 1 4 ++ bytesBE 1 (indicationWeights b) ++ bytesBE 2 b.port ++
      bytesBE 2 b.chars.length ++ b.chars.map (·.setWidth 8)

end Sys2Proof.Machine
end

