-- ==== Sys2Proof/Machine/LineOps.lean ====
section
/-! DEFINITION. What the line unit does for the other blocks: the score and health state, the requests of R13, the
entry to command mode, and the circuits' small steps (opening, closing, flow) that several blocks share. -/

namespace Sys2Proof.Machine

/-- Set a line's score and its health state, and queue the notice of a change of health state (R18). -/
def State.setHealth (s : State) (l : LineNo) (score : Nat) (h : Health) : State :=
  let old := (s.unit l).health
  let t := s.modUnit l fun u => { u with score := score, health := h }
  if h = old then t else t.noticeToUp (noticeHealth (healthNotice old h) l h score)

/-- Change the score to a new value; the health state follows with hysteresis (R17, R18). Being BARRED by it is acted
on by the caller of this operation (R19). -/
def State.changeScore (s : State) (l : LineNo) (score : Nat) : State :=
  s.setHealth l score (healthAfter (s.unit l).health score)

/-- Raise the score, up to 255 (R17). -/
def State.raiseScore (s : State) (l : LineNo) (n : Nat) : State :=
  s.changeScore l (min ((s.unit l).score + n) Config.scoreMax)

/-- Lower the score, down to 0 (R17). -/
def State.lowerScore (s : State) (l : LineNo) (n : Nat) : State := s.changeScore l ((s.unit l).score - n)

/-! ## Requests of R13 and command mode -/

/-- The line enters command mode: the command field is emptied, the idle timer started, the prompt placed (R72). -/
def State.enterPrompt (s : State) (l : LineNo) : State :=
  (s.modCtx l fun x => { x with field := [], idleTimer := true }).prompt l

/-- Leaving COMMAND for another state: the idle timer stops and the command field is emptied (R72). -/
def State.leavePrompt (s : State) (l : LineNo) : State :=
  s.modCtx l fun x => { x with field := [], idleTimer := false }

/-- The request "to command mode", taken in WAITING and CONNECTED (R13), with the entry of R72. -/
def State.toCommand (s : State) (l : LineNo) : State :=
  match (s.unit l).state with
  | .waiting | .connected => (s.modUnit l fun u => { u with state := .command }).enterPrompt l
  | _ => s

/-- The request "wait for port or accept", taken in COMMAND (R13). -/
def State.toWaiting (s : State) (l : LineNo) : State :=
  if (s.unit l).state = .command then (s.modUnit l fun u => { u with state := .waiting }).leavePrompt l else s

/-- The request "session live", taken in WAITING and COMMAND (R13). -/
def State.toConnected (s : State) (l : LineNo) : State :=
  match (s.unit l).state with
  | .waiting | .command => (s.modUnit l fun u => { u with state := .connected }).leavePrompt l
  | _ => s

/-- A sign-on complete request, taken in SIGNON: the account number is recorded, 8 taken from the score, and the new
state entered (R13). -/
def State.signOnComplete (s : State) (l : LineNo) (account : Nat) (new : LineState) : State :=
  if (s.unit l).state = .signOn then
    ((s.modUnit l fun u => { u with account := account }).lowerScore l 8).modUnit l fun u => { u with state := new }
  else s

/-- A line that waited returns to COMMAND with a text and the prompt. -/
def State.returnToCommand (s : State) (l : LineNo) (cs : List Code) : State := (s.showText l cs).toCommand l

/-! ## Line timers -/

/-- The line unit drops answer and starts the guard timer; what is left of the part messages is discarded (R15). -/
def State.startGuard (s : State) (l : LineNo) : State :=
  s.modUnit l fun u => { u with partMsg := [], answerOut := false, guardTimer := true }

/-- Where a clear or a BARRED spell ends: IDLE with the ring counter at 0, or OFF if the working enable is off (R16,
R20 to R22). -/
def LineUnit.rest (u : LineUnit) : LineUnit :=
  if u.enabled then { u with state := .idle, ringCount := 0 } else { u with state := .off }

/-! ## Circuits -/

/-- The LIVE session of a line in CONNECTED: the top of its stack (R68). -/
def State.liveSession (s : State) (l : LineNo) : Option Session := (s.ctx l).stack.getLast?

/-- The flow state of a port, if it is BOUND (R69). -/
def State.flow? (s : State) (c : ChanNo) (p : Nat) : Option Flow := (s.port? c p).bind (·.flow)

def State.modFlow (s : State) (c : ChanNo) (p : Nat) (f : Flow → Flow) : State :=
  s.modPort c p fun x => { x with flow := x.flow.map f }

/-- Whether the computer has stopped a port's input (R69). -/
def State.hostStopped (s : State) (c : ChanNo) (p : Nat) : Bool := ((s.flow? c p).map (·.hostStop)).getD false

/-- Indications waiting for a port whose session is closed are not sent (R69); what a block holds of the caller's own
characters or break stays (assumption 10). -/
def dropIndications (p : Nat) (bs : List DataBlock) : List DataBlock :=
  (bs.map fun b => if b.port = p then { b with stop := false, start := false, overrun := false } else b).filter
    fun b => !(b.port = p && !b.brk && b.chars.isEmpty)

/-- Discard a port's flow state (R69). -/
def State.discardFlow (s : State) (c : ChanNo) (p : Nat) : State :=
  (s.modPort c p fun x => { x with flow := none }).modChan c fun ch => { ch with dataOut := dropIndications p ch.dataOut }

/-- Set a port CLOSING with its cause, start the close timer, and queue CIRCUIT CLOSED (R98). -/
def State.portClosing (s : State) (c : ChanNo) (p : Nat) (cause : Cause) : State :=
  match s.port? c p with
  | some x =>
    (s.modPort c p fun x => { x with state := .closing, cause := some cause, timer := true, flow := none }).queueNotice c
      (noticeCircuitClosed p x.circuit x.line cause)
  | none => s

/-- Remove a line's entries from every wait queue (R91). -/
def State.leaveQueues (s : State) (l : LineNo) : State :=
  allChans.foldl (fun t c => t.modChan c fun ch => { ch with queue := ch.queue.filter fun w => w.line != l }) s

/-- Send every port in OPENING for a line to CLOSING (R86, R93, R101). -/
def State.closeOpenings (s : State) (l : LineNo) (cause : Cause) : State :=
  allChans.foldl (fun t c => (t.portsFor c .opening l).foldl (fun t p => t.portClosing c p cause) t) s

/-- Whether a line waits: in a wait queue, or with a port in OPENING. -/
def State.waits (s : State) (l : LineNo) : Bool :=
  allChans.any fun c => (s.chan c).queue.any (fun w => w.line = l) || !(s.portsFor c .opening l).isEmpty

end Sys2Proof.Machine
end

