-- ==== Sys2Proof/Machine/Budget.lean ====
section
/-! DEFINITION. Budget states: the total, the recompute and what a change of state does (R136 to R141). -/

namespace Sys2Proof.Machine

/-- The record the budget comparison of an account reads: what an EDIT or a roll access in progress writes to it, else
the record as the last completed access left it (R127, R147, R149; assumption 17). A write-back in progress is not read
through, because its units are still in pending. -/
def State.budgetRecord (s : State) (slot : Nat) : Option Record :=
  match s.arbiter.current with
  | some { who := .writeBack, .. } => s.recordAt slot
  | some { write := .put k r, .. } => if k = slot then some r else s.recordAt slot
  | _ => s.recordAt slot

/-- An account's total: used plus pending (R126). -/
def State.total (s : State) (slot : Nat) : Nat :=
  ((s.budgetRecord slot).map (·.used)).getD 0 + s.pendingOf slot

/-- The units an account has room for: 16,777,215 less used, as the last completed access left it, plus pending
(R127). -/
def State.room (s : State) (slot : Nat) : Nat :=
  Config.unitMax - (((s.recordAt slot).map (·.used)).getD 0 + s.pendingOf slot)

/-- An account's budget, absent meaning unlimited (R30). -/
def State.budget (s : State) (slot : Nat) : Option Nat := (s.budgetRecord slot).bind (·.budget)

/-- Queue BUDGET STATE to the UP channels whose right on the account is EDIT or BOTH (R139, R174). -/
def State.budgetNotice (s : State) (slot : Nat) (b : BudgetState) : State :=
  s.noticeWhere (fun t c => (t.chan c).state = .up ∧ (t.right c (s.accountOf slot)).edits)
    (noticeBudget (s.accountOf slot) b (s.total slot) (s.budget slot))

/-- Set an account's budget state; the grace timer runs in GRACE only. -/
def State.setBudgetState (s : State) (slot : Nat) (b : BudgetState) : State :=
  s.setPresence slot { s.presenceOf slot with budget := some b, graceTimer := b = .grace }

/-- Show a text to every line signed on with an account. -/
def State.showToAccount (s : State) (slot : Nat) (t : String) : State :=
  (s.signedOn slot).foldl (fun u l => u.showText l (text t)) s

/-- Budget withdrawal of one line: its queue entries are removed, its OPENING ports go to CLOSING with cause BUDGET,
and it returns to COMMAND (R101). -/
def State.withdrawLine (s : State) (l : LineNo) : State :=
  if s.waits l then ((s.leaveQueues l).closeOpenings l .budget).toCommand l else s

/-- Entry to GRACE (R139). The withdrawal of R101 takes the lines in ascending order (assumption 43). -/
def State.enterGrace (s : State) (slot : Nat) : State :=
  let s1 := s.setBudgetState slot .grace
  let s2 := s1.showToAccount slot "BUDGET EXHAUSTED - SESSIONS END IN 5 MINUTES"
  let s3 := (s2.signedOn slot).foldl (fun u l => u.withdrawLine l) s2
  s3.budgetNotice slot .grace

/-- Move an account whose budget state is `old` to the state `new` (R136 to R141). -/
def State.moveBudget (s : State) (slot : Nat) (old : Option BudgetState) (new : BudgetState) : State :=
  match old with
  | none => s.setBudgetState slot new
  | some o =>
    if o = new then s
    else match new with
      | .normal => s.setBudgetState slot .normal
      | .warned =>
        if o = .normal then (s.setBudgetState slot .warned).showToAccount slot "BUDGET 90% USED"
        else s.setBudgetState slot .warned
      | .grace => s.enterGrace slot
      | .spent => (s.setBudgetState slot .spent).budgetNotice slot .spent

/-- The recompute of an account's budget state (R136). -/
def State.recompute (s : State) (slot : Nat) : State :=
  match s.budgetRecord slot with
  | none => s
  | some _ =>
    let p := s.presenceOf slot
    s.moveBudget slot p.budget (budgetStateFor (s.total slot) (s.budget slot) p.count p.budget)

/-- Set the budget state of an account if it is unset (R50, R137). -/
def State.recomputeUnset (s : State) (slot : Nat) : State :=
  if (s.presenceOf slot).budget = none then s.recompute slot else s

/-- Take one from a slot's presence count; an account in GRACE that is left by its last line goes to SPENT (R141). -/
def State.presenceDown (s : State) (slot : Nat) : State :=
  let p := s.presenceOf slot
  let t := s.setPresence slot { p with count := p.count - 1 }
  if p.count - 1 = 0 ∧ p.budget = some .grace then (t.setBudgetState slot .spent).budgetNotice slot .spent else t

/-- The lines `USED n OF m` or `USED n, NO BUDGET` of STATUS and LOGOFF (R78, R79). -/
def State.usedText (s : State) (slot : Nat) : List Code :=
  match s.budget slot with
  | some b => text "USED " ++ decimal (s.total slot) ++ text " OF " ++ decimal b
  | none => text "USED " ++ decimal (s.total slot) ++ text ", NO BUDGET"

end Sys2Proof.Machine
end

