-- ==== Sys2Proof/Machine/CacheOps.lean ====
section
/-! DEFINITION. Billing exceptions, meters, the charge cache's postings, write-backs and waiting list, and the close of
a session by the part: the operations through which a unit passes from a meter to an account (R117 to R124, R126 to
R133, R80, R98). -/

namespace Sys2Proof.Machine

/-! ## Billing exceptions -/

def Exceptions.has (x : Exceptions) : ExceptionKind → Bool
  | .unrated => x.unrated
  | .saturate => x.saturate
  | .estimated => x.estimated

def Exceptions.add (x : Exceptions) : ExceptionKind → Exceptions
  | .unrated => { x with unrated := true }
  | .saturate => { x with saturate := true }
  | .estimated => { x with estimated := true }

/-- Post a fault record to a channel; the first sets FAULT PENDING and queues BILLING FAULT (R124). -/
def State.postFault (s : State) (c : ChanNo) (f : FaultRecord) : State :=
  let t := s.modChan c fun ch =>
    if ch.faults.length < Config.faultCap then { ch with faults := ch.faults ++ [f] } else { ch with moreFaults := true }
  if (s.chan c).faultPending then t
  else (t.modChan c fun ch => { ch with faultPending := true }).queueNotice c noticeBillingFault

/-- Raise a billing exception on a channel (R123). -/
def State.raiseException (s : State) (c : ChanNo) (k : ExceptionKind) (account : Nat) (port : Option Nat) : State :=
  match (s.chan c).state with
  | .down | .failed => s
  | .up | .quiescing =>
    if (s.chan c).masks.has k then s.modChan c fun ch => { ch with sticky := ch.sticky.add k }
    else s.postFault c { kind := k, account := account, port := port, time := s.rating.calendar }

/-- Clear what the rating unit holds for a channel but its masks (R105, R168). -/
def Channel.clearFaults (ch : Channel) : Channel :=
  { ch with sticky := {}, faults := [], moreFaults := false, faultPending := false, fallbackRaised := false }

/-! ## Meters -/

/-- A meter loads its segment: period, percentage and rate from the ACTIVE bank; an ABSENT rate runs at 0 and raises
UNRATED (R118). -/
def State.loadSegment (s : State) (c : ChanNo) (p : Nat) : State :=
  match s.meter? c p with
  | none => s
  | some m =>
    let rate := s.rating.active.rate c m.speedClass s.rating.period
    let t := s.modMeter c p fun m =>
      { m with period := s.rating.period, rate := rate.getD 0, percent := s.rating.active.classPercent m.effClass }
    if rate = none then t.raiseException c .unrated (t.accountOf m.slot) (some p) else t

/-- Every open meter loads its segment, one after another (R112, R118). -/
def State.loadSegments (s : State) : State := s.meterKeys.foldl (fun t k => t.loadSegment k.1 k.2) s

/-- Raise ESTIMATED for a marked meter, once on its channel in a spell of FALLBACK (R107). -/
def State.raiseEstimated (s : State) (c : ChanNo) (slot p : Nat) : State :=
  if (s.chan c).fallbackRaised then s
  else (s.raiseException c .estimated (s.accountOf slot) (some p)).modChan c fun ch => { ch with fallbackRaised := true }

/-- Open a meter (R117): it loads its first segment, and is marked in FALLBACK (R107). -/
def State.openMeter (s : State) (c : ChanNo) (p : Nat) (l : LineNo) (slot : Nat) (k : SpeedClass) (cls : Nat) : State :=
  let m : Meter := { channel := c, port := p, line := l, slot := slot, speedClass := k, effClass := cls,
                     estimated := s.rating.clock = .fallback }
  let t := (s.modRating fun r => { r with meters := insertMeter m r.meters }).loadSegment c p
  if s.rating.clock = .fallback then t.raiseEstimated c slot p else t

/-! ## Write-backs -/

/-- Whether an access of a requester is in progress (R37). -/
def Arbiter.serving (a : Arbiter) (r : Requester) : Bool :=
  match a.current with
  | some x => x.who = r && x.result != .taken
  | none => false

/-- A write-back access finds its entry no longer on the queue for the account it was offered for: it completes without
an effect (R158). -/
def State.serveVoid (s : State) : State :=
  s.modArbiter fun a => { a with current := some { who := .writeBack, write := .nothing, result := .writeBackVoid } }

/-- A write-back access offered for the account in a slot is served: the entry leaves the queue, w is its pending, it
becomes WRITING (R131). It is void if the account has been deleted or the entry is not on the queue for it (R158). -/
def State.serveWriteBack (s : State) (e : Fin 32) : Option Nat → State
  | none => s.serveVoid
  | some slot =>
    if s.cache.queue.contains e ∧ (s.entry e).slot = some slot then
      let w := (s.entry e).pending
      let write := match s.recordAt slot with
        | some r => StoreWrite.put slot { r with used := r.used + w }
        | none => .nothing
      ((s.modCache fun c => { c with queue := c.queue.erase e }).modEntry e fun x =>
          { x with state := .writing, snapshot := w }).modArbiter fun a =>
        { a with current := some { who := .writeBack, write := write, result := .writeBack e } }
    else s.serveVoid

/-- Offer the entry at the head of the write-back queue: at most one access waiting, none while one is in progress; an
idle store serves it at once (R37, R38, R131). -/
def State.offerWriteBack (s : State) : State :=
  match s.cache.queue with
  | [] => s
  | e :: _ =>
    if s.arbiter.writeBack.isSome || s.arbiter.serving .writeBack then s
    else match (s.entry e).slot with
      | none => s
      | some slot =>
        match s.arbiter.current with
        | none => s.serveWriteBack e (some slot)
        | some _ => s.modArbiter fun a => { a with writeBack := some (e, some slot) }

/-- Whether a FLUSH names an entry (R131, R132). -/
def Cache.flushNames (c : Cache) (e : Fin 32) : Bool :=
  c.flush.toList.any fun f => (f.getD []).any fun m => m.entry = e

/-- Whether an entry becomes due (R131). One that a FLUSH names is due with nothing pending too: the FLUSH found it
WRITING, and it is to be written back again (R132). -/
def State.isDue (s : State) (e : Fin 32) : Bool :=
  let x := s.entry e
  x.state = .gathering && !s.cache.queue.contains e &&
    (s.cache.flushNames e ||
      0 < x.pending &&
        (Config.dueAt ≤ x.pending || !(x.slot.any fun k => s.meterOpen k) || x.evicted || s.cache.restarting))

/-- Put an entry at the end of the write-back queue, and offer the head. -/
def State.enqueueEntry (s : State) (e : Fin 32) : State :=
  (s.modCache fun c => { c with queue := c.queue ++ [e] }).offerWriteBack

/-- Look whether an entry has become due (R131). -/
def State.lookDue (s : State) (e : Fin 32) : State := if s.isDue e then s.enqueueEntry e else s

/-- An entry becomes FREE and leaves the recency order; an eviction that waited for it ends (R126, R130). -/
def State.freeEntry (s : State) (e : Fin 32) : State :=
  s.modCache fun c =>
    { c with entries := c.entries.set e {}, recency := c.recency.erase e,
             evicting := c.evicting && !(c.entries.get e).evicted }

/-- Look whether an entry becomes FREE: GATHERING, not on the queue, nothing pending, no meter open (R131). -/
def State.lookFree (s : State) (e : Fin 32) : State :=
  let x := s.entry e
  if x.state = .gathering ∧ x.pending = 0 ∧ !s.cache.queue.contains e ∧ !(x.slot.any fun k => s.meterOpen k) then
    s.freeEntry e
  else s

/-- Both looks of R131 at an account's entry. -/
def State.lookAccount (s : State) (slot : Nat) : State :=
  match s.entryOf slot with
  | some e => (s.lookDue e).lookFree e
  | none => s

/-- An entry leaves a channel's flush set; a FLUSH whose set becomes empty is answered DONE (R132). -/
def State.leaveFlushOf (s : State) (c : ChanNo) (e : Fin 32) : State :=
  match s.cache.flush.get c with
  | none => s
  | some set =>
    if set.any (fun m => m.entry = e) then
      let rest := set.filter fun m => m.entry != e
      if rest.isEmpty then (s.modCache fun k => { k with flush := k.flush.set c none }).answer c .done []
      else s.modCache fun k => { k with flush := k.flush.set c (some rest) }
    else s

/-- An entry leaves every flush set. -/
def State.leaveFlush (s : State) (e : Fin 32) : State := allChans.foldl (fun t c => t.leaveFlushOf c e) s

/-! ## Posting -/

/-- Units are added to an entry's pending, as many as the room allows, and the entry moves to the end of the recency order
(R126, R127). Answers the units taken. -/
def State.addPending (s : State) (e : Fin 32) (units : Nat) : State × Nat :=
  match (s.entry e).slot with
  | none => (s, 0)
  | some slot =>
    let taken := min units (s.room slot)
    ((s.modEntry e fun x => { x with pending := x.pending + taken }).modCache fun c =>
      { c with recency := c.recency.erase e ++ [e] }, taken)

/-- What follows a posting of which `taken` units were taken: a change of pending recomputes the budget state, and the
entry is looked at (R127). -/
def State.posted (s : State) (e : Fin 32) (taken : Nat) : State :=
  match (s.entry e).slot with
  | none => s
  | some slot => (if 0 < taken then s.recompute slot else s).lookDue e

/-- Post units to an entry (R127). Answers the units taken. -/
def State.postEntry (s : State) (e : Fin 32) (units : Nat) : State × Nat :=
  let r := s.addPending e units
  (r.1.posted e r.2, r.2)

/-- The lowest-numbered FREE entry (assumption 18). -/
def State.freeEntry? (s : State) : Option (Fin 32) :=
  (List.finRange 32).find? fun e => (s.entry e).state = .free

/-- A FREE entry takes an account: GATHERING, nothing pending, at the end of the recency order (R126, R127). -/
def State.giveSlot (s : State) (e : Fin 32) (slot : Nat) : State :=
  (s.modEntry e fun _ => { slot := some slot, state := .gathering }).modCache fun c =>
    { c with recency := c.recency.erase e ++ [e] }

/-- The entry an offer for an account goes to: its own, or a FREE one when the waiting list is empty (R127). -/
def State.entryFor (s : State) (slot : Nat) : Option (Fin 32 × State) :=
  match s.entryOf slot with
  | some e => some (e, s)
  | none =>
    if s.cache.waiting.isEmpty then s.freeEntry?.map fun e => (e, s.giveSlot e slot) else none

/-- Change an account's item on the waiting list; an account without one joins at the end (R128). -/
def State.modItem (s : State) (slot : Nat) (f : Item → Item) : State :=
  s.modCache fun c =>
    if c.waiting.any (fun i => i.slot = slot) then
      { c with waiting := c.waiting.map fun i => if i.slot = slot then f i else i }
    else { c with waiting := c.waiting ++ [f { slot := slot }] }

/-- The last posting of a closing meter: posted, or added to its channel's closed units in the account's item (R121,
R128). Answers the units taken, or none where they wait. -/
def State.offerClosed (s : State) (slot : Nat) (c : ChanNo) (units : Nat) : State × Option Nat :=
  match s.entryFor slot with
  | some (e, t) => let r := t.postEntry e units; (r.1, some r.2)
  | none => (s.modItem slot fun i => { i with closed := i.closed.set c (i.closed.get c + units) }, none)

/-- Close a meter (R121): residue, minimum charge, last posting, SESSION END. Answers the final units. -/
def State.closeMeter (s : State) (c : ChanNo) (p : Nat) (cause : Cause) : State × Nat :=
  match s.meter? c p with
  | none => (s, 0)
  | some m =>
    let r := roundResidue s.rating.active.rounding m.acc
    let least := s.rating.active.minimum.get c
    let full := max (m.units + r.1) least
    let posting := full - m.units + m.unposted
    let o := (s.removeMeter c p).offerClosed m.slot c posting
    let lost := match o.2 with | some taken => posting - taken | none => 0
    let t := if 0 < lost ∧ !m.saturated then o.1.raiseException c .saturate (s.accountOf m.slot) (some p) else o.1
    let final := full - lost
    let flags := sessionEndFlags r.2 (m.units + r.1 < least) m.estimated (m.saturated || 0 < lost)
    ((t.queueNotice c (noticeSessionEnd (s.accountOf m.slot) m.line c p (s.circuit c p) m.seconds final flags cause)).lookAccount
      m.slot, final)

/-! ## Sessions that end -/

/-- A session leaves its line's stack, and its final units are added to units this sign-on (R67, R68). -/
def State.sessionGone (s : State) (l : LineNo) (c : ChanNo) (p n : Nat) : State :=
  s.modCtx l fun x =>
    { x with stack := x.stack.filter (fun e => !(e.channel = c && e.port = p)), units := addUnits x.units n }

/-- Whether a port's session is the LIVE one of a line. -/
def State.isLive (s : State) (l : LineNo) (c : ChanNo) (p : Nat) : Bool :=
  (s.ctx l).stack.any fun e => e.channel = c && e.port = p && e.state = .live

/-- What the switch does when a LIVE session has been removed from elsewhere (R80): the input is discarded, a pending
attention ends, the text is placed, and the line goes to COMMAND. -/
def State.liveRemoved (s : State) (l : LineNo) (cs : List Code) : State :=
  (((s.modCtx l fun x => { x with forwardTimer := false, attention := .none, attentionTimer := false }).modUnit l
      fun u => { u with input := [] }).showText l cs).toCommand l

/-- The part closes the session of a BOUND port (R98). Answers the final units. -/
def State.partClose (s : State) (c : ChanNo) (p : Nat) (cause : Cause) : State × Nat :=
  let r := s.closeMeter c p cause
  let t := match (s.port? c p).bind (·.line) with
    | some l => r.1.sessionGone l c p r.2
    | none => r.1
  ((t.discardFlow c p).portClosing c p cause, r.2)

/-- A meter of a channel with SATURATE unmasked has saturated: its session is closed with BILLING FAULT (R120, R98,
R80). -/
def State.faultClose (s : State) (c : ChanNo) (p : Nat) : State :=
  match (s.port? c p).bind (·.line) with
  | none => (s.partClose c p .billingFault).1
  | some l =>
    let t := (s.partClose c p .billingFault).1
    if s.isLive l c p then t.liveRemoved l (hostText c " BILLING FAULT") else t

/-- Units of a meter were discarded: they are taken off its units, and the first discard of its life raises SATURATE
(R120). The posting's recompute has come before (assumption 47). -/
def State.meterDiscard (s : State) (c : ChanNo) (p lost : Nat) : State :=
  match s.meter? c p with
  | none => s
  | some m =>
    let t := s.modMeter c p fun m => { m with units := m.units - lost, saturated := true }
    if m.saturated then t
    else
      let t := t.raiseException c .saturate (t.accountOf m.slot) (some p)
      if (s.chan c).masks.saturate then t else t.faultClose c p

/-! ## The waiting list -/

/-- Raise SATURATE with no port, if units were discarded (R128, R163). -/
def State.saturateChannel (s : State) (c : ChanNo) (slot lost : Nat) : State :=
  if 0 < lost then s.raiseException c .saturate (s.accountOf slot) none else s

/-- Post units for a channel, not a meter: a discard raises SATURATE on it, with no port, in the same posting and before
the recompute (R127, R128, R163). Answers the units taken. -/
def State.postFor (s : State) (e : Fin 32) (slot : Nat) (c : ChanNo) (units : Nat) : State × Nat :=
  let r := s.addPending e units
  ((r.1.saturateChannel c slot (units - r.2)).posted e r.2, r.2)

/-- Post a CHARGE to an entry. Answers the outcome and body of its reply: the prior total and the amount applied (R129,
R162, R163). -/
def State.postCharge (s : State) (e : Fin 32) (slot : Nat) (c : ChanNo) (amount : Nat) : State × Outcome × List Byte :=
  let prior := s.total slot
  let r := s.postFor e slot c amount
  (r.1, if r.2 < amount then .saturated else .done, chargeBody prior r.2)

/-- A CHARGE that waited has posted, and is answered (R129). While its own access is still in progress the reply goes with
that access (R36, R37, assumption 38). -/
def State.answerCharge (s : State) (c : ChanNo) (o : Outcome) (body : List Byte) : State :=
  match s.arbiter.current with
  | some { who := w, write := wr, result := .chargeWaits d } =>
    if d = c then s.modArbiter fun a => { a with current := some { who := w, write := wr, result := .reply c o body } }
    else s.answer c o body
  | _ => s.answer c o body

/-- Give an entry to the item at the head of the waiting list, and post the item's contents in the order of R128. -/
def State.giveEntry (s : State) (e : Fin 32) (item : Item) : State :=
  let s0 := (s.modCache fun c => { c with waiting := c.waiting.tail }).giveSlot e item.slot
  let s1 := allChans.foldl (fun t c =>
    let n := item.closed.get c
    if 0 < n then (t.postFor e item.slot c n).1 else t) s0
  let waiters := (s1.rating.meters.filter fun m => m.slot = item.slot ∧ 0 < m.unposted).map fun m => (m.channel, m.port)
  let s2 := waiters.foldl (fun t k =>
    match t.meter? k.1 k.2 with
    | none => t
    | some m =>
      let r := (t.modMeter k.1 k.2 fun m => { m with unposted := 0 }).postEntry e m.unposted
      if r.2 < m.unposted then r.1.meterDiscard k.1 k.2 (m.unposted - r.2) else r.1) s1
  let s3 := item.charges.foldl (fun t w =>
    let r := t.postCharge e item.slot w.channel w.amount
    r.1.answerCharge w.channel r.2.1 r.2.2) s2
  s3.lookFree e

/-- One move of the cache while the waiting list is not empty: give a FREE entry to the head item, or choose an entry
to evict (R128, R130). None when there is nothing to do. One chosen with nothing pending becomes FREE and leaves every
flush set, even one that a FLUSH has waiting for a second write-back of nothing (R130, R132, assumption 19). -/
def State.settleOnce (s : State) : Option State :=
  match s.cache.waiting with
  | [] => none
  | item :: _ =>
    match s.freeEntry? with
    | some e => some (s.giveEntry e item)
    | none =>
      if s.cache.evicting then none
      else match s.cache.recency.find? (fun e => (s.entry e).state = .gathering) with
        | none => none
        | some e =>
          if (s.entry e).pending = 0 then
            some (((s.leaveFlush e).modCache fun c => { c with queue := c.queue.erase e }).freeEntry e)
          else
            let t := (s.modEntry e fun x => { x with evicted := true }).modCache fun c => { c with evicting := true }
            some (if t.cache.queue.contains e then t else t.enqueueEntry e)

def State.settleLoop : Nat → State → State
  | 0, s => s
  | n + 1, s =>
    match s.settleOnce with
    | none => s
    | some t => State.settleLoop n t

/-- Bring the waiting list to rest: while it holds an item, no entry stays FREE, and an eviction is in progress if one
can be chosen (R128, R130). Each item takes at most an eviction and a giving. -/
def State.settle (s : State) : State := s.settleLoop (2 * s.cache.waiting.length + 1)

/-- A meter offers units (R120, R127, R128). -/
def State.offerMeter (s : State) (c : ChanNo) (p n : Nat) : State :=
  match s.meter? c p with
  | none => s
  | some m =>
    if 0 < m.unposted then s.modMeter c p fun m => { m with unposted := m.unposted + n }
    else match s.entryFor m.slot with
      | some (e, t) =>
        let r := t.postEntry e n
        (if r.2 < n then r.1.meterDiscard c p (n - r.2) else r.1).settle
      | none => ((s.modMeter c p fun m => { m with unposted := n }).modItem m.slot id).settle

/-- The part closes a session, and the cache comes to rest: an entry that the close frees is given to the head item once
SESSION END and CIRCUIT CLOSED are queued (assumption 50). Answers the final units. -/
def State.closeSession (s : State) (c : ChanNo) (p : Nat) (cause : Cause) : State × Nat :=
  let r := s.partClose c p cause
  (r.1.settle, r.2)

/-- A session is closed from elsewhere (R80): HOST CLOSE, HOST FAILED or HOST RESTART. The port's own state is the
caller's to set. An entry that the close frees is given once its notice and text are placed (assumption 50). -/
def State.removeSession (s : State) (c : ChanNo) (p : Nat) (cause : Cause) (cs : List Code) : State :=
  let r := s.closeMeter c p cause
  let t := (match (s.port? c p).bind (·.line) with
    | some l =>
      let u := (r.1.sessionGone l c p r.2).discardFlow c p
      if s.isLive l c p then u.liveRemoved l cs else u
    | none => r.1.discardFlow c p)
  t.settle

end Sys2Proof.Machine
end

