-- ==== Sys2Proof/Machine/ClearOps.lean ====
section
/-! DEFINITION. The clear of a line and what its neighbours do on the report, and the score changes that can bar a line
(R14, R15, R19, R64, R86). -/

namespace Sys2Proof.Machine

/-- The end of a sign-on dialog (R64): timer stopped, field emptied, identifier and fold none, phase NONE. -/
def Dialog.ended (d : Dialog) : Dialog :=
  { d with phase := .none, field := [], identifier := none, fold := none, timer := false }

/-- Whether the check of a line has been served and its result not yet taken (R64). -/
def Arbiter.servedCheck (a : Arbiter) (l : LineNo) : Bool :=
  match a.current with
  | some { result := .check k _ _ false, .. } => k = l
  | _ => false

/-- The result of the check in progress will find its line cleared (R64). -/
def Arbiter.markCleared (a : Arbiter) : Arbiter :=
  match a.current with
  | some { who := w, write := wr, result := .check k o n _ } =>
    { a with current := some { who := w, write := wr, result := .check k o n true } }
  | _ => a

/-- A line's check leaves the list. A check that was waiting at the arbiter is withdrawn with it, and the next on the
list is offered in its place (R39, R58, R64). -/
def State.withdrawCheck (s : State) (l : LineNo) : State :=
  let rest := s.checks.filter fun k => k.line != l
  { s with checks := rest, arbiter := { s.arbiter with signOn := s.arbiter.signOn && !rest.isEmpty } }

/-- A line is no longer signed on: one is taken from its counted slot's presence count (R50, R64). -/
def State.uncount (s : State) (l : LineNo) : State :=
  match (s.dialog l).counted with
  | some slot => (s.modDialog l fun d => { d with counted := none }).presenceDown slot
  | none => s

/-- The sign-on controller applies a clear (R64). A success served and not yet taken is taken off the presence count
when its result comes (assumption 16). -/
def State.signOnClear (s : State) (l : LineNo) : State :=
  let checking := (s.dialog l).phase = .checking
  if checking ∧ s.arbiter.servedCheck l then
    ({ s with arbiter := s.arbiter.markCleared } : State).modDialog l Dialog.ended
  else
    ((if checking then s.withdrawCheck l else s).modDialog l Dialog.ended).uncount l

/-- Close every session of a line, top first (R78, R86). -/
def State.closeStack : Nat → State → LineNo → Cause → State
  | 0, s, _, _ => s
  | n + 1, s, l, cause =>
    match (s.ctx l).stack.getLast? with
    | none => s
    | some e =>
      let t := (s.closeSession e.channel e.port cause).1
      State.closeStack n
        (t.modCtx l fun x =>
          { x with stack := x.stack.filter fun k => !(k.channel = e.channel && k.port = e.port) }) l cause

/-- Close every session of a line, top first. -/
def State.closeSessions (s : State) (l : LineNo) (cause : Cause) : State :=
  s.closeStack (s.ctx l).stack.length l cause

/-- The session switch applies a clear (R86). -/
def State.switchClear (s : State) (l : LineNo) (cause : Cause) : State :=
  let s1 := s.modCtx l fun x =>
    { x with idleTimer := false, attentionTimer := false, forwardTimer := false, attention := .none, field := [] }
  let s2 := ((s1.closeSessions l cause).leaveQueues l).closeOpenings l cause
  s2.modCtx l fun x => { x with signOn := none, units := 0 }

/-- A clear is taken in an active state and ignored in every other (R14, R15). -/
def State.clearLine (s : State) (l : LineNo) (cause : Cause) : State :=
  if (s.unit l).state.active then
    let hit := (s.unit l).lineHit
    let s1 := s.modUnit l fun u =>
      { u with state := .clearing, cause := some cause, input := [], answerTimer := false, speedWindow := false,
               lineHit := false, awaitMark := false }
    let s2 := ((s1.signOnClear l).switchClear l cause).modUnit l fun u => { u with account := 0 }
    if hit ∨ (s2.unit l).partMsg = [] then s2.startGuard l else s2
  else s

/-- A line whose health has just become BARRED is cleared, if it is in an active state (R19). -/
def State.barLine (s : State) (l : LineNo) (before : Health) : State :=
  if before ≠ .barred ∧ (s.unit l).health = .barred then s.clearLine l .lineBarred else s

/-- A fault raises the score, and may bar the line (R17 to R19). -/
def State.faultScore (s : State) (l : LineNo) (n : Nat) : State :=
  (s.raiseScore l n).barLine l (s.unit l).health

/-- Clear the lines of a list that are in an active state, in its order. -/
def State.clearLines (s : State) (ls : List LineNo) (cause : Cause) : State :=
  ls.foldl (fun t l => t.clearLine l cause) s

end Sys2Proof.Machine
end

