-- ==== Sys2Proof/Machine/SwitchOps.lean ====
section
/-! DEFINITION. The session switch: ports, wait queues and grants, the connect procedure, data in both directions, and
the typed commands (R69 to R104). -/

namespace Sys2Proof.Machine

/-! ## Ports -/

/-- A port goes to OPENING for a line: the accept timer starts and CIRCUIT REQUEST is queued (R95). -/
def State.openPort (s : State) (c : ChanNo) (p : Nat) (l : LineNo) (slot cls : Nat) : State :=
  (s.modPort c p fun x =>
      { x with state := .opening, line := some l, slot := some slot, cause := none, timer := true }).queueNotice c
    (noticeCircuitRequest p (s.circuit c p) l (s.accountOf slot) cls (s.unit l).speed)

/-- Whether the account in a slot is ACTIVE, as the last completed access left it (R89, R94). -/
def State.accountActive (s : State) (slot : Nat) : Bool :=
  match s.recordAt slot with
  | some r => r.state = .active
  | none => false

/-- A freed port goes to the head of the wait queue whose account is ACTIVE; the others on the way return to COMMAND
(R94). -/
def State.grantLoop : Nat → State → ChanNo → Nat → State
  | 0, s, _, _ => s
  | n + 1, s, c, p =>
    match (s.chan c).queue with
    | [] => s
    | w :: _ =>
      let t := s.modChan c fun ch => { ch with queue := ch.queue.tail }
      if s.accountActive w.slot then t.openPort c p w.line w.slot w.effClass
      else State.grantLoop n (t.returnToCommand w.line (text "NOT PERMITTED")) c p

def State.grant (s : State) (c : ChanNo) (p : Nat) : State := s.grantLoop (s.chan c).queue.length c p

/-- A channel becomes DOWN: its name, parameters, ports and what the rating unit holds for it are cleared, and DETACHED
is queued as the last notice of the attachment (R169). -/
def State.channelDown (s : State) (c : ChanNo) : State :=
  s.modChan c fun ch =>
    let ch := { ch.clearFaults with state := .down, silence := false, masks := {}, name := none, params := none,
                                    ports := [], queue := [], dataOut := [] }
    if ch.notices.length < Config.noticeCap then { ch with notices := ch.notices ++ [noticeDetached] }
    else { ch with lost := true }

/-- A QUIESCING channel whose ports are all FREE becomes DOWN (R102). -/
def State.quiesceIfDone (s : State) (c : ChanNo) : State :=
  if (s.chan c).state = .quiescing ∧ (s.chan c).ports.all (fun x => x.state = .free) then s.channelDown c else s

/-- A port entry in FREE keeps its circuit id and nothing else (R87). -/
def Port.freed (x : Port) : Port := { circuit := x.circuit }

/-- A port becomes FREE: on an UP channel it is granted (R94), on a QUIESCING one the switch looks whether all are FREE
(R102). -/
def State.portFree (s : State) (c : ChanNo) (p : Nat) : State :=
  let t := s.modPort c p Port.freed
  if (t.chan c).state = .up then t.grant c p else t.quiesceIfDone c

/-- The ports of a channel in a state, ascending. -/
def State.portsIn (s : State) (c : ChanNo) (st : PortState) : List Nat :=
  (List.range (s.chan c).ports.length).filter fun p => (s.port? c p).any fun x => x.state = st

/-- The line of an OPENING port returns to COMMAND with a text, and the port becomes FREE without a grant. -/
def State.dropOpening (s : State) (c : ChanNo) (cs : List Code) (p : Nat) : State :=
  let t := s.modPort c p Port.freed
  match (s.port? c p).bind (·.line) with
  | some l => t.returnToCommand l cs
  | none => t

/-- The wait queue is emptied in queue order; each line returns to COMMAND with a text. -/
def State.dropQueue (s : State) (c : ChanNo) (cs : List Code) : State :=
  (s.chan c).queue.foldl (fun t w => t.returnToCommand w.line cs) (s.modChan c fun ch => { ch with queue := [] })

/-- The end of everything of a channel (R103, R104): BOUND sessions closed in ascending port order, OPENING and CLOSING
ports dropped, the queue emptied, the table discarded. -/
def State.endPorts (s : State) (c : ChanNo) (cause : Cause) (cs : List Code) : State :=
  let s1 := (s.portsIn c .bound).foldl (fun t p => (t.removeSession c p cause cs).modPort c p Port.freed) s
  let s2 := (s1.portsIn c .opening).foldl (fun t p => t.dropOpening c cs p) s1
  (s2.dropQueue c cs).modChan c fun ch => { ch with ports := [], queue := [], dataOut := [] }

/-! ## The connect procedure -/

/-- The text of the first connect check that fails, none when all seven pass (R89). -/
def State.connectRefusal (s : State) (l : LineNo) (c : ChanNo) : Option (List Code) :=
  let ch := s.chan c
  match (s.ctx l).signOn with
  | none => some (text "NOT PERMITTED")
  | some so =>
    if ch.state ≠ .up then some (hostText c " NOT AVAILABLE")
    else if !(s.accountActive so.slot && ((s.recordAt so.slot).any fun r => r.hostSet.getLsbD c.val)) then
      some (text "NOT PERMITTED")
    else if !(s.right c so.account).charges then some (text "NOT PERMITTED")
    else if so.effClass < ((ch.params.map (·.minClass)).getD 0) then some (text "CLASS TOO LOW")
    else if !((s.presenceOf so.slot).budget = some .normal || (s.presenceOf so.slot).budget = some .warned) then
      some (text "BUDGET EXHAUSTED")
    else if Config.stackCap ≤ (s.ctx l).stack.length then some (text "TOO MANY SESSIONS")
    else if !(ch.masks.unrated ||
        (((s.unit l).speed.bind fun v => s.rating.active.rate c v.cls s.rating.period).isSome)) then
      some (text "NO TARIFF")
    else none

/-- The lowest-numbered FREE port of a channel (R90). -/
def State.freePort? (s : State) (c : ChanNo) : Option Nat := (s.portsIn c .free).head?

/-- Place a new entry after the last entry of its class or a higher one (R91). -/
def insertWait (w : WaitEntry) (q : List WaitEntry) : List WaitEntry :=
  q.takeWhile (fun x => w.effClass ≤ x.effClass) ++ [w] ++ q.dropWhile (fun x => w.effClass ≤ x.effClass)

/-- A line that has entered WAITING is given a way to a channel: the lowest FREE port, or a place in the wait queue
(R90). -/
def State.wayTo (s : State) (l : LineNo) (c : ChanNo) : State :=
  match (s.ctx l).signOn with
  | none => s
  | some so =>
    match s.freePort? c with
    | some p => s.openPort c p l so.slot so.effClass
    | none =>
      let w : WaitEntry := { line := l, slot := so.slot, effClass := so.effClass }
      let q := (s.chan c).queue
      let n := (q.takeWhile fun x => w.effClass ≤ x.effClass).length + 1
      (s.modChan c fun ch => { ch with queue := insertWait w q }).showText l
        (text "WAITING FOR " ++ hostText c ", POSITION " ++ decimal n)

/-! ## Data from the computer and to it -/

/-- Send the characters of a line's input buffer to a port in one block (R72, R83). -/
def State.sendInput (s : State) (l : LineNo) (c : ChanNo) (p : Nat) : State :=
  let t := (s.modUnit l fun u => { u with input := [] }).modCtx l fun x => { x with forwardTimer := false }
  if (s.unit l).input = [] then t else t.queueData c { port := p, chars := (s.unit l).input }

/-- Cut a list into blocks of at most `k` characters. -/
def chunks (k : Nat) : Nat → List Code → List (List Code)
  | _, [] => []
  | 0, _ :: _ => []
  | n + 1, x :: xs => (x :: xs).take k :: chunks k n ((x :: xs).drop k)

/-- Host stop has become no: every character held goes to the port, in blocks of up to 32 (R83). -/
def State.sendHeldInput (s : State) (l : LineNo) (c : ChanNo) (p : Nat) : State :=
  let cs := (s.unit l).input
  let t := (s.modUnit l fun u => { u with input := [] }).modCtx l fun x => { x with forwardTimer := false }
  (chunks Config.forwardAt cs.length cs).foldl (fun t b => t.queueData c { port := p, chars := b }) t

/-- Place one output character for a port, with STOP at 192 and OVERRUN past 256 (R81). -/
def State.placeOutput (s : State) (c : ChanNo) (p : Nat) (x : Code) : State :=
  match s.flow? c p with
  | none => s
  | some f =>
    if Config.outputCap ≤ f.output.length then
      if f.overrun then s
      else (s.modFlow c p fun f => { f with overrun := true }).indicate c p .overrun
    else
      let t := s.modFlow c p fun f => { f with output := f.output ++ [x] }
      if f.output.length + 1 = Config.stopAt ∧ !f.stopSent then
        (t.modFlow c p fun f => { f with stopSent := true }).indicate c p .stop
      else t

/-- A character goes to the end of a line's input buffer, and the block is sent at a carriage return or at 32
characters; with host stop it is held, and one that finds the buffer full is answered with bell (R83, R84). -/
def State.inputChar (s : State) (l : LineNo) (x : Code) : State :=
  match s.liveSession l with
  | none => s
  | some e =>
    if Config.inputCap ≤ (s.unit l).input.length then s.place l bell
    else
      let t := (s.modUnit l fun u => { u with input := u.input ++ [x] }).modCtx l fun y => { y with forwardTimer := true }
      if !s.hostStopped e.channel e.port ∧ (x = 13 ∨ Config.forwardAt ≤ (t.unit l).input.length) then
        t.sendInput l e.channel e.port
      else t

/-- The switch takes a line from CONNECTED to COMMAND (R72). -/
def State.leaveConnected (s : State) (l : LineNo) : State :=
  match s.liveSession l with
  | none => s.toCommand l
  | some e =>
    let s1 := s.modCtx l fun x => { x with forwardTimer := false }
    let s2 :=
      if (s.unit l).input = [] then s1
      else if s.hostStopped e.channel e.port then (s1.modUnit l fun u => { u with input := [] }).place l bell
      else s1.sendInput l e.channel e.port
    let s3 := s2.modCtx l fun x =>
      { x with stack := x.stack.map fun k =>
          if k.channel = e.channel ∧ k.port = e.port then { k with state := .held } else k }
    (s3.queueNotice e.channel (noticeSession .held e.port (s.circuit e.channel e.port) l)).toCommand l

/-! ## Typed commands, carried out for a line in COMMAND whose field has been emptied (R74) -/

/-- A reply text and the prompt. -/
def State.commandReply (s : State) (l : LineNo) (cs : List Code) : State := (s.placeLine l cs).prompt l

/-- CONNECT x (R75). -/
def State.runConnect (s : State) (l : LineNo) (c : ChanNo) : State :=
  match s.connectRefusal l c with
  | some cs => s.commandReply l cs
  | none => (s.toWaiting l).wayTo l c

/-- The top session becomes LIVE: RESUMED is queued and the line enters CONNECTED (R76). -/
def State.makeTopLive (s : State) (l : LineNo) : State :=
  match s.liveSession l with
  | none => s
  | some e =>
    ((s.modCtx l fun x => { x with stack := x.stack.dropLast ++ [{ e with state := .live }] }).queueNotice e.channel
      (noticeSession .resumed e.port (s.circuit e.channel e.port) l)).toConnected l

/-- RESUME (R76). -/
def State.runResume (s : State) (l : LineNo) : State :=
  if (s.ctx l).stack = [] then s.commandReply l (text "NO SESSION") else s.makeTopLive l

/-- The top entry goes to the bottom, the others keep their order (R76). -/
def rotateStack (st : List Session) : List Session :=
  match st.getLast? with
  | none => st
  | some e => e :: st.dropLast

/-- ROTATE (R76). -/
def State.runRotate (s : State) (l : LineNo) : State :=
  if (s.ctx l).stack.length < 2 then s.commandReply l (text "NO SESSION")
  else (s.modCtx l fun x => { x with stack := rotateStack x.stack }).makeTopLive l

/-- END (R77). -/
def State.runEnd (s : State) (l : LineNo) : State :=
  match s.liveSession l with
  | none => s.commandReply l (text "NO SESSION")
  | some e =>
    let r := s.closeSession e.channel e.port .userEnd
    r.1.commandReply l (hostText e.channel " ENDED, " ++ decimal r.2 ++ text " UNITS")

/-- LOGOFF, and the expiry of the idle timer, which acts as LOGOFF with cause IDLE and a first line of its own (R78). -/
def State.runLogoff (s : State) (l : LineNo) (cause : Cause) : State :=
  let s1 := s.closeSessions l cause
  let s2 := if cause = .idle then s1.placeLine l (text "IDLE TIMEOUT") else s1
  let s3 := s2.placeLine l (text "UNITS THIS SIGN-ON " ++ decimal (s2.ctx l).units)
  let s4 := match (s3.ctx l).signOn with
    | some so => s3.placeLine l (s3.usedText so.slot)
    | none => s3
  let s5 := (s4.placeLine l (text "SIGNED OFF")).clearLine l cause
  if cause = .logoff then s5.lowerScore l 16 else s5

/-- The STATUS line of one session (R79). -/
def State.sessionText (s : State) (e : Session) : List Code :=
  let m := s.meter? e.channel e.port
  [hostLetter e.channel, 32] ++ ((s.chan e.channel).name.getD []) ++ [32] ++
    decimal ((m.map (·.seconds)).getD 0) ++ text " SEC " ++ decimal ((m.map (·.units)).getD 0) ++ text " UNITS"

/-- STATUS (R79). -/
def State.runStatus (s : State) (l : LineNo) : State :=
  let s1 :=
    if (s.ctx l).stack = [] then s.placeLine l (text "NO SESSION")
    else (s.ctx l).stack.reverse.foldl (fun t e => t.placeLine l (t.sessionText e)) s
  (match (s1.ctx l).signOn with
    | some so => s1.placeLine l (s1.usedText so.slot)
    | none => s1).prompt l

end Sys2Proof.Machine
end

