-- ==== Sys2Proof/Machine/SignOnOps.lean ====
section
/-! DEFINITION. The sign-on controller: the dialog and its fields, the account check as the store serves it, and what
follows a result (R49 to R64). -/

namespace Sys2Proof.Machine

/-! ## The dialog -/

/-- The dialog of a line opens: attempts by its health state, the dialog timer, the banner and the prompt (R51). -/
def State.enterSignOn (s : State) (l : LineNo) : State :=
  let t := s.modDialog l fun d =>
    { d with phase := .ident, field := [], identifier := none, fold := none, timer := true,
             attempts := if (s.unit l).health = .good then 3 else 1 }
  (if s.store.banner = [] then t else t.placeLine l s.store.banner).placeLine l (text "ID:")

/-- A break in SIGNON: in IDENT and PASS the dialog starts again at the identifier (R53). -/
def State.dialogBreak (s : State) (l : LineNo) : State :=
  match (s.dialog l).phase with
  | .ident | .pass =>
    (s.modDialog l fun d => { d with phase := .ident, field := [], identifier := none }).placeLine l (text "ID:")
  | .none | .checking | .handover => s

/-- Carriage return in IDENT (R55). -/
def State.endIdent (s : State) (l : LineNo) : State :=
  if (s.dialog l).field = [] then s.placeLine l (text "ID:")
  else
    (s.modDialog l fun d =>
      { d with phase := .pass, identifier := some (digitsValue d.field), field := [] }).placeLine l (text "PW:")

/-- A character in IDENT (R54). -/
def State.identChar (s : State) (l : LineNo) (x : Code) : State :=
  let field := (s.dialog l).field
  if 48 ≤ x.toNat ∧ x.toNat ≤ 57 then
    if field.length < Config.identCap then (s.modDialog l fun d => { d with field := field ++ [x] }).place l [x]
    else s.place l bell
  else if x = 8 ∨ x = 127 then
    if field = [] then s.place l bell
    else (s.modDialog l fun d => { d with field := field.dropLast }).place l rubOut
  else if x = 21 then (s.modDialog l fun d => { d with field := [] }).placeLine l (text "ID:")
  else if x = 13 then s.endIdent l
  else s.place l bell

/-! ## The check -/

/-- An access is served: what it will write when it completes, and the result that then goes to its requester (R36). -/
def State.serve (s : State) (who : Requester) (w : StoreWrite) (r : AccessResult) : State :=
  s.modArbiter fun a => { a with current := some { who := who, write := w, result := r } }

/-- A wrong pass phrase is counted in the record; the fifth suspends the account (R32, R59 test 3). -/
def Record.failed (r : Record) : Record :=
  if r.failures + 1 = Config.failureCap then
    { r with failures := r.failures + 1, state := .suspended, revision := bumpRevision r.revision 2 }
  else { r with failures := r.failures + 1, revision := bumpRevision r.revision 1 }

/-- A success in the record: failure count 0, counted in the revision if it was above 0, and the last sign-on (R59). -/
def Record.succeeded (r : Record) (now : Calendar) : Record :=
  { r with failures := 0, revision := if 0 < r.failures then bumpRevision r.revision 1 else r.revision,
           lastSignOn := some now }

/-- The tests of R59 from the second on, for the record `r` in `slot`, made on the state in which the budget state of
the slot has been set. -/
def State.checkRecord (s : State) (k : Check) (slot : Nat) (r : Record) : State :=
  let p := s.presenceOf slot
  if r.state ≠ .active then s.serve .signOn .nothing (.check k.line .refused none false)
  else if r.passCheck = 0 ∨ k.fold ≠ r.passCheck then
    s.serve .signOn (.put slot r.failed)
      (.check k.line .refused
        (if r.failed.state = .suspended then some (r.number, r.failed.revision) else none) false)
  else if r.limit ≤ p.count then s.serve .signOn .nothing (.check k.line .tooMany none false)
  else if !budgetAllows (r.used + s.pendingOf slot) r.budget then
    s.serve .signOn .nothing (.check k.line .exhausted none false)
  else
    ((s.setPresence slot { p with count := p.count + 1 }).modDialog k.line fun d => { d with counted := some slot }).serve
      .signOn (.put slot (r.succeeded s.rating.calendar))
      (.check k.line (.success r.number slot r.cls r.homeHost (p.budget = some .warned)) none false)

/-- The sign-on check at the head of the list is served (R58, R59). -/
def State.serveCheck (s : State) : State :=
  match s.checks with
  | [] => s
  | k :: rest =>
    let t := ({ s with checks := rest } : State).modDialog k.line fun d => { d with identifier := none, fold := none }
    match t.lookup k.identifier with
    | none => t.serve .signOn .nothing (.check k.line .refused none false)
    | some slot =>
      match t.recordAt slot with
      | none => t.serve .signOn .nothing (.check k.line .refused none false)
      | some r => (t.recomputeUnset slot).checkRecord k slot r

/-- The controller offers the check at the head of its list, if it has none waiting or in progress (R37, R38, R58). -/
def State.offerCheck (s : State) : State :=
  if s.checks.isEmpty || s.arbiter.signOn || s.arbiter.serving .signOn then s
  else match s.arbiter.current with
    | none => s.serveCheck
    | some _ => s.modArbiter fun a => { a with signOn := true }

/-! ## After the check -/

/-- The text of a refusal (R61). -/
def CheckOutcome.text : CheckOutcome → List Code
  | .tooMany => Machine.text "TOO MANY SIGN-ONS"
  | .exhausted => Machine.text "BUDGET EXHAUSTED"
  | .refused | .success .. => Machine.text "SIGN-ON REFUSED"

/-- The controller takes a refusal (R61). -/
def State.refuseAttempt (s : State) (l : LineNo) (o : CheckOutcome) : State :=
  let n := (s.dialog l).attempts - 1
  let t := (s.placeLine l o.text).modDialog l fun d => { d with attempts := n, identifier := none, fold := none }
  if 0 < n then (t.modDialog l fun d => { d with phase := .ident }).placeLine l (text "ID:")
  else t.clearLine l .signOnFailed

/-- The line enters command mode at the end of its sign-on (R62, R63, R72). -/
def State.signOnToCommand (s : State) (l : LineNo) (account : Nat) : State :=
  ((s.modDialog l fun d => { d with phase := .none }).signOnComplete l account .command).enterPrompt l

/-- The controller takes a success for a line that has not cleared (R62, R63). -/
def State.succeed (s : State) (l : LineNo) (account slot cls : Nat) (home : Option ChanNo) (warned : Bool) : State :=
  let s1 := (s.modDialog l fun d => { d with timer := false }).placeLine l (text "SIGNED ON " ++ decimal account)
  let s2 := if warned then s1.placeLine l (text "BUDGET 90% USED") else s1
  let s3 := s2.modCtx l fun x =>
    { x with signOn := some { account := account, slot := slot, effClass := min cls (s.group l).classCap }, units := 0 }
  match home with
  | none => s3.signOnToCommand l account
  | some c =>
    let s4 := s3.modDialog l fun d => { d with phase := .handover }
    match s4.connectRefusal l c with
    | some cs => (s4.placeLine l cs).signOnToCommand l account
    | none => ((s4.signOnComplete l account .waiting).modDialog l fun d => { d with phase := .none }).wayTo l c

/-- The controller takes the result of a check: the notice of a suspension (R60), and the outcome, unless the line has
cleared, when a success is only taken off the presence count (R64). -/
def State.checkResult (s : State) (l : LineNo) (o : CheckOutcome) (suspended : Option (Nat × Nat)) (cleared : Bool) :
    State :=
  let t := match suspended with
    | some (account, rev) =>
      s.noticeWhere (fun u c => (u.chan c).state = .up ∧ (u.right c account).edits) (noticeSuspended account l rev)
    | none => s
  match o with
  | .success account slot cls home warned => if cleared then t.uncount l else t.succeed l account slot cls home warned
  | .refused | .tooMany | .exhausted => if cleared then t else t.refuseAttempt l o

/-- Carriage return in PASS: the fold, a new line, and the check or, for an identifier that is no account number, the
refusal at once (R56, R57). -/
def State.endPass (s : State) (l : LineNo) : State :=
  let fold := foldPass (s.dialog l).field
  let id := (s.dialog l).identifier.getD 0
  let t := (s.modDialog l fun d => { d with phase := .checking, field := [], fold := some fold }).place l newLine
  if 1 ≤ id ∧ id ≤ 65535 then
    ({ t with checks := t.checks ++ [{ line := l, identifier := id, fold := fold }] } : State).offerCheck
  else t.refuseAttempt l .refused

/-- A character in PASS (R56). -/
def State.passChar (s : State) (l : LineNo) (x : Code) : State :=
  let field := (s.dialog l).field
  if 32 ≤ x.toNat ∧ x.toNat ≤ 126 then
    if field.length < Config.passCap then s.modDialog l fun d => { d with field := field ++ [x] } else s.place l bell
  else if x = 8 ∨ x = 127 then
    if field = [] then s.place l bell else s.modDialog l fun d => { d with field := field.dropLast }
  else if x = 21 then (s.modDialog l fun d => { d with field := [] }).placeLine l (text "PW:")
  else if x = 13 then s.endPass l
  else s.place l bell

/-- A character of a line in SIGNON (R10, R54, R56, R63). -/
def State.dialogChar (s : State) (l : LineNo) (x : Code) : State :=
  match (s.dialog l).phase with
  | .ident => s.identChar l x
  | .pass => s.passChar l x
  | .none | .checking | .handover => s

end Sys2Proof.Machine
end

