-- ==== Sys2Proof/Machine/StoreOps.lean ====
section
/-! DEFINITION. The account store: the accesses as they are served, the arbiter's round, the period roll, and the
completion of an access (R32 to R40, R131, R143 to R149, R153 to R163). -/

namespace Sys2Proof.Machine

/-- The writes of an access take effect (R36). -/
def Store.apply (st : Store) : StoreWrite → Store
  | .nothing => st
  | .put slot r => { st with records := tabPut slot r st.records }
  | .insert slot r => { st with records := tabPut slot r st.records, directory := tabPut r.number slot st.directory }
  | .remove slot number => { st with records := tabErase slot st.records, directory := tabErase number st.directory }

/-- An account access of a channel is served with a reply to be sent when it completes. -/
def State.serveReply (s : State) (c : ChanNo) (w : StoreWrite) (o : Outcome) (body : List Byte) : State :=
  s.serve (.chan c) w (.reply c o body)

/-! ## The account accesses -/

/-- The record an ADD makes (R153). -/
def AddFields.record (f : AddFields) (period : Nat) : Record :=
  { number := f.number, state := .active, passCheck := f.passCheck, cls := f.cls, homeHost := f.home,
    hostSet := f.hostSet, budget := f.budget, limit := f.limit, used := 0, previous := 0, stamp := period,
    failures := 0, lastSignOn := none, revision := 0 }

/-- The add access (R34, R153). -/
def State.serveAdd (s : State) (c : ChanNo) (f : AddFields) : State :=
  match s.lookup f.number with
  | some _ => s.serveReply c .nothing .exists_ []
  | none =>
    let slot := lowestFree 0 s.store.records
    if slot < Config.slotCount then
      (s.serveReply c (.insert slot (f.record s.store.periodNumber)) .done
        (bytesBE 2 f.number ++ bytesBE 2 0)).setPresence slot { budget := some (budgetStateFor 0 f.budget 0 none) }
    else s.serveReply c .nothing .full []

/-- The settings an EDIT writes; naming ACTIVE also sets the failure count to 0 (R154). -/
def Record.withSettings (r : Record) (f : EditFields) : Record :=
  { r with state := f.state.getD r.state, passCheck := f.passCheck.getD r.passCheck, cls := f.cls.getD r.cls,
           homeHost := f.home.getD r.homeHost, hostSet := f.hostSet.getD r.hostSet, budget := f.budget.getD r.budget,
           limit := f.limit.getD r.limit, failures := if f.state = some .active then 0 else r.failures }

/-- How many settings differ between two records (R32). -/
def settingsChanged (a b : Record) : Nat :=
  (if a.state = b.state then 0 else 1) + (if a.passCheck = b.passCheck then 0 else 1) + (if a.cls = b.cls then 0 else 1) +
  (if a.homeHost = b.homeHost then 0 else 1) + (if a.hostSet = b.hostSet then 0 else 1) +
  (if a.budget = b.budget then 0 else 1) + (if a.limit = b.limit then 0 else 1) +
  (if a.failures = b.failures then 0 else 1)

/-- The record after an EDIT, its revision counted (R32, R154). -/
def Record.edited (r : Record) (f : EditFields) : Record :=
  { r.withSettings f with revision := bumpRevision r.revision (settingsChanged r (r.withSettings f)) }

/-- The account write access of an EDIT (R154 to R156). A change to HELD clears the account's lines; then a changed
budget recomputes the budget state (assumption 29). -/
def State.serveEdit (s : State) (c : ChanNo) (f : EditFields) : State :=
  match s.lookup f.number with
  | none => s.serveReply c .nothing .notFound []
  | some slot =>
    match s.recordAt slot with
    | none => s.serveReply c .nothing .notFound []
    | some r =>
      if f.revision ≠ r.revision then s.serveReply c .nothing .stale (bytesBE 2 r.revision)
      else
        let n := r.edited f
        let t := s.serveReply c (.put slot n) .done (bytesBE 2 n.revision)
        let t := if n.state = .held ∧ r.state ≠ .held then t.clearLines (t.signedOn slot) .accountHeld else t
        if n.budget = r.budget then t else t.recompute slot

/-- The closed units of an account's item on the waiting list, 0 when it has none (R128). -/
def State.closedUnits (s : State) (slot : Nat) : Nat :=
  match s.cache.waiting.find? fun i => i.slot = slot with
  | some i => i.closed.toList.sum
  | none => 0

/-- The account's item leaves the waiting list; its waiting CHARGE orders are answered NOT FOUND (R129, R135). -/
def State.dropItem (s : State) (slot : Nat) : State :=
  match s.cache.waiting.find? fun i => i.slot = slot with
  | some i =>
    i.charges.foldl (fun t w => t.answer w.channel .notFound [])
      (s.modCache fun k => { k with waiting := k.waiting.filter fun j => j.slot != slot })
  | none => s

/-- The account's entry leaves the write-back queue and every flush set, and becomes FREE (R135). -/
def State.dropEntry (s : State) (slot : Nat) : State :=
  match s.entryOf slot with
  | some e => ((s.leaveFlush e).modCache fun k => { k with queue := k.queue.erase e }).freeEntry e
  | none => s

/-- A write-back that waits at the arbiter for the account in a slot is void: the account has been deleted (R158). -/
def Arbiter.forget (a : Arbiter) (slot : Nat) : Arbiter :=
  { a with writeBack := a.writeBack.map fun o => if o.2 = some slot then (o.1, none) else o }

/-- The delete access (R157). -/
def State.serveDelete (s : State) (c : ChanNo) (number : Nat) : State :=
  match s.lookup number with
  | none => s.serveReply c .nothing .notFound []
  | some slot =>
    match s.recordAt slot with
    | none => s.serveReply c .nothing .notFound []
    | some r =>
      if 0 < (s.presenceOf slot).count ∨ s.meterOpen slot then s.serveReply c .nothing .inUse []
      else
        let final := min (r.used + s.pendingOf slot + s.closedUnits slot) Config.unitMax
        (((((s.serveReply c (.remove slot number) .done (bytesBE 3 final ++ bytesBE 3 r.previous)).modArbiter fun a =>
          a.forget slot).dropItem slot).dropEntry slot).setPresence slot {}).settle

/-- The account read of a READ (R159). -/
def State.serveRead (s : State) (c : ChanNo) (number : Nat) : State :=
  match s.lookup number with
  | none => s.serveReply c .nothing .notFound []
  | some slot =>
    match s.recordAt slot with
    | none => s.serveReply c .nothing .notFound []
    | some r =>
      let t := s.recomputeUnset slot
      let p := t.presenceOf slot
      t.serveReply c .nothing .done (readBody r (t.pendingOf slot) p.count (p.budget.getD .normal))

/-- The numbers a LIST takes (R160). -/
def State.listTaken (s : State) (c : ChanNo) (start : Nat) : List (Nat × Nat) :=
  (s.store.directory.filter fun e => start ≤ e.1 ∧ s.right c e.1 ≠ .none).take Config.listPage

/-- The continuation of a LIST, 0 for "end" (R160, R181). -/
def State.continuation (s : State) (taken : List (Nat × Nat)) : Nat :=
  match taken.getLast? with
  | some e =>
    if taken.length = Config.listPage ∧ s.store.directory.any (fun d => e.1 < d.1) then e.1 + 1 else 0
  | none => 0

/-- The list access (R160). -/
def State.serveList (s : State) (c : ChanNo) (start : Nat) : State :=
  let taken := s.listTaken c start
  s.serveReply c .nothing .done
    (bytesBE 1 taken.length ++
      taken.flatMap (fun e =>
        bytesBE 2 e.1 ++ bytesBE 1 (((s.recordAt e.2).map fun r => accountStateNumber r.state).getD 0)) ++
      bytesBE 2 (s.continuation taken))

/-- The account read of a PROBE (R161). -/
def State.serveProbe (s : State) (c : ChanNo) (number : Nat) : State :=
  let right := bytesBE 1 (rightNumber (s.right c number))
  match s.lookup number with
  | none => s.serveReply c .nothing .notFound right
  | some slot =>
    match s.recordAt slot with
    | none => s.serveReply c .nothing .notFound right
    | some r =>
      let t := s.recomputeUnset slot
      let total := r.used + t.pendingOf slot
      t.serveReply c .nothing .done
        (right ++ flagByte (r.state = .active) ++ flagByte ((t.presenceOf slot).count < r.limit) ++
          flagByte (budgetAllows total r.budget) ++ bytesBE 1 (budgetComparison total r.budget))

/-- Set the result of the access in progress. -/
def State.setResult (s : State) (r : AccessResult) : State :=
  s.modArbiter fun a => { a with current := a.current.map fun x => { x with result := r } }

/-- The account read of a CHARGE (R129, R162): posted at once, or waiting in the account's item. -/
def State.serveCharge (s : State) (c : ChanNo) (number amount : Nat) : State :=
  match s.lookup number with
  | none => s.serveReply c .nothing .notFound []
  | some slot =>
    let t := s.serve (.chan c) .nothing (.chargeWaits c)
    match t.entryFor slot with
    | some (e, u) =>
      let r := u.postCharge e slot c amount
      ((r.1.lookFree e).setResult (.reply c r.2.1 r.2.2)).settle
    | none => (t.modItem slot fun i => { i with charges := i.charges ++ [{ channel := c, amount := amount }] }).settle

/-- The access of the order in execution at a channel is served (R35). -/
def State.serveOrder (s : State) (c : ChanNo) : State :=
  match (s.chan c).orders with
  | [] => s
  | o :: _ =>
    let number := bodyField o.body 0 2
    match o.code.toNat with
    | 9 => match parseAdd o.body with
      | some f => s.serveAdd c f
      | none => s
    | 10 => match parseEdit o.body with
      | some f => s.serveEdit c f
      | none => s
    | 11 => s.serveDelete c number
    | 12 => s.serveRead c number
    | 13 => s.serveList c number
    | 14 => s.serveProbe c number
    | 15 => s.serveCharge c number (bodyField o.body 2 2)
    | _ => s

/-- A channel offers the access of its order, unless its previous access is still in progress (R37, R38). -/
def State.offerOrder (s : State) (c : ChanNo) : State :=
  if s.arbiter.serving (.chan c) then s
  else match s.arbiter.current with
    | none => s.serveOrder c
    | some _ => s.modArbiter fun a => { a with chans := a.chans.set c true }

/-- An access whose reply is discarded has completed: an account order that its channel has kept behind it offers its
access now (R37, R39, assumption 27). -/
def State.offerHeld (s : State) (c : ChanNo) : State :=
  match (s.chan c).reply, (s.chan c).orders with
  | none, o :: _ => if 9 ≤ o.code.toNat ∧ o.code.toNat ≤ 15 then s.offerOrder c else s
  | _, _ => s

/-! ## The period roll -/

/-- The record a roll access writes, with the snapshot `snap` of cache pending (R146). -/
def Record.rolled (r : Record) (snap period : Nat) : Record :=
  { r with previous := r.used + snap, used := 0, stamp := period }

/-- The roll access (R146). -/
def State.serveRoll (s : State) (slot : Nat) : State :=
  match s.recordAt slot with
  | none => s.serve .roll .nothing (.roll slot)
  | some r =>
    if r.stamp = s.store.periodNumber then s.serve .roll .nothing (.roll slot)
    else
      let snap := s.pendingOf slot
      let t := s.serve .roll (.put slot (r.rolled snap s.store.periodNumber)) (.roll slot)
      let t := match s.entryOf slot with
        | some e =>
          let u := t.modEntry e fun x => { x with pending := x.pending - snap }
          if 0 < snap then u.leaveFlush e else u
        | none => t
      ((t.recompute slot).lookAccount slot).settle

/-- The next slot due for the roll: from the roll index on, occupied, with another stamp (R145). -/
def Store.nextDue (st : Store) : Option Nat :=
  (st.records.find? fun e => st.rollIndex ≤ e.1 && e.2.stamp != st.periodNumber).map (·.1)

/-- The roll visits the slots from its index on: it stops at a slot that is due and offers its access, or completes at
4096 (R145). In OPEN it does nothing. -/
def State.rollVisit (s : State) : State :=
  match s.store.periodState with
  | .opened => s
  | .closing =>
    match s.store.nextDue with
    | some slot =>
      let t := s.modStore fun st => { st with rollIndex := slot }
      match t.arbiter.current with
      | none => t.serveRoll slot
      | some _ => t.modArbiter fun a => { a with roll := some slot }
    | none =>
      (s.modStore fun st => { st with rollIndex := Config.slotCount, periodState := .opened }).noticeToUp
        (noticePeriodClosed s.store.periodNumber s.rating.calendar)

/-! ## The round -/

/-- The cyclic order of the requesters (R38). -/
def roundOrder : List Requester := [.signOn, .writeBack, .roll, .chan 0, .chan 1, .chan 2, .chan 3]

/-- The round that begins with the requester after the one just served, which is looked at last (R38). -/
def roundAfter (r : Requester) : List Requester :=
  (roundOrder.dropWhile (· != r)).drop 1 ++ roundOrder.takeWhile (· != r) ++ [r]

/-- Whether a requester has an access waiting (R37). -/
def Arbiter.waits (a : Arbiter) : Requester → Bool
  | .signOn => a.signOn
  | .writeBack => a.writeBack.isSome
  | .roll => a.roll.isSome
  | .chan c => a.chans.get c

/-- Serve the waiting access of a requester. -/
def State.serveWaiting (s : State) : Requester → State
  | .signOn => (s.modArbiter fun a => { a with signOn := false }).serveCheck
  | .writeBack =>
    match s.arbiter.writeBack with
    | some (e, slot) => (s.modArbiter fun a => { a with writeBack := none }).serveWriteBack e slot
    | none => s
  | .roll =>
    match s.arbiter.roll with
    | some slot => (s.modArbiter fun a => { a with roll := none }).serveRoll slot
    | none => s
  | .chan c => (s.modArbiter fun a => { a with chans := a.chans.set c false }).serveOrder c

/-- The arbiter chooses the next access; with none waiting it becomes idle (R38). -/
def State.serveNext (s : State) (last : Requester) : State :=
  let t := s.modArbiter fun a => { a with current := none }
  match (roundAfter last).find? t.arbiter.waits with
  | some r => t.serveWaiting r
  | none => t

/-! ## Completion -/

/-- The members of a flush set when a write-back of an entry has completed: a member served after the FLUSH was taken
leaves; one that the FLUSH found WRITING stays, to be written back again, unless the entry becomes FREE (R132, assumption
19). -/
def State.flushWrittenOf (s : State) (c : ChanNo) (e : Fin 32) (frees : Bool) : State :=
  match (s.cache.flush.get c).bind fun set => set.find? fun m => m.entry = e with
  | none => s
  | some m =>
    if m.again && !frees then
      let written := (s.cache.flush.get c).map fun set =>
        set.map fun n => if n.entry = e then { n with again := false } else n
      s.modCache fun k => { k with flush := k.flush.set c written }
    else s.leaveFlushOf c e

/-- A write-back has completed: the cache takes w off pending as the record's used gains it, and the entry becomes FREE
or GATHERING (R131). -/
def State.writeBackDone (s : State) (e : Fin 32) : State :=
  let x := s.entry e
  let frees := x.pending - x.snapshot = 0 && (x.evicted || !(x.slot.any fun k => s.meterOpen k))
  let s1 := s.modEntry e fun y => { y with pending := y.pending - y.snapshot, snapshot := 0, state := .gathering }
  let s2 := allChans.foldl (fun t c => t.flushWrittenOf c e frees) s1
  let s3 := if frees then s2.freeEntry e else s2.lookDue e
  ((match x.slot with
    | some slot => s3.recompute slot
    | none => s3).offerWriteBack).settle

/-- The result of a completed access goes to its requester (R36). -/
def State.takeResult (s : State) : AccessResult → State
  | .discarded c => s.offerHeld c
  | .taken | .chargeWaits _ => s
  | .check l o suspended cleared => (s.checkResult l o suspended cleared).offerCheck
  | .writeBack e => s.writeBackDone e
  | .writeBackVoid => s.offerWriteBack
  | .roll slot => (s.modStore fun st => { st with rollIndex := slot + 1 }).rollVisit
  | .reply c o body => s.answer c o body

/-- The access in progress completes: its writes take effect, its result goes to its requester, and the arbiter serves
the next (R36, R38). -/
def State.completeAccess (s : State) : State :=
  match s.arbiter.current with
  | none => s
  | some a =>
    (((s.modStore fun st => st.apply a.write).modArbiter fun b =>
        { b with current := some { a with write := .nothing, result := .taken } }).takeResult a.result).serveNext a.who

end Sys2Proof.Machine
end

