-- ==== Sys2Proof/Machine/OrderOps.lean ====
section
/-! DEFINITION. The channel units: how an order arrives, is judged and is carried out, one definition for each order,
and the failure of a channel (R88, R96 to R100, R102 to R104, R165 to R180). -/

namespace Sys2Proof.Machine

/-! ## Line orders -/

/-- DISABLE LINE at a line (R22). -/
def State.disableLine (s : State) (l : LineNo) : State :=
  let t := s.modUnit l fun u => { u with enabled := false }
  match (s.unit l).state with
  | .idle => t.modUnit l fun u => { u with state := .off, ringCount := 0 }
  | _ => t.clearLine l .lineDisabled

/-- ENABLE LINE at a line (R22). -/
def State.enableLine (s : State) (l : LineNo) : State :=
  let t := s.modUnit l fun u => { u with enabled := true }
  match (s.unit l).state with
  | .off =>
    if (s.unit l).health = .barred then t.modUnit l fun u => { u with state := .barred, quietTimer := true }
    else t.modUnit l LineUnit.rest
  | _ => t

/-- A BARRED line is released to IDLE or OFF and its quiet timer stops (R20, R21, R24). -/
def State.releaseLine (s : State) (l : LineNo) : State :=
  if (s.unit l).state = .barred then s.modUnit l fun u => { u with quietTimer := false }.rest else s

/-- RESTORE LINE at a line (R21). -/
def State.restoreLine (s : State) (l : LineNo) : State := (s.setHealth l 0 .good).releaseLine l

/-- RESET GROUP at a line of the group (R24). -/
def State.resetLine (s : State) (l : LineNo) : State :=
  let t := ((s.clearLine l .groupReset).setHealth l 0 .good).releaseLine l
  if (t.unit l).state = .idle then t.modUnit l fun u => { u with ringCount := 0 } else t

/-- The lines of a group: group g holds lines 8g to 8g + 7 (00_scope). That RESET GROUP takes them in ascending order is the
model's choice (assumption 42). -/
def groupLines (g : Nat) : List LineNo := allLines.filter fun l => l.val / 8 = g

/-! ## Channel orders -/

/-- A new port table, all FREE (R87, R88). -/
def newPorts (a : AttachParams) : List Port :=
  (List.range a.portCount).map fun i => { circuit := (a.base + i) % 65536 }

/-- ATTACH: in UP a restart of the computer (R167, R168, R104). -/
def State.orderAttach (s : State) (c : ChanNo) (o : Order) : State :=
  match parseAttach o.body with
  | none => s.answer c .badValue []
  | some a =>
    let t := if (s.chan c).state = .up then
        (s.endPorts c .hostRestart (hostText c " RESTARTED")).modChan c Channel.clearFaults
      else s
    let t := t.modChan c fun ch =>
      { ch with state := .up, name := some a.name, params := some a.params, masks := a.masks, silence := true,
                ports := newPorts a.params, queue := [] }
    t.answer c .done (attachBody t)

/-- DETACH: the channel is QUIESCING; the queue and the OPENING ports are withdrawn (R169, R102). -/
def State.orderDetach (s : State) (c : ChanNo) : State :=
  let cs := hostText c " CLOSING"
  let t := ((s.modChan c fun ch => { ch with state := .quiescing }).answer c .done []).dropQueue c cs
  ((t.portsIn c .opening).foldl (fun u p => u.dropOpening c cs p) t).quiesceIfDone c

/-- IDLE: the notices-lost flag and the calendar; the flag is cleared (R173). -/
def State.orderIdle (s : State) (c : ChanNo) : State :=
  (s.answer c .done (idleBody (s.chan c).lost s.rating.calendar)).modChan c fun ch => { ch with lost := false }

/-- SYNC (R125). -/
def State.orderSync (s : State) (c : ChanNo) : State :=
  (s.answer c .done (syncBody (s.chan c))).modChan c fun ch =>
    { ch with sticky := {}, faults := [], moreFaults := false, faultPending := false }

/-! ## Port orders -/

/-- The port an order names, with its entry; a number not below the port count is answered BAD VALUE (R88). -/
def State.withPort (s : State) (c : ChanNo) (o : Order) (act : Nat → Port → State) : State :=
  let p := bodyField o.body 0 1
  match s.port? c p with
  | some x => act p x
  | none => s.answer c .badValue []

/-- The circuit of an OPENING port is completed (R96). -/
def State.bindPort (s : State) (c : ChanNo) (p : Nat) (x : Port) : State :=
  match x.line with
  | none => s
  | some l =>
    let so := (s.ctx l).signOn
    let slot := x.slot.getD 0
    let k := ((s.unit l).speed.map Speed.cls).getD .slow
    let s1 := s.modPort c p fun y => { y with state := .bound, timer := false, flow := some {} }
    let s2 := s1.openMeter c p l slot k ((so.map (·.effClass)).getD 0)
    let s3 := s2.modCtx l fun y => { y with stack := y.stack ++ [{ channel := c, port := p, state := .live }] }
    s3.toConnected l

/-- ACCEPT (R96). -/
def State.orderAccept (s : State) (c : ChanNo) (o : Order) : State :=
  s.withPort c o fun p x =>
    match x.state with
    | .opening => (s.bindPort c p x).answer c .done []
    | .closing | .free => s.answer c .gone []
    | .bound => s.answer c .notFound []

/-- The opening of a port ends: its line returns to COMMAND with `HOST x REFUSED`, and the port becomes FREE (R97). -/
def State.refuseOpening (s : State) (c : ChanNo) (p : Nat) : State :=
  (s.dropOpening c (hostText c " REFUSED") p).portFree c p

/-- REFUSE (R97). -/
def State.orderRefuse (s : State) (c : ChanNo) (o : Order) : State :=
  s.withPort c o fun p x =>
    match x.state with
    | .opening => (s.refuseOpening c p).answer c .done []
    | .closing | .free => s.answer c .gone []
    | .bound => s.answer c .notFound []

/-- CLOSE PORT (R100). -/
def State.orderClosePort (s : State) (c : ChanNo) (o : Order) : State :=
  s.withPort c o fun p x =>
    match x.state with
    | .bound =>
      ((s.removeSession c p .hostClose (text "SESSION ENDED BY " ++ hostText c "")).portFree c p).answer c .done []
    | .closing => (s.portFree c p).answer c .gone []
    | .free => s.answer c .gone []
    | .opening => s.answer c .notFound []

/-- CLOSE ACK (R99). -/
def State.orderCloseAck (s : State) (c : ChanNo) (o : Order) : State :=
  s.withPort c o fun p x =>
    match x.state with
    | .closing => (s.portFree c p).answer c .done []
    | .free => s.answer c .gone []
    | .opening | .bound => s.answer c .notFound []

/-! ## Account orders: the values are examined, then the access is offered (R152) -/

/-- ADD (R153). -/
def State.orderAdd (s : State) (c : ChanNo) (o : Order) : State :=
  match parseAdd o.body with
  | some _ => s.offerOrder c
  | none => s.answer c .badValue []

/-- EDIT (R154). -/
def State.orderEdit (s : State) (c : ChanNo) (o : Order) : State :=
  match parseEdit o.body with
  | some _ => s.offerOrder c
  | none => s.answer c .badValue []

/-- DELETE (R157). -/
def State.orderDelete (s : State) (c : ChanNo) : State := s.offerOrder c

/-- READ (R159). -/
def State.orderRead (s : State) (c : ChanNo) : State := s.offerOrder c

/-- LIST (R160). -/
def State.orderList (s : State) (c : ChanNo) : State := s.offerOrder c

/-- PROBE (R161). -/
def State.orderProbe (s : State) (c : ChanNo) : State := s.offerOrder c

/-- CHARGE: an amount of 0 is refused (R162). -/
def State.orderCharge (s : State) (c : ChanNo) (o : Order) : State :=
  if bodyField o.body 2 2 = 0 then s.answer c .badValue [] else s.offerOrder c

/-- FLUSH: every entry with pending above 0 is in the set; those that are GATHERING become due (R132, R164). -/
def State.orderFlush (s : State) (c : ChanNo) : State :=
  let set := (List.finRange 32).filter fun e => 0 < (s.entry e).pending
  if set.isEmpty then s.answer c .done []
  else
    let members := set.map fun e => ({ entry := e, again := (s.entry e).state = .writing } : FlushMember)
    set.foldl (fun t e => t.lookDue e) (s.modCache fun k => { k with flush := k.flush.set c (some members) })

/-! ## Operator orders and reports -/

/-- SET TIME (R110). -/
def State.orderSetTime (s : State) (c : ChanNo) (o : Order) : State :=
  let day := bodyField o.body 0 1
  let time := bodyField o.body 1 3
  if 6 < day ∨ Config.daySeconds ≤ time then s.answer c .badValue []
  else
    ((s.modRating fun r => { r with calendar := { weekday := day, time := time } }).loadSegments).answer c .done []

/-- SET BANNER (R46, R175). -/
def State.orderSetBanner (s : State) (c : ChanNo) (o : Order) : State :=
  if textOk o.body then
    (s.modStore fun st => { st with banner := codesOf (o.body.take Config.bannerCap) }).answer c .done []
  else s.answer c .badValue []

/-- LOAD TARIFF (R114). -/
def State.orderLoadTariff (s : State) (c : ChanNo) (o : Order) : State :=
  match parseTariff o.body with
  | some items =>
    (s.modRating fun r => { r with standby := items.foldl Bank.write r.standby, armed := false }).answer c .done []
  | none => s.answer c .badValue []

/-- ARM TARIFF (R115). -/
def State.orderArmTariff (s : State) (c : ChanNo) : State :=
  (s.modRating fun r => { r with armed := true }).answer c .done []

/-- CLOSE PERIOD (R144, R145). -/
def State.orderClosePeriod (s : State) (c : ChanNo) : State :=
  match s.store.periodState with
  | .closing => s.answer c .busy []
  | .opened =>
    let n := (s.store.periodNumber + 1) % 65536
    ((s.modStore fun st =>
        { st with periodNumber := n, periodState := .closing, rollIndex := 0, chargesLost := false }).answer c .done
      (bytesBE 2 n)).rollVisit

/-- The line an order names; a number above 63 is answered BAD VALUE (R21, R22, R25). -/
def State.withLine (s : State) (c : ChanNo) (o : Order) (act : LineNo → State) : State :=
  match lineOf (bodyField o.body 0 1) with
  | some l => act l
  | none => s.answer c .badValue []

/-- ENABLE LINE (R22). -/
def State.orderEnableLine (s : State) (c : ChanNo) (o : Order) : State :=
  if s.setup then s.answer c .wrongState []
  else s.withLine c o fun l => (s.enableLine l).answer c .done []

/-- DISABLE LINE (R22). -/
def State.orderDisableLine (s : State) (c : ChanNo) (o : Order) : State :=
  if s.setup then s.answer c .wrongState []
  else s.withLine c o fun l => (s.disableLine l).answer c .done []

/-- RESTORE LINE (R21). -/
def State.orderRestoreLine (s : State) (c : ChanNo) (o : Order) : State :=
  s.withLine c o fun l => (s.restoreLine l).answer c .done []

/-- RESET GROUP (R24). -/
def State.orderResetGroup (s : State) (c : ChanNo) (o : Order) : State :=
  let g := bodyField o.body 0 1
  if 7 < g then s.answer c .badValue []
  else ((groupLines g).foldl (fun t l => t.resetLine l) s).answer c .done []

/-- RESTART begins the orderly restart and stays in execution (R134, R176). -/
def State.orderRestart (s : State) : State :=
  (List.finRange 32).foldl (fun t e => t.lookDue e) (s.modCache fun k => { k with restarting := true })

/-- READ LINE (R25). -/
def State.orderReadLine (s : State) (c : ChanNo) (o : Order) : State :=
  s.withLine c o fun l => s.answer c .done (readLineBody (s.unit l) (s.store.configuredEnable l))

/-- READ TARIFF (R116). -/
def State.orderReadTariff (s : State) (c : ChanNo) (o : Order) : State :=
  match bodyField o.body 0 1 with
  | 0 => s.answer c .done (readTariffBody s.rating.active s.rating)
  | 1 => s.answer c .done (readTariffBody s.rating.standby s.rating)
  | _ => s.answer c .badValue []

/-- READ CONFIG (R41). -/
def State.orderReadConfig (s : State) (c : ChanNo) : State := s.answer c .done (readConfigBody s.store)

/-- WRITE CONFIG: taken in SETUP (R42, R177). -/
def State.orderWriteConfig (s : State) (c : ChanNo) (o : Order) : State :=
  if !s.setup then s.answer c .wrongState []
  else match s.store.writeItem (bodyField o.body 0 1) (bodyField o.body 1 2) with
    | some st => ({ s with store := { st with initialised := false } } : State).answer c .done []
    | none => s.answer c .badValue []

/-! ## How an order is judged (R172) -/

/-- Whether an order code is one of the table of R180. -/
def knownCode (code : Nat) : Bool := 1 ≤ code && code ≤ 30

/-- The body length the table of R180 gives a known order; none where it is variable. -/
def bodyLength (code : Nat) : Option Nat :=
  match code with
  | 1 | 18 | 19 => none
  | 5 | 6 | 7 | 8 | 22 | 23 | 24 | 25 | 27 | 28 => some 1
  | 9 => some 14
  | 10 => some 18
  | 11 | 12 | 13 | 14 => some 2
  | 15 | 17 => some 4
  | 30 => some 3
  | _ => some 0

/-- Whether the length of a known order fits: the frame is 6 plus the body length of its header and no longer than 518
bytes, and the body length is the table's, or for ATTACH 6 plus the name length the body gives (R179, R180). The items
of LOAD TARIFF are judged with its values. -/
def Order.lengthFits (o : Order) : Bool :=
  o.frameLen = 6 + o.bodyLen.toNat && decide (o.bodyLen.toNat ≤ Config.bodyCap) &&
    match bodyLength o.code.toNat with
    | some n => o.bodyLen.toNat = n
    | none => o.code.toNat != 1 || (6 ≤ o.body.length && o.bodyLen.toNat = 6 + bodyField o.body 5 1)

/-- Whether the channel state allows an order (R166). -/
def ChanState.allows (st : ChanState) (code : Nat) : Bool :=
  match code with
  | 1 => st != .quiescing
  | 2 => st = .up
  | 3 | 29 | 30 => true
  | _ => st = .up || st = .quiescing

/-- The orders that FAULT PENDING lets through: DETACH, IDLE, SYNC and the port orders (R172). -/
def passesFault (code : Nat) : Bool := 2 ≤ code && code ≤ 8

/-- The operator orders (R175). -/
def isOperatorOrder (code : Nat) : Bool := 17 ≤ code && code ≤ 26

/-- Whether a channel's rights permit an order (R45, R152). -/
def State.rightFor (s : State) (c : ChanNo) (o : Order) : Bool :=
  let right := s.right c (bodyField o.body 0 2)
  match o.code.toNat with
  | 9 | 10 | 11 => right.edits
  | 12 | 14 => right != .none
  | 15 => right.charges
  | n => !isOperatorOrder n || s.operator c

/-- The outcome of the first of the steps 1 to 4 that refuses an order (R172). -/
def State.refusalOf (s : State) (c : ChanNo) (o : Order) : Option Outcome :=
  if !knownCode o.code.toNat then some .badOrder
  else if !o.lengthFits then some .badValue
  else if !(s.chan c).state.allows o.code.toNat then some .wrongState
  else if (s.chan c).faultPending && !passesFault o.code.toNat then some .faultPending
  else if !s.rightFor c o then some .noRight
  else none

/-- Carry out an order that the steps 1 to 4 let through (R172, step 5). -/
def State.runOrder (s : State) (c : ChanNo) (o : Order) : State :=
  match o.code.toNat with
  | 1 => s.orderAttach c o
  | 2 => s.orderDetach c
  | 3 => s.orderIdle c
  | 4 => s.orderSync c
  | 5 => s.orderAccept c o
  | 6 => s.orderRefuse c o
  | 7 => s.orderClosePort c o
  | 8 => s.orderCloseAck c o
  | 9 => s.orderAdd c o
  | 10 => s.orderEdit c o
  | 11 => s.orderDelete c
  | 12 => s.orderRead c
  | 13 => s.orderList c
  | 14 => s.orderProbe c
  | 15 => s.orderCharge c o
  | 16 => s.orderFlush c
  | 17 => s.orderSetTime c o
  | 18 => s.orderSetBanner c o
  | 19 => s.orderLoadTariff c o
  | 20 => s.orderArmTariff c
  | 21 => s.orderClosePeriod c
  | 22 => s.orderEnableLine c o
  | 23 => s.orderDisableLine c o
  | 24 => s.orderRestoreLine c o
  | 25 => s.orderResetGroup c o
  | 26 => s.orderRestart
  | 27 => s.orderReadLine c o
  | 28 => s.orderReadTariff c o
  | 29 => s.orderReadConfig c
  | 30 => s.orderWriteConfig c o
  | _ => s.answer c .badOrder []

/-- The order at the head of the queue comes into execution (R171, R172). -/
def State.executeHead (s : State) (c : ChanNo) : State :=
  match (s.chan c).orders with
  | [] => s
  | o :: _ =>
    match s.refusalOf c o with
    | some r => s.answer c r []
    | none => s.runOrder c o

/-! ## Records on the link -/

/-- A record received from the computer restarts the silence timer in UP and QUIESCING (R170, R179). -/
def State.heard (s : State) (c : ChanNo) : State :=
  s.modChan c fun ch =>
    match ch.state with
    | .up | .quiescing => { ch with silence := true }
    | .down | .failed => ch

/-- The order a frame carries; of a frame longer than 518 bytes only the header is kept (R179). -/
def orderOf (code : Byte) (f : OrderFrame) : Order :=
  { code := code, seq := f.seq, bodyLen := f.bodyLen, frameLen := 6 + f.body.length,
    body := if f.body.length ≤ Config.bodyCap then f.body else [] }

/-- An order arrives: it joins the queue and, at its head, comes into execution; at a full queue it is answered BUSY
(R171, R179). -/
def State.arrive (s : State) (c : ChanNo) (code : Byte) (f : OrderFrame) : State :=
  let t := s.heard c
  if Config.orderCap ≤ (s.chan c).orders.length then
    t.modChan c fun ch => { ch with busy := ch.busy ++ [{ outcome := .busy, seq := f.seq, body := [] }] }
  else
    let u := t.modChan c fun ch => { ch with orders := ch.orders ++ [orderOf code f] }
    if (s.chan c).orders = [] then u.executeHead c else u

/-- The link takes a reply: a BUSY reply ahead of the others; else that of the order in execution, which leaves the
queue, and the next order comes into execution (R171). -/
def State.sendReply (s : State) (c : ChanNo) : State :=
  match (s.chan c).busy, (s.chan c).reply with
  | r :: rest, _ => s.modChan c fun ch => { ch with busy := rest, linkOut := some (.reply r) }
  | [], some r =>
    (s.modChan c fun ch => { ch with orders := ch.orders.tail, reply := none, linkOut := some (.reply r) }).executeHead c
  | [], none => s

/-! ## Failure of a channel -/

/-- What the channel's orders had under way ends: an access waiting is withdrawn, an access in progress completes with
its reply discarded, a CHARGE in an item is removed, a flush set is dropped (R39, R129, R132, R170). What becomes of a second
write-back that only the dropped set asked for is assumption 49. -/
def State.dropOrders (s : State) (c : ChanNo) : State :=
  let s1 := s.modArbiter fun a =>
    { a with chans := a.chans.set c false,
             current := a.current.map fun x => if x.who = .chan c ∧ x.result ≠ .taken then { x with result := .discarded c } else x }
  let s2 := s1.modCache fun k =>
    { k with flush := k.flush.set c none,
             waiting := k.waiting.map fun i => { i with charges := i.charges.filter fun w => w.channel != c } }
  s2.modChan c fun ch => { ch with orders := [], reply := none }

/-- The silence timer has expired (R170, R103). The sessions are closed before the waiting CHARGEs are removed, so that one
may be posted by an entry which those closes free (assumption 48). -/
def State.channelFail (s : State) (c : ChanNo) : State :=
  let s1 := s.modChan c fun ch => { ch with state := .failed, silence := false }
  let s2 := (s1.endPorts c .hostFailed (hostText c " NOT RESPONDING")).dropOrders c
  s2.modChan c fun ch =>
    { ch.clearFaults with masks := {}, notices := [], lost := ch.lost || !ch.notices.isEmpty, name := none,
                          params := none }

end Sys2Proof.Machine
end

