-- ==== Sys2Proof/Machine/CallerOps.lean ====
section
/-! DEFINITION. What a caller's characters do once the speed is locked, and what the line sends (R5 to R11, R70 to R74,
R82, R93). -/

namespace Sys2Proof.Machine

/-! ## Finding the speed -/

/-- A failed speed attempt (R6). -/
def State.failAttempt (s : State) (l : LineNo) : State :=
  let n := (s.unit l).attempts - 1
  if 0 < n then s.modUnit l fun u => { u with attempts := n, speedWindow := true, awaitMark := true }
  else ((s.modUnit l fun u => { u with attempts := 0, awaitMark := true }).clearLine l .speedFailed).raiseScore l 8

/-- A measured character (R5, R7). -/
def State.attemptSpeed (s : State) (l : LineNo) (micros : Nat) (data : Code) : State :=
  match speedOf micros with
  | some v =>
    if data = 13 then
      (s.modUnit l fun u => { u with state := .signOn, speed := some v, speedWindow := false }).enterSignOn l
    else s.failAttempt l
  | none => s.failAttempt l

/-! ## Typed commands -/

/-- A command field as it is read (R74). -/
inductive TypedCommand where
  | empty | connect (c : ChanNo) | resume | rotate | endSession | logoff | status | unknown
deriving DecidableEq, Repr

/-- Letters a to z are read as A to Z (R74). -/
def upper (x : Code) : Code := if 97 ≤ x.toNat ∧ x.toNat ≤ 122 then x - 32 else x

/-- The words of a field: spaces separate them and count for nothing else (R74). -/
def wordsOf (cs : List Code) : List (List Code) := (cs.splitOn 32).filter fun w => w != []

/-- The host a CONNECT names: a word that is a single letter A to D (R74). -/
def hostOf : List Code → Option ChanNo
  | [x] => if 65 ≤ x.toNat then chanOf (x.toNat - 65) else none
  | _ => none

/-- How a command field reads (R74). -/
def readCommand (field : List Code) : TypedCommand :=
  match wordsOf (field.map upper) with
  | [] => .empty
  | [w] =>
    if w = text "RESUME" then .resume
    else if w = text "ROTATE" then .rotate
    else if w = text "END" then .endSession
    else if w = text "LOGOFF" then .logoff
    else if w = text "STATUS" then .status
    else .unknown
  | [w, h] =>
    if w = text "CONNECT" then
      match hostOf h with
      | some c => .connect c
      | none => .unknown
    else .unknown
  | _ => .unknown

/-- The command field is emptied once it has been read (R74). -/
def State.emptyField (s : State) (l : LineNo) : State := s.modCtx l fun x => { x with field := [] }

/-- Carry out a command that has been read from the field (R74). -/
def State.runCommand (s : State) (l : LineNo) : TypedCommand → State
  | .empty => s.prompt l
  | .connect c => s.runConnect l c
  | .resume => s.runResume l
  | .rotate => s.runRotate l
  | .endSession => s.runEnd l
  | .logoff => s.runLogoff l .logoff
  | .status => s.runStatus l
  | .unknown => s.commandReply l (text "?")

/-- A character of a line in COMMAND (R72, R73). -/
def State.commandChar (s : State) (l : LineNo) (x : Code) : State :=
  let t := s.modCtx l fun y => { y with idleTimer := true }
  let field := (s.ctx l).field
  if 32 ≤ x.toNat ∧ x.toNat ≤ 126 then
    if field.length < Config.commandCap then (t.modCtx l fun y => { y with field := field ++ [x] }).place l [x]
    else t.place l bell
  else if x = 8 ∨ x = 127 then
    if field = [] then t.place l bell else (t.modCtx l fun y => { y with field := field.dropLast }).place l rubOut
  else if x = 21 then (t.emptyField l).prompt l
  else if x = 13 then (t.emptyField l).runCommand l (readCommand field)
  else t.place l bell

/-! ## The attention character -/

/-- An attention character in WAITING is an abandon (R93). -/
def State.abandon (s : State) (l : LineNo) : State :=
  ((s.leaveQueues l).closeOpenings l .abandoned).returnToCommand l (text "CONNECT ABANDONED")

/-- A character of a line in CONNECTED (R70, R71, R83). -/
def State.connectedChar (s : State) (l : LineNo) (x : Code) : State :=
  let att := (s.group l).attention
  match (s.ctx l).attention with
  | .none =>
    if x = att then s.modCtx l fun y => { y with attention := .pending, attentionTimer := true } else s.inputChar l x
  | .pending =>
    let t := s.modCtx l fun y => { y with attention := .none, attentionTimer := false }
    if x = att then t.inputChar l x else (t.leaveConnected l).commandChar l x

/-- A character that passed its checks is handed on by line state (R10). -/
def State.takeChar (s : State) (l : LineNo) (x : Code) : State :=
  match (s.unit l).state with
  | .signOn => s.dialogChar l x
  | .command => s.commandChar l x
  | .waiting => if x = (s.group l).attention then s.abandon l else s.place l bell
  | .connected => s.connectedChar l x
  | .off | .idle | .answer | .speed | .clearing | .barred => s

/-- Whether a line takes characters: the speed is locked, no line hit is running, and the guard is not (R8, R12,
R15). -/
def LineUnit.listens (u : LineUnit) : Bool :=
  !u.lineHit && !u.guardTimer &&
    match u.state with
    | .signOn | .command | .waiting | .connected | .clearing => u.speed.isSome
    | .off | .idle | .answer | .speed | .barred => false

/-- A character framed by a line unit (R8): a parity or framing error is discarded and scored. -/
def State.receiveChar (s : State) (l : LineNo) (x : Code) (parity stop : Bool) : State :=
  if !(s.unit l).listens then s
  else if stop && parityOk (s.group l).parity x parity then s.takeChar l x
  else s.faultScore l 1

/-- A break in CONNECTED (R84). -/
def State.sendBreak (s : State) (l : LineNo) : State :=
  match s.liveSession l with
  | none => s
  | some e =>
    if s.hostStopped e.channel e.port then s.queueData e.channel { port := e.port, brk := true }
    else
      ((s.modUnit l fun u => { u with input := [] }).modCtx l fun x => { x with forwardTimer := false }).queueData
        e.channel { port := e.port, brk := true, chars := (s.unit l).input }

/-! ## Sending -/

/-- A character on serial data out (R8). -/
def State.framed (s : State) (l : LineNo) (x : Code) : TxChar :=
  { code := x, parity := parityBit (s.group l).parity x, stops := ((s.unit l).speed.map Speed.stops).getD 1 }

/-- The line starts the oldest character of its part-message buffer; in CLEARING the guard starts when this empties the
buffer (R11, R15). -/
def State.startMessage (s : State) (l : LineNo) (x : Code) (rest : List Code) : State :=
  let t := s.modUnit l fun u => { u with partMsg := rest, sending := some (s.framed l x) }
  if (s.unit l).state = .clearing ∧ rest = [] then t.startGuard l else t

/-- The line starts the oldest character of the LIVE port's output buffer; START is sent when this brings a stopped
buffer to 64 (R11, R82). -/
def State.startOutput (s : State) (l : LineNo) : State :=
  match s.liveSession l with
  | none => s
  | some e =>
    match s.flow? e.channel e.port with
    | none => s
    | some f =>
      match f.output with
      | [] => s
      | x :: rest =>
        let started := f.stopSent && rest.length = Config.startAt
        let t := (s.modFlow e.channel e.port fun g => { g with output := rest, stopSent := g.stopSent && !started }).modUnit
          l fun u => { u with sending := some (s.framed l x) }
        if started then t.indicate e.channel e.port .start else t

/-- Whether a line is free to start a character: none is in progress, the speed is locked, and neither a line hit nor the
guard is running (R11, R15). -/
def LineUnit.free (u : LineUnit) : Bool := u.sending.isNone && u.speed.isSome && !u.lineHit && !u.guardTimer

/-- A line that is free to start a character starts one: the oldest of its part-message buffer, else the next of the LIVE
port's output buffer (R11). -/
def State.startNext (s : State) (l : LineNo) : State :=
  if (s.unit l).free then
    match (s.unit l).partMsg with
    | x :: rest => s.startMessage l x rest
    | [] => if (s.unit l).state = .connected then s.startOutput l else s
  else s

/-- Every line that is free to start a character starts one (R11). Lines take their turn in ascending order (assumption
46). -/
def State.started (s : State) : State := allLines.foldl State.startNext s

/-- The character in progress is completed (R11, R12). -/
def State.charSent (s : State) (l : LineNo) : State := s.modUnit l fun u => { u with sending := none }

end Sys2Proof.Machine
end

