-- ==== Sys2Proof/Machine/Resets.lean ====
section
/-! DEFINITION. The full resets, the loss of the main supply, and the timekeeper (R26, R28, R40, R48, R105, R109, R133,
R134, R150, R165, R177). -/

namespace Sys2Proof.Machine

/-- What is held for a line after a full reset (R26). -/
def Store.lineAfterReset (st : Store) (setup : Bool) (l : LineNo) : Line :=
  let on := !setup && st.configuredEnable l
  { unit := { state := if on then .idle else .off, enabled := on } }

/-- The rating unit after a full reset: the calendar, the banks and the armed flag are kept, and the steady count is 0, in
REFERENCE too (R105, assumption 22). -/
def Rating.afterReset (r : Rating) (reference : Bool) : Rating :=
  { r with clock := if reference then .reference else .fallback, steady := 0, billingTimer := true, meters := [] }

/-- The rating unit's retained state when the store was found not valid (R105). -/
def Rating.notValid (r : Rating) : Rating :=
  { r with calendar := {}, active := {}, standby := {}, armed := false }

/-- The retained store as a full reset leaves it: an access in progress completes (R40), a damaged mark initialises the
store (R28), and a marker found set by a power or reset-input reset sets the charges-lost flag (R133). -/
def State.storeAfterReset (s : State) (cause : ResetCause) : Store :=
  let st := s.store.apply ((s.arbiter.current.map (·.write)).getD .nothing)
  if st.validityMark then { st with chargesLost := st.chargesLost || (s.dirtyMarker && cause != .restart) } else {}

/-- A full reset (R26, R28, R48, R49, R50, R67, R105, R126, R133, R150, R165, R177). -/
def State.fullReset (s : State) (cause : ResetCause) (switchOn reference : Bool) : State :=
  let st := s.storeAfterReset cause
  let r := if s.store.validityMark then s.rating else s.rating.notValid
  State.rollVisit
    { lines := Vector.ofFn (st.lineAfterReset switchOn), rating := r.afterReset reference, store := st,
      resetCause := cause, setup := switchOn, pending := s.pending }

/-- The main supply fails: an access in progress finishes its writes on the battery, and every volatile state is lost
(R27, R40, R150). The retained state, and the timekeeper's calendar, are kept. -/
def State.loseSupply (s : State) : State :=
  { rating := { s.rating with clock := .reference, steady := 0, billingTimer := false, meters := [] },
    dirtyMarker := s.dirtyMarker,
    store := s.store.apply ((s.arbiter.current.map (·.write)).getD .nothing),
    resetCause := s.resetCause, setup := s.setup, powered := false, pending := s.pending }

/-- A state in which the supply is on is changed, and every line that is then free to start a character starts one (R11,
assumption 46); with the supply off nothing happens (assumption 4). -/
def State.whenOn (s t : State) : State := if s.powered then t.started else s

/-- POWER_UP: the return of the main supply (R26). A battery that has not held leaves the validity mark damaged (R28). -/
def execPowerUp (switchOn reference batteryHeld : Bool) (s : State) : Host.Outcome State Fault Refusal :=
  .next ((if batteryHeld then s else s.modStore fun st => { st with validityMark := false }).fullReset .power switchOn
    reference)

/-- RESET_INPUT (R26). -/
def execResetInput (switchOn reference : Bool) (s : State) : Host.Outcome State Fault Refusal :=
  .next (if s.powered then s.fullReset .resetInput switchOn reference else s)

/-- ORDERLY_RESTART_RESET: made when an orderly restart is in progress, no entry holds pending and the waiting list is
empty (R134, R176). -/
def execOrderlyRestartReset (switchOn reference : Bool) (s : State) : Host.Outcome State Fault Refusal :=
  .next (if s.powered && s.cache.restarting && !s.cache.holds then s.fullReset .restart switchOn reference else s)

/-- MAIN_SUPPLY_LOSS (R150). -/
def execMainSupplyLoss (s : State) : Host.Outcome State Fault Refusal := .next (if s.powered then s.loseSupply else s)

/-- TIMEKEEPER_SECOND: the calendar counts on while the supply is off; no boundary is taken (R109). -/
def execTimekeeperSecond (s : State) : Host.Outcome State Fault Refusal :=
  .next (if s.powered then s else s.modRating fun r => { r with calendar := r.calendar.tick })

end Sys2Proof.Machine
end

