-- ==== Sys2Proof/Machine/ChannelOrders.lean ====
section
/-! DEFINITION. The order frames of the computers: each arrives with the code of the table of R180, joins the order queue
and, at its head, comes into execution (R171, R172, R180). What the order does when it is carried out is its `order…`
definition of Sys2Proof/Machine/OrderOps.lean. -/

namespace Sys2Proof.Machine

/-- ATTACH (R167, R168). -/
def execAttach (c : ChanNo) (f : OrderFrame) (s : State) : Host.Outcome State Fault Refusal :=
  .next (s.whenOn (s.arrive c 1 f))

/-- DETACH (R169). -/
def execDetach (c : ChanNo) (f : OrderFrame) (s : State) : Host.Outcome State Fault Refusal :=
  .next (s.whenOn (s.arrive c 2 f))

/-- IDLE (R173). -/
def execIdle (c : ChanNo) (f : OrderFrame) (s : State) : Host.Outcome State Fault Refusal :=
  .next (s.whenOn (s.arrive c 3 f))

/-- SYNC (R125). -/
def execSync (c : ChanNo) (f : OrderFrame) (s : State) : Host.Outcome State Fault Refusal :=
  .next (s.whenOn (s.arrive c 4 f))

/-- ACCEPT (R96). -/
def execAccept (c : ChanNo) (f : OrderFrame) (s : State) : Host.Outcome State Fault Refusal :=
  .next (s.whenOn (s.arrive c 5 f))

/-- REFUSE (R97). -/
def execRefuse (c : ChanNo) (f : OrderFrame) (s : State) : Host.Outcome State Fault Refusal :=
  .next (s.whenOn (s.arrive c 6 f))

/-- CLOSE_PORT (R100). -/
def execClosePort (c : ChanNo) (f : OrderFrame) (s : State) : Host.Outcome State Fault Refusal :=
  .next (s.whenOn (s.arrive c 7 f))

/-- CLOSE_ACK (R99). -/
def execCloseAck (c : ChanNo) (f : OrderFrame) (s : State) : Host.Outcome State Fault Refusal :=
  .next (s.whenOn (s.arrive c 8 f))

/-- ADD (R153). -/
def execAdd (c : ChanNo) (f : OrderFrame) (s : State) : Host.Outcome State Fault Refusal :=
  .next (s.whenOn (s.arrive c 9 f))

/-- EDIT (R154). -/
def execEdit (c : ChanNo) (f : OrderFrame) (s : State) : Host.Outcome State Fault Refusal :=
  .next (s.whenOn (s.arrive c 10 f))

/-- DELETE (R157). -/
def execDelete (c : ChanNo) (f : OrderFrame) (s : State) : Host.Outcome State Fault Refusal :=
  .next (s.whenOn (s.arrive c 11 f))

/-- READ (R159). -/
def execRead (c : ChanNo) (f : OrderFrame) (s : State) : Host.Outcome State Fault Refusal :=
  .next (s.whenOn (s.arrive c 12 f))

/-- LIST (R160). -/
def execList (c : ChanNo) (f : OrderFrame) (s : State) : Host.Outcome State Fault Refusal :=
  .next (s.whenOn (s.arrive c 13 f))

/-- PROBE (R161). -/
def execProbe (c : ChanNo) (f : OrderFrame) (s : State) : Host.Outcome State Fault Refusal :=
  .next (s.whenOn (s.arrive c 14 f))

/-- CHARGE (R162). -/
def execCharge (c : ChanNo) (f : OrderFrame) (s : State) : Host.Outcome State Fault Refusal :=
  .next (s.whenOn (s.arrive c 15 f))

/-- FLUSH (R164). -/
def execFlush (c : ChanNo) (f : OrderFrame) (s : State) : Host.Outcome State Fault Refusal :=
  .next (s.whenOn (s.arrive c 16 f))

/-- SET_TIME (R110). -/
def execSetTime (c : ChanNo) (f : OrderFrame) (s : State) : Host.Outcome State Fault Refusal :=
  .next (s.whenOn (s.arrive c 17 f))

/-- SET_BANNER (R46). -/
def execSetBanner (c : ChanNo) (f : OrderFrame) (s : State) : Host.Outcome State Fault Refusal :=
  .next (s.whenOn (s.arrive c 18 f))

/-- LOAD_TARIFF (R114). -/
def execLoadTariff (c : ChanNo) (f : OrderFrame) (s : State) : Host.Outcome State Fault Refusal :=
  .next (s.whenOn (s.arrive c 19 f))

/-- ARM_TARIFF (R115). -/
def execArmTariff (c : ChanNo) (f : OrderFrame) (s : State) : Host.Outcome State Fault Refusal :=
  .next (s.whenOn (s.arrive c 20 f))

/-- CLOSE_PERIOD (R144). -/
def execClosePeriod (c : ChanNo) (f : OrderFrame) (s : State) : Host.Outcome State Fault Refusal :=
  .next (s.whenOn (s.arrive c 21 f))

/-- ENABLE_LINE (R22). -/
def execEnableLine (c : ChanNo) (f : OrderFrame) (s : State) : Host.Outcome State Fault Refusal :=
  .next (s.whenOn (s.arrive c 22 f))

/-- DISABLE_LINE (R22). -/
def execDisableLine (c : ChanNo) (f : OrderFrame) (s : State) : Host.Outcome State Fault Refusal :=
  .next (s.whenOn (s.arrive c 23 f))

/-- RESTORE_LINE (R21). -/
def execRestoreLine (c : ChanNo) (f : OrderFrame) (s : State) : Host.Outcome State Fault Refusal :=
  .next (s.whenOn (s.arrive c 24 f))

/-- RESET_GROUP (R24). -/
def execResetGroup (c : ChanNo) (f : OrderFrame) (s : State) : Host.Outcome State Fault Refusal :=
  .next (s.whenOn (s.arrive c 25 f))

/-- RESTART (R176). -/
def execRestart (c : ChanNo) (f : OrderFrame) (s : State) : Host.Outcome State Fault Refusal :=
  .next (s.whenOn (s.arrive c 26 f))

/-- READ_LINE (R25). -/
def execReadLine (c : ChanNo) (f : OrderFrame) (s : State) : Host.Outcome State Fault Refusal :=
  .next (s.whenOn (s.arrive c 27 f))

/-- READ_TARIFF (R116). -/
def execReadTariff (c : ChanNo) (f : OrderFrame) (s : State) : Host.Outcome State Fault Refusal :=
  .next (s.whenOn (s.arrive c 28 f))

/-- READ_CONFIG (R41). -/
def execReadConfig (c : ChanNo) (f : OrderFrame) (s : State) : Host.Outcome State Fault Refusal :=
  .next (s.whenOn (s.arrive c 29 f))

/-- WRITE_CONFIG (R177). -/
def execWriteConfig (c : ChanNo) (f : OrderFrame) (s : State) : Host.Outcome State Fault Refusal :=
  .next (s.whenOn (s.arrive c 30 f))

/-- BAD_ORDER: an order with code 0 or a code the part does not know (R171, R180). -/
def execBadOrder (c : ChanNo) (code : Byte) (f : OrderFrame) (s : State) : Host.Outcome State Fault Refusal :=
  .next (s.whenOn (s.arrive c code f))

end Sys2Proof.Machine
end

