-- ==== Sys2Proof/Machine/LineEvents.lean ====
section
/-! DEFINITION. The events at a line: ringing, carrier, speed finding, characters and the line unit's timers (R2 to R20).
A timer that is not running does not expire (assumption 3). -/

namespace Sys2Proof.Machine

/-- A ring in IDLE (R3). -/
def State.ringLine (s : State) (l : LineNo) : State :=
  let n := (s.unit l).ringCount + 1
  if (s.unit l).state = .idle then
    if (s.group l).ringCount ≤ n then
      s.modUnit l fun u =>
        { u with ringCount := 0, ringGap := false, answerOut := true, answerTimer := true, state := .answer }
    else s.modUnit l fun u => { u with ringCount := n, ringGap := true }
  else s

/-- RING (R3). -/
def execRing (l : LineNo) (s : State) : Host.Outcome State Fault Refusal := .next (s.whenOn (s.ringLine l))

/-- RING_GAP_TIMER_EXPIRY: the counter returns to 0 in IDLE (R3). -/
def execRingGapTimerExpiry (l : LineNo) (s : State) : Host.Outcome State Fault Refusal :=
  .next (s.whenOn
    (if (s.unit l).ringGap then
      s.modUnit l fun u => { u with ringGap := false, ringCount := if u.state = .idle then 0 else u.ringCount }
    else s))

/-- A carrier rise: in ANSWER the speed is looked for (R4); during a line hit the call goes on (R12). -/
def State.carrierUp (s : State) (l : LineNo) : State :=
  if (s.unit l).state = .answer then
    s.modUnit l fun u => { u with answerTimer := false, state := .speed, attempts := 3, speedWindow := true, awaitMark := false }
  else if (s.unit l).lineHit then (s.modUnit l fun u => { u with lineHit := false }).faultScore l 2
  else s

/-- CARRIER_RISE (R4, R12). -/
def execCarrierRise (l : LineNo) (s : State) : Host.Outcome State Fault Refusal := .next (s.whenOn (s.carrierUp l))

/-- A carrier loss: a line hit (R12), or in CLEARING before the guard the drop of answer (R15). -/
def State.carrierDown (s : State) (l : LineNo) : State :=
  match (s.unit l).state with
  | .speed | .signOn | .command | .waiting | .connected => s.modUnit l fun u => { u with lineHit := true }
  | .clearing => if (s.unit l).guardTimer then s else s.startGuard l
  | .off | .idle | .answer | .barred => s

/-- CARRIER_LOSS (R12, R15). -/
def execCarrierLoss (l : LineNo) (s : State) : Host.Outcome State Fault Refusal := .next (s.whenOn (s.carrierDown l))

/-- ANSWER_TIMER_EXPIRY: carrier has not come (R4). -/
def execAnswerTimerExpiry (l : LineNo) (s : State) : Host.Outcome State Fault Refusal :=
  .next (s.whenOn
    (if (s.unit l).answerTimer && (s.unit l).state = .answer then (s.clearLine l .noCarrier).raiseScore l 8 else s))

/-- SPEED_ATTEMPT: taken in SPEED, when the input has rested since the last failure and carrier is present (R5, R12). -/
def execSpeedAttempt (l : LineNo) (micros : Nat) (data : Code) (s : State) : Host.Outcome State Fault Refusal :=
  .next (s.whenOn
    (if (s.unit l).state = .speed && !(s.unit l).awaitMark && !(s.unit l).lineHit then s.attemptSpeed l micros data
    else s))

/-- SPEED_WINDOW_EXPIRY: a failed attempt (R6). -/
def execSpeedWindowExpiry (l : LineNo) (s : State) : Host.Outcome State Fault Refusal :=
  .next (s.whenOn (if (s.unit l).speedWindow && (s.unit l).state = .speed then s.failAttempt l else s))

/-- MARK_REST: the data input has rested at mark for 100 ms (R5). -/
def execMarkRest (l : LineNo) (s : State) : Host.Outcome State Fault Refusal :=
  .next (s.whenOn (s.modUnit l fun u => { u with awaitMark := false }))

/-- CHARACTER_RECEIVED (R8, R10). -/
def execCharacterReceived (l : LineNo) (data : Code) (parity stop : Bool) (s : State) :
    Host.Outcome State Fault Refusal := .next (s.whenOn (s.receiveChar l data parity stop))

/-- BREAK: in CONNECTED it goes to the computer, in SIGNON to the controller (R9). -/
def execBreak (l : LineNo) (s : State) : Host.Outcome State Fault Refusal :=
  .next (s.whenOn
    (if (s.unit l).lineHit then s
    else match (s.unit l).state with
      | .connected => s.sendBreak l
      | .signOn => s.dialogBreak l
      | .off | .idle | .answer | .speed | .command | .waiting | .clearing | .barred => s))

/-- CHARACTER_SENT: the line has finished a character, and starts the next one as every free line does (R11, R15, R82). -/
def execCharacterSent (l : LineNo) (s : State) : Host.Outcome State Fault Refusal := .next (s.whenOn (s.charSent l))

/-- The line-hit timer runs out: the score, then the clear, which keeps its own cause (R12, R19). -/
def State.hitExpired (s : State) (l : LineNo) : State :=
  let t := s.raiseScore l 2
  let t := if (s.unit l).state = .speed ∨ (s.unit l).state = .signOn then t.raiseScore l 4 else t
  t.clearLine l .carrierLost

/-- LINE_HIT_TIMER_EXPIRY (R12). -/
def execLineHitTimerExpiry (l : LineNo) (s : State) : Host.Outcome State Fault Refusal :=
  .next (s.whenOn (if (s.unit l).lineHit then s.hitExpired l else s))

/-- Where the guard ends a clear (R16). -/
def LineUnit.afterGuard (u : LineUnit) : LineUnit :=
  let v := { u with guardTimer := false, speed := none, partMsg := [] }
  if u.enabled && Config.barredAt ≤ u.score then { v with state := .barred, quietTimer := true } else v.rest

/-- GUARD_TIMER_EXPIRY (R16). -/
def execGuardTimerExpiry (l : LineNo) (s : State) : Host.Outcome State Fault Refusal :=
  .next (s.whenOn
    (if (s.unit l).guardTimer && (s.unit l).state = .clearing then s.modUnit l LineUnit.afterGuard else s))

/-- QUIET_TIMER_EXPIRY: probation (R20). -/
def execQuietTimerExpiry (l : LineNo) (s : State) : Host.Outcome State Fault Refusal :=
  .next (s.whenOn
    (if (s.unit l).quietTimer && (s.unit l).state = .barred then (s.setHealth l Config.probation .noisy).releaseLine l
    else s))

end Sys2Proof.Machine
end

