-- ==== Sys2Proof/Machine/CallerEvents.lean ====
section
/-! DEFINITION. The timers of the dialog and of command mode, the grace timer, and the typed commands (R52, R71, R74 to
R79, R83, R140). -/

namespace Sys2Proof.Machine

/-- DIALOG_TIMER_EXPIRY: the clear, and 2 on the score (R52, R14). -/
def execDialogTimerExpiry (l : LineNo) (s : State) : Host.Outcome State Fault Refusal :=
  .next (s.whenOn
    (if (s.dialog l).timer && (s.unit l).state = .signOn then (s.clearLine l .signOnTimeout).raiseScore l 2 else s))

/-- ATTENTION_TIMER_EXPIRY (R71). -/
def execAttentionTimerExpiry (l : LineNo) (s : State) : Host.Outcome State Fault Refusal :=
  .next (s.whenOn
    (if (s.ctx l).attentionTimer && (s.unit l).state = .connected then
      (s.modCtx l fun x => { x with attention := .none, attentionTimer := false }).leaveConnected l
    else s))

/-- IDLE_TIMER_EXPIRY (R78). -/
def execIdleTimerExpiry (l : LineNo) (s : State) : Host.Outcome State Fault Refusal :=
  .next (s.whenOn (if (s.ctx l).idleTimer && (s.unit l).state = .command then s.runLogoff l .idle else s))

/-- The forward timer has run out: the held characters are sent, unless host stop holds them (R83, R84). -/
def State.forwardExpired (s : State) (l : LineNo) : State :=
  let t := s.modCtx l fun x => { x with forwardTimer := false }
  match s.liveSession l with
  | none => t
  | some e => if s.hostStopped e.channel e.port then t else t.sendInput l e.channel e.port

/-- FORWARD_TIMER_EXPIRY (R83). -/
def execForwardTimerExpiry (l : LineNo) (s : State) : Host.Outcome State Fault Refusal :=
  .next (s.whenOn (if (s.ctx l).forwardTimer && (s.unit l).state = .connected then s.forwardExpired l else s))

/-- The grace of an account has run out (R140). -/
def State.graceExpired (s : State) (slot : Nat) : State :=
  let t := (s.setBudgetState slot .spent).budgetNotice slot .spent
  (t.signedOn slot).foldl (fun u l => (u.showText l (text "BUDGET SPENT")).clearLine l .budget) t

/-- GRACE_TIMER_EXPIRY (R140). -/
def execGraceTimerExpiry (slot : Nat) (s : State) : Host.Outcome State Fault Refusal :=
  .next (s.whenOn (if (s.presenceOf slot).graceTimer then s.graceExpired slot else s))

/-- A typed command is carried out for a line in COMMAND (R74; assumption 5). During a line hit its carriage return is
discarded (R12). -/
def State.typed (s : State) (l : LineNo) (k : TypedCommand) : State :=
  if (s.unit l).state = .command ∧ (s.unit l).lineHit = false then (s.emptyField l).runCommand l k else s

/-- CONNECT (R75). -/
def execConnect (l : LineNo) (host : ChanNo) (s : State) : Host.Outcome State Fault Refusal :=
  .next (s.whenOn (s.typed l (.connect host)))

/-- RESUME (R76). -/
def execResume (l : LineNo) (s : State) : Host.Outcome State Fault Refusal := .next (s.whenOn (s.typed l .resume))

/-- ROTATE (R76). -/
def execRotate (l : LineNo) (s : State) : Host.Outcome State Fault Refusal := .next (s.whenOn (s.typed l .rotate))

/-- END (R77). -/
def execEnd (l : LineNo) (s : State) : Host.Outcome State Fault Refusal := .next (s.whenOn (s.typed l .endSession))

/-- LOGOFF (R78). -/
def execLogoff (l : LineNo) (s : State) : Host.Outcome State Fault Refusal := .next (s.whenOn (s.typed l .logoff))

/-- STATUS (R79). -/
def execStatus (l : LineNo) (s : State) : Host.Outcome State Fault Refusal := .next (s.whenOn (s.typed l .status))

end Sys2Proof.Machine
end

