-- ==== Sys2Proof/Machine/PortEvents.lean ====
section
/-! DEFINITION. The timers of the wait queues, of the ports and of the channels (R92, R97, R99, R170). -/

namespace Sys2Proof.Machine

/-- A wait has run out (R92). -/
def State.waitExpired (s : State) (c : ChanNo) (l : LineNo) : State :=
  (s.modChan c fun ch => { ch with queue := ch.queue.filter fun w => w.line != l }).returnToCommand l (text "WAIT EXPIRED")

/-- WAIT_TIMER_EXPIRY (R92). -/
def execWaitTimerExpiry (c : ChanNo) (l : LineNo) (s : State) : Host.Outcome State Fault Refusal :=
  .next (s.whenOn
    (if (s.chan c).queue.any (fun w => w.line = l && w.timer) then s.waitExpired c l else s))

/-- The accept timer has run out: CIRCUIT CLOSED with cause NO ANSWER, then as for REFUSE (R97, assumption 33). -/
def State.acceptExpired (s : State) (c : ChanNo) (p : Nat) (x : Port) : State :=
  (s.queueNotice c (noticeCircuitClosed p x.circuit x.line .noAnswer)).refuseOpening c p

/-- ACCEPT_TIMER_EXPIRY (R97). -/
def execAcceptTimerExpiry (c : ChanNo) (port : Nat) (s : State) : Host.Outcome State Fault Refusal :=
  .next (s.whenOn
    (match s.port? c port with
    | some x => if x.state = .opening ∧ x.timer then s.acceptExpired c port x else s
    | none => s))

/-- CLOSE_TIMER_EXPIRY (R99). -/
def execCloseTimerExpiry (c : ChanNo) (port : Nat) (s : State) : Host.Outcome State Fault Refusal :=
  .next (s.whenOn
    (match s.port? c port with
    | some x => if x.state = .closing ∧ x.timer then s.portFree c port else s
    | none => s))

/-- SILENCE_TIMER_EXPIRY (R170). -/
def execSilenceTimerExpiry (c : ChanNo) (s : State) : Host.Outcome State Fault Refusal :=
  .next (s.whenOn (if (s.chan c).silence then s.channelFail c else s))

end Sys2Proof.Machine
end

