-- ==== Sys2Proof/Machine/RatingEvents.lean ====
section
/-! DEFINITION. The billing second and the changes of the clock source (R106 to R109, R112, R119). -/

namespace Sys2Proof.Machine

/-- One second of a meter (R119). -/
def Meter.second (m : Meter) : Meter :=
  let a := m.acc + m.rate * m.percent
  { m with seconds := m.seconds + 1, acc := a % Config.unitMeasure, units := m.units + a / Config.unitMeasure }

/-- The units a meter makes in the coming second (R119). -/
def Meter.made (m : Meter) : Nat := (m.acc + m.rate * m.percent) / Config.unitMeasure

/-- An open meter is rated for one second, and offers the units it made (R119). -/
def State.rateMeter (s : State) (c : ChanNo) (p : Nat) : State :=
  match s.meter? c p with
  | none => s
  | some m =>
    let t := s.modMeter c p Meter.second
    if 0 < m.made then t.offerMeter c p m.made else t

/-- Every open meter is rated, in ascending order of channel and then of port (R106, R119). -/
def State.rateMeters (s : State) : State := s.meterKeys.foldl (fun t k => t.rateMeter k.1 k.2) s

/-- A tariff boundary is taken: an armed bank is applied, and every meter reloads its segment (R112). -/
def State.takeBoundary (s : State) : State :=
  let t := if s.rating.armed then
      (s.modRating fun r => { r with active := r.standby, armed := false }).noticeToUp
        (noticeTariffApplied s.rating.calendar)
    else s
  t.loadSegments

/-- A billing second at the rating unit (R106). -/
def State.second (s : State) : State :=
  let t := s.rateMeters.modRating fun r => { r with calendar := r.calendar.tick }
  if t.rating.atBoundary then t.takeBoundary else t

/-- BILLING_SECOND (R106). -/
def execBillingSecond (s : State) : Host.Outcome State Fault Refusal :=
  .next (s.whenOn (if s.rating.billingTimer then s.second else s))

/-- The reference is found missing in REFERENCE (R107). -/
def State.enterFallback (s : State) : State :=
  let t := s.modRating fun r =>
    { r with clock := .fallback, steady := 0, meters := r.meters.map fun m => { m with estimated := true } }
  (t.rating.meters.foldl (fun u m => u.raiseEstimated m.channel m.slot m.port) t).noticeToUp
    (noticeClockState .fallback s.rating.calendar)

/-- REFERENCE_MISSING (R107, R108). -/
def execReferenceMissing (s : State) : Host.Outcome State Fault Refusal :=
  .next (s.whenOn
    (match s.rating.clock with
    | .reference => s.enterFallback
    | .fallback => s.modRating fun r => { r with steady := 0 }))

/-- The reference has been unbroken for 10 s in FALLBACK (R108). -/
def State.leaveFallback (s : State) : State :=
  let t := s.modRating fun r => { r with clock := .reference, steady := 10 }
  (allChans.foldl (fun u c => u.modChan c fun ch => { ch with fallbackRaised := false }) t).noticeToUp
    (noticeClockState .reference s.rating.calendar)

/-- REFERENCE_STEADY (R108). -/
def execReferenceSteady (s : State) : Host.Outcome State Fault Refusal :=
  .next (s.whenOn
    (match s.rating.clock with
    | .fallback => s.leaveFallback
    | .reference => s))

end Sys2Proof.Machine
end

