-- ==== Sys2Proof/Machine/StoreEvents.lean ====
section
/-! DEFINITION. The completion of a store access (R36, R131). -/

namespace Sys2Proof.Machine

/-- ACCESS_COMPLETE: the access in progress completes, whatever its requester (R36, assumption 23). -/
def execAccessComplete (s : State) : Host.Outcome State Fault Refusal := .next (s.whenOn s.completeAccess)

/-- WRITE_BACK_COMPLETED: the write-back in progress completes; with another access in progress nothing happens (R131,
assumption 23). -/
def execWriteBackCompleted (s : State) : Host.Outcome State Fault Refusal :=
  .next (s.whenOn
    (match s.arbiter.current with
    | some { who := .writeBack, .. } => s.completeAccess
    | _ => s))

end Sys2Proof.Machine
end

