-- ==== Sys2Proof/Machine/LinkEvents.lean ====
section
/-! DEFINITION. Data blocks, discarded frames, and the link taking a record of the part (R81, R83, R171, R173, R179). -/

namespace Sys2Proof.Machine

/-- Host stop of a port follows a block's indications: STOP sets it, a block with START and no STOP ends it (R81, R179). -/
def hostStopAfter (indications : Byte) (old : Bool) : Bool :=
  if indications.getLsbD 0 then true else if indications.getLsbD 1 then false else old

/-- The line that a port's session is LIVE for: it is CONNECTED and its top session is the port's (R68). -/
def State.liveLine (s : State) (c : ChanNo) (p : Nat) : Option LineNo :=
  ((s.port? c p).bind (·.line)).filter fun l =>
    (s.unit l).state = .connected && ((s.liveSession l).any fun e => e.channel = c && e.port = p)

/-- A data block for a BOUND port (R81, R83). -/
def State.takeBlock (s : State) (c : ChanNo) (p : Nat) (indications : Byte) (chars : List Code) : State :=
  let before := s.hostStopped c p
  let t := s.modFlow c p fun f => { f with hostStop := hostStopAfter indications f.hostStop }
  let u := if before && !hostStopAfter indications before then
      match s.liveLine c p with
      | some l => t.sendHeldInput l c p
      | none => t
    else t
  chars.foldl (fun v x => v.placeOutput c p x) u

/-- Whether a data block's length fits: its body length is that of its characters and at most 256 (R179). -/
def blockFits (bodyLen : BitVec 16) (chars : List Byte) : Bool :=
  bodyLen.toNat = chars.length && decide (bodyLen.toNat ≤ 256)

/-- A data block from a computer: discarded in DOWN and FAILED, where its length does not fit, and where its port is
not BOUND (R81, R166, R179). -/
def State.receiveBlock (s : State) (c : ChanNo) (indications : Byte) (port bodyLen : BitVec 16) (chars : List Byte) :
    State :=
  let t := s.heard c
  if blockFits bodyLen chars && ((s.port? c port.toNat).any fun x => x.state = .bound) then
    t.takeBlock c port.toNat indications (codesOf chars)
  else t

/-- DATA_BLOCK (R81). -/
def execDataBlock (c : ChanNo) (indications : Byte) (port bodyLen : BitVec 16) (chars : List Byte) (s : State) :
    Host.Outcome State Fault Refusal := .next (s.whenOn (s.receiveBlock c indications port bodyLen chars))

/-- FRAME_DISCARDED: the frame restarts the silence timer and does nothing else (R179). -/
def execFrameDiscarded (c : ChanNo) (_bytes : List Byte) (s : State) : Host.Outcome State Fault Refusal :=
  .next (s.whenOn (s.heard c))

/-- REPLY_SENT (R171). -/
def execReplySent (c : ChanNo) (s : State) : Host.Outcome State Fault Refusal := .next (s.whenOn (s.sendReply c))

/-- The link takes the notice at the head of the notice queue (R173). -/
def State.sendNotice (s : State) (c : ChanNo) : State :=
  s.modChan c fun ch =>
    match ch.notices with
    | n :: rest => { ch with notices := rest, linkOut := some (.notice n) }
    | [] => ch

/-- NOTICE_SENT (R173). -/
def execNoticeSent (c : ChanNo) (s : State) : Host.Outcome State Fault Refusal := .next (s.whenOn (s.sendNotice c))

/-- The link takes a data block; one that carries OVERRUN sets the port's overrun flag back to no (R81). -/
def State.sendBlock (s : State) (c : ChanNo) : State :=
  match (s.chan c).dataOut with
  | b :: rest =>
    let t := s.modChan c fun ch => { ch with dataOut := rest, linkOut := some (.data b) }
    if b.overrun then t.modFlow c b.port fun f => { f with overrun := false } else t
  | [] => s

/-- DATA_BLOCK_SENT (R81). -/
def execDataBlockSent (c : ChanNo) (s : State) : Host.Outcome State Fault Refusal := .next (s.whenOn (s.sendBlock c))

end Sys2Proof.Machine
end

