-- ==== Sys2Proof/Machine/Dispatch.lean ====
section
/-! DEFINITION. The meaning of each command: one arm for each constructor of `Instr`. -/

namespace Sys2Proof.Machine

def exec (i : Instr) (s : State) : Host.Outcome State Fault Refusal :=
  match i with
  | .powerUp switchOn reference batteryHeld => Sys2Proof.Machine.execPowerUp switchOn reference batteryHeld s
  | .resetInput switchOn reference => Sys2Proof.Machine.execResetInput switchOn reference s
  | .orderlyRestartReset switchOn reference => Sys2Proof.Machine.execOrderlyRestartReset switchOn reference s
  | .mainSupplyLoss => Sys2Proof.Machine.execMainSupplyLoss s
  | .timekeeperSecond => Sys2Proof.Machine.execTimekeeperSecond s
  | .ring l => Sys2Proof.Machine.execRing l s
  | .ringGapTimerExpiry l => Sys2Proof.Machine.execRingGapTimerExpiry l s
  | .carrierRise l => Sys2Proof.Machine.execCarrierRise l s
  | .carrierLoss l => Sys2Proof.Machine.execCarrierLoss l s
  | .answerTimerExpiry l => Sys2Proof.Machine.execAnswerTimerExpiry l s
  | .speedAttempt l micros data => Sys2Proof.Machine.execSpeedAttempt l micros data s
  | .speedWindowExpiry l => Sys2Proof.Machine.execSpeedWindowExpiry l s
  | .markRest l => Sys2Proof.Machine.execMarkRest l s
  | .characterReceived l data parity stop => Sys2Proof.Machine.execCharacterReceived l data parity stop s
  | .breakReceived l => Sys2Proof.Machine.execBreak l s
  | .characterSent l => Sys2Proof.Machine.execCharacterSent l s
  | .lineHitTimerExpiry l => Sys2Proof.Machine.execLineHitTimerExpiry l s
  | .guardTimerExpiry l => Sys2Proof.Machine.execGuardTimerExpiry l s
  | .quietTimerExpiry l => Sys2Proof.Machine.execQuietTimerExpiry l s
  | .dialogTimerExpiry l => Sys2Proof.Machine.execDialogTimerExpiry l s
  | .attentionTimerExpiry l => Sys2Proof.Machine.execAttentionTimerExpiry l s
  | .idleTimerExpiry l => Sys2Proof.Machine.execIdleTimerExpiry l s
  | .forwardTimerExpiry l => Sys2Proof.Machine.execForwardTimerExpiry l s
  | .graceTimerExpiry slot => Sys2Proof.Machine.execGraceTimerExpiry slot s
  | .connect l host => Sys2Proof.Machine.execConnect l host s
  | .resume l => Sys2Proof.Machine.execResume l s
  | .rotate l => Sys2Proof.Machine.execRotate l s
  | .endSession l => Sys2Proof.Machine.execEnd l s
  | .logoff l => Sys2Proof.Machine.execLogoff l s
  | .status l => Sys2Proof.Machine.execStatus l s
  | .waitTimerExpiry c l => Sys2Proof.Machine.execWaitTimerExpiry c l s
  | .acceptTimerExpiry c port => Sys2Proof.Machine.execAcceptTimerExpiry c port s
  | .closeTimerExpiry c port => Sys2Proof.Machine.execCloseTimerExpiry c port s
  | .silenceTimerExpiry c => Sys2Proof.Machine.execSilenceTimerExpiry c s
  | .billingSecond => Sys2Proof.Machine.execBillingSecond s
  | .referenceMissing => Sys2Proof.Machine.execReferenceMissing s
  | .referenceSteady => Sys2Proof.Machine.execReferenceSteady s
  | .accessComplete => Sys2Proof.Machine.execAccessComplete s
  | .writeBackCompleted => Sys2Proof.Machine.execWriteBackCompleted s
  | .accept c f => Sys2Proof.Machine.execAccept c f s
  | .refuse c f => Sys2Proof.Machine.execRefuse c f s
  | .closePort c f => Sys2Proof.Machine.execClosePort c f s
  | .closeAck c f => Sys2Proof.Machine.execCloseAck c f s
  | .add c f => Sys2Proof.Machine.execAdd c f s
  | .edit c f => Sys2Proof.Machine.execEdit c f s
  | .delete c f => Sys2Proof.Machine.execDelete c f s
  | .read c f => Sys2Proof.Machine.execRead c f s
  | .list c f => Sys2Proof.Machine.execList c f s
  | .probe c f => Sys2Proof.Machine.execProbe c f s
  | .charge c f => Sys2Proof.Machine.execCharge c f s
  | .flush c f => Sys2Proof.Machine.execFlush c f s
  | .attach c f => Sys2Proof.Machine.execAttach c f s
  | .detach c f => Sys2Proof.Machine.execDetach c f s
  | .idle c f => Sys2Proof.Machine.execIdle c f s
  | .sync c f => Sys2Proof.Machine.execSync c f s
  | .setTime c f => Sys2Proof.Machine.execSetTime c f s
  | .setBanner c f => Sys2Proof.Machine.execSetBanner c f s
  | .loadTariff c f => Sys2Proof.Machine.execLoadTariff c f s
  | .armTariff c f => Sys2Proof.Machine.execArmTariff c f s
  | .closePeriod c f => Sys2Proof.Machine.execClosePeriod c f s
  | .enableLine c f => Sys2Proof.Machine.execEnableLine c f s
  | .disableLine c f => Sys2Proof.Machine.execDisableLine c f s
  | .restoreLine c f => Sys2Proof.Machine.execRestoreLine c f s
  | .resetGroup c f => Sys2Proof.Machine.execResetGroup c f s
  | .restart c f => Sys2Proof.Machine.execRestart c f s
  | .readLine c f => Sys2Proof.Machine.execReadLine c f s
  | .readTariff c f => Sys2Proof.Machine.execReadTariff c f s
  | .readConfig c f => Sys2Proof.Machine.execReadConfig c f s
  | .writeConfig c f => Sys2Proof.Machine.execWriteConfig c f s
  | .badOrder c code f => Sys2Proof.Machine.execBadOrder c code f s
  | .dataBlock c indications port bodyLen chars => Sys2Proof.Machine.execDataBlock c indications port bodyLen chars s
  | .frameDiscarded c bytes => Sys2Proof.Machine.execFrameDiscarded c bytes s
  | .replySent c => Sys2Proof.Machine.execReplySent c s
  | .noticeSent c => Sys2Proof.Machine.execNoticeSent c s
  | .dataBlockSent c => Sys2Proof.Machine.execDataBlockSent c s

end Sys2Proof.Machine
end

