-- ==== Sys2Proof/Safety.lean ====
section
/-! DEFINITION. What a sound state of the part is, what every command leaves alone, and the words in which the
statements speak of changes and of orders. -/

namespace Sys2Proof

/-- An order frame whose body has `n` bytes, as its header says (R178, R179). -/
def OrderFrame.fits (f : OrderFrame) (n : Nat) : Prop := f.bodyLen.toNat = n ∧ f.body.length = n

end Sys2Proof

namespace Sys2Proof.Machine

/-! ## The ranges the description gives -/

/-- A line unit within R1, R11, R17 and R83. -/
def LineUnit.ok (u : LineUnit) : Prop :=
  u.score ≤ Config.scoreMax ∧ u.partMsg.length ≤ Config.partMsgCap ∧ u.input.length ≤ Config.inputCap ∧
    u.ringCount ≤ 4 ∧ u.attempts ≤ 3

/-- A sign-on entry within R49. -/
def Dialog.ok (d : Dialog) : Prop := d.field.length ≤ Config.passCap ∧ d.attempts ≤ 3

/-- A line context within R67. -/
def LineContext.ok (x : LineContext) : Prop := x.units ≤ Config.unitMax ∧ x.field.length ≤ Config.commandCap

def Line.ok (x : Line) : Prop := x.unit.ok ∧ x.dialog.ok ∧ x.ctx.ok

/-- A port within R69: at most 256 characters of output. -/
def Port.ok (x : Port) : Prop := ∀ f, x.flow = some f → f.output.length ≤ Config.outputCap

/-- A channel within R87, R124, R165, R171 and R173. -/
def Channel.ok (ch : Channel) : Prop :=
  ch.orders.length ≤ Config.orderCap ∧ ch.notices.length ≤ Config.noticeCap ∧ ch.faults.length ≤ Config.faultCap ∧
    ch.ports.length ≤ Config.portCap ∧ ∀ x ∈ ch.ports, x.ok

/-- A calendar within R105. -/
def Calendar.ok (c : Calendar) : Prop := c.weekday ≤ 6 ∧ c.time < Config.daySeconds

/-- A tariff bank within R113. -/
def Bank.ok (b : Bank) : Prop :=
  (∀ v ∈ b.rates, ∀ n, v = some n → n ≤ 60000) ∧ (∀ v ∈ b.percent, v ≤ 250) ∧ (∀ v ∈ b.minimum, v ≤ 255)

/-- A meter within R119: the accumulator below one unit, the rate and the percentage within R113. -/
def Meter.ok (m : Meter) : Prop := m.acc < Config.unitMeasure ∧ m.rate ≤ 60000 ∧ m.percent ≤ 250

/-- A rating unit within R105, R113 and R119. -/
def Rating.ok (r : Rating) : Prop := r.calendar.ok ∧ r.active.ok ∧ r.standby.ok ∧ ∀ m ∈ r.meters, m.ok

/-- An account record whose settings are within R30; an ACTIVE account has fewer than five failures (R32). -/
def Record.ok (r : Record) : Prop :=
  1 ≤ r.number ∧ r.number ≤ 65535 ∧ r.passCheck ≤ Config.unitMax ∧ r.cls ≤ 3 ∧
    (∀ b, r.budget = some b → b ≤ Config.unitMax) ∧ 1 ≤ r.limit ∧ r.limit ≤ 4 ∧ r.failures ≤ Config.failureCap ∧
    (r.state = .active → r.failures < Config.failureCap) ∧ r.revision ≤ 65535

/-- Line-group settings within R23. -/
def GroupConfig.ok (g : GroupConfig) : Prop :=
  g.classCap ≤ 3 ∧ 1 ≤ g.attention.toNat ∧ g.attention.toNat ≤ 31 ∧ 1 ≤ g.ringCount ∧ g.ringCount ≤ 4

/-- The directory and the occupied slots name each other (R34). -/
def Store.matched (st : Store) : Prop :=
  ∀ n slot, tabGet n st.directory = some slot ↔ ∃ r, tabGet slot st.records = some r ∧ r.number = n

/-- A store within R23, R29, R30, R34 and R46: slots and numbers rise, each record is in range, and the directory and the
slots name each other. -/
def Store.ok (st : Store) : Prop :=
  tabWf st.records ∧ tabWf st.directory ∧ st.matched ∧ (∀ e ∈ st.records, e.1 < Config.slotCount ∧ e.2.ok) ∧
    (∀ i, (st.groupConfig.get i).ok) ∧ st.banner.length ≤ Config.bannerCap

/-- What an access in progress may write, given the store it was served on: a record in its own slot under its own
number, a new record in a free slot under a new number, or the removal of a record under its own number. -/
def Store.admits (st : Store) : StoreWrite → Prop
  | .nothing => True
  | .put slot r => r.ok ∧ ∃ r', tabGet slot st.records = some r' ∧ r'.number = r.number
  | .insert slot r => r.ok ∧ slot < Config.slotCount ∧ tabGet slot st.records = none ∧ tabGet r.number st.directory = none
  | .remove slot number => tabGet number st.directory = some slot

/-- The write of the access in progress. -/
def Arbiter.write (a : Arbiter) : StoreWrite := (a.current.map (·.write)).getD .nothing

/-- A sound state: what the ranges above bound is within them, the tables are in their form, an access in progress writes
only what they admit, and the dirty marker is set exactly while charges are held unwritten (R133). With the supply off the
marker is not compared. -/
structure State.Sound (s : State) : Prop where
  lines    : ∀ l, (s.line l).ok
  chans    : ∀ c, (s.chan c).ok
  rating   : s.rating.ok
  store    : s.store.ok
  admits   : s.store.admits s.arbiter.write
  presence : presenceWf s.presence
  marker   : s.powered = true → s.dirtyMarker = s.cache.holds

/-! ## What a command leaves alone -/

/-- From `s` to `t` the part stays sound; the supply, the setup flag, the reset cause and the queue of commands stay; and
outside SETUP the retained configuration stays (R41). -/
structure State.Steady (s t : State) : Prop where
  sound   : s.Sound → t.Sound
  powered : t.powered = s.powered
  setup   : t.setup = s.setup
  cause   : t.resetCause = s.resetCause
  pending : t.pending = s.pending
  config  : s.setup = false → t.store.chanConfig = s.store.chanConfig ∧ t.store.groupConfig = s.store.groupConfig

/-- A command that can make a full reset, or whose effect is the loss of the supply. -/
def fullResets : Instr → Bool
  | .powerUp .. | .resetInput .. | .orderlyRestartReset .. | .mainSupplyLoss => true
  | _ => false

/-! ## Words of the statements -/

/-- What every full reset leaves, but for what the roll of an unfinished period close does next (R26, R48, R49, R50, R67,
R105, R126, R133, R165, R177): the volatile state at its reset values, the rating unit's retained state kept. -/
structure State.Restarted (s t : State) (cause : ResetCause) (switchOn reference : Bool) : Prop where
  lines    : ∀ l, t.line l =
    { unit := { state   := if !switchOn && t.store.configuredEnable l then .idle else .off,
                enabled := !switchOn && t.store.configuredEnable l } }
  checks   : t.checks = []
  channels : ∀ c, t.chan c = {}
  rating   : t.rating =
    { s.rating with clock := if reference then .reference else .fallback, steady := 0, billingTimer := true, meters := [] }
  cache    : t.cache = {}
  marker   : t.dirtyMarker = false
  presence : t.store.periodState = .opened → t.presence = []
  arbiter  : t.store.periodState = .opened → t.arbiter = {}
  cause    : t.resetCause = cause
  setup    : t.setup = switchOn
  powered  : t.powered = true
  pending  : t.pending = s.pending

/-- The retained store as an access in progress leaves it when it completes (R36, R40). -/
def State.storeCompleted (s : State) : Store := s.store.apply s.arbiter.write

/-- A line that has nothing but its line unit to end: no dialog goes on, nobody is signed on, there is no session, and
the line is in no wait queue and has no port in OPENING. -/
structure State.Alone (s : State) (l : LineNo) : Prop where
  dialog   : (s.dialog l).ended = s.dialog l
  counted  : (s.dialog l).counted = none
  ctx      : s.ctx l = {}
  queues   : ∀ c, ∀ w ∈ (s.chan c).queue, w.line ≠ l
  openings : ∀ c p x, s.port? c p = some x → x.state = .opening → x.line ≠ some l

/-- A line unit as a clear with nothing left to send leaves it (R15): CLEARING with its cause, answer dropped and the
guard running. -/
def LineUnit.cleared (u : LineUnit) (cause : Cause) : LineUnit :=
  { u with state := .clearing, cause := some cause, input := [], partMsg := [], account := 0, answerOut := false,
           answerTimer := false, speedWindow := false, lineHit := false, awaitMark := false, guardTimer := true }

/-- A line unit as a clear leaves it while characters wait in its part-message buffer: CLEARING, answer still raised (R15). -/
def LineUnit.clearing (u : LineUnit) (cause : Cause) : LineUnit :=
  { u with state := .clearing, cause := some cause, input := [], account := 0, answerTimer := false,
           speedWindow := false, lineHit := false, awaitMark := false }

/-- A line that does not wait: it is in no wait queue and has no port in OPENING. -/
structure State.NotWaiting (s : State) (l : LineNo) : Prop where
  queues   : ∀ c, ∀ w ∈ (s.chan c).queue, w.line ≠ l
  openings : ∀ c p x, s.port? c p = some x → x.state = .opening → x.line ≠ some l

/-- A line unit as a clear leaves it: with the guard running where nothing is left to send or carrier is gone, else with
answer still raised (R15). -/
def LineUnit.afterClear (u : LineUnit) (cause : Cause) : LineUnit :=
  if u.lineHit = true ∨ u.partMsg = [] then u.cleared cause else u.clearing cause

/-- A line that a clear finds without a session, without a port in OPENING, in no account check, and signed on, if at all,
with an account that is not in GRACE (R141 speaks of that). -/
structure State.Sessionless (s : State) (l : LineNo) : Prop where
  check    : (s.dialog l).phase ≠ .checking
  stack    : (s.ctx l).stack = []
  openings : ∀ c p x, s.port? c p = some x → x.state = .opening → x.line ≠ some l
  grace    : ∀ slot, (s.dialog l).counted = some slot → (s.presenceOf slot).budget ≠ some .grace

/-- A line is taken off the presence count of the account it is signed on with (R50, R64). -/
def State.uncounted (s : State) (l : LineNo) : State :=
  match (s.dialog l).counted with
  | some slot => s.setPresence slot { s.presenceOf slot with count := (s.presenceOf slot).count - 1 }
  | none => s

/-- A line is in no wait queue any more (R91). -/
def State.unqueued (s : State) (l : LineNo) : State :=
  { s with channels := s.channels.map fun ch => { ch with queue := ch.queue.filter fun w => w.line != l } }

/-- What the three blocks hold for a line after a clear (R15, R64, R86). -/
def Line.afterClear (x : Line) (cause : Cause) : Line :=
  { unit := x.unit.afterClear cause, dialog := { x.dialog.ended with counted := none }, ctx := {} }

/-- The clear of a line that is `Sessionless` (R14, R15, R64, R86): its dialog and its sign-on end, it leaves the wait
queues, and its line unit goes to CLEARING with the cause. -/
def State.cleared (s : State) (l : LineNo) (cause : Cause) : State :=
  ((s.uncounted l).unqueued l).setLine l ((s.line l).afterClear cause)

/-- The seven connect checks of a signed-on line at a channel, in their order (R89). -/
structure State.MayConnect (s : State) (l : LineNo) (c : ChanNo) (so : SignOnRecord) : Prop where
  up     : (s.chan c).state = .up
  hosts  : ∃ r, s.recordAt so.slot = some r ∧ r.state = .active ∧ r.hostSet.getLsbD c.val = true
  right  : (s.right c so.account).charges = true
  cls    : ∀ a, (s.chan c).params = some a → a.minClass ≤ so.effClass
  budget : (s.presenceOf so.slot).budget = some .normal ∨ (s.presenceOf so.slot).budget = some .warned
  stack  : (s.ctx l).stack.length < 4
  tariff : (s.chan c).masks.unrated = true ∨
    ∃ v n, (s.unit l).speed = some v ∧ s.rating.active.rate c v.cls s.rating.period = some n

/-- The text with which the connect checks refuse: that of the first one that fails (R89). -/
def State.ConnectRefused (s : State) (l : LineNo) (c : ChanNo) (so : SignOnRecord) (cs : List Code) : Prop :=
  let up := (s.chan c).state = .up
  let host := ∃ r, s.recordAt so.slot = some r ∧ r.state = .active ∧ r.hostSet.getLsbD c.val = true
  let right := (s.right c so.account).charges = true
  let cls := ∀ a, (s.chan c).params = some a → a.minClass ≤ so.effClass
  let budget := (s.presenceOf so.slot).budget = some .normal ∨ (s.presenceOf so.slot).budget = some .warned
  let stack := (s.ctx l).stack.length < 4
  let tariff := (s.chan c).masks.unrated = true ∨
    ∃ v n, (s.unit l).speed = some v ∧ s.rating.active.rate c v.cls s.rating.period = some n
  (¬ up ∧ cs = text "HOST " ++ [hostLetter c] ++ text " NOT AVAILABLE") ∨
  (up ∧ ¬ host ∧ cs = text "NOT PERMITTED") ∨
  (up ∧ host ∧ ¬ right ∧ cs = text "NOT PERMITTED") ∨
  (up ∧ host ∧ right ∧ ¬ cls ∧ cs = text "CLASS TOO LOW") ∨
  (up ∧ host ∧ right ∧ cls ∧ ¬ budget ∧ cs = text "BUDGET EXHAUSTED") ∨
  (up ∧ host ∧ right ∧ cls ∧ budget ∧ ¬ stack ∧ cs = text "TOO MANY SESSIONS") ∨
  (up ∧ host ∧ right ∧ cls ∧ budget ∧ stack ∧ ¬ tariff ∧ cs = text "NO TARIFF")

/-- A command that leaves the line in COMMAND: a line of text and the prompt (R74). -/
def State.answeredLine (s : State) (l : LineNo) (cs : List Code) : State :=
  (s.place l ([13, 10] ++ cs)).place l [13, 10, 62]

/-- A line at which characters are framed: the supply is on, the speed is locked, and neither a line hit nor the guard is
running (R8, R12, R15). -/
structure State.Hears (s : State) (l : LineNo) : Prop where
  powered : s.powered = true
  locked  : (s.unit l).speed.isSome = true
  carrier : (s.unit l).lineHit = false
  guard   : (s.unit l).guardTimer = false

/-- The number of ones in a character and its parity bit (R8). -/
def onesWith (x : Code) (bit : Bool) : Nat := (List.range 7).countP (fun i => x.getLsbD i) + bit.toNat

/-- A parity bit is right for a character: the eight bits hold an even or an odd number of ones, as the line group's
parity asks; with NONE every bit is (R8). -/
def Parity.accepts (p : Parity) (x : Code) (bit : Bool) : Prop :=
  match p with
  | .even => onesWith x bit % 2 = 0
  | .odd => onesWith x bit % 2 = 1
  | .none => True

/-- A character as line `l` sends it: the line group's parity, at a mark with NONE, and the stop bits of the speed (R8). -/
structure State.Framed (s : State) (l : LineNo) (x : Code) (t : TxChar) : Prop where
  code   : t.code = x
  parity : (s.group l).parity.accepts x t.parity
  mark   : (s.group l).parity = .none → t.parity = true
  stops  : t.stops = if (s.unit l).speed = some .b110 then 2 else 1

/-- A line that starts no character: one is in progress, no speed is locked, a line hit or the guard is running, or neither
its part-message buffer nor the output buffer of its LIVE port holds one (R11, R12, R15). -/
def State.Rests (s : State) (l : LineNo) : Prop :=
  (s.unit l).sending ≠ none ∨ (s.unit l).speed = none ∨ (s.unit l).lineHit = true ∨ (s.unit l).guardTimer = true ∨
    ((s.unit l).partMsg = [] ∧
      ((s.unit l).state = .connected → ∀ e g, s.liveSession l = some e → s.flow? e.channel e.port = some g → g.output = []))

/-- A channel at which an order comes into execution at once: the supply is on, the channel is UP or QUIESCING, and its
order queue is empty (R166, R171). -/
structure State.Attends (s : State) (c : ChanNo) : Prop where
  powered : s.powered = true
  live    : (s.chan c).state = .up ∨ (s.chan c).state = .quiescing
  orders  : (s.chan c).orders = []

/-- An order that has arrived at the empty order queue of a channel in UP or QUIESCING is in execution; the frame has
restarted the silence timer (R170, R171). -/
def State.inExecution (s : State) (c : ChanNo) (code : Byte) (f : OrderFrame) : State :=
  s.modChan c fun ch => { ch with silence := true, orders := [orderOf code f] }

/-- The order of frame `f` is answered: its reply, with the frame's sequence number, waits for the link (R171, R178). -/
def State.replied (s : State) (c : ChanNo) (f : OrderFrame) (o : Outcome) (body : List Byte) : State :=
  s.modChan c fun ch => { ch with reply := some { outcome := o, seq := f.seq, body := body } }

/-- All that is held for a line, changed at once. -/
def State.modLine (s : State) (l : LineNo) (g : Line → Line) : State := s.setLine l (g (s.line l))

/-- A line that waited returns to COMMAND with a line of text and the prompt; the command field is empty and the idle timer
runs (R72, R85). -/
def State.returned (s : State) (l : LineNo) (cs : List Code) : State :=
  (((s.place l ([13, 10] ++ cs)).modUnit l fun u => { u with state := .command }).modCtx l fun x =>
    { x with field := [], idleTimer := true }).place l [13, 10, 62]

/-- A port entry that is FREE: it keeps its circuit id and nothing else (R87). -/
def State.freed (s : State) (c : ChanNo) (p : Nat) : State := s.modPort c p fun x => { circuit := x.circuit }

/-- An account whose own cache entry takes `n` units, while the waiting list is empty, without a change of budget state: it
has the room, and no budget (R127, R136). -/
structure State.Takes (s : State) (e : Fin 32) (slot n : Nat) : Prop where
  entry   : s.entryOf slot = some e
  waiting : s.cache.waiting = []
  room    : n ≤ s.room slot
  budget  : s.budget slot = none
  normal  : (s.presenceOf slot).budget = some .normal

/-- The units that rounding adds to a closing meter (R121): one for a residue under UP, and for half a unit or more under
NEAREST. -/
def State.extraUnits (s : State) (m : Meter) : Nat :=
  let mode := s.rating.active.rounding
  if 0 < m.acc ∧ (mode = .up ∨ (mode = .nearest ∧ 3000000 ≤ m.acc)) then 1 else 0

/-- The final units of a closing meter whose account takes them all (R121): at least the channel's minimum charge. -/
def State.finalUnits (s : State) (m : Meter) : Nat :=
  max (m.units + s.extraUnits m) (s.rating.active.minimum.get m.channel)

/-- The notice SESSION END of a closing meter, with the circuit id of its port and its final units (R121, R181). -/
def State.sessionEndOf (s : State) (m : Meter) (circuit : Nat) (cause : Cause) (final : Nat) : Notice :=
  let indicator := if m.acc = 0 then 0 else if s.extraUnits m = 1 then 1 else 2
  let minimum := if m.units + s.extraUnits m < s.rating.active.minimum.get m.channel then 4 else 0
  { kind := .sessionEnd, line := some m.line,
    body := bytesBE 2 (s.accountOf m.slot) ++ bytesBE 1 m.line.val ++ bytesBE 1 m.channel.val ++ bytesBE 1 m.port ++
      bytesBE 2 circuit ++ bytesBE 4 (min m.seconds 4294967295) ++ unitBytes final ++
      bytesBE 1 (indicator + minimum + (if m.estimated then 8 else 0) + (if m.saturated then 16 else 0)) ++
      bytesBE 1 (causeNumber cause) }

/-- The notice SESSION END of a closing meter whose account takes all its final units (R121, R181). -/
def State.sessionEnd (s : State) (m : Meter) (circuit : Nat) (cause : Cause) : Notice :=
  s.sessionEndOf m circuit cause (s.finalUnits m)

/-- The notice CIRCUIT CLOSED of a port for a line (R98, R181). -/
def circuitClosedOf (p circuit : Nat) (l : LineNo) (cause : Cause) : Notice :=
  { kind := .circuitClosed, line := some l,
    body := bytesBE 1 p ++ bytesBE 2 circuit ++ bytesBE 1 l.val ++ bytesBE 1 (causeNumber cause) }

/-- Line `l` has the session `k`, with the port entry `x` and the meter `m`, and the account's entry `e` takes what the close
of the meter posts (R121). -/
structure State.Running (s : State) (l : LineNo) (k : Session) (x : Port) (m : Meter) (e : Fin 32) : Prop where
  port  : s.port? k.channel k.port = some x
  line  : x.line = some l
  meter : s.meter? k.channel k.port = some m
  takes : s.Takes e m.slot (s.finalUnits m - m.units + m.unposted)

/-- The meter of a session is gone, and the account's entry has taken its last units (R121). -/
structure State.Billed (s t : State) (k : Session) (m : Meter) (e : Fin 32) : Prop where
  rating : t.rating = { s.rating with
    meters := s.rating.meters.filter fun j => !decide (j.channel = k.channel ∧ j.port = k.port) }
  entry  : (t.entry e).pending = (s.entry e).pending + (s.finalUnits m - m.units + m.unposted)
  store  : t.store = s.store

/-- From `s` to `t` the part has closed such a session (R98, R121): its meter is billed, the port is CLOSING with the cause,
and SESSION END and CIRCUIT CLOSED are queued. Which data blocks of the port stay is not said (assumption 10). -/
structure State.Closes (s t : State) (l : LineNo) (k : Session) (x : Port) (m : Meter) (e : Fin 32) (cause : Cause) : Prop
    extends s.Billed t k m e where
  chan   : t.chan k.channel =
    { ((s.chan k.channel).noted (s.sessionEnd m x.circuit cause)).noted (circuitClosedOf k.port x.circuit l cause) with
      ports := (s.chan k.channel).ports.set k.port
        { x with state := .closing, cause := some cause, timer := true, flow := none },
      dataOut := (t.chan k.channel).dataOut }
  others : ∀ c, c ≠ k.channel → t.chan c = s.chan c

/-- The context of a line whose session has been removed (R67, R68): the session is off the stack, and its final units
are added to units this sign-on. -/
def LineContext.without (y : LineContext) (k : Session) (final : Nat) : LineContext :=
  { y with stack := y.stack.filter (fun j => !(j.channel = k.channel && j.port = k.port)),
           units := min (y.units + final) 16777215 }

/-- What is held for a line after its session `k` has been removed from elsewhere (R80): a HELD one just leaves the stack;
after a LIVE one the line returns to COMMAND with a text. -/
def State.parted (s : State) (l : LineNo) (k : Session) (final : Nat) (cs : List Code) : State :=
  if k.state = .held then s.modCtx l fun y => y.without k final
  else ((s.modCtx l fun y =>
      { y.without k final with forwardTimer := false, attention := .none, attentionTimer := false }).modUnit l fun u =>
    { u with input := [] }).returned l cs

/-- A channel, UP or QUIESCING, on which a billing exception is raised (R122 to R124): its sticky flag where it masks it,
else a fault record, with BILLING FAULT for the first. -/
def Channel.raised (ch : Channel) (kind : ExceptionKind) (account : Nat) (port : Option Nat) (now : Calendar) : Channel :=
  let posted := { ch with
    faultPending := true,
    faults := if ch.faults.length < 8 then
        ch.faults ++ [{ kind := kind, account := account, port := port, time := now }] else ch.faults,
    moreFaults := ch.moreFaults || decide (8 ≤ ch.faults.length) }
  let told := if ch.faultPending then posted else posted.noted { kind := .billingFault, line := none, body := [] }
  match kind with
  | .unrated => if ch.masks.unrated = true then { ch with sticky := { ch.sticky with unrated := true } } else told
  | .saturate => if ch.masks.saturate = true then { ch with sticky := { ch.sticky with saturate := true } } else told
  | .estimated => if ch.masks.estimated = true then { ch with sticky := { ch.sticky with estimated := true } } else told

/-- A channel after BUDGET STATE of an account has been queued to the UP channels with the EDIT right on it (R139, R174,
R181). -/
def State.budgetTold (s : State) (slot : Nat) (b : BudgetState) (total : Nat) (d : ChanNo) : Channel :=
  if (s.chan d).state = .up ∧ (s.right d (s.accountOf slot)).edits = true then
    (s.chan d).noted
      { kind := .budgetState, line := none,
        body := bytesBE 2 (s.accountOf slot) ++
          bytesBE 1 (match b with | .normal => 0 | .warned => 1 | .grace => 2 | .spent => 3) ++ bytesBE 3 total ++
          bytesBE 4 ((s.budget slot).getD 4294967295) }
  else s.chan d

/-- A text from another block at a line in COMMAND, with the prompt and the field typed so far, or in CONNECTED (R85). -/
def State.shown (s : State) (l : LineNo) (cs : List Code) : State :=
  if (s.unit l).state = .command then
    ((s.place l ([13, 10] ++ cs)).place l [13, 10, 62]).place l (s.ctx l).field
  else s.place l ([13, 10] ++ cs)

/-- The calendar stands at a tariff boundary of the bank: time of day 0, or the start of a minute that is a switch point of
the day's list (R109, R111, R112). -/
def Bank.boundaryAt (b : Bank) (x : Calendar) : Prop :=
  x.time = 0 ∨ (x.time % 60 = 0 ∧ ∃ p ∈ (if x.weekday < 5 then b.workday else b.restday), p.minute * 60 = x.time)

/-- No two open meters are of one port. -/
def State.metersDistinct (s : State) : Prop :=
  s.rating.meters.Pairwise fun a b => ¬ (a.channel = b.channel ∧ a.port = b.port)

/-- The access of channel `c`'s order is served: what it writes when it completes, and what the channel is then given
(R36). -/
def State.accessing (s : State) (c : ChanNo) (w : StoreWrite) (r : AccessResult) : State :=
  s.modArbiter fun a => { a with current := some { who := .chan c, write := w, result := r } }

/-- From `before` to `after` an indication for port `p` joins the data blocks that wait for the link: the next block with
characters for the port carries it, where no block from there on says the opposite; with none, it goes in a block of its
own behind the others (R81, R82, assumption 10). -/
def Joins (p : Nat) (mark : DataBlock → DataBlock) (against : DataBlock → Bool) (before after : List DataBlock) : Prop :=
  ((∀ b ∈ before, b.port = p → b.chars = []) ∧ after = before ++ [mark { port := p }]) ∨
  ∃ a b d, before = a ++ b :: d ∧ (∀ k ∈ a, k.port = p → k.chars = []) ∧ b.port = p ∧ b.chars ≠ [] ∧
    (∀ k ∈ b :: d, k.port = p → against k = false) ∧ after = a ++ mark b :: d

/-- The store is busy with an access of another requester than channel `c` (R37). -/
def State.storeBusy (s : State) (c : ChanNo) : Prop := ∃ a, s.arbiter.current = some a ∧ a.who ≠ .chan c

/-- An access of channel `c` is still in progress (R37). -/
def State.ownAccess (s : State) (c : ChanNo) : Prop :=
  ∃ a, s.arbiter.current = some a ∧ a.who = .chan c ∧ a.result ≠ .taken

/-- The access of channel `c`'s order waits at a busy store (R37, R38). -/
def State.accessWaits (s : State) (c : ChanNo) : State := s.modArbiter fun a => { a with chans := a.chans.set c true }

/-- The sign-on check of line `l` is served (R36, R59). -/
def State.checking (s : State) (l : LineNo) (w : StoreWrite) (o : CheckOutcome) (suspended : Option (Nat × Nat)) : State :=
  s.modArbiter fun a => { a with current := some { who := .signOn, write := w, result := .check l o suspended false } }

/-- The budget state that a recompute sets for a total of units while no line is signed on with the account (R136). -/
def budgetStateOf (total : Nat) : Option Nat → BudgetState
  | none => .normal
  | some b => if total * 10 < b * 9 then .normal else if total < b then .warned else .spent

/-- A switch list as R111 has it: at most six points, each a minute of the day and a tariff period, in ascending order. -/
def switchListRight (ps : List SwitchPoint) : Prop :=
  ps.length ≤ 6 ∧ (∀ p ∈ ps, p.minute ≤ 1439 ∧ p.period ≤ 3) ∧ ps.IsChain fun a b => a.minute < b.minute

/-- The bytes of the points of a switch list (R180). -/
def switchBytes (ps : List SwitchPoint) : List Byte := ps.flatMap fun p => bytesBE 2 p.minute ++ bytesBE 1 p.period

/-- One item of a LOAD TARIFF that may be written: its bytes, and what it writes to the PENDING bank, clamped (R113, R114,
R180). -/
inductive TariffItemIs : List Byte → (Bank → Bank) → Prop where
  | rate (d k p hi lo : Byte) (channel : d.toNat ≤ 3) (speed : k.toNat ≤ 2) (period : p.toNat ≤ 3) :
      TariffItemIs [1, d, k, p, hi, lo] fun b =>
        { b with rates := b.rates.setIfInBounds (d.toNat * 12 + k.toNat * 4 + p.toNat)
                            (if hi.toNat * 256 + lo.toNat = 65535 then none
                             else some (min (hi.toNat * 256 + lo.toNat) 60000)) }
  | minimum (d hi lo : Byte) (channel : d.toNat ≤ 3) :
      TariffItemIs [2, d, hi, lo] fun b =>
        { b with minimum := b.minimum.setIfInBounds d.toNat (min (hi.toNat * 256 + lo.toNat) 255) }
  | percent (k v : Byte) (cls : k.toNat ≤ 3) :
      TariffItemIs [3, k, v] fun b => { b with percent := b.percent.setIfInBounds k.toNat (min v.toNat 250) }
  | up : TariffItemIs [4, 0] fun b => { b with rounding := .up }
  | nearest : TariffItemIs [4, 1] fun b => { b with rounding := .nearest }
  | down : TariffItemIs [4, 2] fun b => { b with rounding := .down }
  | workday (ps : List SwitchPoint) (right : switchListRight ps) :
      TariffItemIs ([5, 0, BitVec.ofNat 8 ps.length] ++ switchBytes ps) fun b => { b with workday := ps }
  | restday (ps : List SwitchPoint) (right : switchListRight ps) :
      TariffItemIs ([5, 1, BitVec.ofNat 8 ps.length] ++ switchBytes ps) fun b => { b with restday := ps }

/-- What stands in a LOAD TARIFF where an item should, and has the order refused whatever follows: an unknown tag, an item
that names what there is not, a switch list that is not right, or an item that runs past the end of the body (R114, R180,
assumption 40). -/
inductive TariffRefused : List Byte → Prop where
  | tag (x : Byte) (rest : List Byte) (unknown : x = 0 ∨ 6 ≤ x.toNat) : TariffRefused (x :: rest)
  | rate (d k p hi lo : Byte) (rest : List Byte) (wrong : 3 < d.toNat ∨ 2 < k.toNat ∨ 3 < p.toNat) :
      TariffRefused ([1, d, k, p, hi, lo] ++ rest)
  | minimum (d hi lo : Byte) (rest : List Byte) (wrong : 3 < d.toNat) : TariffRefused ([2, d, hi, lo] ++ rest)
  | percent (k v : Byte) (rest : List Byte) (wrong : 3 < k.toNat) : TariffRefused ([3, k, v] ++ rest)
  | rounding (m : Byte) (rest : List Byte) (wrong : 3 ≤ m.toNat) : TariffRefused ([4, m] ++ rest)
  | switchList (d : Byte) (ps : List SwitchPoint) (rest : List Byte) (count : ps.length ≤ 255)
      (fields : ∀ p ∈ ps, p.minute ≤ 65535 ∧ p.period ≤ 255) (wrong : 2 ≤ d.toNat ∨ ¬ switchListRight ps) :
      TariffRefused ([5, d, BitVec.ofNat 8 ps.length] ++ switchBytes ps ++ rest)
  | short (x : Byte) (rest : List Byte)
      (ends : (x = 1 ∧ rest.length < 5) ∨ (x = 2 ∧ rest.length < 3) ∨ (x = 3 ∧ rest.length < 2) ∨ (x = 4 ∧ rest.length < 1) ∨
        (x = 5 ∧ rest.length < 2)) : TariffRefused (x :: rest)
  | shortList (d n : Byte) (rest : List Byte) (ends : rest.length < 3 * n.toNat) : TariffRefused ([5, d, n] ++ rest)

/-- The command in which an order of a code arrives (R180). -/
def orderCommand (c : ChanNo) (f : OrderFrame) (code : Byte) : Instr :=
  match code.toNat with
  | 1 => .attach c f
  | 2 => .detach c f
  | 3 => .idle c f
  | 4 => .sync c f
  | 5 => .accept c f
  | 6 => .refuse c f
  | 7 => .closePort c f
  | 8 => .closeAck c f
  | 9 => .add c f
  | 10 => .edit c f
  | 11 => .delete c f
  | 12 => .read c f
  | 13 => .list c f
  | 14 => .probe c f
  | 15 => .charge c f
  | 16 => .flush c f
  | 17 => .setTime c f
  | 18 => .setBanner c f
  | 19 => .loadTariff c f
  | 20 => .armTariff c f
  | 21 => .closePeriod c f
  | 22 => .enableLine c f
  | 23 => .disableLine c f
  | 24 => .restoreLine c f
  | 25 => .resetGroup c f
  | 26 => .restart c f
  | 27 => .readLine c f
  | 28 => .readTariff c f
  | 29 => .readConfig c f
  | 30 => .writeConfig c f
  | _ => .badOrder c code f

/-- A frame has come from the computer: it restarts the silence timer in UP and QUIESCING (R170, R179). -/
def State.afterFrame (s : State) (c : ChanNo) : State :=
  s.modChan c fun ch => { ch with silence := ch.silence || decide (ch.state = .up ∨ ch.state = .quiescing) }

/-- The record an EDIT makes of a record (R32, R154, R180), from the bytes of its body: the change set, the state, the pass
check, class, home host, host set, budget and limit. The revision rises by one for each setting that changes. -/
def Record.settled (r : Record) (set st : Byte) (pass : Nat) (cls home hosts : Byte) (units : Nat) (lim : Byte) : Record :=
  let m := { r with
    state     := if set.getLsbD 0 then (if st = 0 then .active else .held) else r.state
    passCheck := if set.getLsbD 1 then pass else r.passCheck
    cls       := if set.getLsbD 2 then min cls.toNat 3 else r.cls
    homeHost  := if set.getLsbD 3 then (if h : home.toNat < 4 then some ⟨home.toNat, h⟩ else none) else r.homeHost
    hostSet   := if set.getLsbD 4 then hosts.setWidth 4 else r.hostSet
    budget    := if set.getLsbD 5 then (if units = 4294967295 then none else some (min units 16777215)) else r.budget
    limit     := if set.getLsbD 6 then max 1 (min lim.toNat 4) else r.limit
    failures  := if set.getLsbD 0 ∧ st = 0 then 0 else r.failures }
  let same := [decide (m.state = r.state), decide (m.passCheck = r.passCheck), decide (m.cls = r.cls),
    decide (m.homeHost = r.homeHost), decide (m.hostSet = r.hostSet), decide (m.budget = r.budget),
    decide (m.limit = r.limit), decide (m.failures = r.failures)]
  { m with revision := (r.revision + same.count false) % 65536 }

end Sys2Proof.Machine
end

