-- ==== Sys2Proof/Certificates/Slice0/Obligations.lean ====
section
/-! DEFINITION. The statements for the provers. Each docstring names the rules of spec/ a statement formalises, or the log
entry of a choice it rests on. -/

open Sys2Proof Sys2Proof.Machine

/-! ## The whole machine -/

/-- A step runs the command at the front of the queue on the state with the queue's rest; with nothing waiting the part
idles (the queue is the model's, assumption 2). -/
def Obligations.StepRunsTheFrontCommand : Prop :=
  (∀ (s : State) (i : Instr) (rest : List Instr), s.pending = i :: rest → step s = exec i { s with pending := rest }) ∧
  ∀ s : State, s.pending = [] → step s = .next s

/-- The state after reset is sound. That this is the state after reset is the model's choice (assumption 1). -/
def Obligations.SoundAtReset : Prop := State.reset.Sound

/-- Every step from a sound state answers a next state, and that state is sound. State.Sound holds: of a line, its score,
rings and attempts left, the lengths of its buffers and fields, and units this sign-on; of a channel, the lengths of its
queues, of its port table and of each output buffer; the calendar; a bank's rates, percentages and minimum charges; a
meter's accumulator, rate and percentage; a record's settings, failure count and revision; line-group settings and the
banner; the rising order of the tables; that the directory and the record slots name each other (R34); and that the dirty
marker is set exactly while charges are held unwritten (R133). It does not hold used, previous and pending, the presence
counts, the session stack, the rights windows, the period number and the roll index, the switch lists, or the identifier
and fold of a sign-on. -/
def Obligations.EveryStepKeepsTheStateSound : Prop :=
  ∀ s : State, s.Sound → ∃ t, step s = .next t ∧ t.Sound

/-- Outside SETUP no command but a full reset changes the retained configuration (R41), and none changes the setup flag or
the reset cause, or takes the supply away. -/
def Obligations.OnlyResetsLeaveTheConfiguration : Prop :=
  ∀ (i : Instr) (s : State), fullResets i = false →
    ∃ t : State, exec i s = .next t ∧ t.setup = s.setup ∧ t.resetCause = s.resetCause ∧ t.powered = s.powered ∧
      t.pending = s.pending ∧
      (s.setup = false → t.store.chanConfig = s.store.chanConfig ∧ t.store.groupConfig = s.store.groupConfig)

/-! ## Resets and the supply -/

/-- A full reset with a valid store: POWER_UP on a battery that has held, RESET_INPUT, and ORDERLY_RESTART_RESET once an
orderly restart has no charge left to write. The volatile state starts afresh; the retained store stays, with what an
access in progress was writing (R27, R40); a power-up or a reset input that finds the dirty marker set records charges
lost, an orderly restart does not (R133). In OPEN nothing more happens; in CLOSING the roll goes on from its index, with
the next slot that is due or to the end (R145, R146, R150). That the inputs are operands, and that a power-up always
resets, are the model's choices (assumptions 4 and 22). -/
def Obligations.FullResetsStartAfreshAndKeepTheStore : Prop :=
  (∀ (s : State) (switchOn reference : Bool), s.store.validityMark = true →
     (∃ t : State, exec (.powerUp switchOn reference true) s = .next t ∧ s.Restarted t .power switchOn reference) ∧
     (s.powered = true →
       ∃ t : State, exec (.resetInput switchOn reference) s = .next t ∧ s.Restarted t .resetInput switchOn reference) ∧
     (s.powered = true → s.cache.restarting = true → s.cache.holds = false →
       ∃ t : State, exec (.orderlyRestartReset switchOn reference) s = .next t ∧ s.Restarted t .restart switchOn reference)) ∧
  ∀ (s : State) (switchOn reference : Bool), s.store.validityMark = true →
    let goes := fun (t : State) (st : Store) =>
      (st.periodState = .opened → t.store = st) ∧
      (st.periodState = .closing → (∀ e ∈ st.records, st.rollIndex ≤ e.1 → e.2.stamp = st.periodNumber) →
        t.store = { st with rollIndex := 4096, periodState := .opened } ∧ t.arbiter = {} ∧ t.presence = []) ∧
      ∀ a b k r, st.periodState = .closing → st.records = a ++ (k, r) :: b →
        (∀ e ∈ a, st.rollIndex ≤ e.1 → e.2.stamp = st.periodNumber) → st.rollIndex ≤ k → r.stamp ≠ st.periodNumber →
        tabGet k st.records = some r →
        t.store = { st with rollIndex := k } ∧
        t.arbiter = {
          current := some { who := .roll, write := .put k { r with previous := r.used, used := 0, stamp := st.periodNumber },
                            result := .roll k } } ∧
        t.presence = [(k, { budget := some (if r.budget = some 0 then .spent else .normal) })]
    let lost := { s.storeCompleted with chargesLost := s.storeCompleted.chargesLost || s.dirtyMarker }
    (∃ t : State, exec (.powerUp switchOn reference true) s = .next t ∧ goes t lost) ∧
    (s.powered = true → ∃ t : State, exec (.resetInput switchOn reference) s = .next t ∧ goes t lost) ∧
    (s.powered = true → s.cache.restarting = true → s.cache.holds = false →
      ∃ t : State, exec (.orderlyRestartReset switchOn reference) s = .next t ∧ goes t s.storeCompleted)

/-- A power-up on a battery that has not held, and any of the three full resets that finds the validity mark damaged,
initialises the store and the rating unit's retained state (R28, R105). The result is the model's reset state but for the inputs read at the
reset, the reset cause and the queue of commands. That the inputs are operands of the command is the model's choice
(assumptions 1 and 22). -/
def Obligations.DamagedStoreIsInitialised : Prop :=
  ∀ (s : State) (switchOn reference held : Bool),
    (held = false ∨ s.store.validityMark = false →
      exec (.powerUp switchOn reference held) s =
        .next { State.reset with rating := { clock := if reference then .reference else .fallback }, setup := switchOn,
                                 pending := s.pending }) ∧
    (s.powered = true → s.store.validityMark = false →
      exec (.resetInput switchOn reference) s =
        .next { State.reset with rating := { clock := if reference then .reference else .fallback }, setup := switchOn,
                                 resetCause := .resetInput, pending := s.pending }) ∧
    (s.powered = true → s.cache.restarting = true → s.cache.holds = false → s.store.validityMark = false →
      exec (.orderlyRestartReset switchOn reference) s =
        .next { State.reset with rating := { clock := if reference then .reference else .fallback }, setup := switchOn,
                                 resetCause := .restart, pending := s.pending })

/-- A loss of the main supply keeps the retained state, with what an access in progress was writing (R27, R40), and the
calendar, which the timekeeper counts on with the supply off (R109, R150). What the volatile state reads as meanwhile is
the model's choice, and so is that nothing but POWER_UP and TIMEKEEPER_SECOND then changes anything (assumption 4). -/
def Obligations.SupplyLossKeepsTheRetainedState : Prop :=
  (∀ s : State, s.powered = true →
     (∃ t : State, exec .mainSupplyLoss s = .next t ∧ t.powered = false ∧ t.store = s.storeCompleted ∧
       t.dirtyMarker = s.dirtyMarker ∧ t.rating.calendar = s.rating.calendar ∧ t.rating.active = s.rating.active ∧
       t.rating.standby = s.rating.standby ∧ t.rating.armed = s.rating.armed ∧ t.pending = s.pending ∧
       exec .timekeeperSecond t = .next { t with rating := { t.rating with calendar := t.rating.calendar.tick } }) ∧
     exec .timekeeperSecond s = .next s) ∧
  ∀ (i : Instr) (s : State), s.powered = false → i ≠ .timekeeperSecond → (∀ a b d, i ≠ .powerUp a b d) →
    exec i s = .next s

/-- The calendar counts the seconds of the day and the days of the week (R105, R109). -/
def Obligations.CalendarCountsSecondsAndDays : Prop :=
  ∀ x : Calendar, x.ok → x.tick.ok ∧
    x.tick.weekday * 86400 + x.tick.time = (x.weekday * 86400 + x.time + 1) % 604800

/-! ## Lines -/

/-- The score moves within 0 and 255 and the health state follows each change of it with hysteresis; each change of health
state queues one notice to every channel that is UP, and nothing else changes (R17, R18). The body of the notice, with the
line in it, is as assumption 25 says. -/
def Obligations.HealthFollowsTheScore : Prop :=
  ∀ (s : State) (l : LineNo),
    (∀ n, s.raiseScore l n = s.changeScore l (min ((s.unit l).score + n) 255)) ∧
    (∀ n, s.lowerScore l n = s.changeScore l ((s.unit l).score - n)) ∧
    ∀ score : Nat,
    let u := s.unit l
    let health :=
      match u.health with
      | .barred => Health.barred
      | .good => if 192 ≤ score then .barred else if 96 ≤ score then .noisy else .good
      | .noisy => if 192 ≤ score then .barred else if score < 64 then .good else .noisy
    let t := s.changeScore l score
    t.unit l = { u with score := score, health := health } ∧ t.dialog l = s.dialog l ∧ t.ctx l = s.ctx l ∧
    (∀ k, k ≠ l → t.line k = s.line k) ∧
    (∀ c, t.chan c =
      if health = u.health ∨ (s.chan c).state ≠ .up then s.chan c
      else
        let kind := if health = .barred then NoticeKind.lineBarred else if health = .noisy then .lineNoisy else .lineGood
        let notice : Notice :=
          { kind := kind, line := some l,
            body := [BitVec.ofNat 8 l.val, BitVec.ofNat 8 (healthNumber health), BitVec.ofNat 8 score] }
        if (s.chan c).notices.length < 32 then { s.chan c with notices := (s.chan c).notices ++ [notice] }
        else { s.chan c with lost := true }) ∧
    t.rating = s.rating ∧ t.cache = s.cache ∧ t.store = s.store ∧ t.arbiter = s.arbiter ∧ t.presence = s.presence ∧
    t.checks = s.checks ∧ t.dirtyMarker = s.dirtyMarker ∧ t.setup = s.setup ∧ t.resetCause = s.resetCause ∧
    t.powered = s.powered ∧ t.pending = s.pending

/-- RING and the ring-gap timer (R3): in IDLE the rings are counted up to the line group's ring count, when the line is
answered; an expiry of the running ring-gap timer sets the counter to 0; carrier and characters are ignored in IDLE, and
rings in every other state. CARRIER_RISE and the answer timer in ANSWER (R4, R15, R17). That an event in a state its row
does not name changes nothing, and that a clear comes before its change of score, are the model's readings (assumptions
5 and 39). -/
def Obligations.RingingLinesAreAnswered : Prop :=
  (∀ (s : State) (l : LineNo), s.powered = true →
     ((s.unit l).state = .idle →
       ((s.unit l).ringCount + 1 < (s.group l).ringCount →
         exec (.ring l) s =
           .next (s.modUnit l fun u => { u with ringCount := u.ringCount + 1, ringGap := true }).started) ∧
       ((s.group l).ringCount ≤ (s.unit l).ringCount + 1 →
         exec (.ring l) s =
           .next (s.modUnit l fun u =>
             { u with ringCount := 0, ringGap := false, answerOut := true, answerTimer := true, state := .answer }).started) ∧
       ((s.unit l).ringGap = true →
         exec (.ringGapTimerExpiry l) s = .next (s.modUnit l fun u => { u with ringGap := false, ringCount := 0 }).started) ∧
       ((s.unit l).lineHit = false →
         exec (.carrierRise l) s = .next s.started ∧ exec (.carrierLoss l) s = .next s.started ∧
         ∀ x p b, exec (.characterReceived l x p b) s = .next s.started)) ∧
     ((s.unit l).state ≠ .idle → exec (.ring l) s = .next s.started)) ∧
  ∀ (s : State) (l : LineNo), s.powered = true → (s.unit l).state = .answer →
    exec (.carrierRise l) s =
      .next (s.modUnit l fun u =>
        { u with answerTimer := false, state := .speed, attempts := 3, speedWindow := true, awaitMark := false }).started ∧
    ((s.unit l).answerTimer = true → (s.unit l).partMsg = [] → s.Alone l →
      exec (.answerTimerExpiry l) s =
        .next ((s.modUnit l fun u => u.cleared .noCarrier).raiseScore l 8).started)

/-- CARRIER_LOSS and LINE_HIT_TIMER_EXPIRY (R12, R15, R17): in the five states with carrier a loss starts the line-hit
timer and keeps the line state; a rise ends the hit with 2 on the score, where that does not bar the line; an expiry adds
2, and 4 more in SPEED or SIGNON, and clears the line. The clear is stated for a line without a session, in SPEED, typing
in its dialog, signed on, or in a wait queue (not with a port in OPENING, nor with its account in GRACE), and for a line with
one session, which is closed (R64, R86, R98, R121), here of an account without a budget. In CLEARING before the guard a
loss drops answer. That 2 and 4 are two changes of the score, and that the blocks apply a clear in this order, are
assumptions 31 and 15; the bodies and the data blocks are as assumptions 25, 44 and 10 say. -/
def Obligations.LineHitsPauseOrClearTheLine : Prop :=
  ∀ (s : State) (l : LineNo), s.powered = true →
    ((s.unit l).state = .speed ∨ (s.unit l).state = .signOn ∨ (s.unit l).state = .command ∨
        (s.unit l).state = .waiting ∨ (s.unit l).state = .connected →
      let scored :=
        if (s.unit l).state = .speed ∨ (s.unit l).state = .signOn then (s.raiseScore l 2).raiseScore l 4
        else s.raiseScore l 2
      exec (.carrierLoss l) s = .next (s.modUnit l fun u => { u with lineHit := true }).started ∧
      ((s.unit l).lineHit = true → (s.unit l).health = .barred ∨ (s.unit l).score + 2 < 192 →
        exec (.carrierRise l) s = .next ((s.modUnit l fun u => { u with lineHit := false }).raiseScore l 2).started) ∧
      ((s.unit l).lineHit = true → s.Sessionless l →
        exec (.lineHitTimerExpiry l) s = .next (scored.cleared l .carrierLost).started) ∧
      (∀ k x m e, (s.unit l).lineHit = true → (s.ctx l).stack = [k] → s.Running l k x m e → s.NotWaiting l →
        (s.dialog l).phase = .none → (s.dialog l).counted = some m.slot →
        ∃ t : State, exec (.lineHitTimerExpiry l) s = .next t.started ∧ scored.Closes t l k x m e .carrierLost ∧
          t.line l = (scored.cleared l .carrierLost).line l ∧ (∀ j, j ≠ l → t.line j = s.line j) ∧
          t.presenceOf m.slot = { s.presenceOf m.slot with count := (s.presenceOf m.slot).count - 1 })) ∧
    ((s.unit l).state = .clearing → (s.unit l).guardTimer = false →
      exec (.carrierLoss l) s =
        .next (s.modUnit l fun u => { u with partMsg := [], answerOut := false, guardTimer := true }).started) ∧
    ((s.unit l).state = .clearing → (s.unit l).guardTimer = true → exec (.carrierLoss l) s = .next s.started)

/-- The speed windows of R5, which do not overlap, and the speed classes; and SPEED_ATTEMPT that succeeds: a carriage
return timed within a window locks the speed and opens the sign-on dialog, with three attempts for a GOOD line and one
for any other, the banner and the prompt (R5, R7, R51). That the input first rests at mark is kept as a flag of the
model (assumption 12). -/
def Obligations.CarriageReturnLocksTheSpeed : Prop :=
  (∀ t : Nat,
     (speedOf t = some .b110 ↔ 8000 ≤ t ∧ t ≤ 10182) ∧ (speedOf t = some .b150 ↔ 5867 ≤ t ∧ t ≤ 7467) ∧
     (speedOf t = some .b300 ↔ 2933 ≤ t ∧ t ≤ 3733) ∧ (speedOf t = some .b600 ↔ 1467 ≤ t ∧ t ≤ 1867) ∧
     (speedOf t = some .b1200 ↔ 733 ≤ t ∧ t ≤ 933) ∧ (speedOf t = some .b2400 ↔ 367 ≤ t ∧ t ≤ 467) ∧
     ∀ v : Speed, (v.cls = .slow ↔ v = .b110 ∨ v = .b150 ∨ v = .b300) ∧ (v.cls = .medium ↔ v = .b600 ∨ v = .b1200) ∧
       (v.cls = .fast ↔ v = .b2400)) ∧
  ∀ (s : State) (l : LineNo) (micros : Nat) (v : Speed), s.powered = true → (s.unit l).state = .speed →
    (s.unit l).awaitMark = false → (s.unit l).lineHit = false → speedOf micros = some v →
    exec (.speedAttempt l micros 13) s =
      .next ((((s.modUnit l fun u => { u with state := .signOn, speed := some v, speedWindow := false }).modDialog l
        fun d => { phase := .ident, field := [], identifier := none, fold := none, timer := true, counted := d.counted,
                   attempts := if (s.unit l).health = .good then 3 else 1 }).place l
          (if s.store.banner = [] then [] else [13, 10] ++ s.store.banner)).place l [13, 10, 73, 68, 58]).started

/-- SPEED_ATTEMPT that fails, SPEED_WINDOW_EXPIRY and MARK_REST (R5, R6): a failure takes one from attempts left and waits
for mark; the last one clears the line and adds 8 to the score; no attempt is taken before the input has rested at mark
or during a line hit. That a window that runs out waits for mark too is assumption 12, and that a line hit stops the
attempts is assumption 13. -/
def Obligations.FailedSpeedAttemptsAreCounted : Prop :=
  ∀ (s : State) (l : LineNo), s.powered = true → (s.unit l).state = .speed →
    (∀ micros x, (s.unit l).awaitMark = false → (s.unit l).lineHit = false → speedOf micros = none ∨ x ≠ 13 →
      (2 ≤ (s.unit l).attempts → exec (.speedAttempt l micros x) s =
        .next (s.modUnit l fun u => { u with attempts := u.attempts - 1, speedWindow := true, awaitMark := true }).started) ∧
      ((s.unit l).attempts ≤ 1 → (s.unit l).partMsg = [] → s.Alone l → exec (.speedAttempt l micros x) s =
        .next ((s.modUnit l fun u => { u.cleared .speedFailed with attempts := 0 }).raiseScore l 8).started)) ∧
    (∀ micros x, (s.unit l).awaitMark = true ∨ (s.unit l).lineHit = true →
      exec (.speedAttempt l micros x) s = .next s.started) ∧
    ((s.unit l).speedWindow = true →
      (2 ≤ (s.unit l).attempts → exec (.speedWindowExpiry l) s =
        .next (s.modUnit l fun u => { u with attempts := u.attempts - 1, speedWindow := true, awaitMark := true }).started) ∧
      ((s.unit l).attempts ≤ 1 → (s.unit l).partMsg = [] → s.Alone l → exec (.speedWindowExpiry l) s =
        .next ((s.modUnit l fun u => { u.cleared .speedFailed with attempts := 0 }).raiseScore l 8).started)) ∧
    exec (.markRest l) s = .next (s.modUnit l fun u => { u with awaitMark := false }).started

/-- CHARACTER_RECEIVED with a parity or framing error: discarded, with 1 on the score; a score that reaches 192 in an
active state clears the line with cause LINE BARRED (R8, R14, R15, R17 to R19, R64, R86). The clear is stated for a line
without a session: typing in its dialog, signed on, or in a wait queue (not with a port in OPENING, nor with its account in
GRACE); what a clear does to a session is stated with the line hits. That a bad character scores in CLEARING before the
guard is the model's reading (assumption 14). -/
def Obligations.BadCharactersAreScored : Prop :=
  ∀ (s : State) (l : LineNo) (x : Code) (bit stop : Bool), s.Hears l →
    ((s.unit l).state = .signOn ∨ (s.unit l).state = .command ∨ (s.unit l).state = .waiting ∨
      (s.unit l).state = .connected ∨ (s.unit l).state = .clearing) →
    stop = false ∨ ¬ (s.group l).parity.accepts x bit →
    ((s.unit l).health = .barred ∨ (s.unit l).score + 1 < 192 ∨ (s.unit l).state = .clearing →
      exec (.characterReceived l x bit stop) s = .next (s.raiseScore l 1).started) ∧
    ((s.unit l).health ≠ .barred → 192 ≤ (s.unit l).score + 1 → (s.unit l).state ≠ .clearing → s.Sessionless l →
      exec (.characterReceived l x bit stop) s = .next ((s.raiseScore l 1).cleared l .lineBarred).started)

/-- Characters in the identifier field, row by row, and the carriage return that ends it: the identifier is the value of
the field's decimal digits (R54, R55). -/
def Obligations.IdentifierFieldIsTyped : Prop :=
  (∀ (s : State) (l : LineNo) (x : Code) (bit : Bool), s.Hears l → (s.unit l).state = .signOn →
    (s.dialog l).phase = .ident → (s.group l).parity.accepts x bit →
    let field := (s.dialog l).field
    let r := exec (.characterReceived l x bit true) s
    (48 ≤ x.toNat ∧ x.toNat ≤ 57 → field.length ≤ 4 →
      r = .next ((s.modDialog l fun d => { d with field := d.field ++ [x] }).place l [x]).started) ∧
    (48 ≤ x.toNat ∧ x.toNat ≤ 57 → 5 ≤ field.length → r = .next (s.place l [7]).started) ∧
    (x = 8 ∨ x = 127 → field ≠ [] →
      r = .next ((s.modDialog l fun d => { d with field := d.field.dropLast }).place l [8, 32, 8]).started) ∧
    (x = 8 ∨ x = 127 → field = [] → r = .next (s.place l [7]).started) ∧
    (x = 21 → r = .next ((s.modDialog l fun d => { d with field := [] }).place l [13, 10, 73, 68, 58]).started) ∧
    (x = 13 → field = [] → r = .next (s.place l [13, 10, 73, 68, 58]).started) ∧
    (x = 13 → field ≠ [] →
      r = .next ((s.modDialog l fun d => { d with phase := .pass, identifier := some (digitsValue field), field := [] }).place
        l [13, 10, 80, 87, 58]).started) ∧
    (¬ (48 ≤ x.toNat ∧ x.toNat ≤ 57) → x ≠ 8 → x ≠ 127 → x ≠ 21 → x ≠ 13 → r = .next (s.place l [7]).started)) ∧
  ∀ digits : List Nat, (∀ d ∈ digits, d ≤ 9) →
    digitsValue (digits.map fun d => BitVec.ofNat 7 (48 + d)) = Nat.ofDigits 10 digits.reverse

/-- Characters in the pass-phrase field, row by row (R56), and the carriage return that ends it (R57): the fold is taken
and the check joins the list, or, for an identifier that is no account number, the attempt is refused at once (R61). The
carriage return is stated while another access is in progress, when the check waits, and with an attempt to spare. The
fold is the remainder on division by 16,777,216 of the characters' codes taken as the digits of a number to the base 31.
That the fold is kept in the entry until the check is served is the model's reading (assumption 32). -/
def Obligations.PassPhraseFieldIsTypedAndFolded : Prop :=
  (∀ (s : State) (l : LineNo) (x : Code) (bit : Bool), s.Hears l → (s.unit l).state = .signOn →
     (s.dialog l).phase = .pass → (s.group l).parity.accepts x bit →
     let field := (s.dialog l).field
     let r := exec (.characterReceived l x bit true) s
     (32 ≤ x.toNat ∧ x.toNat ≤ 126 → field.length ≤ 11 →
       r = .next (s.modDialog l fun d => { d with field := d.field ++ [x] }).started) ∧
     (32 ≤ x.toNat ∧ x.toNat ≤ 126 → 12 ≤ field.length → r = .next (s.place l [7]).started) ∧
     (x = 8 ∨ x = 127 → field ≠ [] → r = .next (s.modDialog l fun d => { d with field := d.field.dropLast }).started) ∧
     (x = 8 ∨ x = 127 → field = [] → r = .next (s.place l [7]).started) ∧
     (x = 21 → r = .next ((s.modDialog l fun d => { d with field := [] }).place l [13, 10, 80, 87, 58]).started) ∧
     (x ≠ 127 → ¬ (32 ≤ x.toNat) → x ≠ 8 → x ≠ 21 → x ≠ 13 → r = .next (s.place l [7]).started) ∧
     (x = 13 → ∀ n, (s.dialog l).identifier = some n →
       (1 ≤ n → n ≤ 65535 → s.arbiter.current.isSome = true → s.arbiter.serving .signOn = false →
         r = .next ({ (s.modDialog l fun d =>
               { d with phase := .checking, field := [], fold := some (foldPass field) }).place l [13, 10] with
             checks := s.checks ++ [{ line := l, identifier := n, fold := foldPass field }],
             arbiter := { s.arbiter with signOn := true } } : State).started) ∧
       (n = 0 ∨ 65535 < n → 2 ≤ (s.dialog l).attempts →
         r = .next (((((s.place l [13, 10]).place l ([13, 10] ++ text "SIGN-ON REFUSED")).place l [13, 10, 73, 68, 58])).modDialog
             l fun d =>
           { d with phase := .ident, field := [], identifier := none, fold := none, attempts := d.attempts - 1 }).started))) ∧
  ∀ cs : List Code,
    foldPass cs = ((cs.zipIdx.map fun e => e.1.toNat * 31 ^ (cs.length - 1 - e.2)).sum) % 16777216

/-- BREAK in SIGNON (R53), and in the states in which it is ignored (R9). -/
def Obligations.BreakRestartsTheDialog : Prop :=
  ∀ (s : State) (l : LineNo), s.powered = true → (s.unit l).lineHit = false →
    ((s.unit l).state = .signOn →
      ((s.dialog l).phase = .ident ∨ (s.dialog l).phase = .pass →
        exec (.breakReceived l) s =
          .next ((s.modDialog l fun d => { d with phase := .ident, field := [], identifier := none }).place l
            [13, 10, 73, 68, 58]).started) ∧
      ((s.dialog l).phase = .checking ∨ (s.dialog l).phase = .handover → exec (.breakReceived l) s = .next s.started)) ∧
    ((s.unit l).state ≠ .signOn → (s.unit l).state ≠ .connected → exec (.breakReceived l) s = .next s.started)

/-- GUARD_TIMER_EXPIRY (R16): where a clear ends. -/
def Obligations.GuardEndsTheClear : Prop :=
  ∀ (s : State) (l : LineNo), s.powered = true → (s.unit l).state = .clearing → (s.unit l).guardTimer = true →
    ((s.unit l).enabled = false → exec (.guardTimerExpiry l) s =
      .next (s.modUnit l fun u => { u with state := .off, speed := none, partMsg := [], guardTimer := false }).started) ∧
    ((s.unit l).enabled = true → 192 ≤ (s.unit l).score → exec (.guardTimerExpiry l) s =
      .next (s.modUnit l fun u =>
        { u with state := .barred, speed := none, partMsg := [], guardTimer := false, quietTimer := true }).started) ∧
    ((s.unit l).enabled = true → (s.unit l).score < 192 → exec (.guardTimerExpiry l) s =
      .next (s.modUnit l fun u =>
        { u with state := .idle, ringCount := 0, speed := none, partMsg := [], guardTimer := false }).started)

/-- QUIET_TIMER_EXPIRY (R20): probation, told to every UP channel as LINE RESTORED. The body of the notice, with the line
in it, is as assumption 25 says. -/
def Obligations.QuietTimeEndsInProbation : Prop :=
  ∀ (s : State) (l : LineNo), s.powered = true → (s.unit l).state = .barred → (s.unit l).health = .barred →
    (s.unit l).quietTimer = true →
    ∃ t : State, exec (.quietTimerExpiry l) s = .next t.started ∧
      t.unit l = { s.unit l with
        score := 128, health := .noisy, quietTimer := false,
        state := if (s.unit l).enabled then .idle else .off,
        ringCount := if (s.unit l).enabled then 0 else (s.unit l).ringCount } ∧
      (∀ k, k ≠ l → t.line k = s.line k) ∧
      (∀ c, t.chan c = if (s.chan c).state = .up then
          (s.chan c).noted { kind := .lineRestored, line := some l, body := [BitVec.ofNat 8 l.val, 1, 128] }
        else s.chan c) ∧
      t.store = s.store ∧ t.cache = s.cache ∧ t.rating = s.rating

/-- CHARACTER_SENT, and the start of part messages (R8, R11, R12, R15): the character in progress is completed. Then, as
after every command, each line that is free starts the oldest character of its part-message buffer, framed with the line
group's parity and the speed's stop bits; in CLEARING the guard starts when this empties the buffer. A line that rests is
left as it is, and so is everything but the line units and, where a LIVE port's output is drained, the channels. That a
character leaves its buffer when it is started, that the guard then starts, and that free lines start a character at the
end of every command are the model's readings (assumptions 8, 9 and 46). -/
def Obligations.PartMessagesAreSentOldestFirst : Prop :=
  (∀ (s : State) (l : LineNo), s.powered = true →
     exec (.characterSent l) s = .next (s.modUnit l fun u => { u with sending := none }).started) ∧
  ∀ s : State,
    let t := s.started
    (∀ l, s.Rests l → t.unit l = s.unit l) ∧
    (∀ l x rest, ¬ s.Rests l → (s.unit l).partMsg = x :: rest →
      ∃ c, s.Framed l x c ∧
        t.unit l =
          if (s.unit l).state = .clearing ∧ rest = [] then
            { s.unit l with partMsg := [], sending := some c, answerOut := false, guardTimer := true }
          else { s.unit l with partMsg := rest, sending := some c }) ∧
    (∀ l, t.dialog l = s.dialog l ∧ t.ctx l = s.ctx l) ∧
    ((∀ l, s.Rests l ∨ (s.unit l).partMsg ≠ []) → t.channels = s.channels) ∧
    t = { s with lines := t.lines, channels := t.channels }

/-- DIALOG_TIMER_EXPIRY (R52, R14, R15, R64): the dialog ends and the line is cleared, with 2 on the score; answer drops at
once if nothing is left to send. While a field is typed nothing else changes. In CHECKING a check that has not been served
is withdrawn, and the next on the list is offered in its place (R39, R58); one that has been served completes, and its
result will find the line cleared, the account still counted if it is a success. That the clear comes before the score,
and that the presence count is then lowered when the result is taken, are the model's readings (assumptions 39 and 16). -/
def Obligations.DialogTimerEndsTheCall : Prop :=
  ∀ (s : State) (l : LineNo), s.powered = true → (s.unit l).state = .signOn → (s.dialog l).timer = true → s.ctx l = {} →
    s.NotWaiting l →
    ((s.dialog l).phase = .ident ∨ (s.dialog l).phase = .pass → (s.dialog l).counted = none →
      ((s.unit l).partMsg = [] ∨ (s.unit l).lineHit = true → exec (.dialogTimerExpiry l) s =
        .next (((s.modDialog l Dialog.ended).modUnit l fun u => u.cleared .signOnTimeout).raiseScore l 2).started) ∧
      ((s.unit l).partMsg ≠ [] → (s.unit l).lineHit = false → exec (.dialogTimerExpiry l) s =
        .next (((s.modDialog l Dialog.ended).modUnit l fun u => u.clearing .signOnTimeout).raiseScore l 2).started)) ∧
    ((s.dialog l).phase = .checking →
      let ended := (s.modDialog l Dialog.ended).modUnit l fun u => u.afterClear .signOnTimeout
      let others := s.checks.filter fun k => k.line ≠ l
      ((s.dialog l).counted = none → (∀ a o n, s.arbiter.current = some a → a.result ≠ .check l o n false) →
        exec (.dialogTimerExpiry l) s =
          .next (({ ended with checks := others, arbiter := { s.arbiter with signOn := s.arbiter.signOn && !others.isEmpty } }
            : State).raiseScore l 2).started) ∧
      ∀ q w o n, s.arbiter.current = some { who := q, write := w, result := .check l o n false } →
        exec (.dialogTimerExpiry l) s =
          .next (({ ended with
              arbiter := { s.arbiter with current := some { who := q, write := w, result := .check l o n true } } }
            : State).raiseScore l 2).started)

/-! ## Command mode and sessions -/

/-- Characters in the command field, row by row (R73); each restarts the idle timer (R72); a carriage return executes the
field as the command it spells, or answers `?`; spaces separate words and count for nothing else, and letters count as
capitals (R74). During a line hit every character is discarded without scoring, and so is the carriage return that a
typed-command row stands for (R12; that the row is that carriage return is assumption 5). -/
def Obligations.CommandFieldIsTyped : Prop :=
  (∀ (s : State) (l : LineNo) (x : Code) (bit : Bool), s.Hears l → (s.unit l).state = .command →
    (s.group l).parity.accepts x bit →
    let t := s.modCtx l fun y => { y with idleTimer := true }
    let field := (s.ctx l).field
    let r := exec (.characterReceived l x bit true) s
    (32 ≤ x.toNat ∧ x.toNat ≤ 126 → field.length ≤ 31 →
      r = .next ((t.modCtx l fun y => { y with field := y.field ++ [x] }).place l [x]).started) ∧
    (32 ≤ x.toNat ∧ x.toNat ≤ 126 → 32 ≤ field.length → r = .next (t.place l [7]).started) ∧
    (x = 8 ∨ x = 127 → field ≠ [] →
      r = .next ((t.modCtx l fun y => { y with field := y.field.dropLast }).place l [8, 32, 8]).started) ∧
    (x = 8 ∨ x = 127 → field = [] → r = .next (t.place l [7]).started) ∧
    (x = 21 → r = .next ((t.modCtx l fun y => { y with field := [] }).place l [13, 10, 62]).started) ∧
    (x.toNat < 32 → x ≠ 8 → x ≠ 21 → x ≠ 13 → r = .next (t.place l [7]).started) ∧
    (x = 13 →
      (readCommand field = .empty → r = .next ((t.modCtx l fun y => { y with field := [] }).place l [13, 10, 62]).started) ∧
      (readCommand field = .unknown → r = .next ((t.modCtx l fun y => { y with field := [] }).answeredLine l [63]).started) ∧
      (∀ c, readCommand field = .connect c → r = exec (.connect l c) t) ∧
      (readCommand field = .resume → r = exec (.resume l) t) ∧
      (readCommand field = .rotate → r = exec (.rotate l) t) ∧
      (readCommand field = .endSession → r = exec (.endSession l) t) ∧
      (readCommand field = .logoff → r = exec (.logoff l) t) ∧
      (readCommand field = .status → r = exec (.status l) t))) ∧
  (∀ (s : State) (l : LineNo), s.powered = true → (s.unit l).lineHit = true →
    (∀ x bit stop, exec (.characterReceived l x bit stop) s = .next s.started) ∧
    (∀ c, exec (.connect l c) s = .next s.started) ∧
    ∀ i ∈ [Instr.resume l, .rotate l, .endSession l, .logoff l, .status l], exec i s = .next s.started) ∧
  ∀ field : List Code,
    let blank := fun (cs : List Code) => ∀ x ∈ cs, x = 32
    let capital := fun (x : Code) => if 97 ≤ x.toNat ∧ x.toNat ≤ 122 then BitVec.ofNat 7 (x.toNat - 32) else x
    let spells := fun (name : List Code) => ∃ a w b, field = a ++ w ++ b ∧ blank a ∧ blank b ∧ w.map capital = name
    (readCommand field = .empty ↔ blank field) ∧ (readCommand field = .resume ↔ spells (text "RESUME")) ∧
    (readCommand field = .rotate ↔ spells (text "ROTATE")) ∧ (readCommand field = .endSession ↔ spells (text "END")) ∧
    (readCommand field = .logoff ↔ spells (text "LOGOFF")) ∧ (readCommand field = .status ↔ spells (text "STATUS")) ∧
    ∀ c, readCommand field = .connect c ↔
      ∃ a w m h b, field = a ++ w ++ m ++ [h] ++ b ∧ blank a ∧ blank m ∧ m ≠ [] ∧ blank b ∧
        w.map capital = text "CONNECT" ∧ capital h = hostLetter c

/-- Input of a live session (R70, R83, R84): a character, or the literal attention character of a pair, is gathered and
forwarded at a carriage return or at 32 characters, or held while host stop is yes; FORWARD_TIMER_EXPIRY sends what is
gathered, and a BREAK is sent at once. How indications and characters combine in data blocks is the model's choice
(assumption 10). -/
def Obligations.TypingGoesToTheLivePort : Prop :=
  ∀ (s : State) (l : LineNo) (e : Session) (f : Flow), s.Hears l → (s.unit l).state = .connected →
    s.liveSession l = some e → s.flow? e.channel e.port = some f →
    let input := (s.unit l).input
    let sent := fun (t : State) (b : DataBlock) => t.modChan e.channel fun ch => { ch with dataOut := ch.dataOut ++ [b] }
    (∀ x bit, (s.group l).parity.accepts x bit → ∀ t,
      (s.ctx l).attention = .none ∧ x ≠ (s.group l).attention ∧ t = s ∨
        (s.ctx l).attention = .pending ∧ x = (s.group l).attention ∧
          t = s.modCtx l (fun y => { y with attention := .none, attentionTimer := false }) →
      let r := exec (.characterReceived l x bit true) s
      (128 ≤ input.length → r = .next (t.place l [7]).started) ∧
      (input.length < 128 → f.hostStop = true ∨ (x ≠ 13 ∧ input.length + 1 < 32) →
        r = .next ((t.modUnit l fun u => { u with input := u.input ++ [x] }).modCtx l fun y =>
          { y with forwardTimer := true }).started) ∧
      (input.length < 128 → f.hostStop = false → x = 13 ∨ 32 ≤ input.length + 1 →
        r = .next (sent ((t.modUnit l fun u => { u with input := [] }).modCtx l fun y => { y with forwardTimer := false })
          { port := e.port, chars := input ++ [x] }).started)) ∧
    ((s.ctx l).forwardTimer = true →
      (f.hostStop = false → input ≠ [] → exec (.forwardTimerExpiry l) s =
        .next (sent ((s.modUnit l fun u => { u with input := [] }).modCtx l fun y => { y with forwardTimer := false })
          { port := e.port, chars := input }).started) ∧
      (f.hostStop = true → exec (.forwardTimerExpiry l) s = .next (s.modCtx l fun y => { y with forwardTimer := false }).started)) ∧
    (f.hostStop = false → exec (.breakReceived l) s =
      .next (sent ((s.modUnit l fun u => { u with input := [] }).modCtx l fun y => { y with forwardTimer := false })
        { port := e.port, brk := true, chars := input }).started) ∧
    (f.hostStop = true → exec (.breakReceived l) s = .next (sent s { port := e.port, brk := true }).started)

/-- The first attention character, and ATTENTION_TIMER_EXPIRY, which takes the line from CONNECTED to COMMAND: what was
typed is sent, or dropped with a bell under host stop, the session is HELD, and the prompt is placed. Any other character
that comes while an attention is pending leads to COMMAND in the same way, and is the first character typed there (R70 to
R72). The body of HELD and the data blocks are as assumptions 25 and 10 say. -/
def Obligations.AttentionLeadsToThePrompt : Prop :=
  ∀ (s : State) (l : LineNo), s.powered = true → (s.unit l).state = .connected →
    (∀ bit, s.Hears l → (s.group l).parity.accepts (s.group l).attention bit → (s.ctx l).attention = .none →
      exec (.characterReceived l (s.group l).attention bit true) s =
        .next (s.modCtx l fun y => { y with attention := .pending, attentionTimer := true }).started) ∧
    ∀ e f, s.liveSession l = some e → s.flow? e.channel e.port = some f →
      let input := (s.unit l).input
      let t := s.modCtx l fun y =>
        { y with attention := .none, attentionTimer := false, forwardTimer := false, field := [], idleTimer := true,
                 stack := y.stack.map fun k =>
                   if k.channel = e.channel ∧ k.port = e.port then { k with state := .held } else k }
      let held : Notice :=
        { kind := .held, line := some l,
          body := bytesBE 1 e.port ++ bytesBE 2 (s.circuit e.channel e.port) ++ bytesBE 1 l.val }
      let led := (((t.modUnit l fun u => { u with state := .command, input := [] }).modChan e.channel fun ch =>
            Channel.noted
              { ch with dataOut := ch.dataOut ++
                  if input = [] ∨ f.hostStop = true then [] else [{ port := e.port, chars := input }] } held).place l
          (if input ≠ [] ∧ f.hostStop = true then [7] else [])).place l [13, 10, 62]
      ((s.ctx l).attentionTimer = true → exec (.attentionTimerExpiry l) s = .next led.started) ∧
      ∀ x bit, s.Hears l → (s.group l).parity.accepts x bit → (s.ctx l).attention = .pending →
        x ≠ (s.group l).attention →
        exec (.characterReceived l x bit true) s = exec (.characterReceived l x bit true) led

/-- CONNECT: the checks of R89 in their order, each with its text; then the lowest-numbered FREE port goes to OPENING
with CIRCUIT REQUEST queued, or the line joins the wait queue behind its class, and the line enters WAITING (R75, R90,
R91, R95). What a line hit does to the command is stated with the command field. The body of CIRCUIT REQUEST is as
assumption 25 says. -/
def Obligations.ConnectChecksThenOpensOrWaits : Prop :=
  ∀ (s : State) (l : LineNo) (c : ChanNo) (so : SignOnRecord), s.powered = true → (s.unit l).state = .command →
    (s.unit l).lineHit = false → (s.ctx l).signOn = some so →
    let t := s.modCtx l fun y => { y with field := [] }
    (∀ cs, s.ConnectRefused l c so cs → exec (.connect l c) s = .next (t.answeredLine l cs).started) ∧
    (s.MayConnect l c so →
      let w := (s.modUnit l fun u => { u with state := .waiting }).modCtx l fun y =>
        { y with field := [], idleTimer := false }
      (∀ p x, s.port? c p = some x → x.state = .free →
        (∀ q y, q < p → s.port? c q = some y → y.state ≠ .free) →
        exec (.connect l c) s =
          .next ((w.modPort c p fun z =>
              { z with state := .opening, line := some l, slot := some so.slot, cause := none, timer := true }).modChan c
            fun ch => ch.noted
              { kind := .circuitRequest, line := some l,
                body := bytesBE 1 p ++ bytesBE 2 x.circuit ++ bytesBE 1 l.val ++ bytesBE 2 (s.accountOf so.slot) ++
                  bytesBE 1 so.effClass ++ speedByte (s.unit l).speed }).started) ∧
      ((∀ p x, s.port? c p = some x → x.state ≠ .free) → ∀ a b, (s.chan c).queue = a ++ b →
        (∀ k ∈ a, so.effClass ≤ k.effClass) → (∀ k, b.head? = some k → k.effClass < so.effClass) →
        exec (.connect l c) s =
          .next ((w.modChan c fun ch => { ch with queue := a ++ [{ line := l, slot := so.slot, effClass := so.effClass }] ++ b
              }).place l
            ([13, 10] ++ (text "WAITING FOR HOST " ++ [hostLetter c] ++ text ", POSITION " ++ decimal (a.length + 1)))).started))

/-- RESUME and ROTATE (R76): with too few sessions the answer is `NO SESSION`; otherwise the session now at the top of the
stack becomes LIVE, RESUMED is queued to its channel, and the line enters CONNECTED. What a line hit does to the commands
is stated with the command field. The body of RESUMED, with the line in it, is as assumption 25 says. -/
def Obligations.ResumeAndRotateGiveTheTerminal : Prop :=
  ∀ (s : State) (l : LineNo), s.powered = true → (s.unit l).state = .command → (s.unit l).lineHit = false →
    let live := fun (e : Session) (stack : List Session) =>
      ((s.modCtx l fun y => { y with field := [], idleTimer := false, stack := stack }).modUnit l fun u =>
          { u with state := .connected }).modChan e.channel fun ch => ch.noted
        { kind := .resumed, line := some l,
          body := bytesBE 1 e.port ++ bytesBE 2 (s.circuit e.channel e.port) ++ bytesBE 1 l.val }
    let noSession := (s.modCtx l fun y => { y with field := [] }).answeredLine l (text "NO SESSION")
    ((s.ctx l).stack = [] → exec (.resume l) s = .next noSession.started) ∧
    (∀ st e, (s.ctx l).stack = st ++ [e] → exec (.resume l) s = .next (live e (st ++ [{ e with state := .live }])).started) ∧
    ((s.ctx l).stack.length < 2 → exec (.rotate l) s = .next noSession.started) ∧
    (∀ st y z, (s.ctx l).stack = st ++ [y, z] →
      exec (.rotate l) s = .next (live y (z :: (st ++ [{ y with state := .live }]))).started)

/-- STATUS (R79): a line for each session, top first, or `NO SESSION`; the account's use; the prompt. What a line hit does to
the command is stated with the command field. The fields of a missing name or meter are the model's reading (assumption 24). -/
def Obligations.StatusReportsSessionsAndUse : Prop :=
  ∀ (s : State) (l : LineNo) (so : SignOnRecord), s.powered = true → (s.unit l).state = .command →
    (s.unit l).lineHit = false → (s.ctx l).signOn = some so →
    let session := fun (e : Session) =>
      let m := s.meter? e.channel e.port
      [hostLetter e.channel] ++ text " " ++ ((s.chan e.channel).name.getD []) ++ text " " ++
        decimal ((m.map (·.seconds)).getD 0) ++ text " SEC " ++ decimal ((m.map (·.units)).getD 0) ++ text " UNITS"
    let used := match s.budget so.slot with
      | some b => text "USED " ++ decimal (s.total so.slot) ++ text " OF " ++ decimal b
      | none => text "USED " ++ decimal (s.total so.slot) ++ text ", NO BUDGET"
    let lines := (if (s.ctx l).stack = [] then [text "NO SESSION"] else (s.ctx l).stack.reverse.map session) ++ [used]
    exec (.status l) s =
      .next ((lines.foldl (fun t cs => t.place l ([13, 10] ++ cs)) (s.modCtx l fun y => { y with field := [] })).place l
        [13, 10, 62]).started

/-- LOGOFF and IDLE_TIMER_EXPIRY (R78, R14, R64, R86): the sessions are closed, the charge summary is placed, then the
line is cleared; a LOGOFF takes 16 from the score. Stated without a session and with one, which is closed as R98 and R121
say, here of an account without a budget. An account in GRACE that its last line leaves goes to SPENT, told to the UP
channels with the EDIT right on it (R141). That the blocks apply a clear in this order, before the score, is the model's
choice (assumptions 15 and 39); the bodies and the data blocks are as assumptions 25, 44 and 10 say. -/
def Obligations.LogoffPlacesTheSummaryAndClears : Prop :=
  ∀ (s : State) (l : LineNo) (so : SignOnRecord), s.powered = true → (s.unit l).state = .command →
    (s.ctx l).signOn = some so → s.NotWaiting l → (s.unit l).lineHit = false →
    (s.dialog l).phase = .none → (s.dialog l).counted = some so.slot →
    let p := s.presenceOf so.slot
    let idled := s.place l ([13, 10] ++ text "IDLE TIMEOUT")
    let summed := fun (t : State) (units : Nat) (used : List Code) =>
      ((t.place l ([13, 10] ++ (text "UNITS THIS SIGN-ON " ++ decimal units))).place l ([13, 10] ++ used)).place l
        ([13, 10] ++ text "SIGNED OFF")
    let ended := fun (t : State) (cause : Cause) =>
      ((t.modUnit l fun u => u.clearing cause).modDialog l fun d => { d.ended with counted := none }).modCtx l fun _ => {}
    ((s.ctx l).stack = [] →
      let used := match s.budget so.slot with
        | some b => text "USED " ++ decimal (s.total so.slot) ++ text " OF " ++ decimal b
        | none => text "USED " ++ decimal (s.total so.slot) ++ text ", NO BUDGET"
      let left := fun (t : State) (cause : Cause) => ended (summed t (s.ctx l).units used) cause
      (p.budget ≠ some .grace →
        let gone := fun (t : State) => t.setPresence so.slot { p with count := p.count - 1 }
        exec (.logoff l) s = .next ((gone (left s .logoff)).lowerScore l 16).started ∧
        ((s.ctx l).idleTimer = true → exec (.idleTimerExpiry l) s = .next (gone (left idled .idle)).started)) ∧
      (p.budget = some .grace → p.count = 1 →
        ∃ t : State, exec (.logoff l) s = .next (t.lowerScore l 16).started ∧
          t.presenceOf so.slot = { budget := some .spent } ∧
          (∀ d, t.chan d = s.budgetTold so.slot .spent (s.total so.slot) d) ∧ t.line l = (left s .logoff).line l ∧
          (∀ j, j ≠ l → t.line j = s.line j) ∧ t.store = s.store ∧ t.cache = s.cache ∧ t.rating = s.rating)) ∧
    ∀ k x m e, (s.ctx l).stack = [k] → s.Running l k x m e → m.slot = so.slot →
      let units := min ((s.ctx l).units + s.finalUnits m) 16777215
      let used := text "USED " ++ decimal (s.total so.slot + (s.finalUnits m - m.units + m.unposted)) ++ text ", NO BUDGET"
      let left := fun (t u : State) (cause : Cause) =>
        s.Closes u l k x m e cause ∧ u.line l = (ended (summed t units used) cause).line l ∧
          (∀ j, j ≠ l → u.line j = s.line j) ∧ u.presenceOf so.slot = { p with count := p.count - 1 }
      (∃ u : State, exec (.logoff l) s = .next (u.lowerScore l 16).started ∧ left s u .logoff) ∧
      ((s.ctx l).idleTimer = true → ∃ u : State, exec (.idleTimerExpiry l) s = .next u.started ∧ left idled u .idle)

/-! ## Ports and wait queues -/

/-- The rows of the port orders in which nothing is changed: a number that is no port of the channel is answered BAD VALUE
(R88), and a port state that the order does not act on GONE or NOT FOUND (R96, R97, R99, R100). FAULT PENDING does not stop
them (R172). -/
def Obligations.PortOrdersThatFindNoCircuit : Prop :=
  ∀ (s : State) (c : ChanNo) (f : OrderFrame) (p : Byte), s.Attends c → f.fits 1 → f.body = [p] →
    let answered := fun (code : Byte) (o : Outcome) =>
      (.next ((s.inExecution c code f).replied c f o []).started : Host.Outcome State Fault Refusal)
    (s.port? c p.toNat = none →
      exec (.accept c f) s = answered 5 .badValue ∧ exec (.refuse c f) s = answered 6 .badValue ∧
      exec (.closePort c f) s = answered 7 .badValue ∧ exec (.closeAck c f) s = answered 8 .badValue) ∧
    ∀ x, s.port? c p.toNat = some x →
      (x.state = .free →
        exec (.accept c f) s = answered 5 .gone ∧ exec (.refuse c f) s = answered 6 .gone ∧
        exec (.closePort c f) s = answered 7 .gone ∧ exec (.closeAck c f) s = answered 8 .gone) ∧
      (x.state = .closing → exec (.accept c f) s = answered 5 .gone ∧ exec (.refuse c f) s = answered 6 .gone) ∧
      (x.state = .bound →
        exec (.accept c f) s = answered 5 .notFound ∧ exec (.refuse c f) s = answered 6 .notFound ∧
        exec (.closeAck c f) s = answered 8 .notFound) ∧
      (x.state = .opening →
        exec (.closePort c f) s = answered 7 .notFound ∧ exec (.closeAck c f) s = answered 8 .notFound)

/-- ACCEPT of an OPENING port whose line waits (R96, R117, R118): the port is BOUND with an empty output buffer, the meter
opens with its first segment, the session is LIVE on the stack, and the line enters CONNECTED. Where the ACTIVE bank has no
rate for the segment it runs at rate 0 and UNRATED is raised: by the channel's sticky flag if it masks it, else by a fault
record, with BILLING FAULT for the first (R118, R122 to R124). In FALLBACK the meter is marked estimated (R107; stated
where the channel has raised ESTIMATED in the spell). The empty body and the header of BILLING FAULT are as assumptions 25
and 45 say. -/
def Obligations.AcceptCompletesTheCircuit : Prop :=
  ∀ (s : State) (c : ChanNo) (f : OrderFrame) (p : Byte) (x : Port) (l : LineNo) (slot : Nat) (so : SignOnRecord)
    (v : Speed), s.Attends c → f.fits 1 → f.body = [p] → s.port? c p.toNat = some x → x.state = .opening →
    x.line = some l → x.slot = some slot → (s.unit l).state = .waiting → (s.ctx l).signOn = some so →
    (s.unit l).speed = some v → s.meter? c p.toNat = none →
    s.rating.clock = .reference ∨ (s.chan c).fallbackRaised = true →
    let opened := fun (rate : Nat) (raise : Channel → Channel) =>
      let m : Meter :=
        { channel := c, port := p.toNat, line := l, slot := slot, speedClass := v.cls, effClass := so.effClass,
          period := s.rating.period, rate := rate, percent := s.rating.active.classPercent so.effClass,
          estimated := s.rating.clock = .fallback }
      exec (.accept c f) s =
        .next ((((((s.inExecution c 5 f).modPort c p.toNat fun y =>
              { y with state := .bound, timer := false, flow := some {} }).modRating fun r =>
            { r with meters := insertMeter m r.meters }).modLine l fun y =>
          { y with unit := { y.unit with state := .connected },
                   ctx  := { y.ctx with field := [], idleTimer := false,
                                        stack := y.ctx.stack ++ [{ channel := c, port := p.toNat, state := .live }] } }).modChan
            c raise).replied c f .done []).started
    (∀ n, s.rating.active.rate c v.cls s.rating.period = some n → opened n fun ch => ch) ∧
    (s.rating.active.rate c v.cls s.rating.period = none →
      opened 0 fun ch => ch.raised .unrated (s.accountOf slot) (some p.toNat) s.rating.calendar)

/-- A port in CLOSING becomes FREE by CLOSE_ACK, by CLOSE_PORT (answered GONE) and by CLOSE_TIMER_EXPIRY (R99, R100). On an
UP channel it is granted at once to the first in the wait queue whose account is ACTIVE; the lines before it return to
COMMAND with `NOT PERMITTED` (R94, R95; stated where these are different lines, in WAITING). On a QUIESCING channel with
another port not FREE nothing more happens (R102). The body of CIRCUIT REQUEST, with the line in it, is as assumption 25
says. -/
def Obligations.ClosedPortsAreFreedAndGranted : Prop :=
  ∀ (s : State) (c : ChanNo) (p : Byte) (x : Port), s.powered = true → s.port? c p.toNat = some x → x.state = .closing →
    let frees := fun (g : State → State) =>
      (x.timer = true → exec (.closeTimerExpiry c p.toNat) s = .next (g s).started) ∧
      (∀ f : OrderFrame, s.Attends c → f.fits 1 → f.body = [p] →
        exec (.closeAck c f) s = .next ((g (s.inExecution c 8 f)).replied c f .done []).started ∧
        exec (.closePort c f) s = .next ((g (s.inExecution c 7 f)).replied c f .gone []).started)
    ((s.chan c).state = .up → ∀ a b, (s.chan c).queue = a ++ b →
      (∀ v ∈ a, (∀ r, s.recordAt v.slot = some r → r.state ≠ .active) ∧ (s.unit v.line).state = .waiting) →
      (a.map (·.line)).Nodup →
      let passed := fun (t : State) (rest : List WaitEntry) =>
        a.foldl (fun u v => u.returned v.line (text "NOT PERMITTED"))
          ((t.freed c p.toNat).modChan c fun ch => { ch with queue := rest })
      (b = [] → frees fun t => passed t []) ∧
      ∀ w rest r, b = w :: rest → s.recordAt w.slot = some r → r.state = .active →
        frees fun t => ((passed t rest).modPort c p.toNat fun y =>
            { y with state := .opening, line := some w.line, slot := some w.slot, timer := true }).modChan c fun ch =>
          ch.noted
            { kind := .circuitRequest, line := some w.line,
              body := bytesBE 1 p.toNat ++ bytesBE 2 x.circuit ++ bytesBE 1 w.line.val ++ bytesBE 2 (s.accountOf w.slot) ++
                bytesBE 1 w.effClass ++ speedByte (s.unit w.line).speed }) ∧
    ((s.chan c).state = .quiescing → (∃ q y, q ≠ p.toNat ∧ s.port? c q = some y ∧ y.state ≠ .free) →
      frees fun t => t.freed c p.toNat)

/-- REFUSE and ACCEPT_TIMER_EXPIRY of an OPENING port (R97): the line returns to COMMAND with `HOST x REFUSED` and the port
is FREE again, or is granted at once to the head of the wait queue, here one whose account is ACTIVE (R94, R95); the
timer's expiry also queues CIRCUIT CLOSED with cause NO ANSWER (that this comes first is the model's choice, assumption
33). The bodies of CIRCUIT CLOSED and CIRCUIT REQUEST, with the line in them, are as assumption 25 says. -/
def Obligations.RefusedCallsReturnTheLine : Prop :=
  ∀ (s : State) (c : ChanNo) (p : Byte) (x : Port) (l : LineNo), s.powered = true → s.port? c p.toNat = some x →
    x.state = .opening → x.line = some l → (s.unit l).state = .waiting → (s.chan c).state = .up →
    let cs := text "HOST " ++ [hostLetter c] ++ text " REFUSED"
    let refused := fun (g : State → State) =>
      (∀ f : OrderFrame, s.Attends c → f.fits 1 → f.body = [p] →
        exec (.refuse c f) s =
          .next ((g (((s.inExecution c 6 f).freed c p.toNat).returned l cs)).replied c f .done []).started) ∧
      (x.timer = true →
        exec (.acceptTimerExpiry c p.toNat) s =
          .next (g (((s.modChan c fun ch => ch.noted
            { kind := .circuitClosed, line := some l,
              body := bytesBE 1 p.toNat ++ bytesBE 2 x.circuit ++ bytesBE 1 l.val ++ [19] }).freed c p.toNat).returned l
            cs)).started)
    ((s.chan c).queue = [] → refused fun t => t) ∧
    ∀ w rest r, (s.chan c).queue = w :: rest → s.recordAt w.slot = some r → r.state = .active →
      refused fun t => ((t.modChan c fun ch => { ch with queue := rest }).modPort c p.toNat fun y =>
          { y with state := .opening, line := some w.line, slot := some w.slot, timer := true }).modChan c fun ch =>
        ch.noted
          { kind := .circuitRequest, line := some w.line,
            body := bytesBE 1 p.toNat ++ bytesBE 2 x.circuit ++ bytesBE 1 w.line.val ++ bytesBE 2 (s.accountOf w.slot) ++
              bytesBE 1 w.effClass ++ speedByte (s.unit w.line).speed }

/-- A line in WAITING: the wait timer's expiry, an abandon by the attention character, and any other character (R92, R93).
What waits is withdrawn, an OPENING port going to CLOSING with cause ABANDONED, and the line returns to COMMAND. The body
of CIRCUIT CLOSED, with the line in it, is as assumption 25 says. -/
def Obligations.WaitsEndByTimeOrByTheCaller : Prop :=
  ∀ (s : State) (l : LineNo), s.powered = true → (s.unit l).state = .waiting →
    (∀ c w, w ∈ (s.chan c).queue → w.line = l → w.timer = true →
      exec (.waitTimerExpiry c l) s =
        .next ((s.modChan c fun ch => { ch with queue := ch.queue.filter fun k => k.line != l }).returned l
          (text "WAIT EXPIRED")).started) ∧
    (∀ x bit, s.Hears l → (s.group l).parity.accepts x bit →
      (x ≠ (s.group l).attention → exec (.characterReceived l x bit true) s = .next (s.place l [7]).started) ∧
      (x = (s.group l).attention →
        ((∀ c p y, s.port? c p = some y → y.state = .opening → y.line ≠ some l) →
          ∃ t : State, exec (.characterReceived l x bit true) s = .next t.started ∧
            t.line l = (s.returned l (text "CONNECT ABANDONED")).line l ∧ (∀ k, k ≠ l → t.line k = s.line k) ∧
            (∀ c, t.chan c = { s.chan c with queue := (s.chan c).queue.filter fun k => k.line != l }) ∧
            t.rating = s.rating ∧ t.cache = s.cache ∧ t.store = s.store ∧ t.arbiter = s.arbiter) ∧
        (∀ c p y, s.port? c p = some y → y.state = .opening → y.line = some l →
          (∀ d q z, s.port? d q = some z → z.state = .opening → z.line = some l → d = c ∧ q = p) →
          (∀ d, ∀ w ∈ (s.chan d).queue, w.line ≠ l) →
          exec (.characterReceived l x bit true) s =
            .next (((s.modPort c p fun z =>
                { z with state := .closing, cause := some .abandoned, timer := true, flow := none }).modChan c fun ch =>
              ch.noted { kind := .circuitClosed, line := some l,
                         body := bytesBE 1 p ++ bytesBE 2 y.circuit ++ bytesBE 1 l.val ++ [15] }).returned l
              (text "CONNECT ABANDONED")).started)))

/-- SILENCE_TIMER_EXPIRY (R170, R103): the channel is FAILED, its name, parameters, ports, notices and order queue are
gone, lost notices are remembered, an access in progress for it is completed without a reply, and its CHARGEs and its
FLUSH are withdrawn (R39, R129, R132). Stated without circuits or waiting lines; with one line waiting, in the queue or
with a port in OPENING, which returns to COMMAND with `HOST x NOT RESPONDING`; and with one circuit, whose session ends
(R80, R121), here of an account without a budget. That a stopped timer does not expire, that BUSY replies outlive the
failure, that data blocks not yet taken are dropped, and that the item of a withdrawn CHARGE keeps its place, are
assumptions 3, 6, 11 and 20. -/
def Obligations.SilenceEndsTheAttachment : Prop :=
  ∀ (s : State) (c : ChanNo), s.powered = true →
    let cs := text "HOST " ++ [hostLetter c] ++ text " NOT RESPONDING"
    let failed := { s.chan c with
      state := .failed, name := none, params := none, orders := [], reply := none, notices := [],
      lost := (s.chan c).lost || !(s.chan c).notices.isEmpty, silence := false, dataOut := [], ports := [], queue := [],
      masks := {}, sticky := {}, faults := [], moreFaults := false, faultPending := false, fallbackRaised := false }
    ((s.chan c).silence = false → exec (.silenceTimerExpiry c) s = .next s.started) ∧
    ((s.chan c).silence = true →
      (∀ waiter : Option LineNo,
        (waiter = none ∧ (∀ p x, s.port? c p = some x → x.state = .free) ∧ (s.chan c).queue = []) ∨
          (∃ w : WaitEntry, waiter = some w.line ∧ (∀ p x, s.port? c p = some x → x.state = .free) ∧
            (s.chan c).queue = [w]) ∨
          (∃ p x, s.port? c p = some x ∧ x.state = .opening ∧ x.line = waiter ∧ waiter.isSome = true ∧
            (∀ q y, q ≠ p → s.port? c q = some y → y.state = .free) ∧ (s.chan c).queue = []) →
        (∀ l, waiter = some l → (s.unit l).state = .waiting) →
        ∃ t : State, exec (.silenceTimerExpiry c) s = .next t.started ∧ t.chan c = failed ∧
          (∀ d, d ≠ c → t.chan d = s.chan d) ∧
          (∀ l, t.line l = if waiter = some l then (s.returned l cs).line l else s.line l) ∧
          t.store = s.store ∧ t.rating = s.rating ∧ t.presence = s.presence ∧ t.checks = s.checks ∧
          t.cache = { s.cache with
            flush := s.cache.flush.set c none,
            waiting := s.cache.waiting.map fun i => { i with charges := i.charges.filter fun w => w.channel != c } } ∧
          t.arbiter = { s.arbiter with
            chans := s.arbiter.chans.set c false,
            current := s.arbiter.current.map fun a =>
              if a.who = .chan c ∧ a.result ≠ .taken then { a with result := .discarded c } else a }) ∧
      ∀ l k x m e, s.Running l k x m e → k.channel = c → x.state = .bound →
        (∀ q y, q ≠ k.port → s.port? c q = some y → y.state = .free) → (s.chan c).queue = [] →
        (∀ j ∈ (s.ctx l).stack, j.channel = c → j.port = k.port → j = k) → k ∈ (s.ctx l).stack →
        (k.state = .live → (s.unit l).state = .connected) →
        ∃ t : State, exec (.silenceTimerExpiry c) s = .next t.started ∧ t.chan c = { failed with lost := true } ∧
          (∀ d, d ≠ c → t.chan d = s.chan d) ∧ t.line l = (s.parted l k (s.finalUnits m) cs).line l ∧
          (∀ j, j ≠ l → t.line j = s.line j) ∧ s.Billed t k m e ∧ t.presence = s.presence)

/-! ## Metering -/

/-- END (R77, R98, R121), where no line hit is running: with no session the answer is `NO SESSION`; otherwise the top session is closed. Its meter
closes with its residue rounded and the minimum charge, the units not yet posted go to the account's entry, SESSION END
and CIRCUIT CLOSED are queued, the port is CLOSING, and the line is told the final units. CLOSE_PORT of a BOUND port,
with nobody in the wait queue (R100, R80, R121): the session is closed with cause HOST CLOSE, CIRCUIT CLOSED is not
queued, the port is FREE, and a line for which the session was LIVE returns to COMMAND with a text. Both stated for an
account without a budget whose entry has the room. Which blocks stay at a close is the model's choice (assumption 10),
the bodies are as assumption 25 says, and final units above 16,777,215 are as assumption 44 says. -/
def Obligations.SessionsEndFromEitherSide : Prop :=
  (∀ (s : State) (l : LineNo), s.powered = true → (s.unit l).state = .command → (s.unit l).lineHit = false →
     ((s.ctx l).stack = [] →
       exec (.endSession l) s = .next ((s.modCtx l fun y => { y with field := [] }).answeredLine l (text "NO SESSION")).started) ∧
     ∀ (st : List Session) (k : Session) (x : Port) (m : Meter) (e : Fin 32), (s.ctx l).stack = st ++ [k] →
       (∀ j ∈ st, ¬ (j.channel = k.channel ∧ j.port = k.port)) → s.Running l k x m e →
       ∃ t : State, exec (.endSession l) s = .next t.started ∧ s.Closes t l k x m e .userEnd ∧
         t.line l = ((s.modCtx l fun y =>
             { y with field := [], stack := st, units := min (y.units + s.finalUnits m) 16777215 }).answeredLine l
           (text "HOST " ++ [hostLetter k.channel] ++ text " ENDED, " ++ decimal (s.finalUnits m) ++ text " UNITS")).line l ∧
         (∀ j, j ≠ l → t.line j = s.line j) ∧ t.presence = s.presence) ∧
  ∀ (s : State) (c : ChanNo) (f : OrderFrame) (p : Byte) (l : LineNo) (k : Session) (x : Port) (m : Meter) (e : Fin 32),
    s.Attends c → (s.chan c).state = .up → (s.chan c).queue = [] → f.fits 1 → f.body = [p] → k.channel = c →
    k.port = p.toNat → s.Running l k x m e → x.state = .bound →
    (∀ j ∈ (s.ctx l).stack, j.channel = c → j.port = k.port → j = k) → k ∈ (s.ctx l).stack →
    (k.state = .live → (s.unit l).state = .connected) →
    ∃ t : State, exec (.closePort c f) s = .next t.started ∧
      t.line l = (s.parted l k (s.finalUnits m) (text "SESSION ENDED BY HOST " ++ [hostLetter c])).line l ∧
      (∀ j, j ≠ l → t.line j = s.line j) ∧
      t.port? c p.toNat = some { circuit := x.circuit } ∧
      (t.chan c).notices = ((s.chan c).noted (s.sessionEnd m x.circuit .hostClose)).notices ∧
      (t.chan c).reply = some { outcome := .done, seq := f.seq, body := [] } ∧
      (∀ d, d ≠ c → t.chan d = s.chan d) ∧ s.Billed t k m e ∧ t.presence = s.presence

/-- BILLING_SECOND (R106, R109, R112, R119). Every meter counts the second and adds its rate times its percentage to the
accumulator, whole units of 6,000,000 leaving it for the meter's units; what it makes is posted to its account (stated for
one meter, of an account without a budget). Units the account has no room for are discarded and the meter saturates
(R120): the first time it raises SATURATE, and on a channel that does not mask it the session is closed, the line
returning to COMMAND with `HOST x BILLING FAULT` (R80, R98, R122 to R124). Then the calendar ticks, and at a boundary an
armed bank is applied, which is told to the UP channels, and every meter loads its segment. The bodies are as
assumptions 25, 44 and 45 say. -/
def Obligations.BillingSecondRatesTheMeters : Prop :=
  ∀ s : State, s.powered = true → s.rating.billingTimer = true →
    let now := s.rating.calendar.tick
    let rated := fun (m : Meter) =>
      { m with seconds := m.seconds + 1, acc := (m.acc + m.rate * m.percent) % 6000000,
               units := m.units + (m.acc + m.rate * m.percent) / 6000000 }
    (s.metersDistinct → (∀ m ∈ s.rating.meters, m.acc + m.rate * m.percent < 6000000) →
      (¬ s.rating.active.boundaryAt now →
        exec .billingSecond s =
          .next ({ s with rating := { s.rating with calendar := now, meters := s.rating.meters.map rated } } : State).started) ∧
      (s.rating.active.boundaryAt now →
        let bank := if s.rating.armed then s.rating.standby else s.rating.active
        let period := ({ s.rating with calendar := now, active := bank } : Rating).period
        (∀ m ∈ s.rating.meters, (bank.rate m.channel m.speedClass period).isSome = true) →
        ∃ t : State, exec .billingSecond s = .next t.started ∧
          t.rating = { s.rating with
            calendar := now, active := bank, armed := false,
            meters := s.rating.meters.map fun m =>
              { rated m with period := period, percent := bank.classPercent m.effClass,
                             rate := (bank.rate m.channel m.speedClass period).getD 0 } } ∧
          (∀ l, t.line l = s.line l) ∧ t.cache = s.cache ∧ t.store = s.store ∧
          ∀ c, t.chan c =
            if s.rating.armed = true ∧ (s.chan c).state = .up then
              (s.chan c).noted
                { kind := .tariffApplied, line := none, body := bytesBE 1 now.weekday ++ bytesBE 3 now.time }
            else s.chan c)) ∧
    ∀ m e, s.rating.meters = [m] → ¬ s.rating.active.boundaryAt now → m.unposted = 0 →
      let made := (m.acc + m.rate * m.percent) / 6000000
      (s.Takes e m.slot made →
        ∃ t : State, exec .billingSecond s = .next t.started ∧
          t.rating = { s.rating with calendar := now, meters := [rated m] } ∧
          (t.entry e).pending = (s.entry e).pending + made ∧
          (∀ l, t.line l = s.line l) ∧ (∀ c, t.chan c = s.chan c) ∧ t.store = s.store) ∧
      (s.Takes e m.slot (s.room m.slot) → s.room m.slot < made → (s.chan m.channel).state = .up →
        let full := { rated m with units := m.units + s.room m.slot, saturated := true }
        let raised := (s.chan m.channel).raised .saturate (s.accountOf m.slot) (some m.port) s.rating.calendar
        (m.saturated = true ∨ (s.chan m.channel).masks.saturate = true →
          ∃ t : State, exec .billingSecond s = .next t.started ∧
            t.rating = { s.rating with calendar := now, meters := [full] } ∧
            (t.entry e).pending = (s.entry e).pending + s.room m.slot ∧ (∀ l, t.line l = s.line l) ∧
            t.chan m.channel = (if m.saturated then s.chan m.channel else raised) ∧
            (∀ c, c ≠ m.channel → t.chan c = s.chan c) ∧ t.store = s.store) ∧
        (m.saturated = false → (s.chan m.channel).masks.saturate = false → ∀ l k x, k.channel = m.channel → k.port = m.port →
          s.port? k.channel k.port = some x → x.line = some l → k.state = .live → (s.ctx l).stack = [k] →
          (s.unit l).state = .connected →
          ∃ t : State, exec .billingSecond s = .next t.started ∧
            t.rating = { s.rating with calendar := now, meters := [] } ∧
            (t.entry e).pending = (s.entry e).pending + s.room m.slot ∧
            t.line l = (s.parted l k full.units (text "HOST " ++ [hostLetter m.channel] ++ text " BILLING FAULT")).line l ∧
            (∀ j, j ≠ l → t.line j = s.line j) ∧
            t.chan m.channel =
              { (raised.noted (s.sessionEndOf full x.circuit .billingFault full.units)).noted
                  (circuitClosedOf m.port x.circuit l .billingFault) with
                ports := (s.chan m.channel).ports.set m.port
                  { x with state := .closing, cause := some .billingFault, timer := true, flow := none },
                dataOut := (t.chan m.channel).dataOut } ∧
            (∀ c, c ≠ m.channel → t.chan c = s.chan c) ∧ t.store = s.store))

/-- REFERENCE_MISSING and REFERENCE_STEADY (R107, R108): entering FALLBACK marks every open meter and tells the UP
channels; a further loss starts the count of the steady time again; ten steady seconds end it. A meter's channel learns
of the marking once in a spell: by its sticky flag if it masks ESTIMATED, else by a fault record (R123, R124). The value
the steady count is given, the body of CLOCK STATE, and the header of BILLING FAULT are the model's (assumptions 22, 25 and
45). -/
def Obligations.ClockSourceFollowsTheReference : Prop :=
  ∀ s : State, s.powered = true →
    let told := fun (k : Byte) (ch : Channel) =>
      if ch.state = .up then
        ch.noted { kind := .clockState, line := none,
                   body := [k] ++ bytesBE 1 s.rating.calendar.weekday ++ bytesBE 3 s.rating.calendar.time }
      else ch
    (s.rating.clock = .reference →
      exec .referenceSteady s = .next s.started ∧
      ∃ t : State, exec .referenceMissing s = .next t.started ∧
        t.rating = { s.rating with
          clock := .fallback, steady := 0, meters := s.rating.meters.map fun m => { m with estimated := true } } ∧
        (∀ l, t.line l = s.line l) ∧ t.cache = s.cache ∧ t.store = s.store ∧
        (∀ c, (∀ m ∈ s.rating.meters, m.channel ≠ c) → t.chan c = told 1 (s.chan c)) ∧
        ∀ m, s.rating.meters = [m] → (s.chan m.channel).state = .up → (s.chan m.channel).fallbackRaised = false →
          ((s.chan m.channel).masks.estimated = true →
            t.chan m.channel = told 1 { s.chan m.channel with
              sticky := { (s.chan m.channel).sticky with estimated := true }, fallbackRaised := true }) ∧
          ((s.chan m.channel).masks.estimated = false → (s.chan m.channel).faultPending = false →
            (s.chan m.channel).faults = [] →
            t.chan m.channel = told 1
              { ({ s.chan m.channel with
                    faultPending := true,
                    faults := [{ kind := .estimated, account := s.accountOf m.slot, port := some m.port,
                                 time := s.rating.calendar }] } : Channel).noted
                  { kind := .billingFault, line := none, body := [] } with fallbackRaised := true })) ∧
    (s.rating.clock = .fallback →
      exec .referenceMissing s = .next (s.modRating fun r => { r with steady := 0 }).started ∧
      ∃ t : State, exec .referenceSteady s = .next t.started ∧ t.rating = { s.rating with clock := .reference, steady := 10 } ∧
        (∀ l, t.line l = s.line l) ∧ t.cache = s.cache ∧ t.store = s.store ∧
        ∀ c, t.chan c = told 0 { s.chan c with fallbackRaised := false })

/-! ## Channel orders -/

/-- ATTACH at a channel that is DOWN or FAILED, and in UP as a restart of the computer (R104, R167, R168): name,
parameters, masks and a new port table with the circuit ids from the base on, or BAD VALUE for a class above 3 or a name
with a character outside 32 to 126. The restart is stated with no circuit and nobody waiting; with one line waiting, in
the queue or with a port in OPENING, which returns to COMMAND with `HOST x RESTARTED`; and with one circuit, whose session
ends (R80, R121), here of an account without a budget. That every character of the name is examined, and that a restart
drops the data blocks, are assumptions 26 and 11; the body of SESSION END is as assumptions 25 and 44 say. -/
def Obligations.AttachSetsUpTheChannel : Prop :=
  ∀ (s : State) (c : ChanNo) (f : OrderFrame) (count least hi lo masks : Byte) (name : List Byte), s.powered = true →
    (s.chan c).orders = [] → (s.chan c).faultPending = false → name.length ≤ 255 → f.fits (6 + name.length) →
    f.body = [count, least, hi, lo, masks, BitVec.ofNat 8 name.length] ++ name →
    let base := hi.toNat * 256 + lo.toNat
    let calendar := bytesBE 1 s.rating.calendar.weekday ++ bytesBE 3 s.rating.calendar.time
    let flags := (if s.store.chargesLost then 1 else 0) + (if s.setup then 2 else 0)
    let body := bytesBE 1 (resetCauseNumber s.resetCause) ++ bytesBE 1 flags ++ bytesBE 2 s.store.periodNumber ++
      bytesBE 1 (periodStateNumber s.store.periodState) ++ bytesBE 1 (clockNumber s.rating.clock) ++ calendar
    let attached := fun (ch : Channel) =>
      { ch with
        state := .up, name := some ((name.take 8).map (·.setWidth 7)),
        params := some { portCount := min count.toNat 48, minClass := least.toNat, base := base },
        masks := { unrated := masks.getLsbD 0, saturate := masks.getLsbD 1, estimated := masks.getLsbD 2 },
        silence := true, queue := [], orders := [orderOf 1 f],
        ports := (List.range (min count.toNat 48)).map fun i => { circuit := (base + i) % 65536 },
        reply := some { outcome := .done, seq := f.seq, body := body } }
    let restarted := fun (ch : Channel) => attached
      { ch with dataOut := [], sticky := {}, faults := [], moreFaults := false, faultPending := false,
                fallbackRaised := false }
    let cs := text "HOST " ++ [hostLetter c] ++ text " RESTARTED"
    let valid := least.toNat ≤ 3 ∧ ∀ x ∈ name, 32 ≤ x.toNat % 128 ∧ x.toNat % 128 ≤ 126
    ((s.chan c).state = .down ∨ (s.chan c).state = .failed →
      (valid → exec (.attach c f) s = .next (s.modChan c attached).started) ∧
      (¬ valid → exec (.attach c f) s =
        .next (s.modChan c fun ch =>
          { ch with orders := [orderOf 1 f], reply := some { outcome := .badValue, seq := f.seq, body := [] } }).started)) ∧
    ((s.chan c).state = .up → valid →
      ((∀ p x, s.port? c p = some x → x.state = .free) →
        ((s.chan c).queue = [] → exec (.attach c f) s = .next (s.modChan c restarted).started) ∧
        ∀ w, (s.chan c).queue = [w] → (s.unit w.line).state = .waiting →
          exec (.attach c f) s = .next ((s.modChan c restarted).returned w.line cs).started) ∧
      (∀ p x l, s.port? c p = some x → x.state = .opening → x.line = some l → (s.unit l).state = .waiting →
        (∀ q y, q ≠ p → s.port? c q = some y → y.state = .free) → (s.chan c).queue = [] →
        exec (.attach c f) s = .next ((s.modChan c restarted).returned l cs).started) ∧
      ∀ l k x m e, s.Running l k x m e → k.channel = c → x.state = .bound →
        (∀ q y, q ≠ k.port → s.port? c q = some y → y.state = .free) → (s.chan c).queue = [] →
        (∀ j ∈ (s.ctx l).stack, j.channel = c → j.port = k.port → j = k) → k ∈ (s.ctx l).stack →
        (k.state = .live → (s.unit l).state = .connected) →
        ∃ t : State, exec (.attach c f) s = .next t.started ∧
          t.chan c = restarted ((s.chan c).noted (s.sessionEnd m x.circuit .hostRestart)) ∧
          (∀ d, d ≠ c → t.chan d = s.chan d) ∧ t.line l = (s.parted l k (s.finalUnits m) cs).line l ∧
          (∀ j, j ≠ l → t.line j = s.line j) ∧ s.Billed t k m e ∧ t.presence = s.presence)

/-- DETACH (R169, R102): the channel is QUIESCING and its wait queue and its ports in OPENING are withdrawn, each line told
`HOST x CLOSING`; as soon as every port is FREE, at once or when the last one is closed, the channel is DOWN and DETACHED
is its last notice. Stated with at most one line waiting, in the queue or with a port in OPENING. That BUSY replies are
kept, what becomes of data blocks and of DETACHED at a full queue, and its empty body, are assumptions 6, 11, 36 and
25. -/
def Obligations.DetachLeavesWhenThePortsAreFree : Prop :=
  ∀ (s : State) (c : ChanNo),
    let downed := fun (ch : Channel) =>
      let gone := { ch with
        state := .down, name := none, params := none, silence := false, dataOut := [], ports := [], queue := [], masks := {},
        sticky := {}, faults := [], moreFaults := false, faultPending := false, fallbackRaised := false }
      if ch.notices.length < 32 then { gone with notices := ch.notices ++ [{ kind := .detached, line := none, body := [] }] }
      else { gone with lost := true }
    (∀ f : OrderFrame, s.Attends c → (s.chan c).state = .up → f.fits 0 →
      let quiescing := ((s.inExecution c 2 f).modChan c fun ch => { ch with state := .quiescing, queue := [] }).replied c f
        .done []
      let cs := text "HOST " ++ [hostLetter c] ++ text " CLOSING"
      ((s.chan c).queue = [] → (∀ p x, s.port? c p = some x → x.state = .free) →
        exec (.detach c f) s = .next (quiescing.modChan c downed).started) ∧
      ((∃ p x, s.port? c p = some x ∧ x.state ≠ .free) → (∀ p x, s.port? c p = some x → x.state ≠ .opening) →
        ((s.chan c).queue = [] → exec (.detach c f) s = .next quiescing.started) ∧
        (∀ w, (s.chan c).queue = [w] → (s.unit w.line).state = .waiting →
          exec (.detach c f) s = .next (quiescing.returned w.line cs).started)) ∧
      ∀ p x l, (s.chan c).queue = [] → s.port? c p = some x → x.state = .opening → x.line = some l →
        (s.unit l).state = .waiting → (∀ q y, q ≠ p → s.port? c q = some y → y.state ≠ .opening) →
        let withdrawn := (quiescing.freed c p).returned l cs
        ((∃ q y, q ≠ p ∧ s.port? c q = some y ∧ y.state ≠ .free) → exec (.detach c f) s = .next withdrawn.started) ∧
        ((∀ q y, q ≠ p → s.port? c q = some y → y.state = .free) →
          exec (.detach c f) s = .next (withdrawn.modChan c downed).started)) ∧
    (∀ p x, s.powered = true → (s.chan c).state = .quiescing → s.port? c p = some x → x.state = .closing → x.timer = true →
      (∀ q y, q ≠ p → s.port? c q = some y → y.state = .free) →
      exec (.closeTimerExpiry c p) s = .next (s.modChan c downed).started)

/-- IDLE, in every channel state, and SYNC (R125, R166, R173): what they report, and what they clear. The
byte of the notices-lost flag is as assumption 51 says. -/
def Obligations.IdleAndSyncReportAndClear : Prop :=
  ∀ (s : State) (c : ChanNo) (f : OrderFrame), s.powered = true → (s.chan c).orders = [] → f.fits 0 →
    let calendar := fun (x : Calendar) => bytesBE 1 x.weekday ++ bytesBE 3 x.time
    exec (.idle c f) s =
      .next (s.modChan c fun ch =>
        { ch with
          silence := ch.silence || decide (ch.state = .up ∨ ch.state = .quiescing), orders := [orderOf 3 f], lost := false,
          reply := some { outcome := .done, seq := f.seq,
                          body := [if ch.lost then 1 else 0] ++ calendar s.rating.calendar } }).started ∧
    ((s.chan c).state = .up ∨ (s.chan c).state = .quiescing →
      exec (.sync c f) s =
        .next (s.modChan c fun ch =>
          let record := fun (x : FaultRecord) =>
            bytesBE 1 (match x.kind with | .unrated => 0 | .saturate => 1 | .estimated => 2) ++ bytesBE 2 x.account ++
              bytesBE 1 (x.port.getD 255) ++ calendar x.time
          let flags := (if ch.moreFaults then 1 else 0) + (if ch.sticky.unrated then 2 else 0) +
            (if ch.sticky.saturate then 4 else 0) + (if ch.sticky.estimated then 8 else 0)
          { ch with
            silence := true, orders := [orderOf 4 f], sticky := {}, faults := [], moreFaults := false,
            faultPending := false,
            reply := some { outcome := .done, seq := f.seq,
                            body := bytesBE 1 ch.faults.length ++ ch.faults.flatMap record ++ bytesBE 1 flags } }).started)

/-! ## Operator orders and reports -/

/-- SET_TIME, SET_BANNER and ARM_TARIFF of a channel with the operator right, and READ_TARIFF of any (R46, R110, R115,
R116, R175, R181). Setting the time loads every meter's segment (R112, R118; stated where the ACTIVE bank has their
rates): the period of a time of day is that of the last point of the day kind's switch list not after its minute, of the
list's last point where all are later, and 0 with an empty list (R111); a rate stands in its bank by channel, speed class
and period, a percentage by class (R113, R181). That every character of the banner is examined, and the byte of
the armed flag, are the model's readings (assumptions 26 and 51). -/
def Obligations.OperatorSettingsAreTaken : Prop :=
  (∀ r : Rating,
    let points := if r.calendar.weekday < 5 then r.active.workday else r.active.restday
    let minute := r.calendar.time / 60
    (points = [] → r.period = 0) ∧
    (∀ a q b, points = a ++ q :: b → q.minute ≤ minute → (∀ x ∈ b, minute < x.minute) → r.period = q.period) ∧
    (∀ a q, points = a ++ [q] → (∀ x ∈ points, minute < x.minute) → r.period = q.period) ∧
    (∀ (d : ChanNo) (k : SpeedClass) (p : Nat) (v : Option Nat), p ≤ 3 →
      r.active.rates[d.val * 12 + (match k with | .slow => 0 | .medium => 4 | .fast => 8) + p]? = some v →
      r.active.rate d k p = v) ∧
    ∀ k v, r.active.percent[k]? = some v → r.active.classPercent k = v) ∧
  ∀ (s : State) (c : ChanNo) (f : OrderFrame), s.Attends c → (s.chan c).faultPending = false →
    let answered := fun (t : State) (o : Outcome) (body : List Byte) =>
      (.next (t.replied c f o body).started : Host.Outcome State Fault Refusal)
    (s.operator c = true →
      (∀ d t2 t1 t0 : Byte, f.fits 4 → f.body = [d, t2, t1, t0] →
        let time := t2.toNat * 65536 + t1.toNat * 256 + t0.toNat
        let now : Calendar := { weekday := d.toNat, time := time }
        let period := ({ s.rating with calendar := now } : Rating).period
        let bank := s.rating.active
        (d.toNat ≤ 6 → time < 86400 → s.metersDistinct →
          (∀ m ∈ s.rating.meters, (bank.rate m.channel m.speedClass period).isSome = true) →
          exec (.setTime c f) s =
            answered ((s.inExecution c 17 f).modRating fun r =>
              { r with
                calendar := now,
                meters := r.meters.map fun m =>
                  { m with period := period, percent := bank.classPercent m.effClass,
                           rate := (bank.rate m.channel m.speedClass period).getD 0 } }) .done []) ∧
        (6 < d.toNat ∨ 86400 ≤ time → exec (.setTime c f) s = answered (s.inExecution c 17 f) .badValue [])) ∧
      (∀ n, n ≤ 512 → f.fits n →
        ((∀ x ∈ f.body, 32 ≤ x.toNat % 128 ∧ x.toNat % 128 ≤ 126) →
          exec (.setBanner c f) s =
            answered ((s.inExecution c 18 f).modStore fun st => { st with banner := (f.body.take 80).map (·.setWidth 7) })
              .done []) ∧
        ((∃ x ∈ f.body, ¬ (32 ≤ x.toNat % 128 ∧ x.toNat % 128 ≤ 126)) →
          exec (.setBanner c f) s = answered (s.inExecution c 18 f) .badValue [])) ∧
      (f.fits 0 →
        exec (.armTariff c f) s =
          answered ((s.inExecution c 20 f).modRating fun r => { r with armed := true }) .done [])) ∧
    ∀ b : Byte, f.fits 1 → f.body = [b] →
      let points := fun (ps : List SwitchPoint) => ps.flatMap fun p => bytesBE 2 p.minute ++ bytesBE 1 p.period
      let r := s.rating
      let report := fun (x : Bank) =>
        x.rates.toList.flatMap (fun v => bytesBE 2 (v.getD 65535)) ++ x.minimum.toList.flatMap (bytesBE 2) ++
          x.percent.toList.flatMap (bytesBE 1) ++
          bytesBE 1 (match x.rounding with | .up => 0 | .nearest => 1 | .down => 2) ++
          (bytesBE 1 0 ++ bytesBE 1 x.workday.length ++ points x.workday) ++
          (bytesBE 1 1 ++ bytesBE 1 x.restday.length ++ points x.restday) ++ [if r.armed then 1 else 0] ++
          bytesBE 1 (clockNumber r.clock) ++ (bytesBE 1 r.calendar.weekday ++ bytesBE 3 r.calendar.time) ++
          bytesBE 1 (if r.calendar.weekday < 5 then 0 else 1) ++ bytesBE 1 r.period
      (b = 0 → exec (.readTariff c f) s = answered (s.inExecution c 28 f) .done (report r.active)) ∧
      (b = 1 → exec (.readTariff c f) s = answered (s.inExecution c 28 f) .done (report r.standby)) ∧
      (2 ≤ b.toNat → exec (.readTariff c f) s = answered (s.inExecution c 28 f) .badValue [])

/-- LOAD_TARIFF (R114, R180) of any number of items: each kind of item writes its value, clamped, to the PENDING bank, one
after another in their order, and the order disarms the bank, even with no item. Every item is examined first: one at any
place with an unknown tag, that names no channel, class or period, whose switch list is not right, or that runs past the
end of the body, has the whole order refused and nothing written. That item lengths are judged with the values is the
model's reading (assumption 40). -/
def Obligations.LoadTariffWritesThePendingBank : Prop :=
  ∀ (s : State) (c : ChanNo) (f : OrderFrame) (items : List (List Byte × (Bank → Bank))), s.Attends c →
    (s.chan c).faultPending = false → s.operator c = true → f.body.length ≤ 512 → f.fits f.body.length →
    (∀ i ∈ items, TariffItemIs i.1 i.2) →
    (f.body = items.flatMap (·.1) →
      exec (.loadTariff c f) s =
        .next (((s.inExecution c 19 f).modRating fun r =>
          { r with standby := items.foldl (fun b i => i.2 b) r.standby, armed := false }).replied c f .done []).started) ∧
    ∀ rest, TariffRefused rest → f.body = items.flatMap (·.1) ++ rest →
      exec (.loadTariff c f) s = .next ((s.inExecution c 19 f).replied c f .badValue []).started


/-- CLOSE_PERIOD (R144 to R146): BUSY while a close is under way; otherwise the period number is counted, charges lost is
set to no, and the roll visits the slots from 0. A slot with another stamp is due: its roll access waits at a busy store, or
is served at once by an idle one; with no slot due the close ends at once and is told to the UP channels. -/
def Obligations.ClosePeriodBeginsTheRoll : Prop :=
  ∀ (s : State) (c : ChanNo) (f : OrderFrame), s.Attends c → (s.chan c).faultPending = false → s.operator c = true →
    f.fits 0 →
    let n := (s.store.periodNumber + 1) % 65536
    let begun := fun (k : Nat) =>
      { s.store with periodNumber := n, periodState := .closing, rollIndex := k, chargesLost := false }
    (s.store.periodState = .closing → exec (.closePeriod c f) s = .next ((s.inExecution c 21 f).replied c f .busy []).started) ∧
    (s.store.periodState = .opened →
      ((∀ e ∈ s.store.records, e.2.stamp = n) →
        ∃ t : State, exec (.closePeriod c f) s = .next t.started ∧
          t.store = { s.store with periodNumber := n, periodState := .opened, rollIndex := 4096, chargesLost := false } ∧
          (∀ d, t.chan d =
            let ch := ((s.inExecution c 21 f).replied c f .done (bytesBE 2 n)).chan d
            if ch.state = .up then
              ch.noted { kind := .periodClosed, line := none,
                         body := bytesBE 2 n ++ (bytesBE 1 s.rating.calendar.weekday ++ bytesBE 3 s.rating.calendar.time) }
            else ch) ∧
          (∀ l, t.line l = s.line l) ∧ t.cache = s.cache ∧ t.arbiter = s.arbiter ∧ t.rating = s.rating) ∧
      ∀ a b k r, s.store.records = a ++ (k, r) :: b → (∀ e ∈ a, e.2.stamp = n) → r.stamp ≠ n →
        (s.arbiter.current.isSome = true →
          exec (.closePeriod c f) s =
            .next ({ (s.inExecution c 21 f).replied c f .done (bytesBE 2 n) with
              store := begun k, arbiter := { s.arbiter with roll := some k } } : State).started) ∧
        (s.arbiter.current = none → tabGet k s.store.records = some r → r.budget = none → s.cache.waiting = [] →
          s.entryOf k = none → (s.presenceOf k).budget = some .normal →
          exec (.closePeriod c f) s =
            .next ({ (s.inExecution c 21 f).replied c f .done (bytesBE 2 n) with
              store := begun k,
              arbiter := { s.arbiter with
                current := some
                  { who := .roll, write := .put k { r with previous := r.used, used := 0, stamp := n },
                    result := .roll k } } } : State).started))

/-- The orders about one line, ENABLE_LINE, DISABLE_LINE, RESTORE_LINE and READ_LINE (R21, R22, R25): a number above 63
is answered BAD VALUE; the enables are not changed in SETUP. DISABLE of an active line clears it (R14, R15, R64, R86),
here one without a session: ringing or finding its speed, typing in its dialog, signed on, or in a wait queue (not with a port in
OPENING, nor with its account in GRACE). WRONG STATE for any line in SETUP is the model's choice (assumption 28); the
bodies of LINE RESTORED and LINE GOOD, with the line in them, are as assumption 25 says. -/
def Obligations.LineOrdersActOnTheLine : Prop :=
  ∀ (s : State) (c : ChanNo) (f : OrderFrame) (b : Byte), s.Attends c → (s.chan c).faultPending = false → f.fits 1 →
    f.body = [b] →
    let answered := fun (t : State) (o : Outcome) (body : List Byte) =>
      (.next (t.replied c f o body).started : Host.Outcome State Fault Refusal)
    (63 < b.toNat → exec (.readLine c f) s = answered (s.inExecution c 27 f) .badValue []) ∧
    (∀ l : LineNo, l.val = b.toNat →
      exec (.readLine c f) s =
        let u := s.unit l
        answered (s.inExecution c 27 f) .done
          (bytesBE 1 (lineStateNumber u.state) ++ [if u.enabled then 1 else 0] ++
            [if (s.group l).enables.getLsbD (l.val % 8) then 1 else 0] ++ speedByte u.speed ++
            bytesBE 1 (healthNumber u.health) ++ bytesBE 1 u.score ++ bytesBE 1 ((u.cause.map causeNumber).getD 0) ++
            bytesBE 2 u.account)) ∧
    (s.operator c = true →
      (s.setup = true →
        exec (.enableLine c f) s = answered (s.inExecution c 22 f) .wrongState [] ∧
        exec (.disableLine c f) s = answered (s.inExecution c 23 f) .wrongState []) ∧
      (63 < b.toNat →
        exec (.restoreLine c f) s = answered (s.inExecution c 24 f) .badValue [] ∧
        (s.setup = false →
          exec (.enableLine c f) s = answered (s.inExecution c 22 f) .badValue [] ∧
          exec (.disableLine c f) s = answered (s.inExecution c 23 f) .badValue [])) ∧
      ∀ l : LineNo, l.val = b.toNat →
        let done := fun (code : Byte) (g : LineUnit → LineUnit) => answered ((s.inExecution c code f).modUnit l g) .done []
        (s.setup = false →
          ((s.unit l).state = .off →
            ((s.unit l).health = .barred →
              exec (.enableLine c f) s = done 22 fun u => { u with enabled := true, state := .barred, quietTimer := true }) ∧
            ((s.unit l).health ≠ .barred →
              exec (.enableLine c f) s = done 22 fun u => { u with enabled := true, state := .idle, ringCount := 0 })) ∧
          ((s.unit l).state ≠ .off → exec (.enableLine c f) s = done 22 fun u => { u with enabled := true }) ∧
          ((s.unit l).state = .idle →
            exec (.disableLine c f) s = done 23 fun u => { u with enabled := false, state := .off, ringCount := 0 }) ∧
          ((s.unit l).state = .off ∨ (s.unit l).state = .clearing ∨ (s.unit l).state = .barred →
            exec (.disableLine c f) s = done 23 fun u => { u with enabled := false }) ∧
          ((s.unit l).state.active = true → s.Sessionless l →
            exec (.disableLine c f) s =
              answered (((s.inExecution c 23 f).modUnit l fun u => { u with enabled := false }).cleared l .lineDisabled)
                .done [])) ∧
        ((s.unit l).health = .good → (s.unit l).state ≠ .barred →
          exec (.restoreLine c f) s = done 24 fun u => { u with score := 0 }) ∧
        ((s.unit l).health ≠ .good →
          ∃ t : State, exec (.restoreLine c f) s = .next t.started ∧
            t.unit l = (let u := { s.unit l with score := 0, health := .good }
              if (s.unit l).state ≠ .barred then u
              else if u.enabled then { u with quietTimer := false, state := .idle, ringCount := 0 }
              else { u with quietTimer := false, state := .off }) ∧
            (∀ k, k ≠ l → t.line k = s.line k) ∧
            ∀ d, t.chan d =
              let ch := ((s.inExecution c 24 f).replied c f .done []).chan d
              if ch.state = .up then
                ch.noted { kind := if (s.unit l).health = .barred then .lineRestored else .lineGood, line := some l,
                           body := bytesBE 1 l.val ++ [0, 0] }
              else ch))

/-- RESET_GROUP (R24): every active line of the group is cleared, and every line has score 0 and health GOOD and is out of
BARRED; an IDLE line's ring counter is 0. Stated where the group's active lines have no session, and are not with a port in
OPENING nor with their account in GRACE. -/
def Obligations.ResetGroupReachesItsEightLines : Prop :=
  ∀ (s : State) (c : ChanNo) (f : OrderFrame) (b : Byte), s.Attends c → (s.chan c).faultPending = false →
    s.operator c = true → f.fits 1 → f.body = [b] →
    (8 ≤ b.toNat → exec (.resetGroup c f) s = .next ((s.inExecution c 25 f).replied c f .badValue []).started) ∧
    (b.toNat ≤ 7 →
      (∀ l : LineNo, l.val / 8 = b.toNat → (s.unit l).state.active = true → s.Sessionless l) →
      ∃ t : State, exec (.resetGroup c f) s = .next t.started ∧ (t.chan c).reply = some { outcome := .done, seq := f.seq, body := [] } ∧
        ∀ l : LineNo,
          (l.val / 8 ≠ b.toNat → t.line l = s.line l) ∧
          (l.val / 8 = b.toNat →
            (∀ d, ∀ w ∈ (t.chan d).queue, (s.unit l).state.active = true → w.line ≠ l) ∧
            t.line l =
              let x := s.line l
              let u := { x.unit with score := 0, health := .good }
              if x.unit.state.active = true then
                { x.afterClear .groupReset with
                  unit := { (x.afterClear .groupReset).unit with score := 0, health := .good } }
              else if x.unit.state = .idle then { x with unit := { u with ringCount := 0 } }
              else if x.unit.state = .barred then
                { x with unit :=
                    if u.enabled then { u with quietTimer := false, state := .idle, ringCount := 0 }
                    else { u with quietTimer := false, state := .off } }
              else { x with unit := u }))

/-- RESTART and FLUSH (R132, R134, R164): neither is answered while units are unwritten. Every GATHERING entry with
units pending, and for a FLUSH these and the WRITING ones are its set, is on the write-back queue or in its write-back.
When a write-back of the last entry of the set completes, the FLUSH is answered DONE; one that was served before the FLUSH
was taken does not count, and the entry is written back again, here with nothing pending, a meter of its account open, and
no budget. The order of the write-back queue is not stated (assumption 18), and what such an entry does whose pending has
come to 0 is as assumption 19 says. -/
def Obligations.RestartAndFlushWriteTheCache : Prop :=
  (∀ (s : State) (c : ChanNo) (f : OrderFrame), s.Attends c → (s.chan c).faultPending = false → f.fits 0 →
    let kept := fun (t u : State) =>
      (∀ d, u.chan d = t.chan d) ∧ (∀ l, u.line l = t.line l) ∧ u.store = t.store ∧ u.rating = t.rating ∧
      (∀ e, (u.entry e).pending = (s.entry e).pending) ∧
      ∀ e, (s.entry e).state = .gathering → 0 < (s.entry e).pending → e ∈ u.cache.queue ∨ (u.entry e).state = .writing
    (s.operator c = true →
      ∃ t : State, exec (.restart c f) s = .next t.started ∧ t.cache.restarting = true ∧ kept (s.inExecution c 26 f) t) ∧
    ((∀ e, (s.entry e).pending = 0) → exec (.flush c f) s = .next ((s.inExecution c 16 f).replied c f .done []).started) ∧
    ((∃ e, 0 < (s.entry e).pending) →
      ∃ t set, exec (.flush c f) s = .next t.started ∧ t.cache.flush.get c = some set ∧ kept (s.inExecution c 16 f) t ∧
        (∀ e, (∃ m ∈ set, m.entry = e) ↔ 0 < (s.entry e).pending) ∧
        ∀ m ∈ set, m.again = true ↔ (s.entry m.entry).state = .writing)) ∧
  ∀ (s : State) (c : ChanNo) (e : Fin 32) (slot : Nat) (r : Record) (a : Order) (rest : List Order) (again : Bool),
    let access : Access := { who := .writeBack, write := .put slot r, result := .writeBack e }
    s.powered = true → (s.chan c).orders = a :: rest → s.arbiter = { current := some access } →
    (s.entry e).slot = some slot → (s.entry e).state = .writing → (s.entry e).evicted = false →
    (s.entry e).pending = (s.entry e).snapshot → s.meterOpen slot = true → s.cache.queue = [] → s.cache.waiting = [] →
    s.cache.restarting = false → r.budget = none → (s.presenceOf slot).budget = some .normal →
    (∀ d, s.cache.flush.get d = if d = c then some [{ entry := e, again := again }] else none) →
    ∃ t : State, exec .accessComplete s = .next t.started ∧ t.store = s.storeCompleted ∧ (t.entry e).pending = 0 ∧
      (∀ l, t.line l = s.line l) ∧ (∀ d, d ≠ c → t.chan d = s.chan d) ∧
      (again = false → t.cache.flush.get c = none ∧ (t.entry e).state = .gathering ∧ t.arbiter = {} ∧
        t.chan c = { s.chan c with reply := some { outcome := .done, seq := a.seq, body := [] } }) ∧
      (again = true → t.cache.flush.get c = some [{ entry := e, again := false }] ∧ (t.entry e).state = .writing ∧
        t.arbiter = { current := some access } ∧ t.chan c = s.chan c)

/-- READ_CONFIG and WRITE_CONFIG, in every channel state (R41, R42, R177): a write is taken in SETUP only; an item that is
stored reads back as stored, clamped where R42 says, and every other item is as it was. -/
def Obligations.ConfigurationIsWrittenInSetup : Prop :=
  ∀ (s : State) (c : ChanNo) (f : OrderFrame), s.powered = true → (s.chan c).orders = [] →
    (s.chan c).faultPending = false →
    let answered := fun (t : State) (code : Byte) (o : Outcome) (body : List Byte) =>
      t.modChan c fun ch =>
        { ch with silence := ch.silence || decide (ch.state = .up ∨ ch.state = .quiescing),
                  orders := [orderOf code f], reply := some { outcome := o, seq := f.seq, body := body } }
    (f.fits 0 →
      exec (.readConfig c f) s = .next (answered s 29 .done
        ((List.range 128).flatMap (fun i => bytesBE 2 (s.store.readItem i)) ++ [if s.store.initialised then 1 else 0])).started) ∧
    (∀ (d : ChanNo) (i : Fin 4), let g := s.store.chanConfig.get d
      s.store.readItem (16 * d.val + 3 * i.val) = (g.windows.get i).base ∧
      s.store.readItem (16 * d.val + 3 * i.val + 1) = (g.windows.get i).exp ∧
      s.store.readItem (16 * d.val + 3 * i.val + 2) = rightNumber (g.windows.get i).right ∧
      s.store.readItem (16 * d.val + 12) = rightNumber g.default ∧
      s.store.readItem (16 * d.val + 13) = if g.operator then 1 else 0) ∧
    (∀ i : Fin 8, let g := s.store.groupConfig.get i
      s.store.readItem (64 + 8 * i.val) = g.enables.toNat ∧ s.store.readItem (64 + 8 * i.val + 1) = g.classCap ∧
      s.store.readItem (64 + 8 * i.val + 2) = (match g.parity with | .even => 0 | .odd => 1 | .none => 2) ∧
      s.store.readItem (64 + 8 * i.val + 3) = g.attention.toNat ∧ s.store.readItem (64 + 8 * i.val + 4) = g.ringCount) ∧
    ∀ item hi lo : Byte, f.fits 3 → f.body = [item, hi, lo] →
      let n := item.toNat
      let v := hi.toNat * 256 + lo.toNat
      let stored :=
        if n < 64 then
          (if 12 < n % 16 then (if n % 16 = 13 ∧ v ≤ 1 then some v else none)
           else if n % 16 = 12 ∨ n % 16 % 3 = 2 then (if v ≤ 3 then some v else none)
           else if n % 16 % 3 = 1 then some (max 8 (min v 16))
           else some v)
        else if n < 128 then
          (if n % 8 = 0 ∧ v ≤ 255 ∨ n % 8 = 1 ∧ v ≤ 3 ∨ n % 8 = 2 ∧ v ≤ 2 ∨ n % 8 = 3 ∧ 1 ≤ v ∧ v ≤ 31 ∨
              n % 8 = 4 ∧ 1 ≤ v ∧ v ≤ 4 then some v else none)
        else none
      (s.setup = false → exec (.writeConfig c f) s = .next (answered s 30 .wrongState []).started) ∧
      (s.setup = true → stored = none → exec (.writeConfig c f) s = .next (answered s 30 .badValue []).started) ∧
      (s.setup = true → ∀ w, stored = some w →
        ∃ st : Store, exec (.writeConfig c f) s = .next (answered { s with store := st } 30 .done []).started ∧
          st.readItem n = w ∧ (∀ j, j < 128 → j ≠ n → st.readItem j = s.store.readItem j) ∧ st.initialised = false ∧
          { st with chanConfig := s.store.chanConfig, groupConfig := s.store.groupConfig,
                    initialised := s.store.initialised } = s.store)

/-! ## Account orders and the store -/

/-- ADD (R34, R152, R153, R180): the refusals in their order, the values clamped, and the record in the lowest free
slot, whose budget state is set with it; the access waits at a busy store, and is not offered while one of the same
channel is still in progress (R37). -/
def Obligations.AddMakesAnAccount : Prop :=
  ∀ (s : State) (c : ChanNo) (f : OrderFrame) (n1 n0 p3 p2 p1 p0 k h hs b3 b2 b1 b0 lim : Byte), s.Sound → s.Attends c →
    (s.chan c).faultPending = false → f.fits 14 → f.body = [n1, n0, p3, p2, p1, p0, k, h, hs, b3, b2, b1, b0, lim] →
    let number := n1.toNat * 256 + n0.toNat
    let pass := p3.toNat * 16777216 + p2.toNat * 65536 + p1.toNat * 256 + p0.toNat
    let units := b3.toNat * 16777216 + b2.toNat * 65536 + b1.toNat * 256 + b0.toNat
    let budget := if units = 4294967295 then none else some (min units 16777215)
    let record : Record :=
      { number := number, state := .active, passCheck := pass, cls := min k.toNat 3,
        homeHost := if small : h.toNat < 4 then some ⟨h.toNat, small⟩ else none, hostSet := hs.setWidth 4, budget := budget,
        limit := max 1 (min lim.toNat 4), used := 0, previous := 0, stamp := s.store.periodNumber, failures := 0,
        lastSignOn := none, revision := 0 }
    let valid := number ≠ 0 ∧ pass ≤ 16777215 ∧ (h.toNat ≤ 3 ∨ h = 255) ∧ hs.toNat ≤ 15
    let t := s.inExecution c 9 f
    let r := exec (.add c f) s
    ((s.right c number).edits = false → r = .next (t.replied c f .noRight []).started) ∧
    ((s.right c number).edits = true →
      (¬ valid → r = .next (t.replied c f .badValue []).started) ∧
      (valid → s.storeBusy c → r = .next (t.accessWaits c).started) ∧
      (valid → s.ownAccess c → r = .next t.started) ∧
      (valid → s.arbiter.current = none →
        (∀ slot, s.lookup number = some slot → r = .next (t.accessing c .nothing (.reply c .exists_ [])).started) ∧
        (s.lookup number = none →
          ((∀ j, j < 4096 → s.recordAt j ≠ none) → r = .next (t.accessing c .nothing (.reply c .full [])).started) ∧
          ∀ slot, slot < 4096 → s.recordAt slot = none → (∀ j, j < slot → s.recordAt j ≠ none) →
            r = .next ((t.accessing c (.insert slot record) (.reply c .done (bytesBE 2 number ++ [0, 0]))).setPresence slot
              { budget := some (if budget = some 0 then .spent else .normal) }).started)))

/-- READ, LIST and PROBE (R159 to R161, R181): one access, served at once by an idle store; its result is what the reply
carries when the access completes. At a busy store the access waits; it is not offered while one of the same channel is
still in progress (R37). A budget state found unset is set there. The order and the numbers of the answers of PROBE are the
model's (assumption 25). -/
def Obligations.ReadListAndProbeReport : Prop :=
  ∀ (s : State) (c : ChanNo) (f : OrderFrame) (n1 n0 : Byte), s.Attends c → (s.chan c).faultPending = false → f.fits 2 →
    f.body = [n1, n0] →
    let number := n1.toNat * 256 + n0.toNat
    let right := s.right c number
    let served := fun (t : State) (o : Outcome) (body : List Byte) =>
      (.next (t.accessing c .nothing (.reply c o body)).started : Host.Outcome State Fault Refusal)
    (right = .none →
      exec (.read c f) s = .next ((s.inExecution c 12 f).replied c f .noRight []).started ∧
      exec (.probe c f) s = .next ((s.inExecution c 14 f).replied c f .noRight []).started) ∧
    (s.storeBusy c →
      exec (.list c f) s = .next ((s.inExecution c 13 f).accessWaits c).started ∧
      (right ≠ .none →
        exec (.read c f) s = .next ((s.inExecution c 12 f).accessWaits c).started ∧
        exec (.probe c f) s = .next ((s.inExecution c 14 f).accessWaits c).started)) ∧
    (s.ownAccess c →
      exec (.list c f) s = .next (s.inExecution c 13 f).started ∧
      (right ≠ .none →
        exec (.read c f) s = .next (s.inExecution c 12 f).started ∧
        exec (.probe c f) s = .next (s.inExecution c 14 f).started)) ∧
    (s.arbiter.current = none →
      (let taken := (s.store.directory.filter fun e => number ≤ e.1 ∧ s.right c e.1 ≠ .none).take 16
      let last := (taken.getLast?.map (·.1)).getD 0
      let onward := if taken.length = 16 ∧ ∃ e ∈ s.store.directory, last < e.1 then last + 1 else 0
      exec (.list c f) s =
        served (s.inExecution c 13 f) .done
          (bytesBE 1 taken.length ++
            taken.flatMap (fun e =>
              bytesBE 2 e.1 ++ bytesBE 1 (match s.recordAt e.2 with | some r => accountStateNumber r.state | none => 0)) ++
            bytesBE 2 onward)) ∧
      (right ≠ .none →
        (s.lookup number = none →
          exec (.read c f) s = served (s.inExecution c 12 f) .notFound [] ∧
          exec (.probe c f) s = served (s.inExecution c 14 f) .notFound (bytesBE 1 (rightNumber right))) ∧
        ∀ slot r, s.lookup number = some slot → s.recordAt slot = some r →
          let p := s.presenceOf slot
          let total := r.used + s.pendingOf slot
          let b := p.budget.getD (budgetStateOf total r.budget)
          let seen := fun (t : State) =>
            if p.budget.isSome then t else t.setPresence slot { p with budget := some b, graceTimer := false }
          p.budget.isSome = true ∨ p.count = 0 →
          exec (.read c f) s =
            served (seen (s.inExecution c 12 f)) .done
              (bytesBE 2 r.number ++ bytesBE 1 (accountStateNumber r.state) ++ bytesBE 3 r.passCheck ++ bytesBE 1 r.cls ++
                bytesBE 1 ((r.homeHost.map (·.val)).getD 255) ++ bytesBE 1 r.hostSet.toNat ++
                bytesBE 4 (r.budget.getD 4294967295) ++ bytesBE 1 r.limit ++ bytesBE 3 r.used ++ bytesBE 3 r.previous ++
                bytesBE 2 r.stamp ++ bytesBE 1 r.failures ++ bytesBE 1 ((r.lastSignOn.map (·.weekday)).getD 255) ++
                bytesBE 3 ((r.lastSignOn.map (·.time)).getD 0) ++ bytesBE 2 r.revision ++ bytesBE 3 (s.pendingOf slot) ++
                bytesBE 1 p.count ++
                bytesBE 1 (match b with | .normal => 0 | .warned => 1 | .grace => 2 | .spent => 3)) ∧
          exec (.probe c f) s =
            served (seen (s.inExecution c 14 f)) .done
              (bytesBE 1 (rightNumber right) ++ bytesBE 1 (if r.state = .active then 1 else 0) ++
                bytesBE 1 (if p.count < r.limit then 1 else 0) ++
                bytesBE 1 (match r.budget with | none => 1 | some n => if total < n then 1 else 0) ++
                bytesBE 1 (match r.budget with
                  | none => 3
                  | some n => if total < n then 0 else if total = n then 1 else 2))))

/-- EDIT (R32, R154 to R156, R180): the refusals in their order, the settings it names written, and the revision counted
by the settings that change. A change to HELD clears the lines signed on (here none, or one without sessions); a changed
budget recomputes the budget state (here with no line signed on). That clears come before the recompute is the model's
choice (assumption 29). -/
def Obligations.EditWritesTheSettings : Prop :=
  ∀ (s : State) (c : ChanNo) (f : OrderFrame) (n1 n0 v1 v0 set st p3 p2 p1 p0 k h hs b3 b2 b1 b0 lim : Byte), s.Attends c →
    (s.chan c).faultPending = false → f.fits 18 →
    f.body = [n1, n0, v1, v0, set, st, p3, p2, p1, p0, k, h, hs, b3, b2, b1, b0, lim] →
    let number := n1.toNat * 256 + n0.toNat
    let pass := p3.toNat * 16777216 + p2.toNat * 65536 + p1.toNat * 256 + p0.toNat
    let units := b3.toNat * 16777216 + b2.toNat * 65536 + b1.toNat * 256 + b0.toNat
    let valid := number ≠ 0 ∧ (set.getLsbD 0 = true → st = 0 ∨ st = 2) ∧ (set.getLsbD 1 = true → pass ≤ 16777215) ∧
      (set.getLsbD 3 = true → h.toNat ≤ 3 ∨ h = 255) ∧ (set.getLsbD 4 = true → hs.toNat ≤ 15)
    let t := s.inExecution c 10 f
    let o := exec (.edit c f) s
    let served := fun (w : StoreWrite) (out : Outcome) (body : List Byte) =>
      o = .next (t.accessing c w (.reply c out body)).started
    ((s.right c number).edits = false → o = .next (t.replied c f .noRight []).started) ∧
    ((s.right c number).edits = true →
      (¬ valid → o = .next (t.replied c f .badValue []).started) ∧
      (valid → s.storeBusy c → o = .next (t.accessWaits c).started) ∧
      (valid → s.ownAccess c → o = .next t.started) ∧
      (valid → s.arbiter.current = none →
        (s.lookup number = none → served .nothing .notFound []) ∧
        ∀ slot r, s.lookup number = some slot → s.recordAt slot = some r →
          (r.revision ≠ v1.toNat * 256 + v0.toNat → served .nothing .stale (bytesBE 2 r.revision)) ∧
          (r.revision = v1.toNat * 256 + v0.toNat →
            let n := r.settled set st pass k h hs units lim
            let p := s.presenceOf slot
            (n.state = r.state ∨ n.state = .active ∨ s.signedOn slot = [] →
              (n.budget = r.budget → served (.put slot n) .done (bytesBE 2 n.revision)) ∧
              (n.budget ≠ r.budget → s.signedOn slot = [] → p.count = 0 → p.budget ≠ some .grace →
                let total := r.used + s.pendingOf slot
                let b := budgetStateOf total n.budget
                ∃ u : State, o = .next u.started ∧
                  u.arbiter.current =
                    some { who := .chan c, write := .put slot n, result := .reply c .done (bytesBE 2 n.revision) } ∧
                  (u.presenceOf slot).budget = some b ∧ (u.presenceOf slot).count = 0 ∧
                  (∀ l, u.line l = s.line l) ∧ u.cache = s.cache ∧ u.store = s.store ∧
                  ∀ d, u.chan d =
                    if b = .spent ∧ (p.budget = some .normal ∨ p.budget = some .warned) ∧ (s.chan d).state = .up ∧
                        (s.right d (s.accountOf slot)).edits = true then
                      (t.chan d).noted
                        { kind := .budgetState, line := none,
                          body := bytesBE 2 (s.accountOf slot) ++ [3] ++ bytesBE 3 total ++
                            bytesBE 4 (n.budget.getD 4294967295) }
                    else t.chan d)) ∧
            (n.state = .held → r.state ≠ .held → n.budget = r.budget → ∀ l, s.signedOn slot = [l] →
              (s.unit l).state.active = true → (s.dialog l).phase ≠ .checking → (s.ctx l).stack = [] → s.NotWaiting l →
              (s.unit l).partMsg = [] → p.budget ≠ some .grace →
              o = .next (((((t.accessing c (.put slot n) (.reply c .done (bytesBE 2 n.revision))).setPresence slot
                  { p with count := p.count - 1 }).modDialog l fun d => { d.ended with counted := none }).modCtx l
                fun _ => {}).modUnit l fun u => u.cleared .accountHeld).started))))

/-- DELETE (R135, R157): refused IN USE while a line is signed on or a meter is open; otherwise the final used is told, with
what the account's entry and item hold, the entry and the presence entry are emptied, a write-back of the account that
waits at the arbiter is void (R158), and the slot and its number are given up when the access completes. Stated where the
waiting list holds at most the account's own item. -/
def Obligations.DeleteFreesTheAccount : Prop :=
  ∀ (s : State) (c : ChanNo) (f : OrderFrame) (n1 n0 : Byte), s.Attends c → (s.chan c).faultPending = false → f.fits 2 →
    f.body = [n1, n0] →
    let number := n1.toNat * 256 + n0.toNat
    let t := s.inExecution c 11 f
    let o := exec (.delete c f) s
    ((s.right c number).edits = false → o = .next (t.replied c f .noRight []).started) ∧
    ((s.right c number).edits = true →
      (s.storeBusy c → o = .next (t.accessWaits c).started) ∧ (s.ownAccess c → o = .next t.started) ∧
      (s.arbiter.current = none →
        (s.lookup number = none → o = .next (t.accessing c .nothing (.reply c .notFound [])).started) ∧
        ∀ slot r, s.lookup number = some slot → s.recordAt slot = some r →
          (0 < (s.presenceOf slot).count ∨ s.meterOpen slot = true →
            o = .next (t.accessing c .nothing (.reply c .inUse [])).started) ∧
          ((s.presenceOf slot).count = 0 → s.meterOpen slot = false →
            ∀ items, s.cache.waiting = items → items.length ≤ 1 → (∀ i ∈ items, i.slot = slot) →
            let closed := (items.map fun i => i.closed.toList.sum).sum
            let used := min (r.used + s.pendingOf slot + closed) 16777215
            ∃ u : State, o = .next u.started ∧
              u.arbiter = { s.arbiter with
                current := some { who := .chan c, write := .remove slot number,
                                  result := .reply c .done (bytesBE 3 used ++ bytesBE 3 r.previous) },
                writeBack := s.arbiter.writeBack.map fun o => if o.2 = some slot then (o.1, none) else o } ∧
              u.presenceOf slot = {} ∧ (∀ j, j ≠ slot → u.presenceOf j = s.presenceOf j) ∧ u.cache.waiting = [] ∧
              (∀ e, s.entryOf slot = some e → u.entry e = {}) ∧
              (∀ e, s.entryOf slot ≠ some e → u.entry e = s.entry e) ∧
              (∀ l, u.line l = s.line l) ∧ u.store = s.store ∧ u.rating = s.rating ∧
              ∀ i ∈ items, ∀ w ∈ i.charges, s.cache.flush.get w.channel = none → ∀ a rest,
                (t.chan w.channel).orders = a :: rest →
                (u.chan w.channel).reply = some { outcome := .notFound, seq := a.seq, body := [] })))

/-- CHARGE (R127, R162, R163): an amount of 0 is refused; the amount is posted to the account's own entry, or to the
lowest-numbered FREE one, as far as the room goes, and the reply carries the total before it and the amount applied; what
is discarded makes it SATURATED and raises the exception, before the recompute of the budget state. The account goes to
WARNED, to GRACE, its one line being told and withdrawn from where it waits, or to SPENT (R101, R136, R138, R139). With no
entry to be had the order waits in the account's item, and the cache evicts the least recently used GATHERING entry: with
units pending it is written back first, without it goes to the item at once (R128 to R130). Stated with an empty waiting
list, and where a posting leaves an entry with units pending. Which FREE entry is taken, a waiting CHARGE, the recompute
after SATURATE, and the empty body of BILLING FAULT and its header, are assumptions 18, 38, 47, 25 and 45; the other
bodies are as assumption 25 says. -/
def Obligations.ChargePostsUnits : Prop :=
  ∀ (s : State) (c : ChanNo) (f : OrderFrame) (n1 n0 a1 a0 : Byte), s.Attends c → (s.chan c).faultPending = false →
    f.fits 4 → f.body = [n1, n0, a1, a0] →
    let number := n1.toNat * 256 + n0.toNat
    let amount := a1.toNat * 256 + a0.toNat
    let t := s.inExecution c 15 f
    let o := exec (.charge c f) s
    ((s.right c number).charges = false → o = .next (t.replied c f .noRight []).started) ∧
    ((s.right c number).charges = true →
      (amount = 0 → o = .next (t.replied c f .badValue []).started) ∧
      (amount ≠ 0 → s.storeBusy c → o = .next (t.accessWaits c).started) ∧
      (amount ≠ 0 → s.ownAccess c → o = .next t.started) ∧
      (amount ≠ 0 → s.arbiter.current = none →
        (s.lookup number = none → o = .next (t.accessing c .nothing (.reply c .notFound [])).started) ∧
        ∀ slot r, s.lookup number = some slot → s.recordAt slot = some r → s.cache.waiting = [] →
          let p := s.presenceOf slot
          (∀ e base,
            (s.entryOf slot = some e ∧ base = s.entry e ∧ 0 < base.pending) ∨
              (s.entryOf slot = none ∧ (s.entry e).state = .free ∧ (∀ j, j < e → (s.entry j).state ≠ .free) ∧
                base = { slot := some slot, state := .gathering } ∧ r.used < 16777215) →
            let prior := r.used + base.pending
            let applied := min amount (16777215 - prior)
            let total := prior + applied
            let raised :=
              if applied = amount then t
              else t.modChan c fun ch => ch.raised .saturate (s.accountOf slot) none s.rating.calendar
            let posted := fun (u : State) =>
              o = .next u.started ∧
              u.arbiter.current = some
                { who := .chan c, write := .nothing,
                  result := .reply c (if applied < amount then .saturated else .done) (bytesBE 3 prior ++ bytesBE 3 applied) } ∧
              u.entry e = { base with pending := total - r.used } ∧ (∀ j, j ≠ e → u.entry j = s.entry j) ∧
              u.store = s.store ∧ u.rating = s.rating
            let plain := fun (u : State) => (∀ l, u.line l = s.line l) ∧ ∀ d, u.chan d = raised.chan d
            (p.budget = some .normal ∧ (r.budget = none ∨ ∃ b, r.budget = some b ∧ total < b ∧ total * 10 < b * 9) ∨
                p.budget = some .warned ∧ (∃ b, r.budget = some b ∧ total < b ∧ b * 9 ≤ total * 10) →
              ∃ u : State, posted u ∧ plain u ∧ u.presence = s.presence) ∧
            (0 < applied → ∀ b, r.budget = some b →
              (total < b → b * 9 ≤ total * 10 → p.budget = some .normal → ∀ l, s.signedOn slot = [l] →
                (s.unit l).state = .command ∨ (s.unit l).state = .connected →
                ∃ u : State, posted u ∧ u.presenceOf slot = { p with budget := some .warned, graceTimer := false } ∧
                  u.line l = (s.shown l (text "BUDGET 90% USED")).line l ∧ (∀ j, j ≠ l → u.line j = s.line j) ∧
                  ∀ d, u.chan d = raised.chan d) ∧
              (b ≤ total → p.budget = some .normal ∨ p.budget = some .warned →
                (p.count = 0 →
                  ∃ u : State, posted u ∧ u.presenceOf slot = { p with budget := some .spent, graceTimer := false } ∧
                    (∀ l, u.line l = s.line l) ∧ ∀ d, u.chan d = raised.budgetTold slot .spent total d) ∧
                ∀ l w, 0 < p.count → s.signedOn slot = [l] →
                  let cs := text "BUDGET EXHAUSTED - SESSIONS END IN 5 MINUTES"
                  ((s.unit l).state = .command ∨ (s.unit l).state = .connected) ∧ s.NotWaiting l ∧ w = raised.shown l cs ∨
                    (s.unit l).state = .waiting ∧ (∃ d, ∃ v ∈ (s.chan d).queue, v.line = l) ∧
                      (∀ d q y, s.port? d q = some y → y.state = .opening → y.line ≠ some l) ∧
                      w = (raised.unqueued l).returned l cs ∨
                    (s.unit l).state = .waiting ∧ (∀ d, ∀ v ∈ (s.chan d).queue, v.line ≠ l) ∧
                      (∃ d q y, s.port? d q = some y ∧ y.state = .opening ∧ y.line = some l ∧
                        (∀ d' q' z, s.port? d' q' = some z → z.state = .opening → z.line = some l → d' = d ∧ q' = q) ∧
                        w = ((raised.modPort d q fun z =>
                            { z with state := .closing, cause := some .budget, timer := true, flow := none }).modChan d
                          fun ch => ch.noted (circuitClosedOf q y.circuit l .budget)).returned l cs) →
                  ∃ u : State, posted u ∧ u.presenceOf slot = { p with budget := some .grace, graceTimer := true } ∧
                    (∀ k, u.line k = w.line k) ∧ ∀ d, u.chan d = w.budgetTold slot .grace total d))) ∧
          (s.entryOf slot = none → (∀ e, (s.entry e).state ≠ .free) →
            let item : Item := { slot := slot, charges := [{ channel := c, amount := amount }] }
            let waits := (t.accessing c .nothing (.chargeWaits c)).modCache fun k => { k with waiting := [item] }
            (s.cache.evicting = true → o = .next waits.started) ∧
            ∀ a e d, s.cache.evicting = false → s.cache.recency = a ++ e :: d →
              (∀ j ∈ a, (s.entry j).state ≠ .gathering) → (s.entry e).state = .gathering →
              let kept := fun (u : State) =>
                (∀ j, j ≠ e → u.entry j = s.entry j) ∧ (∀ l, u.line l = s.line l) ∧ (∀ k, u.chan k = t.chan k) ∧
                  u.store = s.store ∧ u.rating = s.rating ∧ u.presence = s.presence
              (0 < (s.entry e).pending →
                ∃ u : State, o = .next u.started ∧ u.cache.waiting = [item] ∧ u.cache.evicting = true ∧
                  u.entry e = { s.entry e with evicted := true } ∧ e ∈ u.cache.queue ∧
                  u.arbiter.current = waits.arbiter.current ∧ kept u) ∧
              ((s.entry e).pending = 0 → (∀ k, s.cache.flush.get k = none) → r.budget = none → p.budget = some .normal →
                r.used + amount ≤ 16777215 → (∀ m ∈ s.rating.meters, m.slot = slot → m.unposted = 0) →
                ∃ u : State, o = .next u.started ∧ u.cache.waiting = [] ∧
                  u.entry e = { slot := some slot, pending := amount, state := .gathering } ∧
                  u.arbiter.current = some
                    { who := .chan c, write := .nothing,
                      result := .reply c .done (bytesBE 3 r.used ++ bytesBE 3 amount) } ∧ kept u))))

/-- The arbiter's round (R38), and what completes (R36, R37, R131): the writes of the access take effect and its result goes
to its requester, then the next in the round is served. The record that an access of an order puts, an ADD inserts or a
DELETE removes is then so in its slot and under its number, and every other slot and number is as it was (R34, R153, R157;
stated for a store within its rules and a write that it admits). ACCESS_COMPLETE completes any access, WRITE_BACK_COMPLETED only a
write-back (assumption 23). A write-back takes what it wrote off pending: the entry becomes FREE, goes on gathering, or, if
it is due again, is written back again. An entry that was written back to be evicted is given to the item at the head of
the waiting list, here one with one CHARGE, which is posted and answered (R128 to R130). When an access of the roll
completes, the roll goes on with the next slot that is due, taking its account's units pending with it, or the close ends
and is told to the UP channels (R145, R146). Stated for accounts without a budget and with no FLUSH in execution. -/
def Obligations.CompletedAccessesWriteTheStore : Prop :=
  (∀ (a : Arbiter) (last r : Requester),
    let place := fun (q : Requester) => match q with | .signOn => 0 | .writeBack => 1 | .roll => 2 | .chan c => 3 + c.val
    let distance := fun (q : Requester) => (place q + 6 - place last) % 7
    (roundAfter last).find? a.waits = some r ↔
      a.waits r = true ∧ ∀ q, a.waits q = true → distance r ≤ distance q) ∧
  ∀ s : State, s.powered = true →
    (s.arbiter.current = none → exec .accessComplete s = .next s.started ∧ exec .writeBackCompleted s = .next s.started) ∧
    (∀ a, s.arbiter.current = some a → a.who ≠ .writeBack → exec .writeBackCompleted s = .next s.started) ∧
    (∀ c w o body a rest, (s.chan c).orders = a :: rest →
      let t := ({ s with store := s.storeCompleted, arbiter := {} } : State).modChan c fun ch =>
        { ch with reply := some { outcome := o, seq := a.seq, body := body } }
      (s.arbiter = { current := some { who := .chan c, write := w, result := .reply c o body } } →
        exec .accessComplete s = .next t.started ∧
        (s.store.ok → s.store.admits w → ∃ u : State, exec .accessComplete s = .next u ∧
          (w = .nothing → u.store = s.store) ∧
          (∀ slot r, w = .put slot r →
            u.recordAt slot = some r ∧ (∀ j, j ≠ slot → u.recordAt j = s.recordAt j) ∧ ∀ n, u.lookup n = s.lookup n) ∧
          (∀ slot r, w = .insert slot r →
            u.recordAt slot = some r ∧ u.lookup r.number = some slot ∧ (∀ j, j ≠ slot → u.recordAt j = s.recordAt j) ∧
            ∀ n, n ≠ r.number → u.lookup n = s.lookup n) ∧
          ∀ slot number, w = .remove slot number →
            u.recordAt slot = none ∧ u.lookup number = none ∧ (∀ j, j ≠ slot → u.recordAt j = s.recordAt j) ∧
            ∀ n, n ≠ number → u.lookup n = s.lookup n)) ∧
      ∀ (d : ChanNo) (n1 n0 : Byte) (f : OrderFrame),
        s.arbiter = { current := some { who := .chan c, write := w, result := .reply c o body },
                      chans := (Vector.replicate 4 false).set d true } →
        d ≠ c → (s.chan d).orders = [orderOf 12 f] → f.fits 2 → f.body = [n1, n0] →
        tabGet (n1.toNat * 256 + n0.toNat) s.storeCompleted.directory = none →
        exec .accessComplete s = .next (t.accessing d .nothing (.reply d .notFound [])).started) ∧
    (∀ e slot r, let x := s.entry e
      let left := x.pending - x.snapshot
      s.arbiter = { current := some { who := .writeBack, write := .put slot r, result := .writeBack e } } →
      x.slot = some slot → x.state = .writing → x.evicted = false → s.cache.queue = [] → s.cache.waiting = [] →
      (∀ c, s.cache.flush.get c = none) → s.cache.restarting = false → r.budget = none →
      (s.presenceOf slot).budget = some .normal →
      ∃ t : State, exec .accessComplete s = .next t.started ∧ exec .writeBackCompleted s = .next t.started ∧ t.store = s.storeCompleted ∧
        (∀ j, j ≠ e → t.entry j = s.entry j) ∧ (∀ l, t.line l = s.line l) ∧ (∀ c, t.chan c = s.chan c) ∧
        (left = 0 → s.meterOpen slot = false → t.entry e = {} ∧ t.arbiter = {}) ∧
        (left < 64 → s.meterOpen slot = true →
          t.entry e = { x with pending := left, state := .gathering, snapshot := 0 } ∧ t.arbiter = {}) ∧
        (64 ≤ left ∨ 0 < left ∧ s.meterOpen slot = false →
          t.entry e = { x with pending := left, state := .writing, snapshot := left } ∧
          t.arbiter = { current := some { who := .writeBack, write := .put slot { r with used := r.used + left },
                                          result := .writeBack e } })) ∧
    (∀ e slot r j n c q a rest, let x := s.entry e
      s.arbiter = { current := some { who := .writeBack, write := .put slot r, result := .writeBack e } } →
      x.slot = some slot → x.state = .writing → x.evicted = true → x.pending = x.snapshot → s.cache.queue = [] →
      (∀ d, s.cache.flush.get d = none) → s.cache.restarting = false → r.budget = none →
      (s.presenceOf slot).budget = some .normal →
      s.cache.waiting = [{ slot := j, charges := [{ channel := c, amount := n }] }] → (∀ i, i ≠ e → (s.entry i).state ≠ .free) →
      s.entryOf j = none → tabGet j s.storeCompleted.records = some q → q.budget = none →
      (s.presenceOf j).budget = some .normal → (∀ m ∈ s.rating.meters, m.slot = j → m.unposted = 0) → 0 < n →
      q.used + n ≤ 16777215 → (s.chan c).orders = a :: rest →
      ∃ t : State, exec .accessComplete s = .next t.started ∧ exec .writeBackCompleted s = .next t.started ∧
        t.store = s.storeCompleted ∧ t.cache.waiting = [] ∧ t.cache.evicting = false ∧ (t.entry e).slot = some j ∧
        (t.entry e).pending = n ∧ (∀ i, i ≠ e → t.entry i = s.entry i) ∧ (∀ l, t.line l = s.line l) ∧
        t.chan c = { s.chan c with
          reply := some { outcome := .done, seq := a.seq, body := bytesBE 3 q.used ++ bytesBE 3 n } } ∧
        (∀ d, d ≠ c → t.chan d = s.chan d)) ∧
    ∀ slot w, s.arbiter = { current := some { who := .roll, write := w, result := .roll slot } } →
      s.store.periodState = .closing →
      let st := s.storeCompleted
      ((∀ e ∈ st.records, slot < e.1 → e.2.stamp = st.periodNumber) →
        ∃ t : State, exec .accessComplete s = .next t.started ∧
          t.store = { st with rollIndex := 4096, periodState := .opened } ∧ t.arbiter = {} ∧
          (∀ c, t.chan c =
            if (s.chan c).state = .up then
              (s.chan c).noted { kind := .periodClosed, line := none,
                                 body := bytesBE 2 st.periodNumber ++
                                   (bytesBE 1 s.rating.calendar.weekday ++ bytesBE 3 s.rating.calendar.time) }
            else s.chan c) ∧
          (∀ l, t.line l = s.line l) ∧ t.cache = s.cache ∧ t.rating = s.rating) ∧
      ∀ a b k r, st.records = a ++ (k, r) :: b → (∀ e ∈ a, slot < e.1 → e.2.stamp = st.periodNumber) → slot < k →
        r.stamp ≠ st.periodNumber → tabGet k st.records = some r → r.budget = none →
        (s.presenceOf k).budget = some .normal → s.cache.waiting = [] → (∀ c, s.cache.flush.get c = none) →
        ∃ t : State, exec .accessComplete s = .next t.started ∧ t.store = { st with rollIndex := k } ∧
          t.arbiter.current = some
            { who := .roll,
              write := .put k { r with previous := r.used + s.pendingOf k, used := 0, stamp := st.periodNumber },
              result := .roll k } ∧
          (∀ e, s.entryOf k = some e → (t.entry e).pending = 0) ∧ (∀ e, s.entryOf k ≠ some e → t.entry e = s.entry e) ∧
          (∀ l, t.line l = s.line l) ∧ (∀ c, t.chan c = s.chan c) ∧ t.rating = s.rating

/-- GRACE_TIMER_EXPIRY (R140, R64): the account is SPENT, the UP channels with the EDIT right on it are told, and its line
is told `BUDGET SPENT` and cleared. Stated for an account whose one line has no session; a stopped timer does not expire
(assumption 3). That an account in GRACE which its last line leaves is SPENT too (R141) is stated with LOGOFF. -/
def Obligations.GraceEndsInSpent : Prop :=
  ∀ (s : State) (slot : Nat), s.powered = true →
    let p := s.presenceOf slot
    let told := s.budgetTold slot .spent (s.total slot)
    (p.graceTimer = false → exec (.graceTimerExpiry slot) s = .next s.started) ∧
    (p.graceTimer = true → s.signedOn slot = [] →
      ∃ t : State, exec (.graceTimerExpiry slot) s = .next t.started ∧
        t.presenceOf slot = { p with budget := some .spent, graceTimer := false } ∧ (∀ d, t.chan d = told d) ∧
        (∀ l, t.line l = s.line l) ∧ t.store = s.store ∧ t.cache = s.cache ∧ t.rating = s.rating) ∧
    ∀ l, p.graceTimer = true → s.signedOn slot = [l] → (s.unit l).state = .command → (s.unit l).lineHit = false →
      (s.dialog l).phase = .none → (s.ctx l).stack = [] → s.NotWaiting l →
      ∃ t : State, exec (.graceTimerExpiry slot) s = .next t.started ∧
        t.presenceOf slot = { count := p.count - 1, budget := some .spent, graceTimer := false } ∧
        (∀ d, t.chan d = told d) ∧
        (let shown := s.shown l (text "BUDGET SPENT")
        t.line l = (((shown.modUnit l fun u => u.clearing .budget).modDialog l fun d =>
          { d.ended with counted := none }).modCtx l fun _ => {}).line l) ∧
        (∀ k, k ≠ l → t.line k = s.line k) ∧ t.store = s.store ∧ t.cache = s.cache ∧ t.rating = s.rating

/-! ## Sign-on -/

/-- The sign-on check, served at once by an idle store when the carriage return ends the pass-phrase field (R56 to R59):
the five tests in their order, the first to fail deciding the outcome, and the changes of a success. That the entry
holds no identifier and no fold from then on is the model's reading (assumption 32). -/
def Obligations.SignOnCheckFollowsTheTests : Prop :=
  ∀ (s : State) (l : LineNo) (bit : Bool) (n : Nat), s.Hears l → (s.unit l).state = .signOn → (s.dialog l).phase = .pass →
    (s.group l).parity.accepts 13 bit → (s.dialog l).identifier = some n → 1 ≤ n → n ≤ 65535 →
    s.arbiter.current = none → s.arbiter.signOn = false → s.checks = [] →
    let fold := foldPass (s.dialog l).field
    let t := (s.modDialog l fun d => { d with phase := .checking, field := [], identifier := none, fold := none }).place l
      [13, 10]
    let o := exec (.characterReceived l 13 bit true) s
    let served := fun (u : State) (w : StoreWrite) (out : CheckOutcome) (suspended : Option (Nat × Nat)) =>
      o = .next (u.checking l w out suspended).started
    (s.lookup n = none → served t .nothing .refused none) ∧
    ∀ slot r, s.lookup n = some slot → s.recordAt slot = some r →
      let p := s.presenceOf slot
      let total := r.used + s.pendingOf slot
      let b := p.budget.getD (budgetStateOf total r.budget)
      let seen := if p.budget.isSome then t else t.setPresence slot { p with budget := some b, graceTimer := false }
      p.budget.isSome = true ∨ p.count = 0 →
      (r.state ≠ .active → served seen .nothing .refused none) ∧
      (r.state = .active →
        (r.passCheck = 0 ∨ fold ≠ r.passCheck →
          (r.failures ≠ 4 → served seen
            (.put slot { r with failures := r.failures + 1, revision := (r.revision + 1) % 65536 }) .refused none) ∧
          (r.failures = 4 → served seen
            (.put slot { r with failures := 5, state := .suspended, revision := (r.revision + 2) % 65536 }) .refused
            (some (r.number, (r.revision + 2) % 65536)))) ∧
        (r.passCheck ≠ 0 → fold = r.passCheck →
          (r.limit ≤ p.count → served seen .nothing .tooMany none) ∧
          (p.count < r.limit →
            ((∃ m, r.budget = some m ∧ m ≤ total) → served seen .nothing .exhausted none) ∧
            ((∀ m, r.budget = some m → total < m) →
              served ((t.setPresence slot
                  { p with budget := some b, graceTimer := p.graceTimer && p.budget.isSome, count := p.count + 1 }).modDialog l
                fun d => { d with counted := some slot })
                (.put slot { r with
                  failures := 0, revision := if 0 < r.failures then (r.revision + 1) % 65536 else r.revision,
                  lastSignOn := some s.rating.calendar })
                (.success r.number slot r.cls r.homeHost (b = .warned)) none))))

/-- The result of a sign-on check is taken when its access completes (R60 to R64): a refusal takes an attempt, the last
one clears the line, and a suspension is told to the UP channels with the EDIT right, whether the line waits for the
result or has cleared meanwhile; a success signs the line on, to
command mode without a home host, or with one to the automatic connect, which opens a port, joins the wait queue, or is
refused with the text of the first connect check that fails (R63, R89, R90); for a line that has cleared meanwhile a
success is taken off the presence count. That the count is lowered when the result is taken is the model's reading
(assumption 16); the bodies of ACCOUNT SUSPENDED and CIRCUIT REQUEST, with the line in them, are as assumption 25
says. -/
def Obligations.SignOnResultsAreTaken : Prop :=
  ∀ (s : State) (l : LineNo) (w : StoreWrite), s.powered = true → s.checks = [] →
    let at_ := fun (o : CheckOutcome) (suspended : Option (Nat × Nat)) (cleared : Bool) =>
      s.arbiter = { current := some { who := .signOn, write := w, result := .check l o suspended cleared } }
    let t := ({ s with store := s.storeCompleted, arbiter := {} } : State)
    let r := exec .accessComplete s
    let hears := fun (account revision : Nat) (d : ChanNo) =>
      if (s.chan d).state = .up ∧ (s.right d account).edits = true then
        (s.chan d).noted
          { kind := .accountSuspended, line := some l,
            body := bytesBE 2 account ++ bytesBE 1 l.val ++ bytesBE 2 revision }
      else s.chan d
    let told := fun (suspended : Option (Nat × Nat)) => match suspended with
      | none => t
      | some (account, revision) => ({ t with channels := Vector.ofFn (hears account revision) } : State)
    (∀ (o : CheckOutcome) (cs : List Code) suspended, (o = .refused ∧ cs = text "SIGN-ON REFUSED") ∨
        (o = .tooMany ∧ cs = text "TOO MANY SIGN-ONS") ∨ (o = .exhausted ∧ cs = text "BUDGET EXHAUSTED") →
      (at_ o suspended false →
        (2 ≤ (s.dialog l).attempts →
          r = .next ((((told suspended).place l ([13, 10] ++ cs)).place l [13, 10, 73, 68, 58]).modDialog l fun d =>
            { d with phase := .ident, identifier := none, fold := none, attempts := d.attempts - 1 }).started) ∧
        ((s.dialog l).attempts ≤ 1 → (s.unit l).state = .signOn → (s.unit l).lineHit = false →
          (s.dialog l).counted = none → (s.ctx l) = {} → s.NotWaiting l →
          r = .next ((((told suspended).place l ([13, 10] ++ cs)).modDialog l fun d =>
            { d.ended with attempts := 0 }).modUnit l fun u => u.clearing .signOnFailed).started)) ∧
      (at_ o suspended true → r = .next (told suspended).started)) ∧
    (∀ account slot cls home warned, at_ (.success account slot cls home warned) none false → (s.unit l).state = .signOn →
      let so : SignOnRecord := { account := account, slot := slot, effClass := min cls (s.group l).classCap }
      let shown := t.place l ([13, 10] ++ (text "SIGNED ON " ++ decimal account))
      let told := if warned then shown.place l ([13, 10] ++ text "BUDGET 90% USED") else shown
      let entered := fun (u : State) =>
        (((u.modUnit l fun x => { x with account := account, state := .command }).modDialog l fun d =>
            { d with phase := .none, timer := false }).modCtx l fun y =>
          { y with signOn := some so, units := 0, field := [], idleTimer := true }).lowerScore l 8 |>.place l [13, 10, 62]
      let waits := (((told.modUnit l fun x => { x with account := account, state := .waiting }).modDialog l fun d =>
          { d with phase := .none, timer := false }).modCtx l fun y => { y with signOn := some so, units := 0 }).lowerScore l 8
      (home = none → r = .next (entered told).started) ∧
      ∀ c, home = some c →
        (∀ cs, t.ConnectRefused l c so cs → r = .next (entered (told.place l ([13, 10] ++ cs))).started) ∧
        (t.MayConnect l c so →
          (∀ p x, s.port? c p = some x → x.state = .free → (∀ q y, q < p → s.port? c q = some y → y.state ≠ .free) →
            r = .next ((waits.modPort c p fun z =>
                { z with state := .opening, line := some l, slot := some slot, cause := none, timer := true }).modChan c
              fun ch => ch.noted
                { kind := .circuitRequest, line := some l,
                  body := bytesBE 1 p ++ bytesBE 2 x.circuit ++ bytesBE 1 l.val ++ bytesBE 2 (t.accountOf slot) ++
                    bytesBE 1 so.effClass ++ speedByte (s.unit l).speed }).started) ∧
          ((∀ p x, s.port? c p = some x → x.state ≠ .free) → ∀ a b, (s.chan c).queue = a ++ b →
            (∀ k ∈ a, so.effClass ≤ k.effClass) → (∀ k, b.head? = some k → k.effClass < so.effClass) →
            r = .next ((waits.modChan c fun ch =>
                { ch with queue := a ++ [{ line := l, slot := slot, effClass := so.effClass }] ++ b }).place l
              ([13, 10] ++
                (text "WAITING FOR HOST " ++ [hostLetter c] ++ text ", POSITION " ++ decimal (a.length + 1)))).started))) ∧
    ∀ account slot cls home warned, at_ (.success account slot cls home warned) none true →
      (s.dialog l).counted = some slot → (s.presenceOf slot).budget ≠ some .grace →
      r = .next ((t.modDialog l fun d => { d with counted := none }).setPresence slot
        { s.presenceOf slot with count := (s.presenceOf slot).count - 1 }).started

/-- The right of a channel on an account number (R43 to R45): the first of its four windows that covers the number gives it,
else the default right; a window covers the numbers that agree with its base but for their low digits. In SETUP every channel
has every right. -/
def Obligations.RightsFollowTheWindows : Prop :=
  ∀ (s : State) (c : ChanNo) (n : Nat),
    let g := s.store.chanConfig.get c
    let covers := fun (i : Fin 4) => n / 2 ^ (g.windows.get i).exp = (g.windows.get i).base / 2 ^ (g.windows.get i).exp
    (s.setup = true → s.right c n = .both ∧ s.operator c = true) ∧
    (s.setup = false →
      s.operator c = g.operator ∧
      (∀ i, covers i → (∀ j, j < i → ¬ covers j) → s.right c n = (g.windows.get i).right) ∧
      ((∀ i, ¬ covers i) → s.right c n = g.default)) ∧
    ∀ w : Window,
      (w.covers n = true ↔ w.base - w.base % 2 ^ w.exp ≤ n ∧ n < w.base - w.base % 2 ^ w.exp + 2 ^ w.exp) ∧
      (w.exp = 16 → w.base ≤ 65535 → n ≤ 65535 → w.covers n = true)

/-! ## Orders and data on the link -/

/-- Every order (R166, R171, R172, R179, R180; R45 and R152 for the rights): at a full queue it is answered BUSY, behind
others it waits, and at the head of the queue the first of the steps code, length, channel state, billing fault and
right that refuses it decides the outcome. BAD_ORDER is stated with code 0 and codes above 30; one with a known code
runs as that order (assumption 35). The lengths of LOAD TARIFF's items are judged with their values, so that every body
fits here (assumption 40). -/
def Obligations.OrdersAreJudgedInOrder : Prop :=
  ∀ (s : State) (c : ChanNo) (f : OrderFrame) (code : Byte), s.powered = true →
    let r := exec (orderCommand c f code) s
    let queued := (s.afterFrame c).modChan c fun ch => { ch with orders := ch.orders ++ [orderOf code f] }
    let n := code.toNat
    let size := f.bodyLen.toNat
    let fits := f.body.length = size ∧ size ≤ 512 ∧
      (if n = 1 then ∃ b, f.body[5]? = some b ∧ size = 6 + b.toNat
      else if n = 18 ∨ n = 19 then True
      else if n = 5 ∨ n = 6 ∨ n = 7 ∨ n = 8 ∨ n = 22 ∨ n = 23 ∨ n = 24 ∨ n = 25 ∨ n = 27 ∨ n = 28 then size = 1
      else if n = 11 ∨ n = 12 ∨ n = 13 ∨ n = 14 then size = 2
      else if n = 30 then size = 3
      else if n = 15 ∨ n = 17 then size = 4
      else if n = 9 then size = 14
      else if n = 10 then size = 18
      else size = 0)
    let allowed := match (s.chan c).state with
      | .up => True
      | .quiescing => n ≠ 1 ∧ n ≠ 2
      | .down | .failed => n = 1 ∨ n = 3 ∨ n = 29 ∨ n = 30
    let refused := fun (o : Outcome) => r = .next (queued.replied c f o []).started
    (8 ≤ (s.chan c).orders.length →
      r = .next ((s.afterFrame c).modChan c fun ch =>
        { ch with busy := ch.busy ++ [{ outcome := .busy, seq := f.seq, body := [] }] }).started) ∧
    (1 ≤ (s.chan c).orders.length → (s.chan c).orders.length ≤ 7 → r = .next queued.started) ∧
    ((s.chan c).orders = [] →
      (n = 0 ∨ 30 < n → refused .badOrder) ∧
      (1 ≤ n → n ≤ 30 →
        (¬ fits → refused .badValue) ∧
        (fits → ¬ allowed → refused .wrongState) ∧
        (fits → allowed → (s.chan c).faultPending = true → n = 1 ∨ 9 ≤ n → refused .faultPending) ∧
        (fits → allowed → (s.chan c).faultPending = false →
          (17 ≤ n → n ≤ 26 → s.operator c = false → refused .noRight) ∧
          ∀ n1 n0 rest, f.body = n1 :: n0 :: rest →
            let right := s.right c (n1.toNat * 256 + n0.toNat)
            (n = 9 ∨ n = 10 ∨ n = 11 → right.edits = false → refused .noRight) ∧
            (n = 12 ∨ n = 14 → right = .none → refused .noRight) ∧
            (n = 15 → right.charges = false → refused .noRight))))

/-- REPLY_SENT, NOTICE_SENT and DATA_BLOCK_SENT (R81, R171, R173, R179): the link takes a BUSY reply ahead of the others, else
the reply of the order in execution, which leaves the queue so that the next one comes into execution; the oldest notice; the
oldest data block. That the record taken is held in `linkOut`, and that several BUSY replies wait in their order, is the
model's (assumptions 6 and 7). -/
def Obligations.RecordsLeaveOnTheLink : Prop :=
  ∀ (s : State) (c : ChanNo), s.powered = true →
    let ch := s.chan c
    (∀ r rest, ch.busy = r :: rest →
      exec (.replySent c) s = .next (s.modChan c fun x => { x with busy := rest, linkOut := some (.reply r) }).started) ∧
    (ch.busy = [] →
      (ch.reply = none → exec (.replySent c) s = .next s.started) ∧
      ∀ r, ch.reply = some r →
        (∀ a, ch.orders = [a] →
          exec (.replySent c) s =
            .next (s.modChan c fun x => { x with orders := [], reply := none, linkOut := some (.reply r) }).started) ∧
        ∀ a b rest, ch.orders = a :: b :: rest → b.code.toNat = 0 ∨ 30 < b.code.toNat →
          exec (.replySent c) s =
            .next (s.modChan c fun x =>
              { x with orders := b :: rest, reply := some { outcome := .badOrder, seq := b.seq, body := [] },
                       linkOut := some (.reply r) }).started) ∧
    (ch.notices = [] → exec (.noticeSent c) s = .next s.started) ∧
    (∀ m rest, ch.notices = m :: rest →
      exec (.noticeSent c) s = .next (s.modChan c fun x => { x with notices := rest, linkOut := some (.notice m) }).started) ∧
    (ch.dataOut = [] → exec (.dataBlockSent c) s = .next s.started) ∧
    ∀ b rest, ch.dataOut = b :: rest →
      let t := s.modChan c fun x => { x with dataOut := rest, linkOut := some (.data b) }
      (b.overrun = false → exec (.dataBlockSent c) s = .next t.started) ∧
      (b.overrun = true →
        exec (.dataBlockSent c) s =
          .next (t.modPort c b.port fun y => { y with flow := y.flow.map fun g => { g with overrun := false } }).started)

/-- DATA_BLOCK, FRAME_DISCARDED, and the draining of a port's output (R81, R82, R84, R179): a block whose length does not
fit, or for a port that is not BOUND, is discarded; STOP and START set host stop, and an end of it sends what the line
holds; the characters fill the output buffer, with STOP at 192 and OVERRUN beyond 256; the LIVE port's oldest character is
started when its line is free and no part message waits, with START at 64, here after CHARACTER_SENT with every other line
at rest. STOP, START and OVERRUN go with the next waiting block that has characters for the port, or with none in a block
of their own. That a character leaves the buffer when it is started, and that an indication does not overtake its
opposite, are assumptions 8 and 10. -/
def Obligations.DataBlocksReachTheTerminal : Prop :=
  ∀ (s : State) (c : ChanNo), s.powered = true →
    let heard := s.afterFrame c
    let sent := fun (t : State) (b : DataBlock) => t.modChan c fun ch => { ch with dataOut := ch.dataOut ++ [b] }
    let flowed := fun (t : State) (p : Nat) (g : Flow) => t.modPort c p fun y => { y with flow := some g }
    let waiting := fun (t : State) (bs : List DataBlock) => t.modChan c fun ch => { ch with dataOut := bs }
    (∀ bytes, exec (.frameDiscarded c bytes) s = .next heard.started) ∧
    (∀ (ind : Byte) (port bodyLen : BitVec 16) (chars : List Byte),
      let r := exec (.dataBlock c ind port bodyLen chars) s
      let p := port.toNat
      (bodyLen.toNat ≠ chars.length ∨ 256 < chars.length ∨ (∀ x, s.port? c p = some x → x.state ≠ .bound) →
        r = .next heard.started) ∧
      (bodyLen.toNat = chars.length → chars.length ≤ 256 → ∀ x g, s.port? c p = some x → x.state = .bound →
        x.flow = some g →
        (chars = [] →
          (ind.getLsbD 0 = true → r = .next (flowed heard p { g with hostStop := true }).started) ∧
          (ind.getLsbD 0 = false → ind.getLsbD 1 = false → r = .next (flowed heard p g).started) ∧
          (ind.getLsbD 0 = false → ind.getLsbD 1 = true →
            let released := flowed heard p { g with hostStop := false }
            (g.hostStop = false ∨ x.line = none → r = .next released.started) ∧
            ∀ l e, g.hostStop = true → x.line = some l → (s.unit l).state = .connected → s.liveSession l = some e →
              e.channel = c → e.port = p → (s.unit l).input ≠ [] → (s.unit l).input.length ≤ 32 →
              r = .next (sent ((released.modUnit l fun u => { u with input := [] }).modCtx l fun y =>
                { y with forwardTimer := false }) { port := p, chars := (s.unit l).input }).started)) ∧
        (ind.getLsbD 0 = false → ind.getLsbD 1 = false →
          (g.output.length + chars.length ≤ 256 → g.stopSent = true ∨ g.output.length + chars.length ≤ 191 →
            r = .next (flowed heard p { g with output := g.output ++ chars.map (·.setWidth 7) }).started) ∧
          (∀ a bs, chars = [a] → g.output.length = 191 → g.stopSent = false →
            Joins p (fun b => { b with stop := true }) (·.start) (s.chan c).dataOut bs →
            r = .next (waiting (flowed heard p { g with output := g.output ++ [a.setWidth 7], stopSent := true }) bs).started) ∧
          (∀ a, chars = [a] → 256 ≤ g.output.length →
            (g.overrun = true → r = .next (flowed heard p g).started) ∧
            (g.overrun = false → ∀ bs, Joins p (fun b => { b with overrun := true }) (fun _ => false) (s.chan c).dataOut bs →
              r = .next (waiting (flowed heard p { g with overrun := true }) bs).started))))) ∧
    ∀ l e g x rest, s.Hears l → (s.unit l).state = .connected → (s.unit l).partMsg = [] → s.liveSession l = some e →
      e.channel = c → s.flow? c e.port = some g → g.output = x :: rest → (∀ k, k ≠ l → s.Rests k) →
      ∃ k, s.Framed l x k ∧
        let started := s.modUnit l fun u => { u with sending := some k }
        (rest.length ≠ 64 ∨ g.stopSent = false →
          exec (.characterSent l) s = .next (flowed started e.port { g with output := rest })) ∧
        (rest.length = 64 → g.stopSent = true → ∀ bs,
          Joins e.port (fun b => { b with start := true }) (·.stop) (s.chan c).dataOut bs →
          exec (.characterSent l) s =
            .next (waiting (flowed started e.port { g with output := rest, stopSent := false }) bs))
end

