-- ==== Sys2Proof/Laws/State.lean ====
section
/-! SUPPORT. What each update of the state writes and what it leaves: one lemma for each field of each update, and the
lines and channels read back. -/

namespace Sys2Proof.Machine

/-! ## Fields an update leaves -/

/-! ### `setLine` -/

@[simp] theorem State.setLine_checks (s : State) (l : LineNo) (x : Line) : (s.setLine l x).checks = s.checks := rfl
@[simp] theorem State.setLine_presence (s : State) (l : LineNo) (x : Line) : (s.setLine l x).presence = s.presence := rfl
@[simp] theorem State.setLine_channels (s : State) (l : LineNo) (x : Line) : (s.setLine l x).channels = s.channels := rfl
@[simp] theorem State.setLine_rating (s : State) (l : LineNo) (x : Line) : (s.setLine l x).rating = s.rating := rfl
@[simp] theorem State.setLine_cache (s : State) (l : LineNo) (x : Line) : (s.setLine l x).cache = s.cache := rfl
@[simp] theorem State.setLine_dirtyMarker (s : State) (l : LineNo) (x : Line) : (s.setLine l x).dirtyMarker = s.dirtyMarker := rfl
@[simp] theorem State.setLine_store (s : State) (l : LineNo) (x : Line) : (s.setLine l x).store = s.store := rfl
@[simp] theorem State.setLine_arbiter (s : State) (l : LineNo) (x : Line) : (s.setLine l x).arbiter = s.arbiter := rfl
@[simp] theorem State.setLine_resetCause (s : State) (l : LineNo) (x : Line) : (s.setLine l x).resetCause = s.resetCause := rfl
@[simp] theorem State.setLine_setup (s : State) (l : LineNo) (x : Line) : (s.setLine l x).setup = s.setup := rfl
@[simp] theorem State.setLine_powered (s : State) (l : LineNo) (x : Line) : (s.setLine l x).powered = s.powered := rfl
@[simp] theorem State.setLine_pending (s : State) (l : LineNo) (x : Line) : (s.setLine l x).pending = s.pending := rfl

/-! ### `modUnit` -/

@[simp] theorem State.modUnit_checks (s : State) (l : LineNo) (f : LineUnit → LineUnit) : (s.modUnit l f).checks = s.checks := rfl
@[simp] theorem State.modUnit_presence (s : State) (l : LineNo) (f : LineUnit → LineUnit) : (s.modUnit l f).presence = s.presence := rfl
@[simp] theorem State.modUnit_channels (s : State) (l : LineNo) (f : LineUnit → LineUnit) : (s.modUnit l f).channels = s.channels := rfl
@[simp] theorem State.modUnit_rating (s : State) (l : LineNo) (f : LineUnit → LineUnit) : (s.modUnit l f).rating = s.rating := rfl
@[simp] theorem State.modUnit_cache (s : State) (l : LineNo) (f : LineUnit → LineUnit) : (s.modUnit l f).cache = s.cache := rfl
@[simp] theorem State.modUnit_dirtyMarker (s : State) (l : LineNo) (f : LineUnit → LineUnit) : (s.modUnit l f).dirtyMarker = s.dirtyMarker := rfl
@[simp] theorem State.modUnit_store (s : State) (l : LineNo) (f : LineUnit → LineUnit) : (s.modUnit l f).store = s.store := rfl
@[simp] theorem State.modUnit_arbiter (s : State) (l : LineNo) (f : LineUnit → LineUnit) : (s.modUnit l f).arbiter = s.arbiter := rfl
@[simp] theorem State.modUnit_resetCause (s : State) (l : LineNo) (f : LineUnit → LineUnit) : (s.modUnit l f).resetCause = s.resetCause := rfl
@[simp] theorem State.modUnit_setup (s : State) (l : LineNo) (f : LineUnit → LineUnit) : (s.modUnit l f).setup = s.setup := rfl
@[simp] theorem State.modUnit_powered (s : State) (l : LineNo) (f : LineUnit → LineUnit) : (s.modUnit l f).powered = s.powered := rfl
@[simp] theorem State.modUnit_pending (s : State) (l : LineNo) (f : LineUnit → LineUnit) : (s.modUnit l f).pending = s.pending := rfl

/-! ### `modDialog` -/

@[simp] theorem State.modDialog_checks (s : State) (l : LineNo) (f : Dialog → Dialog) : (s.modDialog l f).checks = s.checks := rfl
@[simp] theorem State.modDialog_presence (s : State) (l : LineNo) (f : Dialog → Dialog) : (s.modDialog l f).presence = s.presence := rfl
@[simp] theorem State.modDialog_channels (s : State) (l : LineNo) (f : Dialog → Dialog) : (s.modDialog l f).channels = s.channels := rfl
@[simp] theorem State.modDialog_rating (s : State) (l : LineNo) (f : Dialog → Dialog) : (s.modDialog l f).rating = s.rating := rfl
@[simp] theorem State.modDialog_cache (s : State) (l : LineNo) (f : Dialog → Dialog) : (s.modDialog l f).cache = s.cache := rfl
@[simp] theorem State.modDialog_dirtyMarker (s : State) (l : LineNo) (f : Dialog → Dialog) : (s.modDialog l f).dirtyMarker = s.dirtyMarker := rfl
@[simp] theorem State.modDialog_store (s : State) (l : LineNo) (f : Dialog → Dialog) : (s.modDialog l f).store = s.store := rfl
@[simp] theorem State.modDialog_arbiter (s : State) (l : LineNo) (f : Dialog → Dialog) : (s.modDialog l f).arbiter = s.arbiter := rfl
@[simp] theorem State.modDialog_resetCause (s : State) (l : LineNo) (f : Dialog → Dialog) : (s.modDialog l f).resetCause = s.resetCause := rfl
@[simp] theorem State.modDialog_setup (s : State) (l : LineNo) (f : Dialog → Dialog) : (s.modDialog l f).setup = s.setup := rfl
@[simp] theorem State.modDialog_powered (s : State) (l : LineNo) (f : Dialog → Dialog) : (s.modDialog l f).powered = s.powered := rfl
@[simp] theorem State.modDialog_pending (s : State) (l : LineNo) (f : Dialog → Dialog) : (s.modDialog l f).pending = s.pending := rfl

/-! ### `modCtx` -/

@[simp] theorem State.modCtx_checks (s : State) (l : LineNo) (f : LineContext → LineContext) : (s.modCtx l f).checks = s.checks := rfl
@[simp] theorem State.modCtx_presence (s : State) (l : LineNo) (f : LineContext → LineContext) : (s.modCtx l f).presence = s.presence := rfl
@[simp] theorem State.modCtx_channels (s : State) (l : LineNo) (f : LineContext → LineContext) : (s.modCtx l f).channels = s.channels := rfl
@[simp] theorem State.modCtx_rating (s : State) (l : LineNo) (f : LineContext → LineContext) : (s.modCtx l f).rating = s.rating := rfl
@[simp] theorem State.modCtx_cache (s : State) (l : LineNo) (f : LineContext → LineContext) : (s.modCtx l f).cache = s.cache := rfl
@[simp] theorem State.modCtx_dirtyMarker (s : State) (l : LineNo) (f : LineContext → LineContext) : (s.modCtx l f).dirtyMarker = s.dirtyMarker := rfl
@[simp] theorem State.modCtx_store (s : State) (l : LineNo) (f : LineContext → LineContext) : (s.modCtx l f).store = s.store := rfl
@[simp] theorem State.modCtx_arbiter (s : State) (l : LineNo) (f : LineContext → LineContext) : (s.modCtx l f).arbiter = s.arbiter := rfl
@[simp] theorem State.modCtx_resetCause (s : State) (l : LineNo) (f : LineContext → LineContext) : (s.modCtx l f).resetCause = s.resetCause := rfl
@[simp] theorem State.modCtx_setup (s : State) (l : LineNo) (f : LineContext → LineContext) : (s.modCtx l f).setup = s.setup := rfl
@[simp] theorem State.modCtx_powered (s : State) (l : LineNo) (f : LineContext → LineContext) : (s.modCtx l f).powered = s.powered := rfl
@[simp] theorem State.modCtx_pending (s : State) (l : LineNo) (f : LineContext → LineContext) : (s.modCtx l f).pending = s.pending := rfl

/-! ### `place` -/

@[simp] theorem State.place_checks (s : State) (l : LineNo) (cs : List Code) : (s.place l cs).checks = s.checks := rfl
@[simp] theorem State.place_presence (s : State) (l : LineNo) (cs : List Code) : (s.place l cs).presence = s.presence := rfl
@[simp] theorem State.place_channels (s : State) (l : LineNo) (cs : List Code) : (s.place l cs).channels = s.channels := rfl
@[simp] theorem State.place_rating (s : State) (l : LineNo) (cs : List Code) : (s.place l cs).rating = s.rating := rfl
@[simp] theorem State.place_cache (s : State) (l : LineNo) (cs : List Code) : (s.place l cs).cache = s.cache := rfl
@[simp] theorem State.place_dirtyMarker (s : State) (l : LineNo) (cs : List Code) : (s.place l cs).dirtyMarker = s.dirtyMarker := rfl
@[simp] theorem State.place_store (s : State) (l : LineNo) (cs : List Code) : (s.place l cs).store = s.store := rfl
@[simp] theorem State.place_arbiter (s : State) (l : LineNo) (cs : List Code) : (s.place l cs).arbiter = s.arbiter := rfl
@[simp] theorem State.place_resetCause (s : State) (l : LineNo) (cs : List Code) : (s.place l cs).resetCause = s.resetCause := rfl
@[simp] theorem State.place_setup (s : State) (l : LineNo) (cs : List Code) : (s.place l cs).setup = s.setup := rfl
@[simp] theorem State.place_powered (s : State) (l : LineNo) (cs : List Code) : (s.place l cs).powered = s.powered := rfl
@[simp] theorem State.place_pending (s : State) (l : LineNo) (cs : List Code) : (s.place l cs).pending = s.pending := rfl

/-! ### `setChan` -/

@[simp] theorem State.setChan_lines (s : State) (c : ChanNo) (x : Channel) : (s.setChan c x).lines = s.lines := rfl
@[simp] theorem State.setChan_checks (s : State) (c : ChanNo) (x : Channel) : (s.setChan c x).checks = s.checks := rfl
@[simp] theorem State.setChan_presence (s : State) (c : ChanNo) (x : Channel) : (s.setChan c x).presence = s.presence := rfl
@[simp] theorem State.setChan_rating (s : State) (c : ChanNo) (x : Channel) : (s.setChan c x).rating = s.rating := rfl
@[simp] theorem State.setChan_cache (s : State) (c : ChanNo) (x : Channel) : (s.setChan c x).cache = s.cache := rfl
@[simp] theorem State.setChan_dirtyMarker (s : State) (c : ChanNo) (x : Channel) : (s.setChan c x).dirtyMarker = s.dirtyMarker := rfl
@[simp] theorem State.setChan_store (s : State) (c : ChanNo) (x : Channel) : (s.setChan c x).store = s.store := rfl
@[simp] theorem State.setChan_arbiter (s : State) (c : ChanNo) (x : Channel) : (s.setChan c x).arbiter = s.arbiter := rfl
@[simp] theorem State.setChan_resetCause (s : State) (c : ChanNo) (x : Channel) : (s.setChan c x).resetCause = s.resetCause := rfl
@[simp] theorem State.setChan_setup (s : State) (c : ChanNo) (x : Channel) : (s.setChan c x).setup = s.setup := rfl
@[simp] theorem State.setChan_powered (s : State) (c : ChanNo) (x : Channel) : (s.setChan c x).powered = s.powered := rfl
@[simp] theorem State.setChan_pending (s : State) (c : ChanNo) (x : Channel) : (s.setChan c x).pending = s.pending := rfl

/-! ### `modChan` -/

@[simp] theorem State.modChan_lines (s : State) (c : ChanNo) (f : Channel → Channel) : (s.modChan c f).lines = s.lines := rfl
@[simp] theorem State.modChan_checks (s : State) (c : ChanNo) (f : Channel → Channel) : (s.modChan c f).checks = s.checks := rfl
@[simp] theorem State.modChan_presence (s : State) (c : ChanNo) (f : Channel → Channel) : (s.modChan c f).presence = s.presence := rfl
@[simp] theorem State.modChan_rating (s : State) (c : ChanNo) (f : Channel → Channel) : (s.modChan c f).rating = s.rating := rfl
@[simp] theorem State.modChan_cache (s : State) (c : ChanNo) (f : Channel → Channel) : (s.modChan c f).cache = s.cache := rfl
@[simp] theorem State.modChan_dirtyMarker (s : State) (c : ChanNo) (f : Channel → Channel) : (s.modChan c f).dirtyMarker = s.dirtyMarker := rfl
@[simp] theorem State.modChan_store (s : State) (c : ChanNo) (f : Channel → Channel) : (s.modChan c f).store = s.store := rfl
@[simp] theorem State.modChan_arbiter (s : State) (c : ChanNo) (f : Channel → Channel) : (s.modChan c f).arbiter = s.arbiter := rfl
@[simp] theorem State.modChan_resetCause (s : State) (c : ChanNo) (f : Channel → Channel) : (s.modChan c f).resetCause = s.resetCause := rfl
@[simp] theorem State.modChan_setup (s : State) (c : ChanNo) (f : Channel → Channel) : (s.modChan c f).setup = s.setup := rfl
@[simp] theorem State.modChan_powered (s : State) (c : ChanNo) (f : Channel → Channel) : (s.modChan c f).powered = s.powered := rfl
@[simp] theorem State.modChan_pending (s : State) (c : ChanNo) (f : Channel → Channel) : (s.modChan c f).pending = s.pending := rfl

/-! ### `setPresence` -/

@[simp] theorem State.setPresence_lines (s : State) (slot : Nat) (p : Presence) : (s.setPresence slot p).lines = s.lines := rfl
@[simp] theorem State.setPresence_checks (s : State) (slot : Nat) (p : Presence) : (s.setPresence slot p).checks = s.checks := rfl
@[simp] theorem State.setPresence_channels (s : State) (slot : Nat) (p : Presence) : (s.setPresence slot p).channels = s.channels := rfl
@[simp] theorem State.setPresence_rating (s : State) (slot : Nat) (p : Presence) : (s.setPresence slot p).rating = s.rating := rfl
@[simp] theorem State.setPresence_cache (s : State) (slot : Nat) (p : Presence) : (s.setPresence slot p).cache = s.cache := rfl
@[simp] theorem State.setPresence_dirtyMarker (s : State) (slot : Nat) (p : Presence) : (s.setPresence slot p).dirtyMarker = s.dirtyMarker := rfl
@[simp] theorem State.setPresence_store (s : State) (slot : Nat) (p : Presence) : (s.setPresence slot p).store = s.store := rfl
@[simp] theorem State.setPresence_arbiter (s : State) (slot : Nat) (p : Presence) : (s.setPresence slot p).arbiter = s.arbiter := rfl
@[simp] theorem State.setPresence_resetCause (s : State) (slot : Nat) (p : Presence) : (s.setPresence slot p).resetCause = s.resetCause := rfl
@[simp] theorem State.setPresence_setup (s : State) (slot : Nat) (p : Presence) : (s.setPresence slot p).setup = s.setup := rfl
@[simp] theorem State.setPresence_powered (s : State) (slot : Nat) (p : Presence) : (s.setPresence slot p).powered = s.powered := rfl
@[simp] theorem State.setPresence_pending (s : State) (slot : Nat) (p : Presence) : (s.setPresence slot p).pending = s.pending := rfl

/-! ### `modRating` -/

@[simp] theorem State.modRating_lines (s : State) (f : Rating → Rating) : (s.modRating f).lines = s.lines := rfl
@[simp] theorem State.modRating_checks (s : State) (f : Rating → Rating) : (s.modRating f).checks = s.checks := rfl
@[simp] theorem State.modRating_presence (s : State) (f : Rating → Rating) : (s.modRating f).presence = s.presence := rfl
@[simp] theorem State.modRating_channels (s : State) (f : Rating → Rating) : (s.modRating f).channels = s.channels := rfl
@[simp] theorem State.modRating_cache (s : State) (f : Rating → Rating) : (s.modRating f).cache = s.cache := rfl
@[simp] theorem State.modRating_dirtyMarker (s : State) (f : Rating → Rating) : (s.modRating f).dirtyMarker = s.dirtyMarker := rfl
@[simp] theorem State.modRating_store (s : State) (f : Rating → Rating) : (s.modRating f).store = s.store := rfl
@[simp] theorem State.modRating_arbiter (s : State) (f : Rating → Rating) : (s.modRating f).arbiter = s.arbiter := rfl
@[simp] theorem State.modRating_resetCause (s : State) (f : Rating → Rating) : (s.modRating f).resetCause = s.resetCause := rfl
@[simp] theorem State.modRating_setup (s : State) (f : Rating → Rating) : (s.modRating f).setup = s.setup := rfl
@[simp] theorem State.modRating_powered (s : State) (f : Rating → Rating) : (s.modRating f).powered = s.powered := rfl
@[simp] theorem State.modRating_pending (s : State) (f : Rating → Rating) : (s.modRating f).pending = s.pending := rfl

/-! ### `modStore` -/

@[simp] theorem State.modStore_lines (s : State) (f : Store → Store) : (s.modStore f).lines = s.lines := rfl
@[simp] theorem State.modStore_checks (s : State) (f : Store → Store) : (s.modStore f).checks = s.checks := rfl
@[simp] theorem State.modStore_presence (s : State) (f : Store → Store) : (s.modStore f).presence = s.presence := rfl
@[simp] theorem State.modStore_channels (s : State) (f : Store → Store) : (s.modStore f).channels = s.channels := rfl
@[simp] theorem State.modStore_rating (s : State) (f : Store → Store) : (s.modStore f).rating = s.rating := rfl
@[simp] theorem State.modStore_cache (s : State) (f : Store → Store) : (s.modStore f).cache = s.cache := rfl
@[simp] theorem State.modStore_dirtyMarker (s : State) (f : Store → Store) : (s.modStore f).dirtyMarker = s.dirtyMarker := rfl
@[simp] theorem State.modStore_arbiter (s : State) (f : Store → Store) : (s.modStore f).arbiter = s.arbiter := rfl
@[simp] theorem State.modStore_resetCause (s : State) (f : Store → Store) : (s.modStore f).resetCause = s.resetCause := rfl
@[simp] theorem State.modStore_setup (s : State) (f : Store → Store) : (s.modStore f).setup = s.setup := rfl
@[simp] theorem State.modStore_powered (s : State) (f : Store → Store) : (s.modStore f).powered = s.powered := rfl
@[simp] theorem State.modStore_pending (s : State) (f : Store → Store) : (s.modStore f).pending = s.pending := rfl

/-! ### `modArbiter` -/

@[simp] theorem State.modArbiter_lines (s : State) (f : Arbiter → Arbiter) : (s.modArbiter f).lines = s.lines := rfl
@[simp] theorem State.modArbiter_checks (s : State) (f : Arbiter → Arbiter) : (s.modArbiter f).checks = s.checks := rfl
@[simp] theorem State.modArbiter_presence (s : State) (f : Arbiter → Arbiter) : (s.modArbiter f).presence = s.presence := rfl
@[simp] theorem State.modArbiter_channels (s : State) (f : Arbiter → Arbiter) : (s.modArbiter f).channels = s.channels := rfl
@[simp] theorem State.modArbiter_rating (s : State) (f : Arbiter → Arbiter) : (s.modArbiter f).rating = s.rating := rfl
@[simp] theorem State.modArbiter_cache (s : State) (f : Arbiter → Arbiter) : (s.modArbiter f).cache = s.cache := rfl
@[simp] theorem State.modArbiter_dirtyMarker (s : State) (f : Arbiter → Arbiter) : (s.modArbiter f).dirtyMarker = s.dirtyMarker := rfl
@[simp] theorem State.modArbiter_store (s : State) (f : Arbiter → Arbiter) : (s.modArbiter f).store = s.store := rfl
@[simp] theorem State.modArbiter_resetCause (s : State) (f : Arbiter → Arbiter) : (s.modArbiter f).resetCause = s.resetCause := rfl
@[simp] theorem State.modArbiter_setup (s : State) (f : Arbiter → Arbiter) : (s.modArbiter f).setup = s.setup := rfl
@[simp] theorem State.modArbiter_powered (s : State) (f : Arbiter → Arbiter) : (s.modArbiter f).powered = s.powered := rfl
@[simp] theorem State.modArbiter_pending (s : State) (f : Arbiter → Arbiter) : (s.modArbiter f).pending = s.pending := rfl

/-! ### `modCache` -/

@[simp] theorem State.modCache_lines (s : State) (f : Cache → Cache) : (s.modCache f).lines = s.lines := rfl
@[simp] theorem State.modCache_checks (s : State) (f : Cache → Cache) : (s.modCache f).checks = s.checks := rfl
@[simp] theorem State.modCache_presence (s : State) (f : Cache → Cache) : (s.modCache f).presence = s.presence := rfl
@[simp] theorem State.modCache_channels (s : State) (f : Cache → Cache) : (s.modCache f).channels = s.channels := rfl
@[simp] theorem State.modCache_rating (s : State) (f : Cache → Cache) : (s.modCache f).rating = s.rating := rfl
@[simp] theorem State.modCache_store (s : State) (f : Cache → Cache) : (s.modCache f).store = s.store := rfl
@[simp] theorem State.modCache_arbiter (s : State) (f : Cache → Cache) : (s.modCache f).arbiter = s.arbiter := rfl
@[simp] theorem State.modCache_resetCause (s : State) (f : Cache → Cache) : (s.modCache f).resetCause = s.resetCause := rfl
@[simp] theorem State.modCache_setup (s : State) (f : Cache → Cache) : (s.modCache f).setup = s.setup := rfl
@[simp] theorem State.modCache_powered (s : State) (f : Cache → Cache) : (s.modCache f).powered = s.powered := rfl
@[simp] theorem State.modCache_pending (s : State) (f : Cache → Cache) : (s.modCache f).pending = s.pending := rfl

/-! ### What an update writes -/

@[simp] theorem State.modRating_rating (s : State) (f : Rating → Rating) : (s.modRating f).rating = f s.rating := rfl
@[simp] theorem State.modStore_store (s : State) (f : Store → Store) : (s.modStore f).store = f s.store := rfl
@[simp] theorem State.modArbiter_arbiter (s : State) (f : Arbiter → Arbiter) :
    (s.modArbiter f).arbiter = f s.arbiter := rfl
@[simp] theorem State.modCache_cache (s : State) (f : Cache → Cache) : (s.modCache f).cache = f s.cache := rfl
@[simp] theorem State.modCache_dirtyMarker (s : State) (f : Cache → Cache) :
    (s.modCache f).dirtyMarker = (f s.cache).holds := rfl

/-! ## Lines read back -/

@[simp] theorem State.line_setLine_self (s : State) (l : LineNo) (x : Line) : (s.setLine l x).line l = x := by
  simp [State.line, State.setLine, Vector.get_eq_getElem]

theorem State.line_setLine (s : State) (l k : LineNo) (x : Line) :
    (s.setLine l x).line k = if l = k then x else s.line k := by
  simp only [State.line, State.setLine, Vector.get_eq_getElem, Vector.getElem_set, Fin.ext_iff]

@[simp] theorem State.line_setLine_ne (s : State) {l k : LineNo} (x : Line) (h : k ≠ l) :
    (s.setLine l x).line k = s.line k := by
  rw [State.line_setLine, if_neg (Ne.symm h)]

@[simp] theorem State.setLine_setLine (s : State) (l : LineNo) (x y : Line) :
    (s.setLine l x).setLine l y = s.setLine l y := by
  simp [State.setLine]

@[simp] theorem State.setLine_line (s : State) (l : LineNo) : s.setLine l (s.line l) = s := by
  simp [State.setLine, State.line, Vector.get_eq_getElem]

theorem State.line_modUnit (s : State) (l k : LineNo) (f : LineUnit → LineUnit) :
    (s.modUnit l f).line k = if l = k then { s.line k with unit := f (s.unit k) } else s.line k := by
  rw [State.modUnit, State.line_setLine]
  split
  next h => rw [h]
  next => rfl

theorem State.line_modDialog (s : State) (l k : LineNo) (f : Dialog → Dialog) :
    (s.modDialog l f).line k = if l = k then { s.line k with dialog := f (s.dialog k) } else s.line k := by
  rw [State.modDialog, State.line_setLine]
  split
  next h => rw [h]
  next => rfl

theorem State.line_modCtx (s : State) (l k : LineNo) (f : LineContext → LineContext) :
    (s.modCtx l f).line k = if l = k then { s.line k with ctx := f (s.ctx k) } else s.line k := by
  rw [State.modCtx, State.line_setLine]
  split
  next h => rw [h]
  next => rfl

@[simp] theorem State.unit_modUnit (s : State) (l : LineNo) (f : LineUnit → LineUnit) :
    (s.modUnit l f).unit l = f (s.unit l) := by simp [State.unit, State.modUnit]
@[simp] theorem State.dialog_modUnit (s : State) (l k : LineNo) (f : LineUnit → LineUnit) :
    (s.modUnit l f).dialog k = s.dialog k := by
  simp only [State.dialog, State.line_modUnit]; split <;> rfl
@[simp] theorem State.ctx_modUnit (s : State) (l k : LineNo) (f : LineUnit → LineUnit) :
    (s.modUnit l f).ctx k = s.ctx k := by
  simp only [State.ctx, State.line_modUnit]; split <;> rfl
@[simp] theorem State.unit_modUnit_ne (s : State) {l k : LineNo} (f : LineUnit → LineUnit) (h : k ≠ l) :
    (s.modUnit l f).unit k = s.unit k := by simp [State.unit, State.modUnit, h]

@[simp] theorem State.dialog_modDialog (s : State) (l : LineNo) (f : Dialog → Dialog) :
    (s.modDialog l f).dialog l = f (s.dialog l) := by simp [State.dialog, State.modDialog]
@[simp] theorem State.unit_modDialog (s : State) (l k : LineNo) (f : Dialog → Dialog) :
    (s.modDialog l f).unit k = s.unit k := by
  simp only [State.unit, State.line_modDialog]; split <;> rfl
@[simp] theorem State.ctx_modDialog (s : State) (l k : LineNo) (f : Dialog → Dialog) :
    (s.modDialog l f).ctx k = s.ctx k := by
  simp only [State.ctx, State.line_modDialog]; split <;> rfl
@[simp] theorem State.dialog_modDialog_ne (s : State) {l k : LineNo} (f : Dialog → Dialog) (h : k ≠ l) :
    (s.modDialog l f).dialog k = s.dialog k := by simp [State.dialog, State.modDialog, h]

@[simp] theorem State.ctx_modCtx (s : State) (l : LineNo) (f : LineContext → LineContext) :
    (s.modCtx l f).ctx l = f (s.ctx l) := by simp [State.ctx, State.modCtx]
@[simp] theorem State.unit_modCtx (s : State) (l k : LineNo) (f : LineContext → LineContext) :
    (s.modCtx l f).unit k = s.unit k := by
  simp only [State.unit, State.line_modCtx]; split <;> rfl
@[simp] theorem State.dialog_modCtx (s : State) (l k : LineNo) (f : LineContext → LineContext) :
    (s.modCtx l f).dialog k = s.dialog k := by
  simp only [State.dialog, State.line_modCtx]; split <;> rfl
@[simp] theorem State.ctx_modCtx_ne (s : State) {l k : LineNo} (f : LineContext → LineContext) (h : k ≠ l) :
    (s.modCtx l f).ctx k = s.ctx k := by simp [State.ctx, State.modCtx, h]

@[simp] theorem State.modUnit_modUnit (s : State) (l : LineNo) (f g : LineUnit → LineUnit) :
    (s.modUnit l f).modUnit l g = s.modUnit l fun u => g (f u) := by
  simp [State.modUnit, State.unit]
@[simp] theorem State.modDialog_modDialog (s : State) (l : LineNo) (f g : Dialog → Dialog) :
    (s.modDialog l f).modDialog l g = s.modDialog l fun d => g (f d) := by
  simp [State.modDialog, State.dialog]
@[simp] theorem State.modCtx_modCtx (s : State) (l : LineNo) (f g : LineContext → LineContext) :
    (s.modCtx l f).modCtx l g = s.modCtx l fun x => g (f x) := by
  simp [State.modCtx, State.ctx]

/-- Two updates of different parts of one line commute: the dialog before the unit. -/
theorem State.modUnit_modDialog (s : State) (l : LineNo) (f : LineUnit → LineUnit) (g : Dialog → Dialog) :
    (s.modUnit l f).modDialog l g = (s.modDialog l g).modUnit l f := by
  simp [State.modUnit, State.modDialog, State.unit, State.dialog]
theorem State.modUnit_modCtx (s : State) (l : LineNo) (f : LineUnit → LineUnit) (g : LineContext → LineContext) :
    (s.modUnit l f).modCtx l g = (s.modCtx l g).modUnit l f := by
  simp [State.modUnit, State.modCtx, State.unit, State.ctx]
theorem State.modDialog_modCtx (s : State) (l : LineNo) (f : Dialog → Dialog) (g : LineContext → LineContext) :
    (s.modDialog l f).modCtx l g = (s.modCtx l g).modDialog l f := by
  simp [State.modDialog, State.modCtx, State.dialog, State.ctx]

/-! ## Channels read back -/

@[simp] theorem State.chan_setChan_self (s : State) (c : ChanNo) (x : Channel) : (s.setChan c x).chan c = x := by
  simp [State.chan, State.setChan, Vector.get_eq_getElem]

theorem State.chan_setChan (s : State) (c k : ChanNo) (x : Channel) :
    (s.setChan c x).chan k = if c = k then x else s.chan k := by
  simp only [State.chan, State.setChan, Vector.get_eq_getElem, Vector.getElem_set, Fin.ext_iff]

@[simp] theorem State.chan_setChan_ne (s : State) {c k : ChanNo} (x : Channel) (h : k ≠ c) :
    (s.setChan c x).chan k = s.chan k := by
  rw [State.chan_setChan, if_neg (Ne.symm h)]

@[simp] theorem State.setChan_setChan (s : State) (c : ChanNo) (x y : Channel) :
    (s.setChan c x).setChan c y = s.setChan c y := by
  simp [State.setChan]

@[simp] theorem State.setChan_chan (s : State) (c : ChanNo) : s.setChan c (s.chan c) = s := by
  simp [State.setChan, State.chan, Vector.get_eq_getElem]

@[simp] theorem State.chan_modChan_self (s : State) (c : ChanNo) (f : Channel → Channel) :
    (s.modChan c f).chan c = f (s.chan c) := by simp [State.modChan]

theorem State.chan_modChan (s : State) (c k : ChanNo) (f : Channel → Channel) :
    (s.modChan c f).chan k = if c = k then f (s.chan k) else s.chan k := by
  rw [State.modChan, State.chan_setChan]
  split
  next h => rw [h]
  next => rfl

@[simp] theorem State.chan_modChan_ne (s : State) {c k : ChanNo} (f : Channel → Channel) (h : k ≠ c) :
    (s.modChan c f).chan k = s.chan k := by simp [State.modChan, h]

@[simp] theorem State.modChan_modChan (s : State) (c : ChanNo) (f g : Channel → Channel) :
    (s.modChan c f).modChan c g = s.modChan c fun x => g (f x) := by
  simp [State.modChan]

/-! ## What reads of one kind of state do not see -/

@[simp] theorem State.line_modChan (s : State) (c : ChanNo) (f : Channel → Channel) (l : LineNo) :
    (s.modChan c f).line l = s.line l := rfl
@[simp] theorem State.unit_modChan (s : State) (c : ChanNo) (f : Channel → Channel) (l : LineNo) :
    (s.modChan c f).unit l = s.unit l := rfl
@[simp] theorem State.dialog_modChan (s : State) (c : ChanNo) (f : Channel → Channel) (l : LineNo) :
    (s.modChan c f).dialog l = s.dialog l := rfl
@[simp] theorem State.ctx_modChan (s : State) (c : ChanNo) (f : Channel → Channel) (l : LineNo) :
    (s.modChan c f).ctx l = s.ctx l := rfl
@[simp] theorem State.chan_setLine (s : State) (l : LineNo) (x : Line) (c : ChanNo) :
    (s.setLine l x).chan c = s.chan c := rfl
@[simp] theorem State.chan_modUnit (s : State) (l : LineNo) (f : LineUnit → LineUnit) (c : ChanNo) :
    (s.modUnit l f).chan c = s.chan c := rfl
@[simp] theorem State.chan_modDialog (s : State) (l : LineNo) (f : Dialog → Dialog) (c : ChanNo) :
    (s.modDialog l f).chan c = s.chan c := rfl
@[simp] theorem State.chan_modCtx (s : State) (l : LineNo) (f : LineContext → LineContext) (c : ChanNo) :
    (s.modCtx l f).chan c = s.chan c := rfl
@[simp] theorem State.chan_place (s : State) (l : LineNo) (cs : List Code) (c : ChanNo) :
    (s.place l cs).chan c = s.chan c := rfl

end Sys2Proof.Machine
end

