-- ==== Sys2Proof/Laws/Clears.lean ====
section
/-! SUPPORT. Updates that change nothing, updates that agree, and the clear of a line that has nothing to end but its
line unit. -/

namespace Sys2Proof.Machine

/-! ## Updates that agree on what they write -/

theorem State.modUnit_congr {s : State} {l : LineNo} {f g : LineUnit → LineUnit} (h : f (s.unit l) = g (s.unit l)) :
    s.modUnit l f = s.modUnit l g := by simp [State.modUnit, h]

theorem State.modUnit_self {s : State} {l : LineNo} {f : LineUnit → LineUnit} (h : f (s.unit l) = s.unit l) :
    s.modUnit l f = s := by
  rw [State.modUnit, h]
  exact s.setLine_line l

theorem State.modDialog_self {s : State} {l : LineNo} {f : Dialog → Dialog} (h : f (s.dialog l) = s.dialog l) :
    s.modDialog l f = s := by
  rw [State.modDialog, h]
  exact s.setLine_line l

theorem State.modCtx_self {s : State} {l : LineNo} {f : LineContext → LineContext} (h : f (s.ctx l) = s.ctx l) :
    s.modCtx l f = s := by
  rw [State.modCtx, h]
  exact s.setLine_line l

theorem State.modChan_congr {s : State} {c : ChanNo} {f g : Channel → Channel} (h : f (s.chan c) = g (s.chan c)) :
    s.modChan c f = s.modChan c g := by simp [State.modChan, h]

theorem State.modChan_self {s : State} {c : ChanNo} {f : Channel → Channel} (h : f (s.chan c) = s.chan c) :
    s.modChan c f = s := by
  rw [State.modChan, h]
  exact s.setChan_chan c

/-- A line unit and a channel are updated in either order. -/
theorem State.modUnit_modChan (s : State) (l : LineNo) (f : LineUnit → LineUnit) (c : ChanNo) (g : Channel → Channel) :
    (s.modUnit l f).modChan c g = (s.modChan c g).modUnit l f := rfl
theorem State.modDialog_modChan (s : State) (l : LineNo) (f : Dialog → Dialog) (c : ChanNo) (g : Channel → Channel) :
    (s.modDialog l f).modChan c g = (s.modChan c g).modDialog l f := rfl
theorem State.modCtx_modChan (s : State) (l : LineNo) (f : LineContext → LineContext) (c : ChanNo)
    (g : Channel → Channel) : (s.modCtx l f).modChan c g = (s.modChan c g).modCtx l f := rfl

/-! ## A line that does not wait -/

theorem State.leaveQueues_self {s : State} {l : LineNo} (h : ∀ c, ∀ w ∈ (s.chan c).queue, w.line ≠ l) :
    s.leaveQueues l = s := by
  have k : ∀ c, s.modChan c (fun ch => { ch with queue := ch.queue.filter fun w => w.line != l }) = s := by
    intro c
    refine State.modChan_self ?_
    have e : (s.chan c).queue.filter (fun w => w.line != l) = (s.chan c).queue := by
      rw [List.filter_eq_self]
      intro w hw
      simpa using h c w hw
    rw [e]
  simp only [State.leaveQueues, allChans, List.foldl_cons, List.foldl_nil, k]

theorem State.portsFor_nil {s : State} {c : ChanNo} {st : PortState} {l : LineNo}
    (h : ∀ p x, s.port? c p = some x → x.state = st → x.line ≠ some l) : s.portsFor c st l = [] := by
  rw [State.portsFor, List.filter_eq_nil_iff]
  intro p _
  split
  · next x hx => simpa using h p x hx
  · simp

theorem State.closeOpenings_self {s : State} {l : LineNo} {cause : Cause}
    (h : ∀ c p x, s.port? c p = some x → x.state = .opening → x.line ≠ some l) : s.closeOpenings l cause = s := by
  have k : ∀ c, s.portsFor c .opening l = [] := fun c => State.portsFor_nil (h c)
  simp [State.closeOpenings, allChans, k]

/-! ## The clear of a line without sessions -/

theorem State.NotWaiting.of_eq {s t : State} {l : LineNo} (h : s.NotWaiting l) (k : t.channels = s.channels) :
    t.NotWaiting l := by
  have e : ∀ c, t.chan c = s.chan c := fun c => by rw [State.chan, State.chan, k]
  constructor
  · intro c
    rw [e]
    exact h.queues c
  · intro c p x
    rw [State.port?, e]
    exact h.openings c p x

theorem State.chan_unqueued (s : State) (l : LineNo) (c : ChanNo) :
    (s.unqueued l).chan c = { s.chan c with queue := (s.chan c).queue.filter fun w => w.line != l } := by
  simp [State.chan, State.unqueued, Vector.get_eq_getElem]

/-- Leaving the wait queues, as one change of the channels (R91). -/
theorem State.leaveQueues_unqueued (s : State) (l : LineNo) : s.leaveQueues l = s.unqueued l := by
  have e : ∀ v : Vector Channel 4, ∀ g : Channel → Channel,
      (((v.set 0 (g (v.get 0))).set 1 (g (v.get 1))).set 2 (g (v.get 2))).set 3 (g (v.get 3)) = v.map g := by
    intro v g
    ext i hi
    have : i = 0 ∨ i = 1 ∨ i = 2 ∨ i = 3 := by omega
    rcases this with rfl | rfl | rfl | rfl <;> simp [Vector.get_eq_getElem]
  unfold State.unqueued
  rw [← e s.channels fun ch => { ch with queue := ch.queue.filter fun w => w.line != l }]
  simp [State.leaveQueues, allChans, State.modChan, State.setChan, State.chan, Vector.get_eq_getElem]

theorem State.unqueued_self {s : State} {l : LineNo} (h : ∀ c, ∀ w ∈ (s.chan c).queue, w.line ≠ l) :
    s.unqueued l = s := by
  rw [← State.leaveQueues_unqueued, State.leaveQueues_self h]

/-- What a clear does at the session switch for a line without sessions and without a port in OPENING (R86). -/
theorem State.switchClear_sessionless {s : State} {l : LineNo} (cause : Cause) (hs : (s.ctx l).stack = [])
    (h : ∀ c p x, s.port? c p = some x → x.state = .opening → x.line ≠ some l) :
    s.switchClear l cause = (s.unqueued l).modCtx l fun _ => {} := by
  unfold State.switchClear
  dsimp only
  generalize ht : s.modCtx l (fun x => LineContext.mk _ _ _ _ _ _ _ _) = t
  have hx : (t.ctx l).stack = [] := by rw [← ht]; simpa using hs
  have ho : ∀ c p x, (t.unqueued l).port? c p = some x → x.state = .opening → x.line ≠ some l := by
    intro c p x
    rw [State.port?, State.chan_unqueued]
    subst ht
    exact h c p x
  rw [State.closeSessions, hx]
  show ((t.leaveQueues l).closeOpenings l cause).modCtx l _ = _
  rw [State.leaveQueues_unqueued, State.closeOpenings_self ho, ← ht]
  have e : ∀ f, (s.modCtx l f).unqueued l = (s.unqueued l).modCtx l f := fun _ => rfl
  rw [e, State.modCtx_modCtx]
  unfold State.modCtx
  have : (s.unqueued l).ctx l = s.ctx l := rfl
  simp only [this, hs]

/-- A clear of a line that is `Sessionless` (R15, R64, R86). -/
theorem State.clearLine_cleared {s : State} {l : LineNo} (cause : Cause) (ha : (s.unit l).state.active = true)
    (h : s.Sessionless l) : s.clearLine l cause = s.cleared l cause := by
  unfold State.clearLine
  rw [if_pos ha]
  dsimp only
  generalize ht : s.modUnit l (fun u => LineUnit.mk _ _ _ _ _ _ _ _ _ _ _ _ _ _ _ _ _ _ _ _) = t
  have hd : t.dialog l = s.dialog l := by rw [← ht]; simp
  have e1 : t.signOnClear l = (t.uncounted l).modDialog l fun d => { d.ended with counted := none } := by
    unfold State.signOnClear
    dsimp only
    rw [if_neg (by rw [hd]; exact fun k => h.check k.1), if_neg (by rw [hd]; exact h.check)]
    unfold State.uncount State.uncounted
    rw [State.dialog_modDialog, hd, show (s.dialog l).ended.counted = (s.dialog l).counted from rfl]
    cases hk : (s.dialog l).counted with
    | none =>
      dsimp only
      unfold State.modDialog
      rw [hd]
      simp only [Dialog.ended, hk]
    | some slot =>
      dsimp only
      have hq : ((t.modDialog l Dialog.ended).modDialog l fun d => { d with counted := none }).presenceOf slot =
          t.presenceOf slot := rfl
      have hg : (t.presenceOf slot).budget ≠ some .grace := by rw [← ht]; exact h.grace slot hk
      unfold State.presenceDown
      dsimp only
      rw [hq, if_neg (fun k => hg k.2), State.modDialog_modDialog]
      rfl
  have e2 : (t.signOnClear l).channels = s.channels := by
    rw [e1]
    unfold State.uncounted
    split <;> (rw [← ht]; rfl)
  have e3 : (t.signOnClear l).line l = { t.line l with dialog := { (s.dialog l).ended with counted := none } } := by
    rw [e1]
    unfold State.uncounted
    split
    · rw [State.line_modDialog, if_pos rfl, ← hd]
      rfl
    · rw [State.line_modDialog, if_pos rfl, ← hd]
  have hx : ((t.signOnClear l).ctx l).stack = [] := by
    rw [State.ctx, e3, ← ht, State.line_modUnit, if_pos rfl]
    exact h.stack
  have ho : ∀ c p x, (t.signOnClear l).port? c p = some x → x.state = .opening → x.line ≠ some l := by
    intro c p x
    rw [State.port?, State.chan, e2]
    exact h.openings c p x
  rw [State.switchClear_sessionless cause hx ho, e1]
  have final : ∀ g : LineUnit → LineUnit, g (t.unit l) = (s.unit l).afterClear cause →
      ((((t.uncounted l).modDialog l fun d => { d.ended with counted := none }).unqueued l).modCtx l fun _ => {}).modUnit l g =
        s.cleared l cause := by
    intro g hg
    have u : ∀ v : State, (v.unqueued l).lines = v.lines := fun _ => rfl
    unfold State.cleared
    have hu : t.uncounted l = (s.uncounted l).setLine l (t.line l) := by
      unfold State.uncounted
      rw [hd]
      split
      · subst ht
        rw [State.modUnit, State.line_setLine_self]
        rfl
      · subst ht
        rw [State.modUnit, State.line_setLine_self]
    rw [hu]
    show ((((((s.uncounted l).unqueued l).setLine l (t.line l)).modDialog l fun d => { d.ended with counted := none }).modCtx l
      fun _ => {}).modUnit l g) = _
    simp only [State.modUnit, State.modCtx, State.modDialog, State.setLine_setLine, State.line_setLine_self, State.unit,
      State.dialog]
    have hg : g (t.line l).unit = _ := hg
    have hd : (t.line l).dialog = (s.line l).dialog := hd
    rw [hg, hd]
    rfl
  have hpm : ((((((t.uncounted l).modDialog l fun d => { d.ended with counted := none }).unqueued l).modCtx l fun _ => {}).modUnit
      l fun u => { u with account := 0 }).unit l).partMsg = (s.unit l).partMsg := by
    rw [State.unit_modUnit, State.unit_modCtx]
    show (((t.uncounted l).modDialog l fun d => { d.ended with counted := none }).unit l).partMsg = _
    rw [State.unit_modDialog]
    have : (t.uncounted l).unit l = t.unit l := by unfold State.uncounted; split <;> rfl
    rw [this, ← ht, State.unit_modUnit]
  rw [hpm]
  by_cases k : (s.unit l).lineHit = true ∨ (s.unit l).partMsg = []
  · rw [if_pos k, State.startGuard, State.modUnit_modUnit]
    refine final _ ?_
    rw [LineUnit.afterClear, if_pos k, ← ht, State.unit_modUnit]
    rfl
  · rw [if_neg k]
    refine final _ ?_
    rw [LineUnit.afterClear, if_neg k, ← ht, State.unit_modUnit]
    rfl

theorem State.Alone.sessionless {s : State} {l : LineNo} (h : s.Alone l) : s.Sessionless l where
  check := by rw [← h.dialog]; nofun
  stack := by rw [h.ctx]
  openings := h.openings
  grace := by rw [h.counted]; nofun

/-- A line that has no session and does not wait, cleared: as changes of the parts of the line. -/
theorem State.cleared_notWaiting {s : State} {l : LineNo} (cause : Cause) (h : s.NotWaiting l) :
    s.cleared l cause =
      (((s.uncounted l).modDialog l fun d => { d.ended with counted := none }).modCtx l fun _ => {}).modUnit l fun u =>
        u.afterClear cause := by
  have e : ∀ v : State, v.lines = s.lines → ((v.modDialog l fun d => { d.ended with counted := none }).modCtx l
      fun _ => {}).modUnit l (fun u => u.afterClear cause) = v.setLine l ((s.line l).afterClear cause) := by
    intro v hv
    have : v.line l = s.line l := by rw [State.line, State.line, hv]
    simp only [State.modUnit, State.modCtx, State.modDialog, State.setLine_setLine, State.line_setLine_self, State.unit,
      State.dialog, this]
    rfl
  have k : (s.uncounted l).lines = s.lines ∧ (s.uncounted l).channels = s.channels := by
    unfold State.uncounted
    split <;> exact ⟨rfl, rfl⟩
  rw [e _ k.1, State.cleared, State.unqueued_self]
  intro c
  rw [State.chan, k.2]
  exact h.queues c

/-- A clear of a line that is alone, with nothing left to send or without carrier: only its line unit changes (R15). -/
theorem State.clearLine_alone {s : State} {l : LineNo} (cause : Cause) (ha : (s.unit l).state.active = true)
    (h : s.Alone l) (hp : (s.unit l).partMsg = [] ∨ (s.unit l).lineHit = true) :
    s.clearLine l cause = s.modUnit l fun u => u.cleared cause := by
  rw [State.clearLine_cleared cause ha h.sessionless, State.cleared_notWaiting cause ⟨h.queues, h.openings⟩]
  have e : s.uncounted l = s := by unfold State.uncounted; rw [h.counted]
  rw [e, State.modDialog_self (by rw [← h.counted, h.dialog]), State.modCtx_self h.ctx.symm]
  refine State.modUnit_congr ?_
  rw [LineUnit.afterClear, if_pos hp.symm]

end Sys2Proof.Machine
end

