-- ==== Sys2Proof/Laws/Notices.lean ====
section
/-! SUPPORT. What queueing a notice, and a change of a line's score, do. -/

namespace Sys2Proof.Machine

@[simp] theorem Channel.noted_state (ch : Channel) (n : Notice) : (ch.noted n).state = ch.state := by
  unfold Channel.noted
  split
  · split <;> simp_all
  · split <;> simp_all
  all_goals simp_all

@[simp] theorem Channel.noted_queue (ch : Channel) (n : Notice) : (ch.noted n).queue = ch.queue := by
  unfold Channel.noted
  split <;> (try split) <;> rfl

@[simp] theorem Channel.noted_ports (ch : Channel) (n : Notice) : (ch.noted n).ports = ch.ports := by
  unfold Channel.noted
  split <;> (try split) <;> rfl

/-- A notice to the UP channels changes the UP channels and nothing else (R174). -/
theorem State.noticeToUp_eq (s : State) (n : Notice) : ∃ x, s.noticeToUp n = { s with channels := x } := by
  have key : ∀ (c : ChanNo) (s : State),
      ∃ x, (if ((s.chan c).state = .up) then s.queueNotice c n else s) = { s with channels := x } := by
    intro c s
    split
    · exact ⟨_, rfl⟩
    · exact ⟨_, rfl⟩
  unfold State.noticeToUp State.noticeWhere allChans
  simp only [List.foldl_cons, List.foldl_nil, decide_eq_true_eq]
  obtain ⟨x, h⟩ := key 0 s
  rw [h]
  obtain ⟨x, h⟩ := key 1 { s with channels := x }
  rw [h]
  obtain ⟨x, h⟩ := key 2 { s with channels := x }
  rw [h]
  obtain ⟨x, h⟩ := key 3 { s with channels := x }
  rw [h]
  exact ⟨_, rfl⟩

/-- Each UP channel notes the notice (R174). -/
theorem State.chan_noticeToUp (s : State) (n : Notice) (k : ChanNo) :
    (s.noticeToUp n).chan k = if (s.chan k).state = .up then (s.chan k).noted n else s.chan k := by
  have key : ∀ (c : ChanNo) (s : State), (if ((s.chan c).state = .up) then s.queueNotice c n else s).chan k =
      if c = k ∧ (s.chan k).state = .up then (s.chan k).noted n else s.chan k := by
    intro c s
    by_cases h : c = k
    · subst h
      split
      · next hu => simp [State.queueNotice, hu]
      · next hu => simp [hu]
    · split
      · simp [State.queueNotice, State.chan_modChan, h]
      · simp [h]
  unfold State.noticeToUp State.noticeWhere allChans
  simp only [List.foldl_cons, List.foldl_nil, decide_eq_true_eq]
  rw [key, key, key, key]
  fin_cases k <;> simp

theorem State.line_noticeToUp (s : State) (n : Notice) (l : LineNo) : (s.noticeToUp n).line l = s.line l := by
  obtain ⟨x, h⟩ := s.noticeToUp_eq n
  rw [h]
  rfl

/-- A notice to the channels of a test changes those channels and nothing else. -/
theorem State.noticeWhere_eq (s : State) (test : State → ChanNo → Bool) (n : Notice) :
    ∃ x, s.noticeWhere test n = { s with channels := x } := by
  have key : ∀ (c : ChanNo) (s : State), ∃ x, (if test s c = true then s.queueNotice c n else s) = { s with channels := x } := by
    intro c s
    split
    · exact ⟨_, rfl⟩
    · exact ⟨_, rfl⟩
  unfold State.noticeWhere allChans
  simp only [List.foldl_cons, List.foldl_nil]
  obtain ⟨x, h⟩ := key 0 s
  rw [h]
  obtain ⟨x, h⟩ := key 1 { s with channels := x }
  rw [h]
  obtain ⟨x, h⟩ := key 2 { s with channels := x }
  rw [h]
  obtain ⟨x, h⟩ := key 3 { s with channels := x }
  rw [h]
  exact ⟨_, rfl⟩

/-- The notices about an account go to the UP channels whose right on it is EDIT or BOTH (R60, R139). -/
theorem State.chan_noticeEdit (s : State) (account : Nat) (n : Notice) (k : ChanNo) :
    (s.noticeWhere (fun t c => (t.chan c).state = .up ∧ (t.right c account).edits) n).chan k =
      if (s.chan k).state = .up ∧ (s.right k account).edits = true then (s.chan k).noted n else s.chan k := by
  have key : ∀ (c : ChanNo) (t : State), t.store = s.store → t.setup = s.setup →
      ((if decide ((t.chan c).state = .up ∧ (t.right c account).edits = true) = true then t.queueNotice c n else t).chan k =
        if c = k ∧ (t.chan k).state = .up ∧ (s.right k account).edits = true then (t.chan k).noted n else t.chan k) ∧
      (if decide ((t.chan c).state = .up ∧ (t.right c account).edits = true) = true then t.queueNotice c n else t).store =
        s.store ∧
      (if decide ((t.chan c).state = .up ∧ (t.right c account).edits = true) = true then t.queueNotice c n else t).setup =
        s.setup := by
    intro c t h1 h2
    have hr : t.right c account = s.right c account := by unfold State.right; rw [h1, h2]
    rw [hr]
    refine ⟨?_, ?_, ?_⟩
    · by_cases h : c = k
      · subst h
        by_cases hu : (t.chan c).state = .up ∧ (s.right c account).edits = true
        · rw [if_pos (decide_eq_true hu), if_pos ⟨rfl, hu⟩]
          simp [State.queueNotice]
        · rw [if_neg (by simpa using hu), if_neg (fun q => hu q.2)]
      · rw [if_neg (fun q : c = k ∧ _ => h q.1)]
        split
        · simp [State.queueNotice, State.chan_modChan, h]
        · rfl
    · split
      · exact h1
      · exact h1
    · split
      · exact h2
      · exact h2
  unfold State.noticeWhere allChans
  simp only [List.foldl_cons, List.foldl_nil]
  obtain ⟨a0, b0, d0⟩ := key 0 s rfl rfl
  obtain ⟨a1, b1, d1⟩ := key 1 _ b0 d0
  obtain ⟨a2, b2, d2⟩ := key 2 _ b1 d1
  obtain ⟨a3, b3, d3⟩ := key 3 _ b2 d2
  rw [a3, a2, a1, a0]
  fin_cases k <;> simp

/-- A change of score and health writes the two in the line unit, changes channels if the health state changes, and
nothing else (R17, R18). -/
theorem State.setHealth_eq (s : State) (l : LineNo) (n : Nat) (h : Health) :
    ∃ x, s.setHealth l n h = { s.modUnit l (fun u => { u with score := n, health := h }) with channels := x } := by
  unfold State.setHealth
  dsimp only
  split
  · exact ⟨_, rfl⟩
  · exact State.noticeToUp_eq _ _

theorem State.line_setHealth (s : State) (l k : LineNo) (n : Nat) (h : Health) :
    (s.setHealth l n h).line k = (s.modUnit l fun u => { u with score := n, health := h }).line k := by
  obtain ⟨x, e⟩ := s.setHealth_eq l n h
  rw [e]
  rfl

@[simp] theorem State.unit_setHealth (s : State) (l : LineNo) (n : Nat) (h : Health) :
    (s.setHealth l n h).unit l = { s.unit l with score := n, health := h } := by
  rw [State.unit, State.line_setHealth]
  exact State.unit_modUnit s l _

theorem State.chan_setHealth (s : State) (l : LineNo) (n : Nat) (h : Health) (c : ChanNo) :
    (s.setHealth l n h).chan c =
      if h = (s.unit l).health ∨ (s.chan c).state ≠ .up then s.chan c
      else (s.chan c).noted (noticeHealth (healthNotice (s.unit l).health h) l h n) := by
  unfold State.setHealth
  dsimp only
  by_cases k : h = (s.unit l).health
  · rw [if_pos k, if_pos (Or.inl k), State.chan_modUnit]
  · rw [if_neg k, State.chan_noticeToUp, State.chan_modUnit]
    by_cases u : (s.chan c).state = .up
    · rw [if_pos u, if_neg (by simp [k, u])]
    · rw [if_neg u, if_pos (Or.inr u)]

theorem State.raiseScore_eq (s : State) (l : LineNo) (n : Nat) :
    s.raiseScore l n = s.setHealth l (min ((s.unit l).score + n) Config.scoreMax)
      (healthAfter (s.unit l).health (min ((s.unit l).score + n) Config.scoreMax)) := rfl

/-- A line that is alone is alone after a change of its score. -/
theorem State.Alone.setHealth {s : State} {l : LineNo} (a : s.Alone l) (n : Nat) (h : Health) :
    (s.setHealth l n h).Alone l := by
  have hd : (s.setHealth l n h).dialog l = s.dialog l := by
    rw [State.dialog, State.line_setHealth]
    exact State.dialog_modUnit s l l _
  have hx : (s.setHealth l n h).ctx l = s.ctx l := by
    rw [State.ctx, State.line_setHealth]
    exact State.ctx_modUnit s l l _
  constructor
  · rw [hd]; exact a.dialog
  · rw [hd]; exact a.counted
  · rw [hx]; exact a.ctx
  · intro c
    rw [State.chan_setHealth]
    split
    · exact a.queues c
    · rw [Channel.noted_queue]; exact a.queues c
  · intro c p x
    rw [State.port?, State.chan_setHealth]
    split
    · exact a.openings c p x
    · rw [Channel.noted_ports]; exact a.openings c p x

end Sys2Proof.Machine
end

