-- ==== Sys2Proof/Laws/Orders.lean ====
section
/-! SUPPORT. How an order comes into execution at a channel whose order queue is empty, and how it is answered (R171,
R172). -/

namespace Sys2Proof.Machine

theorem State.chan_inExecution (s : State) (c : ChanNo) (code : Byte) (f : OrderFrame) :
    (s.inExecution c code f).chan c = { s.chan c with silence := true, orders := [orderOf code f] } := by
  simp [State.inExecution]

/-- With the supply on, what a command does is followed by the characters that the free lines start (R11). -/
theorem State.whenOn_on {s : State} (h : s.powered = true) (t : State) : s.whenOn t = t.started := if_pos h

/-- What arrives at a channel that attends comes into execution (R171). -/
theorem State.Attends.arrive {s : State} {c : ChanNo} (h : s.Attends c) (code : Byte) (f : OrderFrame) :
    s.whenOn (s.arrive c code f) = ((s.inExecution c code f).executeHead c).started := by
  have e : s.heard c = s.modChan c fun ch => { ch with silence := true } := by
    unfold State.heard
    refine State.modChan_congr ?_
    rcases h.live with k | k <;> simp [k]
  rw [State.whenOn_on h.powered]
  refine congrArg State.started ?_
  unfold State.arrive
  simp only [if_true, h.orders, List.length_nil, e]
  rw [if_neg (by decide), State.modChan_modChan]
  simp only [State.inExecution]
  congr 1
  refine State.modChan_congr ?_
  simp [h.orders]

/-- An order in execution that the steps 1 to 4 let through is carried out (R172). -/
theorem State.executeHead_run {s : State} {c : ChanNo} {o : Order} {rest : List Order} (h : (s.chan c).orders = o :: rest)
    (k : s.refusalOf c o = none) : s.executeHead c = s.runOrder c o := by
  simp [State.executeHead, h, k]

theorem State.executeHead_refuse {s : State} {c : ChanNo} {o : Order} {rest : List Order} {r : Outcome}
    (h : (s.chan c).orders = o :: rest) (k : s.refusalOf c o = some r) : s.executeHead c = s.answer c r [] := by
  simp [State.executeHead, h, k]

/-- The answer to the order in execution is its reply, with its sequence number (R171). -/
theorem State.answer_replied {s : State} {c : ChanNo} {code : Byte} {f : OrderFrame}
    (h : (s.chan c).orders = [orderOf code f]) (o : Outcome) (body : List Byte) :
    s.answer c o body = s.replied c f o body := by
  unfold State.answer State.replied
  refine State.modChan_congr ?_
  simp [h, orderOf]

/-- The length of a known order whose body has the length the table gives it fits (R179, R180). -/
theorem orderOf_fits {code : Byte} {f : OrderFrame} {n : Nat} (h : f.fits n) (hb : bodyLength code.toNat = some n)
    (hn : n ≤ 512) : (orderOf code f).lengthFits = true := by
  obtain ⟨h1, h2⟩ := h
  simp [Order.lengthFits, orderOf, h1, h2, hb, Config.bodyCap, hn]

theorem orderOf_body {code : Byte} {f : OrderFrame} {n : Nat} (h : f.fits n) (hn : n ≤ 512) :
    (orderOf code f).body = f.body := by
  simp [orderOf, h.2, Config.bodyCap, hn]

/-- An order of a fixed length that its channel's state, FAULT PENDING and rights let through is carried out. -/
theorem State.Attends.run {s : State} {c : ChanNo} (h : s.Attends c) {code : Byte} {f : OrderFrame}
    (known : knownCode code.toNat = true) (fits : (orderOf code f).lengthFits = true)
    (allowed : (s.chan c).state.allows code.toNat = true)
    (clean : (s.chan c).faultPending = false ∨ passesFault code.toNat = true)
    (right : s.rightFor c (orderOf code f) = true) :
    s.whenOn (s.arrive c code f) = ((s.inExecution c code f).runOrder c (orderOf code f)).started := by
  rw [h.arrive]
  refine congrArg State.started (State.executeHead_run (by rw [State.chan_inExecution]) ?_)
  have hs : ((s.inExecution c code f).chan c).state = (s.chan c).state := by rw [State.chan_inExecution]
  have hf : ((s.inExecution c code f).chan c).faultPending = (s.chan c).faultPending := by rw [State.chan_inExecution]
  have hr : (s.inExecution c code f).rightFor c (orderOf code f) = s.rightFor c (orderOf code f) := rfl
  unfold State.refusalOf
  rw [hs, hf, hr]
  have e : (orderOf code f).code = code := rfl
  rcases clean with k | k <;> simp [e, known, fits, allowed, right, k]

end Sys2Proof.Machine
end

