-- ==== Sys2Proof/Laws/Typing.lean ====
section
/-! SUPPORT. What a line that hears does with a character, and what placing text changes (R8, R11, R85). -/

namespace Sys2Proof.Machine

theorem parityOk_table : ∀ (x : Fin 128) (b : Bool), (parityOk .even (BitVec.ofFin x) b = true ↔ onesWith
    (BitVec.ofFin x) b % 2 = 0) ∧ (parityOk .odd (BitVec.ofFin x) b = true ↔ onesWith (BitVec.ofFin x) b % 2 = 1) := by
  decide +kernel

/-- The parity check of the receiver accepts what R8 says. -/
theorem parityOk_iff (p : Parity) (x : Code) (b : Bool) : parityOk p x b = true ↔ p.accepts x b := by
  cases p
  · exact (parityOk_table x.toFin b).1
  · exact (parityOk_table x.toFin b).2
  · simp [parityOk, Parity.accepts]

/-- The parity bit the part sends is one that it would accept. -/
theorem parityBit_accepted : ∀ (p : Parity) (x : Code), p.accepts x (parityBit p x) := by
  intro p x
  rw [← parityOk_iff]
  cases p <;> simp [parityOk]

theorem State.Hears.listens {s : State} {l : LineNo} (h : s.Hears l) (k : (s.unit l).state = .signOn ∨ (s.unit l).state
    = .command ∨ (s.unit l).state = .waiting ∨
      (s.unit l).state = .connected ∨ (s.unit l).state = .clearing) : (s.unit l).listens = true := by
  unfold LineUnit.listens
  rw [h.carrier, h.guard]
  rcases k with k | k | k | k | k <;> simp [k, h.locked]

/-- A good character at a line that hears goes to the block the line state names. -/
theorem State.Hears.receives {s : State} {l : LineNo} {x : Code} {bit : Bool} (h : s.Hears l)
    (k : (s.unit l).state = .signOn ∨ (s.unit l).state = .command ∨ (s.unit l).state = .waiting ∨
      (s.unit l).state = .connected ∨ (s.unit l).state = .clearing) (p : (s.group l).parity.accepts x bit) :
   exec (.characterReceived l x bit true) s = .next (s.takeChar l x).started := by
  show Host.Outcome.next _ = _
  rw [State.whenOn_on h.powered]
  simp [State.receiveChar, State.Hears.listens h k, (parityOk_iff _ _ _).mpr p]

theorem State.place_nil (s : State) (l : LineNo) : s.place l [] = s := by
  unfold State.place
  exact State.modUnit_self (by simp)

theorem State.place_ne_nil {s : State} {l : LineNo} {cs : List Code} (h : cs ≠ []) : ((s.place l cs).unit l).partMsg ≠
    [] := by
  unfold State.place
  rw [State.unit_modUnit]
  dsimp only
  intro e
  have e := List.append_eq_nil_iff.mp e
  rw [e.1] at e
  simp only [List.length_nil] at e
  cases cs with
  | nil => exact h rfl
  | cons a b => simp at e

theorem State.place_keeps_ne_nil {s : State} {l : LineNo} {cs : List Code} (h : (s.unit l).partMsg ≠ []) :
    ((s.place l cs).unit l).partMsg ≠ [] := by
  unfold State.place
  rw [State.unit_modUnit]
  dsimp only
  intro e
  exact h (List.append_eq_nil_iff.mp e).1

theorem State.modChan_id (s : State) (c : ChanNo) : (s.modChan c fun ch => ch) = s := State.modChan_self rfl

theorem State.modChan_setLine (s : State) (l : LineNo) (x : Line) (c : ChanNo) (g : Channel → Channel) :
   (s.setLine l x).modChan c g = (s.modChan c g).setLine l x := rfl

theorem State.chan_of_channels {a b : State} (h : a.channels = b.channels) (d) : a.chan d = b.chan d := by
  unfold State.chan
  rw [h]

theorem State.line_of_lines {a b : State} (h : a.lines = b.lines) (d) : a.line d = b.line d := by
  unfold State.line
  rw [h]

theorem State.entry_of_cache {a b : State} (h : a.cache = b.cache) (d) : a.entry d = b.entry d := by
  unfold State.entry
  rw [h]

theorem State.lines_modChan (s : State) (c g) : (s.modChan c g).lines = s.lines := rfl

/-- A waiting line that returns to COMMAND with a text. -/
theorem State.returnToCommand_waiting {s : State} {l : LineNo} (h : (s.unit l).state = .waiting) (cs) :
    s.returnToCommand l cs = s.returned l cs := by
  unfold State.returnToCommand State.showText
  rw [h]
  dsimp only
  unfold State.toCommand State.placeLine
  have : ((s.place l (newLine ++ cs)).unit l).state = .waiting := by simp [State.place, h]
  rw [this]
  rfl

theorem State.line_returned (s t : State) (l : LineNo) (cs) (h : t.line l = s.line l) : (t.returned l cs).line l =
    (s.returned l cs).line l := by
  unfold State.returned
  simp only [State.place, State.modUnit, State.modCtx, State.unit, State.ctx, State.line_setLine_self,
      State.setLine_setLine, h]

theorem State.line_returned_ne (s : State) {l k : LineNo} (cs) (h : k ≠ l) : (s.returned l cs).line k = s.line k := by
  unfold State.returned
  simp only [State.place, State.modUnit, State.modCtx, State.line_setLine_ne _ _ h]

theorem State.noticeToUp_setLine (s : State) (l : LineNo) (x : Line) (n : Notice) : (s.setLine l x).noticeToUp n =
    (s.noticeToUp n).setLine l x := by
  unfold State.noticeToUp State.noticeWhere allChans
  simp only [List.foldl_cons, List.foldl_nil]
  have key : ∀ (t : State) (c : ChanNo), (if decide (((t.setLine l x).chan c).state = .up) = true then
      (t.setLine l x).queueNotice c n else t.setLine l x) =
     (if decide ((t.chan c).state = .up) = true then t.queueNotice c n else t).setLine l x := by
    intro t c
    rw [State.chan_setLine]
    split <;> rfl
  rw [key, key, key, key]

/-- A notice to the UP channels and a change of a line come to the same in either order. -/
theorem State.noticeToUp_swap (s : State) (n : Notice) (l : LineNo) : (∀ f, (s.modUnit l f).noticeToUp n =
    (s.noticeToUp n).modUnit l f) ∧ (∀ f, (s.modDialog l f).noticeToUp n = (s.noticeToUp n).modDialog l f) ∧
   (∀ f, (s.modCtx l f).noticeToUp n = (s.noticeToUp n).modCtx l f) := by
  have e := State.line_noticeToUp s n l
  refine ⟨fun f => ?_, fun f => ?_, fun f => ?_⟩
  · unfold State.modUnit State.unit; rw [State.noticeToUp_setLine, e]
  · unfold State.modDialog State.dialog; rw [State.noticeToUp_setLine, e]
  · unfold State.modCtx State.ctx; rw [State.noticeToUp_setLine, e]

theorem Channel.noted_queue_ports (ch : Channel) (n) : (ch.noted n).queue = ch.queue ∧ (ch.noted n).ports = ch.ports :=
    by
  unfold Channel.noted; split <;> (try split) <;> exact ⟨rfl, rfl⟩

theorem State.NotWaiting.of_queues {s t : State} {l : LineNo} (h : s.NotWaiting l) (k : ∀ c, (t.chan c).queue =
    (s.chan c).queue ∧ (t.chan c).ports = (s.chan c).ports) : t.NotWaiting l := by
  constructor
  · intro c; rw [(k c).1]; exact h.queues c
  · intro c p x; rw [State.port?, (k c).2]; exact h.openings c p x

/-- A line leaves every wait queue, and nothing else changes (R93). -/
theorem State.leaveQueues_eq (s : State) (l : LineNo) : ∃ x, s.leaveQueues l = { s with channels := x } ∧ ∀ c,
    (s.leaveQueues l).chan c = { s.chan c with queue := (s.chan c).queue.filter fun k => k.line != l } := by
  refine ⟨_, rfl, ?_⟩
  intro c
  unfold State.leaveQueues allChans
  simp only [List.foldl, State.chan_modChan]
  match c with
  | 0 => simp
  | 1 => simp
  | 2 => simp
  | 3 => simp

end Sys2Proof.Machine
end

