-- ==== Sys2Proof/Laws/Ports.lean ====
section
/-! SUPPORT. A port entry and its flow state: reading after a change, and what freeing a port does (R69, R87, R94, R95). -/

namespace Sys2Proof.Machine

theorem State.modPort_some {s : State} {c : ChanNo} {p : Nat} {x : Port} (h : s.port? c p = some x) (g) :
   s.modPort c p g = s.modChan c fun ch => { ch with ports := ch.ports.set p (g x) } := by
  unfold State.modPort; rw [h]

theorem State.port_lt {s : State} {c : ChanNo} {p : Nat} {x : Port} (h : s.port? c p = some x) : p <
    (s.chan c).ports.length := by
  unfold State.port? at h
  by_contra k
  rw [List.getElem?_eq_none (by omega)] at h; cases h

theorem State.port_modPort {s : State} {c : ChanNo} {p : Nat} {x : Port} (h : s.port? c p = some x) (g) :
   (s.modPort c p g).port? c p = some (g x) := by
  rw [State.modPort_some h]
  unfold State.port?
  rw [State.chan_modChan_self]
  simp [State.port_lt h]

theorem State.port_modPort_ne {s : State} {c : ChanNo} {p q : Nat} (h : q ≠ p) (g) :
   (s.modPort c p g).port? c q = s.port? c q := by
  cases e : s.port? c p with
  | none => unfold State.modPort; rw [e]
  | some x =>
    rw [State.modPort_some e]
    unfold State.port?
    rw [State.chan_modChan_self]
    simp [Ne.symm h]

theorem State.modPort_modPort {s : State} {c : ChanNo} {p : Nat} {x : Port} (h : s.port? c p = some x) (g k) :
   (s.modPort c p g).modPort c p k = s.modPort c p fun y => k (g y) := by
  rw [State.modPort_some (State.port_modPort h g), State.modPort_some h, State.modPort_some h, State.modChan_modChan]
  congr 1; funext ch; simp

theorem State.state_modPort (s : State) (c : ChanNo) (p : Nat) (g) (d : ChanNo) : ((s.modPort c p g).chan d).state =
    (s.chan d).state := by
  unfold State.modPort; split
  · rw [State.chan_modChan]; split <;> rfl
  · rfl

theorem State.queue_modPort (s : State) (c : ChanNo) (p : Nat) (g) (d : ChanNo) : ((s.modPort c p g).chan d).queue =
    (s.chan d).queue := by
  unfold State.modPort; split
  · rw [State.chan_modChan]; split <;> rfl
  · rfl

theorem State.orders_modPort (s : State) (c : ChanNo) (p : Nat) (g) (d : ChanNo) : ((s.modPort c p g).chan d).orders =
    (s.chan d).orders := by
  unfold State.modPort; split
  · rw [State.chan_modChan]; split <;> rfl
  · rfl

theorem State.line_modPort (s : State) (c : ChanNo) (p : Nat) (g) (l : LineNo) : (s.modPort c p g).line l = s.line l :=
    by
  unfold State.modPort; split <;> rfl

theorem State.store_of_modPort (s : State) (c : ChanNo) (p : Nat) (g) : (s.modPort c p g).store = s.store := by
  unfold State.modPort; split <;> rfl

theorem State.unit_modPort (s : State) (c : ChanNo) (p : Nat) (g) (l : LineNo) : (s.modPort c p g).unit l = s.unit l :=
    by
  rw [State.unit, State.line_modPort]; rfl

theorem State.port_of_ports {s t : State} {c p} (h : (t.chan c).ports = (s.chan c).ports) : t.port? c p = s.port? c p
    := by
  unfold State.port?; rw [h]

/-- The one port of a line in OPENING. -/
theorem State.portsFor_one {s : State} {l : LineNo} {c : ChanNo} {p : Nat} {y : Port} (hy : s.port? c p = some y)
    (ho : y.state = .opening) (hl : y.line = some l)
  (hu : ∀ d q z, s.port? d q = some z → z.state = .opening → z.line = some l → d = c ∧ q = p) : s.portsFor c .opening l
      = [p] ∧ ∀ d, d ≠ c → s.portsFor d .opening l = [] := by
  constructor
  · unfold State.portsFor
    have hlt := State.port_lt hy
    refine Eq.trans (List.filter_congr (q := fun q => decide (q = p)) ?_) ?_
    · intro q _
      cases hq : s.port? c q with
      | none =>
        have : q ≠ p := by rintro rfl; rw [hy] at hq; cases hq
        simp [this]
      | some z =>
        by_cases e : q = p
        · subst e; rw [hy] at hq; cases hq; simp [ho, hl]
        · simp only [e, decide_false, decide_eq_false_iff_not]
          exact fun k => e (hu c q z hq k.1 k.2).2
    have : ∀ n, p < n → (List.range n).filter (fun q => decide (q = p)) = [p] := by
      intro n hn
      induction n with
      | zero => omega
      | succ n ih =>
        rw [List.range_succ, List.filter_append]
        by_cases e : p = n
        · subst e
          have : (List.range p).filter (fun q => decide (q = p)) = [] := by
            rw [List.filter_eq_nil_iff]; intro a ha; simp at ha ⊢; omega
          rw [this]; simp
        · rw [ih (by omega)]
          have : ¬ n = p := fun k => e k.symm
          simp [this]
    exact this _ hlt
  · intro d hd
    refine State.portsFor_nil fun q z h1 h2 h3 => hd (hu d q z h1 h2 h3).1

theorem State.portsIn_nil {s : State} {c : ChanNo} {st : PortState} (h : ∀ p x, s.port? c p = some x → x.state ≠ st) :
    s.portsIn c st = [] := by
  unfold State.portsIn
  rw [List.filter_eq_nil_iff]
  intro p _
  cases e : s.port? c p with
  | none => simp
  | some x => simpa using h p x e

/-- A port freed on an UP channel with nobody waiting. -/
theorem State.portFree_empty {s : State} {c : ChanNo} {p : Nat} (h : (s.chan c).state = .up)
    (k : (s.chan c).queue = []) : s.portFree c p = s.freed c p := by
  unfold State.portFree
  dsimp only
  rw [State.state_modPort, if_pos h]
  unfold State.grant
  rw [State.queue_modPort, k]
  rfl

/-- A port freed on an UP channel is granted to the head of the wait queue, if that account is ACTIVE (R94, R95). -/
theorem State.portFree_grant {s : State} {c : ChanNo} {p : Nat} {x : Port} {w rest r} (hx : s.port? c p = some x)
    (h : (s.chan c).state = .up) (k : (s.chan c).queue = w :: rest)
   (hr : s.recordAt w.slot = some r) (ha : r.state = .active) : s.portFree c p =
       ((s.modChan c fun ch => { ch with queue := rest }).modPort c p fun y =>
              { state := .opening, circuit := y.circuit, line := some w.line, slot := some w.slot, timer := true }).modChan c
            fun ch => ch.noted
              { kind := .circuitRequest, line := some w.line, body := bytesBE 1 p ++ bytesBE 2 x.circuit ++ bytesBE 1 w.line.val ++ bytesBE 2 (s.accountOf w.slot) ++ bytesBE 1 w.effClass ++ speedByte (s.unit w.line).speed } := by
  unfold State.portFree
  dsimp only
  rw [State.state_modPort, if_pos h]
  unfold State.grant
  rw [State.queue_modPort, k]
  simp only [List.length_cons]
  unfold State.grantLoop
  rw [State.queue_modPort, k]
  dsimp only
  have hp : (s.modPort c p Port.freed).recordAt w.slot = some r :=
      by unfold State.recordAt; rw [State.store_of_modPort]; exact hr
  have a : (s.modPort c p Port.freed).accountActive w.slot = true := by
    unfold State.accountActive
    rw [hp]; simp [ha]
  rw [if_pos a]
  have e : ((s.modPort c p Port.freed).modChan c fun ch => { ch with queue := ch.queue.tail }) =
      (s.modChan c fun ch => { ch with queue := rest }).modPort c p Port.freed := by
    have hx2 : (s.modChan c fun ch => { ch with queue := rest }).port? c p = some x := by
      unfold State.port?; rw [State.chan_modChan_self]; exact hx
    rw [State.modPort_some hx, State.modPort_some hx2, State.modChan_modChan, State.modChan_modChan]
    refine State.modChan_congr ?_
    simp [k]
  rw [e]
  have hx2 : (s.modChan c fun ch => { ch with queue := rest }).port? c p = some x := by
      unfold State.port?; rw [State.chan_modChan_self]; exact hx
  unfold State.openPort State.queueNotice
  rw [State.modPort_modPort hx2]
  congr 1
  funext ch
  have ci : ((s.modChan c fun ch => { ch with queue := rest }).modPort c p Port.freed).circuit c p = x.circuit := by
    unfold State.circuit; rw [State.port_modPort hx2]; rfl
  rw [ci]
  have ac : ((s.modChan c fun ch => { ch with queue := rest }).modPort c p Port.freed).accountOf w.slot = s.accountOf
      w.slot := by
    unfold State.accountOf State.recordAt; rw [State.store_of_modPort]; rfl
  rw [ac, State.unit_modPort]
  rfl

/-- A port freed on an UP channel whose one waiter has an account that is not ACTIVE (R95). -/
theorem State.portFree_notActive {s : State} {c : ChanNo} {p : Nat} {w} (h : (s.chan c).state = .up)
    (k : (s.chan c).queue = [w])
   (ha : ∀ r, s.recordAt w.slot = some r → r.state ≠ .active) (hl : (s.unit w.line).state = .waiting) : s.portFree c p
       = ((s.freed c p).modChan c fun ch => { ch with queue := [] }).returned w.line
            (text "NOT PERMITTED") := by
  unfold State.portFree
  dsimp only
  rw [State.state_modPort, if_pos h]
  unfold State.grant
  rw [State.queue_modPort, k]
  simp only [List.length_cons, List.length_nil]
  unfold State.grantLoop
  rw [State.queue_modPort, k]
  dsimp only
  have a : (s.modPort c p Port.freed).accountActive w.slot = false := by
    unfold State.accountActive
    have : (s.modPort c p Port.freed).recordAt w.slot = s.recordAt w.slot :=
        by unfold State.recordAt; rw [State.store_of_modPort]
    rw [this]
    split
    · next r e => simpa using ha r e
    · rfl
  rw [if_neg (by simp [a])]
  rw [State.returnToCommand_waiting (by rw [State.unit_modChan, State.unit_modPort]; exact hl)]
  have e : ((s.modPort c p Port.freed).modChan c fun ch => { ch with queue := ch.queue.tail }) =
      ((s.freed c p).modChan c fun ch => { ch with queue := [] }) := by
    refine State.modChan_congr ?_
    rw [State.queue_modPort, k]; rfl
  rw [e]
  simp only [State.grantLoop]

/-- A port freed on a QUIESCING channel with another port not FREE (R102). -/
theorem State.portFree_quiescing {s : State} {c : ChanNo} {p : Nat} (h : (s.chan c).state = .quiescing)
    (k : ∃ q y, q ≠ p ∧ s.port? c q = some y ∧ y.state ≠ .free) : s.portFree c p = s.freed c p := by
  unfold State.portFree
  dsimp only
  rw [State.state_modPort, if_neg (by rw [h]; decide)]
  unfold State.quiesceIfDone
  rw [if_neg]
  · rfl
  · rintro ⟨_, h2⟩
    obtain ⟨q, y, hq, hy, hf⟩ := k
    have : (s.modPort c p Port.freed).port? c q = some y := by rw [State.port_modPort_ne hq]; exact hy
    unfold State.port? at this
    have m := List.mem_of_getElem? this
    have := List.all_eq_true.mp h2 y m
    simp at this; exact hf this

theorem State.modFlow_eq {s : State} {c : ChanNo} {p : Nat} {x : Port} {g : Flow} (hx : s.port? c p = some x)
    (hg : x.flow = some g) (f : Flow → Flow) :
   s.modFlow c p f = s.modPort c p fun y => { y with flow := some (f g) } := by
  unfold State.modFlow
  rw [State.modPort_some hx, State.modPort_some hx, hg]; rfl

theorem State.flow_of_port {s : State} {c : ChanNo} {p : Nat} {x : Port} {g : Flow} (hx : s.port? c p = some x)
    (hg : x.flow = some g) : s.flow? c p = some g := by
  unfold State.flow?; rw [hx]; exact hg

theorem State.port_flowed {s : State} {c : ChanNo} {p : Nat} {x : Port} (hx : s.port? c p = some x) (g : Flow) :
   (s.modPort c p fun y => { y with flow := some g }).port? c p = some { x with flow := some g } := State.port_modPort
       hx _

theorem State.flowed_flowed {s : State} {c : ChanNo} {p : Nat} {x : Port} (hx : s.port? c p = some x) (g k : Flow) :
   (s.modPort c p fun y => { y with flow := some g }).modPort c p (fun y => { y with flow := some k }) = s.modPort c p
       fun y => { y with flow := some k } := by
  rw [State.modPort_modPort hx]

/-- Characters that fit a port's output buffer, without reaching the STOP level, join it (R81). -/
theorem State.placeOutput_fits {c : ChanNo} {p : Nat} : ∀ (cs : List Code) (s : State) (x : Port) (g : Flow), s.port? c
    p = some x → x.flow = some g →
    g.output.length + cs.length ≤ 256 → g.stopSent = true ∨ g.output.length + cs.length ≤ 191 →
    cs.foldl (fun v y => v.placeOutput c p y) s = s.modPort c p fun y =>
        { y with flow := some { g with output := g.output ++ cs } } := by
  intro cs
  induction cs with
  | nil =>
    intro s x g hx hg _ _
    rw [State.modPort_some hx]
    rw [State.modChan_self]
    · rfl
    · have h2 := State.port_lt hx
      have : (s.chan c).ports[p] = { x with flow := some { g with output := g.output ++ [] } } := by
        unfold State.port? at hx
        rw [List.getElem?_eq_getElem h2] at hx
        rw [Option.some.inj hx, List.append_nil]
        cases x; cases hg; rfl
      rw [← this, List.set_getElem_self]
  | cons a cs ih =>
    intro s x g hx hg h1 h2
    simp only [List.length_cons] at h1 h2
    rw [List.foldl_cons]
    have e : s.placeOutput c p a = s.modPort c p fun y => { y with flow := some { g with output := g.output ++ [a] } }
        := by
      unfold State.placeOutput
      rw [State.flow_of_port hx hg]; dsimp only
      rw [if_neg (by show ¬ 256 ≤ _; omega), State.modFlow_eq hx hg]
      rw [if_neg]
      rintro ⟨k1, k2⟩
      have k1 : g.output.length + 1 = 192 := k1
      rcases h2 with h2 | h2
      · rw [h2] at k2; cases k2
      · omega
    rw [e, ih _ _ { g with output := g.output ++ [a] } (State.port_flowed hx _) rfl (by simp; omega)
        (by simp; rcases h2 with h | h <;> [left; right] <;> first | exact h | omega)]
    rw [State.flowed_flowed hx]
    simp

end Sys2Proof.Machine
end

