-- ==== Sys2Proof/Laws/Judging.lean ====
section
/-! SUPPORT. How an order is judged, and how its body is read: arrival, length, refusal, right (R171, R172, R179, R180). -/

namespace Sys2Proof.Machine

/-- Every order command is the arrival of its order. -/
theorem orderCommand_exec (c : ChanNo) (f : OrderFrame) (code : Byte) (s : State) : exec (orderCommand c f code) s =
    .next (s.whenOn (s.arrive c code f)) := by
  have h : ∀ n : Fin 256, code = BitVec.ofFin n → exec (orderCommand c f code) s = .next (s.whenOn (s.arrive c code f))
      := by
    intro n hn
    by_cases k : n.val ≤ 30
    · have : n.val = 0 ∨ n.val = 1 ∨ n.val = 2 ∨ n.val = 3 ∨ n.val = 4 ∨ n.val = 5 ∨ n.val = 6 ∨ n.val = 7 ∨ n.val = 8
          ∨ n.val = 9 ∨ n.val = 10 ∨ n.val = 11 ∨ n.val = 12 ∨ n.val = 13 ∨ n.val = 14 ∨ n.val = 15 ∨ n.val = 16 ∨
          n.val = 17 ∨ n.val = 18 ∨ n.val = 19 ∨ n.val = 20 ∨ n.val = 21 ∨ n.val = 22 ∨ n.val = 23 ∨ n.val = 24 ∨ n.val
          = 25 ∨ n.val = 26 ∨ n.val = 27 ∨ n.val = 28 ∨ n.val = 29 ∨ n.val = 30 := by omega
      have e : ∀ m, n.val = m → (hm : m < 256) → code = BitVec.ofFin ⟨m, hm⟩ := by
        intro m h1 h2; rw [hn]; congr 1; exact Fin.ext h1
      rcases this with h|h|h|h|h|h|h|h|h|h|h|h|h|h|h|h|h|h|h|h|h|h|h|h|h|h|h|h|h|h|h
          <;> (have q := e _ h (by decide); subst q; rfl)
    · have : orderCommand c f code = .badOrder c code f := by
        have hv : code.toNat = n.val := by rw [hn]; rfl
        unfold orderCommand
        rw [hv]
        split <;> first | rfl | (next q => exact absurd q (by omega))
      rw [this]; rfl
  exact h code.toFin rfl

theorem State.heard_eq (s : State) (c : ChanNo) : s.heard c = s.afterFrame c := by
  unfold State.heard State.afterFrame
  refine State.modChan_congr ?_
  generalize s.chan c = ch
  obtain ⟨st, _⟩ := ch
  cases st <;> simp

/-- An order that finds the order queue empty comes into execution, in any channel state. -/
theorem State.arrive_any {s : State} {c : ChanNo} (hp : s.powered = true) (ho : (s.chan c).orders = []) (code : Byte)
    (f : OrderFrame) :
    s.whenOn (s.arrive c code f) =
        (((s.modChan c fun ch =>
        { ch with silence := ch.silence || decide (ch.state = .up ∨ ch.state = .quiescing), orders := [orderOf code f] })).executeHead c).started := by
  have e : s.heard c = s.modChan c fun ch =>
      { ch with silence := ch.silence || decide (ch.state = .up ∨ ch.state = .quiescing) } := by
    unfold State.heard
    refine State.modChan_congr ?_
    generalize s.chan c = ch
    obtain ⟨st, _⟩ := ch
    cases st <;> simp
  rw [State.whenOn_on hp]
  refine congrArg State.started ?_
  unfold State.arrive
  simp only [if_true, ho, List.length_nil, e]
  rw [if_neg (by decide), State.modChan_modChan]
  refine congrArg (fun t => State.executeHead t c) (State.modChan_congr ?_)
  simp [ho]

/-- An order of a fixed length that nothing refuses is run. -/
theorem State.Attends.run_fixed {s : State} {c : ChanNo} (h : s.Attends c) {code : Byte} {f : OrderFrame} {n : Nat}
    (hf : f.fits n) (hb : bodyLength code.toNat = some n) (hn : n ≤ 512)
   (known : knownCode code.toNat = true) (al : ∀ st, st = .up ∨ st = .quiescing → ChanState.allows st code.toNat = true)
   (clean : (s.chan c).faultPending = false ∨ passesFault code.toNat = true) (right : s.rightFor c (orderOf code f) =
       true) :
     s.whenOn (s.arrive c code f) = ((s.inExecution c code f).runOrder c (orderOf code f)).started :=
  h.run known (orderOf_fits hf hb hn) (al _ h.live) clean right

theorem State.Attends.allows {s : State} {c : ChanNo} (h : s.Attends c) (code : Byte) (hc : 9 ≤ code.toNat ∧ code.toNat
    ≤ 28) : (s.chan c).state.allows code.toNat = true := by
  have : code.toNat = 9 ∨ code.toNat = 10 ∨ code.toNat = 11 ∨ code.toNat = 12 ∨ code.toNat = 13 ∨ code.toNat = 14 ∨
      code.toNat = 15 ∨ code.toNat = 16 ∨ code.toNat = 17 ∨ code.toNat = 18 ∨ code.toNat = 19 ∨ code.toNat = 20 ∨
      code.toNat = 21 ∨ code.toNat = 22 ∨ code.toNat = 23 ∨ code.toNat = 24 ∨ code.toNat = 25 ∨ code.toNat = 26 ∨
      code.toNat = 27 ∨ code.toNat = 28 := by omega
  rcases h.live with k | k
      <;> rw [k] <;> rcases this with e | e | e | e | e | e | e | e | e | e | e | e | e | e | e | e | e | e | e | e <;> rw [e] <;> rfl

theorem ChanState.allows_live {code : Byte} (hc : 9 ≤ code.toNat ∧ code.toNat ≤ 28) : ∀ st, st = ChanState.up ∨ st =
    ChanState.quiescing → st.allows code.toNat = true := by
  intro st k
  have : code.toNat = 9 ∨ code.toNat = 10 ∨ code.toNat = 11 ∨ code.toNat = 12 ∨ code.toNat = 13 ∨ code.toNat = 14 ∨
      code.toNat = 15 ∨ code.toNat = 16 ∨ code.toNat = 17 ∨ code.toNat = 18 ∨ code.toNat = 19 ∨ code.toNat = 20 ∨
      code.toNat = 21 ∨ code.toNat = 22 ∨ code.toNat = 23 ∨ code.toNat = 24 ∨ code.toNat = 25 ∨ code.toNat = 26 ∨
      code.toNat = 27 ∨ code.toNat = 28 := by omega
  rcases k with k | k
      <;> rw [k] <;> rcases this with e | e | e | e | e | e | e | e | e | e | e | e | e | e | e | e | e | e | e | e <;> rw [e] <;> rfl

theorem State.rightFor_operator {s : State} {c : ChanNo} {code : Byte} {f : OrderFrame} (h : s.operator c = true)
    (hc : 16 < code.toNat) : s.rightFor c (orderOf code f) = true := by
  unfold State.rightFor
  dsimp only
  have : (orderOf code f).code.toNat = code.toNat := rfl
  rw [this]
  split
  all_goals first | omega | simp [h]

/-- An order of a fixed length without its right is answered NO RIGHT. -/
theorem State.Attends.refuse_right {s : State} {c : ChanNo} (h : s.Attends c) (hfp : (s.chan c).faultPending = false)
    {code : Byte} {f : OrderFrame} {n : Nat} (hf : f.fits n) (hb : bodyLength code.toNat = some n) (hn : n ≤ 512)
   (hk : knownCode code.toNat = true) (al : (s.chan c).state.allows code.toNat = true)
       (hr : s.rightFor c (Machine.orderOf code f) = false) :
   s.whenOn (s.arrive c code f) = ((s.inExecution c code f).replied c f .noRight []).started := by
  rw [h.arrive]
  refine congrArg State.started ?_
  rw [State.executeHead_refuse (r := .noRight) (by rw [State.chan_inExecution])]
  · exact State.answer_replied (code := code) (by rw [State.chan_inExecution]) _ _
  · have hs : ((s.inExecution c code f).chan c).state = (s.chan c).state := by rw [State.chan_inExecution]
    have hf2 : ((s.inExecution c code f).chan c).faultPending = (s.chan c).faultPending :=
        by rw [State.chan_inExecution]
    have hr2 : (s.inExecution c code f).rightFor c (Machine.orderOf code f) = s.rightFor c (Machine.orderOf code f) :=
        rfl
    unfold State.refusalOf
    rw [hs, hf2, hr2, hr, hfp]
    have e : (Machine.orderOf code f).code = code := rfl
    rw [e, hk, al, orderOf_fits hf hb hn]; rfl

theorem lengthFits_open {code : Byte} {f : OrderFrame} {n : Nat} (hf : f.fits n) (hn : n ≤ 512)
    (hb : bodyLength code.toNat = none) (h1 : code.toNat ≠ 1) : (orderOf code f).lengthFits = true := by
  have hl : (orderOf code f).frameLen = 6 + n := by show 6 + f.body.length = _; rw [hf.2]
  have hbl : (orderOf code f).bodyLen.toNat = n := hf.1
  have hc : (orderOf code f).code.toNat = code.toNat := rfl
  unfold Order.lengthFits
  rw [hl, hbl, hc, hb]
  simp [Config.bodyCap, hn, h1]

/-- The length rule, code by code (R179, R180). -/
theorem lengthFits_iff (code : Byte) (f : OrderFrame) (h1 : 1 ≤ code.toNat) (h2 : code.toNat ≤ 30) :
    (Machine.orderOf code f).lengthFits = true ↔
   (f.body.length = f.bodyLen.toNat ∧ f.bodyLen.toNat ≤ 512 ∧
      (if code.toNat = 1 then ∃ b, f.body[5]? = some b ∧ f.bodyLen.toNat = 6 + b.toNat
      else if code.toNat = 18 ∨ code.toNat = 19 then True
      else if code.toNat = 5 ∨ code.toNat = 6 ∨ code.toNat = 7 ∨ code.toNat = 8 ∨ code.toNat = 22 ∨ code.toNat = 23 ∨
          code.toNat = 24 ∨ code.toNat = 25 ∨ code.toNat = 27 ∨ code.toNat = 28 then f.bodyLen.toNat = 1
      else if code.toNat = 11 ∨ code.toNat = 12 ∨ code.toNat = 13 ∨ code.toNat = 14 then f.bodyLen.toNat = 2
      else if code.toNat = 30 then f.bodyLen.toNat = 3
      else if code.toNat = 15 ∨ code.toNat = 17 then f.bodyLen.toNat = 4
      else if code.toNat = 9 then f.bodyLen.toNat = 14
      else if code.toNat = 10 then f.bodyLen.toNat = 18
      else f.bodyLen.toNat = 0)) := by
  unfold Order.lengthFits
  have e : (Machine.orderOf code f).code = code := rfl
  have e1 : (Machine.orderOf code f).frameLen = 6 + f.body.length := rfl
  have e2 : (Machine.orderOf code f).bodyLen = f.bodyLen := rfl
  have e3 : (Machine.orderOf code f).body = if f.body.length ≤ 512 then f.body else [] := rfl
  rw [e, e1, e2, e3]
  generalize code.toNat = n at h1 h2
  generalize f.bodyLen.toNat = z
  generalize f.body = b
  rw [Bool.and_eq_true, Bool.and_eq_true, decide_eq_true_eq, decide_eq_true_eq]
  constructor
  · rintro ⟨⟨a1, a2⟩, a3⟩
    have a1 : b.length = z := by omega
    have a2 : z ≤ 512 := a2
    refine ⟨a1, a2, ?_⟩
    rw [if_pos (by omega)] at a3
    have : n = 1 ∨ n = 2 ∨ n = 3 ∨ n = 4 ∨ n = 5 ∨ n = 6 ∨ n = 7 ∨ n = 8 ∨ n = 9 ∨ n = 10 ∨ n = 11 ∨ n = 12 ∨ n = 13 ∨
        n = 14 ∨ n = 15 ∨ n = 16 ∨ n = 17 ∨ n = 18 ∨ n = 19 ∨ n = 20 ∨ n = 21 ∨ n = 22 ∨ n = 23 ∨ n = 24 ∨ n = 25 ∨ n =
        26 ∨ n = 27 ∨ n = 28 ∨ n = 29 ∨ n = 30 := by omega
    rcases this with h|h|h|h|h|h|h|h|h|h|h|h|h|h|h|h|h|h|h|h|h|h|h|h|h|h|h|h|h|h
        <;> subst h <;> simp [bodyLength] at a3 ⊢ <;> try omega
    · obtain ⟨h6, h7⟩ := a3
      refine ⟨b[5], ?_, ?_⟩
      · exact List.getElem?_eq_getElem (by omega)
      · rw [h7]; congr 1
        unfold bodyField beNat
        rw [List.drop_eq_getElem_cons (by omega)]
        show 0 * 256 + b[5].toNat = _
        omega
  · rintro ⟨a1, a2, a3⟩
    refine ⟨⟨by omega, a2⟩, ?_⟩
    rw [if_pos (by omega)]
    have : n = 1 ∨ n = 2 ∨ n = 3 ∨ n = 4 ∨ n = 5 ∨ n = 6 ∨ n = 7 ∨ n = 8 ∨ n = 9 ∨ n = 10 ∨ n = 11 ∨ n = 12 ∨ n = 13 ∨
        n = 14 ∨ n = 15 ∨ n = 16 ∨ n = 17 ∨ n = 18 ∨ n = 19 ∨ n = 20 ∨ n = 21 ∨ n = 22 ∨ n = 23 ∨ n = 24 ∨ n = 25 ∨ n =
        26 ∨ n = 27 ∨ n = 28 ∨ n = 29 ∨ n = 30 := by omega
    rcases this with h|h|h|h|h|h|h|h|h|h|h|h|h|h|h|h|h|h|h|h|h|h|h|h|h|h|h|h|h|h
        <;> subst h <;> simp [bodyLength] at a3 ⊢ <;> try omega
    · obtain ⟨x, hx, hz⟩ := a3
      have hlt : 5 < b.length := by
        by_contra hc
        rw [List.getElem?_eq_none (by omega)] at hx; cases hx
      refine ⟨by omega, ?_⟩
      rw [hz]; congr 1
      unfold bodyField beNat
      rw [List.getElem?_eq_getElem hlt] at hx
      rw [List.drop_eq_getElem_cons hlt, Option.some.inj hx]; simp

theorem bodyField_eq {b : List Byte} {i n v} (h : beNat ((b.drop i).take n) = v) : bodyField b i n = v := h

theorem bodyField_single {b : List Byte} {p : Byte} (h : b = [p]) : bodyField b 0 1 = p.toNat := by
  subst h
  simp [bodyField, beNat]

theorem State.answer_inExecution {s : State} {c : ChanNo} {code : Byte} {f : OrderFrame} (o body) :
  (s.inExecution c code f).answer c o body = (s.inExecution c code f).replied c f o body :=
  State.answer_replied (code := code) (by rw [State.chan_inExecution]) _ _

theorem State.presenceOf_inExecution (s : State) (c code f) (slot) : (s.inExecution c code f).presenceOf slot =
    s.presenceOf slot := rfl

/-- The port orders come into execution at once. -/
theorem State.Attends.run_port {s : State} {c : ChanNo} (h : s.Attends c) {code : Byte} {f : OrderFrame} (hf : f.fits 1)
  (hc : code = 5#8 ∨ code = 6#8 ∨ code = 7#8 ∨ code = 8#8) :
   s.whenOn (s.arrive c code f) = ((s.inExecution c code f).runOrder c (orderOf code f)).started := by
  refine h.run ?_ (orderOf_fits hf ?_ (by decide)) ?_ (Or.inr ?_) ?_
  · rcases hc with r | r | r | r <;> subst r <;> rfl
  · rcases hc with r | r | r | r <;> subst r <;> rfl
  · rcases hc with r | r | r | r <;> subst r <;> rcases h.live with k | k <;> rw [k] <;> rfl
  · rcases hc with r | r | r | r <;> subst r <;> rfl
  · rcases hc with r | r | r | r <;> subst r <;> rfl

/-- A port order acts on its port, or is answered BAD VALUE (R88). -/
theorem State.withPort_inExecution {s : State} {c : ChanNo} {code : Byte} {f : OrderFrame} {p : Byte} (hf : f.fits 1)
    (hb : f.body = [p]) (act) :
   (s.inExecution c code f).withPort c (orderOf code f) act = match s.port? c p.toNat with
     | some x => act p.toNat x
     | none => (s.inExecution c code f).replied c f .badValue [] := by
  unfold State.withPort
  rw [orderOf_body hf (by decide), bodyField_single hb]
  have : (s.inExecution c code f).port? c p.toNat = s.port? c p.toNat := by
    simp [State.port?, State.chan_inExecution]
  dsimp only
  rw [this]
  cases s.port? c p.toNat with
  | some x => rfl
  | none =>
    dsimp only
    rw [State.answer_replied (code := code) (by rw [State.chan_inExecution])]

/-- The body of ATTACH (R167, R180). -/
theorem attach_parse {f : OrderFrame} {a b c d e : Byte} {name : List Byte} (hn : name.length ≤ 255)
    (hf : f.fits (6 + name.length)) (hb : f.body = [a, b, c, d, e, BitVec.ofNat 8 name.length] ++ name) :
   (orderOf 1 f).lengthFits = true ∧ (orderOf 1 f).body = f.body ∧ parseAttach f.body =
     if b.toNat ≤ 3 ∧ ∀ x ∈ name, 32 ≤ x.toNat % 128 ∧ x.toNat % 128 ≤ 126 then some {
       params := { portCount := min a.toNat 48, minClass := b.toNat, base := c.toNat * 256 + d.toNat },
       masks := { unrated := e.getLsbD 0, saturate := e.getLsbD 1, estimated := e.getLsbD 2 },
       name := (name.take 8).map (·.setWidth 7) } else none := by
  have ob : (orderOf 1 f).body = f.body := orderOf_body hf (by omega)
  have n5 : bodyField f.body 5 1 = name.length := by
    rw [hb]; simp [bodyField, beNat]; omega
  refine ⟨?_, ob, ?_⟩
  · unfold Order.lengthFits
    rw [ob, n5]
    have h1 := hf.1
    have h2 := hf.2
    have hl : (Machine.orderOf 1 f).frameLen = 6 + (6 + name.length) := by show 6 + f.body.length = _; rw [h2]
    have hbl : (Machine.orderOf 1 f).bodyLen.toNat = 6 + name.length := h1
    have hbl2 : bodyLength (Machine.orderOf 1 f).code.toNat = none := rfl
    have hbl3 : (Machine.orderOf 1 f).code.toNat = 1 := rfl
    rw [hl, hbl, hbl2, hbl3, h2]
    simp [Config.bodyCap]; omega
  · have f0 : bodyField f.body 0 1 = a.toNat := by rw [hb]; simp [bodyField, beNat]
    have f1 : bodyField f.body 1 1 = b.toNat := by rw [hb]; simp [bodyField, beNat]
    have f2 : bodyField f.body 2 2 = c.toNat * 256 + d.toNat := by rw [hb]; simp [bodyField, beNat]
    have f4 : bodyField f.body 4 1 = e.toNat := by rw [hb]; simp [bodyField, beNat]
    have fd : f.body.drop 6 = name := by rw [hb]; simp
    unfold parseAttach
    dsimp only
    rw [f0, f1, f2, f4, fd]
    have : textOk name = true ↔ ∀ x ∈ name, 32 ≤ x.toNat % 128 ∧ x.toNat % 128 ≤ 126 := by simp [textOk, codesOf]
    have e8 : BitVec.ofNat 8 e.toNat = e := by simp
    rw [e8]
    by_cases k : b.toNat ≤ 3 ∧ textOk name = true
    · rw [if_pos k, if_pos ⟨k.1, this.mp k.2⟩]; rfl
    · rw [if_neg k, if_neg (fun h => k ⟨h.1, this.mpr h.2⟩)]

theorem passCheckOf_ok {n} (h : n ≤ 16777215) : passCheckOf n = some n := if_pos h

theorem passCheckOf_no {n} (h : ¬ n ≤ 16777215) : passCheckOf n = none := if_neg h

theorem homeHostOf_ok {h : Byte} (k : h.toNat ≤ 3 ∨ h = 255) : homeHostOf h.toNat = some (if small : h.toNat < 4 then
    some ⟨h.toNat, small⟩ else none) := by
  unfold homeHostOf chanOf
  rcases k with k | k
  · rw [if_neg (by omega)]; rw [dif_pos (show h.toNat < 4 by omega)]; simp
  · subst k; rfl

theorem homeHostOf_no {h : Byte} (k : ¬ (h.toNat ≤ 3 ∨ h = 255)) : homeHostOf h.toNat = none := by
  have c2' : h.toNat ≠ 255 := by intro q; apply k; right; apply BitVec.eq_of_toNat_eq; rw [q]; rfl
  unfold homeHostOf chanOf
  rw [if_neg c2', dif_neg (by omega)]; rfl

theorem hostSetOf_ok {h : Byte} (k : h.toNat ≤ 15) : hostSetOf h.toNat = some (h.setWidth 4) := by
  unfold hostSetOf; rw [if_pos (by omega)]; congr 1

theorem hostSetOf_no {h : Byte} (k : ¬ h.toNat ≤ 15) : hostSetOf h.toNat = none := by
  unfold hostSetOf; rw [if_neg (by omega)]

theorem named_of_value {α} {b : Bool} {v : Option α} {x : α} (h : b = true → v = some x) : named b v = some
    (if b = true then some x else none) := by
  cases b
  · rfl
  · unfold named; rw [h rfl]; rfl

theorem named_of_none {α} {b : Bool} {v : Option α} (h : b = true) (k : v = none) : named b v = none := by
  subst h k
  rfl

/-- The fields of an EDIT body in which everything named has a value it may take. -/
def editFieldsOf (number rev : Nat) (set st : Byte) (pass : Nat) (k h hs : Byte) (units : Nat) (lim : Byte) :
    EditFields :=
  { number    := number
    revision  := rev
    state     := if set.getLsbD 0 = true then some (if st = 0 then .active else .held) else none
    passCheck := if set.getLsbD 1 = true then some pass else none
    cls       := if set.getLsbD 2 then some (min k.toNat 3) else none
    home      := if set.getLsbD 3 = true then some (if small : h.toNat < 4 then some ⟨h.toNat, small⟩ else none) else
        none
    hostSet   := if set.getLsbD 4 = true then some (hs.setWidth 4) else none
    budget    := if set.getLsbD 5 then some (if units = 4294967295 then none else some (min units 16777215)) else none
    limit     := if set.getLsbD 6 then some (max 1 (min lim.toNat 4)) else none }

/-- The body of EDIT (R154, R180). -/
theorem edit_parse {f : OrderFrame} {n1 n0 v1 v0 set st p3 p2 p1 p0 k h hs b3 b2 b1 b0 lim : Byte}
    (hb : f.body = [n1, n0, v1, v0, set, st, p3, p2, p1, p0, k, h, hs, b3, b2, b1, b0, lim]) (number pass units : Nat)
    (hnum : number = n1.toNat * 256 + n0.toNat) (hpass : pass = p3.toNat * 16777216 + p2.toNat * 65536 + p1.toNat * 256
    + p0.toNat) (hunits : units = b3.toNat * 16777216 + b2.toNat * 65536 + b1.toNat * 256 + b0.toNat) :
   bodyField f.body 0 2 = number ∧ parseEdit f.body = if (number ≠ 0 ∧ (set.getLsbD 0 = true → st = 0 ∨ st = 2) ∧
       (set.getLsbD 1 = true → pass ≤ 16777215) ∧ (set.getLsbD 3 = true → h.toNat ≤ 3 ∨ h = 255) ∧
      (set.getLsbD 4 = true → hs.toNat ≤ 15)) then some (editFieldsOf number (v1.toNat * 256 + v0.toNat) set st pass k
          h hs units lim) else none := by
  have g0 : bodyField f.body 0 2 = number := by rw [hb]; simp [bodyField, beNat]; omega
  have g2 : bodyField f.body 2 2 = v1.toNat * 256 + v0.toNat := by rw [hb]; simp [bodyField, beNat]
  have g4 : bodyField f.body 4 1 = set.toNat := by rw [hb]; simp [bodyField, beNat]
  have g5 : bodyField f.body 5 1 = st.toNat := by rw [hb]; simp [bodyField, beNat]
  have g6 : bodyField f.body 6 4 = pass := by rw [hb]; simp [bodyField, beNat]; omega
  have g10 : bodyField f.body 10 1 = k.toNat := by rw [hb]; simp [bodyField, beNat]
  have g11 : bodyField f.body 11 1 = h.toNat := by rw [hb]; simp [bodyField, beNat]
  have g12 : bodyField f.body 12 1 = hs.toNat := by rw [hb]; simp [bodyField, beNat]
  have g13 : bodyField f.body 13 4 = units := by rw [hb]; simp [bodyField, beNat]; omega
  have g17 : bodyField f.body 17 1 = lim.toNat := by rw [hb]; simp [bodyField, beNat]
  have sto : ∀ (q : st = 0 ∨ st = 2), editStateOf st.toNat = some (if st = 0 then .active else .held) :=
      by rintro (rfl | rfl) <;> rfl
  have stn : ¬ (st = 0 ∨ st = 2) → editStateOf st.toNat = none := by
    intro q
    have q0 : st.toNat ≠ 0 := fun z => q (Or.inl (BitVec.eq_of_toNat_eq (by rw [z]; rfl)))
    have q2 : st.toNat ≠ 2 := fun z => q (Or.inr (BitVec.eq_of_toNat_eq (by rw [z]; rfl)))
    unfold editStateOf; rw [if_neg q0, if_neg q2]
  refine ⟨g0, ?_⟩
  unfold parseEdit
  dsimp only
  rw [g0, g2, g4, g5, g6, g10, g11, g12, g13, g17]
  have e8 : BitVec.ofNat 8 set.toNat = set := by simp
  rw [e8]
  by_cases z0 : number = 0
  · rw [if_pos z0, if_neg (fun v => v.1 z0)]
  rw [if_neg z0]
  by_cases c0 : set.getLsbD 0 = true → st = 0 ∨ st = 2
  · rw [named_of_value (fun q => sto (c0 q))]
    by_cases c1 : set.getLsbD 1 = true → pass ≤ 16777215
    · rw [named_of_value (fun q => passCheckOf_ok (c1 q))]
      by_cases c2 : set.getLsbD 3 = true → h.toNat ≤ 3 ∨ h = 255
      · rw [named_of_value (fun q => homeHostOf_ok (c2 q))]
        by_cases c3 : set.getLsbD 4 = true → hs.toNat ≤ 15
        · rw [named_of_value (fun q => hostSetOf_ok (c3 q)), if_pos (show (_ ∧ _ ∧ _ ∧ _ ∧ _) from ⟨z0, c0, c1, c2, c3⟩)]; rfl
        · obtain ⟨q1, q2⟩ := Classical.not_imp.mp c3
          rw [named_of_none q1 (hostSetOf_no q2), if_neg (show ¬ (_ ∧ _ ∧ _ ∧ _ ∧ _) from fun v => c3 v.2.2.2.2)]
      · obtain ⟨q1, q2⟩ := Classical.not_imp.mp c2
        rw [named_of_none q1 (homeHostOf_no q2), if_neg (show ¬ (_ ∧ _ ∧ _ ∧ _ ∧ _) from fun v => c2 v.2.2.2.1)]
    · obtain ⟨q1, q2⟩ := Classical.not_imp.mp c1
      rw [named_of_none q1 (passCheckOf_no q2), if_neg (show ¬ (_ ∧ _ ∧ _ ∧ _ ∧ _) from fun v => c1 v.2.2.1)]
  · obtain ⟨q1, q2⟩ := Classical.not_imp.mp c0
    rw [named_of_none q1 (stn q2), if_neg (show ¬ (_ ∧ _ ∧ _ ∧ _ ∧ _) from fun v => c0 v.2.1)]

theorem count_false_sum (l : List Bool) : l.count false = (l.map fun b => if b then 0 else 1).sum := by
  induction l with
  | nil => rfl
  | cons a l ih => cases a <;> simp [ih]; omega

/-- The record an EDIT makes, from its body (R32, R154). -/
theorem Record.edited_settled (r : Record) (number rev : Nat) (set st : Byte) (pass : Nat) (k h hs : Byte)
    (units : Nat) (lim : Byte) :
   r.edited (editFieldsOf number rev set st pass k h hs units lim) = r.settled set st pass k h hs units lim := by
  unfold Record.edited
  have hm : r.withSettings (editFieldsOf number rev set st pass k h hs units lim) = { r with
    state     := if set.getLsbD 0 then (if st = 0 then .active else .held) else r.state
    passCheck := if set.getLsbD 1 then pass else r.passCheck
    cls       := if set.getLsbD 2 then min k.toNat 3 else r.cls
    homeHost  := if set.getLsbD 3 then (if h' : h.toNat < 4 then some ⟨h.toNat, h'⟩ else none) else r.homeHost
    hostSet   := if set.getLsbD 4 then hs.setWidth 4 else r.hostSet
    budget    := if set.getLsbD 5 then (if units = 4294967295 then none else some (min units 16777215)) else r.budget
    limit     := if set.getLsbD 6 then max 1 (min lim.toNat 4) else r.limit
    failures  := if set.getLsbD 0 ∧ st = 0 then 0 else r.failures } := by
    unfold Record.withSettings editFieldsOf
    dsimp only
    have d0 : ∀ (b : Bool) {α : Type} (x y : α), (if b = true then some x else none).getD y = if b = true then x else y
        := by intro b α x y; cases b <;> rfl
    simp only [d0]
    have : ((if set.getLsbD 0 = true then some (if st = 0 then AccountState.active else .held) else none) = some
        AccountState.active) ↔ (set.getLsbD 0 = true ∧ st = 0) := by
      by_cases q : set.getLsbD 0 = true
      · rw [if_pos q]
        by_cases z : st = 0
        · simp [z, q]
        · simp [q]
      · simp
    have hfail : (if (if set.getLsbD 0 = true then some (if st = 0 then AccountState.active else .held) else none) =
        some AccountState.active then 0 else r.failures) = (if set.getLsbD 0 = true ∧ st = 0 then 0 else r.failures) :=
        by
      by_cases z : (set.getLsbD 0 = true ∧ st = 0)
      · rw [if_pos z, if_pos (this.mpr z)]
      · rw [if_neg z, if_neg (fun q => z (this.mp q))]
    rw [hfail]
  rw [hm]
  unfold Record.settled bumpRevision
  dsimp only
  rw [count_false_sum]
  unfold settingsChanged
  simp only [List.map, decide_eq_true_eq, List.sum_cons, List.sum_nil]
  congr 3
  simp only [eq_comm (a := r.state), eq_comm (a := r.passCheck), eq_comm (a := r.cls), eq_comm (a := r.homeHost),
      eq_comm (a := r.hostSet), eq_comm (a := r.budget), eq_comm (a := r.limit), eq_comm (a := r.failures)]
  omega

end Sys2Proof.Machine
end

