-- ==== Sys2Proof/Laws/Posting.lean ====
section
/-! SUPPORT. Posting units, the close of a meter, and the write-back queue: what they change and what they leave (R120, R121, R127, R131). -/

namespace Sys2Proof.Machine

theorem vector_get_set {α} {n : Nat} (v : Vector α n) (i j : Fin n) (a : α) : (v.set i.val a i.isLt).get j = if j =
    i then a else v.get j := by
  show (v.set i.val a i.isLt)[j.val] = _
  rw [Vector.getElem_set]
  by_cases h : j = i
  · subst h; simp
  · rw [if_neg (fun k => h (Fin.ext k.symm)), if_neg h]; rfl

theorem State.entry_modEntry (s : State) (e : Fin 32) (f : Entry → Entry) (k : Fin 32) : (s.modEntry e f).entry k = if
    e = k then f (s.entry k) else s.entry k := by
  unfold State.modEntry State.entry
  simp only [State.modCache_cache, Vector.get_eq_getElem, Vector.getElem_set, Fin.ext_iff]
  split
  · next h => have : e = k := Fin.ext h
              subst this; rfl
  · rfl

/-- Only the cache, the arbiter and the marker change, and every entry keeps its pending units. -/
structure Quiet (s t : State) : Prop where
  lines : t.lines = s.lines
  channels : t.channels = s.channels
  rating : t.rating = s.rating
  store : t.store = s.store
  presence : t.presence = s.presence
  checks : t.checks = s.checks
  setup : t.setup = s.setup
  powered : t.powered = s.powered
  waiting : t.cache.waiting = s.cache.waiting
  entries : ∀ e, (t.entry e).pending = (s.entry e).pending

theorem Quiet.refl (s) : Quiet s s := ⟨rfl, rfl, rfl, rfl, rfl, rfl, rfl, rfl, rfl, fun _ => rfl⟩

theorem Quiet.trans {s t u} (a : Quiet s t) (b : Quiet t u) : Quiet s u :=
  ⟨b.1.trans a.1, b.2.trans a.2, b.3.trans a.3, b.4.trans a.4, b.5.trans a.5, b.6.trans a.6, b.7.trans a.7, b.8.trans
      a.8, b.9.trans a.9, fun e => (b.10 e).trans (a.10 e)⟩

theorem quiet_serveVoid (s) : Quiet s s.serveVoid := ⟨rfl, rfl, rfl, rfl, rfl, rfl, rfl, rfl, rfl, fun _ => rfl⟩

theorem quiet_serveWriteBack (s e slot) : Quiet s (s.serveWriteBack e slot) := by
  rcases slot with _ | slot
  · exact quiet_serveVoid s
  unfold State.serveWriteBack
  dsimp only
  split
  · refine ⟨rfl, rfl, rfl, rfl, rfl, rfl, rfl, rfl, rfl, fun k => ?_⟩
    simp only [State.entry, State.modArbiter_cache, State.modEntry, State.modCache_cache, Vector.get_eq_getElem,
        Vector.getElem_set]
    split
    · next hk => have : e = k := Fin.ext hk
                 subst this; rfl
    · rfl
  · exact quiet_serveVoid s

theorem quiet_offerWriteBack (s) : Quiet s s.offerWriteBack := by
  unfold State.offerWriteBack
  split
  · exact .refl _
  · split
    · exact .refl _
    · split
      · exact .refl _
      · split
        · exact quiet_serveWriteBack _ _ _
        · exact ⟨rfl, rfl, rfl, rfl, rfl, rfl, rfl, rfl, rfl, fun k => rfl⟩

theorem quiet_enqueueEntry (s e) : Quiet s (s.enqueueEntry e) := by
  unfold State.enqueueEntry
  refine .trans ?_ (quiet_offerWriteBack _)
  exact ⟨rfl, rfl, rfl, rfl, rfl, rfl, rfl, rfl, rfl, fun k => rfl⟩

theorem quiet_lookDue (s e) : Quiet s (s.lookDue e) := by
  unfold State.lookDue; split
  · exact quiet_enqueueEntry _ _
  · exact .refl _

theorem quiet_lookFree (s e) : Quiet s (s.lookFree e) := by
  unfold State.lookFree; dsimp only; split
  · next h =>
    refine ⟨rfl, rfl, rfl, rfl, rfl, rfl, rfl, rfl, rfl, fun k => ?_⟩
    unfold State.freeEntry State.entry
    simp only [State.modCache_cache, Vector.get_eq_getElem, Vector.getElem_set]
    split
    · next hk => have : e = k := Fin.ext hk
                 subst this; exact h.2.1.symm
    · rfl
  · exact .refl _

theorem quiet_lookAccount (s slot) : Quiet s (s.lookAccount slot) := by
  unfold State.lookAccount; split
  · exact (quiet_lookDue _ _).trans (quiet_lookFree _ _)
  · exact .refl _

/-- With an empty waiting list the cache is at rest. -/
theorem State.settle_empty {s : State} (h : s.cache.waiting = []) : s.settle = s := by
  unfold State.settle State.settleLoop State.settleOnce
  rw [h]

theorem State.entryOf_slot {s : State} {slot e} (h : s.entryOf slot = some e) : (s.entry e).slot = some slot := by
  have := List.find?_some h
  simpa using this

/-- The recompute of an account without a budget, in NORMAL, changes nothing (R136). -/
theorem State.recompute_unlimited {s : State} {slot} (hb : s.budget slot = none) (hp : (s.presenceOf slot).budget =
    some .normal) : s.recompute slot = s := by
  unfold State.recompute
  split
  · rfl
  · dsimp only
    rw [hb, hp]
    unfold budgetStateFor State.moveBudget
    simp

theorem State.budget_modCache (s : State) (f) (slot) : (s.modCache f).budget slot = s.budget slot := rfl

/-- What a posting to an account's entry does (R126, R127): the units taken, then the recompute and the look at the entry. -/
theorem State.postEntry_slot {s : State} {e slot n} (h : (s.entry e).slot = some slot) :
    s.postEntry e n =
      (let t := (s.modEntry e fun x => { x with pending := x.pending + min n (s.room slot) }).modCache fun c =>
        { c with recency := c.recency.erase e ++ [e] }
      ((if 0 < min n (s.room slot) then t.recompute slot else t).lookDue e, min n (s.room slot))) := by
  have a : s.addPending e n = ((s.modEntry e fun x => { x with pending := x.pending + min n (s.room slot) }).modCache
      fun c => { c with recency := c.recency.erase e ++ [e] }, min n (s.room slot)) := by
    unfold State.addPending; rw [h]
  have b : (((s.modEntry e fun x => { x with pending := x.pending + min n (s.room slot) }).modCache fun c =>
      { c with recency := c.recency.erase e ++ [e] }).entry e).slot = some slot := by
    show ((s.modEntry e fun x => { x with pending := x.pending + min n (s.room slot) }).entry e).slot = some slot
    rw [State.entry_modEntry, if_pos rfl]; exact h
  unfold State.postEntry
  rw [a]
  unfold State.posted
  dsimp only
  rw [b]

/-- Posting units that an account takes. -/
theorem State.Takes.post {s : State} {e slot n} (h : s.Takes e slot n) :
   (s.postEntry e n).2 = n ∧
   (let t := (s.postEntry e n).1
    t.lines = s.lines ∧ t.channels = s.channels ∧ t.rating = s.rating ∧ t.store = s.store ∧ t.presence = s.presence ∧
        t.cache.waiting = [] ∧ t.setup = s.setup ∧ t.powered = s.powered ∧
      (t.entry e).pending = (s.entry e).pending + n) := by
  rw [State.postEntry_slot (State.entryOf_slot h.entry)]
  dsimp only
  rw [Nat.min_eq_left h.room]
  refine ⟨rfl, ?_⟩
  have q : ∀ t : State, t = ((s.modEntry e fun x => { x with pending := x.pending + n }).modCache fun c =>
      { c with recency := c.recency.erase e ++ [e] }) → (if 0 < n then t.recompute slot else t) = t := by
    intro t ht
    split
    · refine State.recompute_unlimited ?_ ?_
      · subst ht; exact h.budget
      · subst ht; exact h.normal
    · rfl
  rw [q _ rfl]
  generalize ht : ((s.modEntry e fun x => { x with pending := x.pending + n }).modCache fun c =>
      { c with recency := c.recency.erase e ++ [e] }) = t
  have k := quiet_lookDue t e
  refine ⟨?_, ?_, ?_, ?_, ?_, ?_, ?_, ?_, ?_⟩
  · rw [k.lines, ← ht]; rfl
  · rw [k.channels, ← ht]; rfl
  · rw [k.rating, ← ht]; rfl
  · rw [k.store, ← ht]; rfl
  · rw [k.presence, ← ht]; rfl
  · rw [k.waiting, ← ht]; exact h.waiting
  · rw [k.setup, ← ht]; rfl
  · rw [k.powered, ← ht]; rfl
  · rw [k.entries, ← ht]
    simp only [State.entry, State.modEntry, State.modCache_cache, Vector.get_eq_getElem, Vector.getElem_set_self]

theorem roundResidue_extra (s : State) (m : Meter) : (roundResidue s.rating.active.rounding m.acc).1 = s.extraUnits m
    := by
  unfold roundResidue State.extraUnits
  dsimp only
  by_cases h : m.acc = 0
  · simp [h]
  · have : 0 < m.acc := Nat.pos_of_ne_zero h
    rw [if_neg h]
    cases s.rating.active.rounding <;> simp [this]
    split <;> rfl

theorem indicator_extra (s : State) (m : Meter) : indicatorNumber (roundResidue s.rating.active.rounding m.acc).2 = if
    m.acc = 0 then 0 else if s.extraUnits m = 1 then 1 else 2 := by
  rw [← roundResidue_extra]
  unfold roundResidue
  split
  · rfl
  · split
    · rfl
    · rfl
    · split <;> rfl

/-- The close of a meter whose account takes its last units (R121). -/
theorem State.Takes.close {s : State} {c p m e cause} (hm : s.meter? c p = some m)
    (h : s.Takes e m.slot (s.finalUnits m - m.units + m.unposted)) :
   (s.closeMeter c p cause).2 = s.finalUnits m ∧
   (let t := (s.closeMeter c p cause).1
    t.lines = s.lines ∧ (∀ d, t.chan d = if d = c then (s.chan d).noted (s.sessionEnd m (s.circuit c p) cause) else
        s.chan d) ∧
    t.rating = { s.rating with meters := s.rating.meters.filter fun j => !decide (j.channel = c ∧ j.port = p) } ∧
        t.store = s.store ∧ t.presence = s.presence ∧ t.cache.waiting = [] ∧ t.setup = s.setup ∧ t.powered = s.powered ∧
      (t.entry e).pending = (s.entry e).pending + (s.finalUnits m - m.units + m.unposted)) := by
  have hc : m.channel = c ∧ m.port = p := by
    have := List.find?_some hm
    simpa using this
  unfold State.closeMeter
  rw [hm]
  dsimp only
  rw [roundResidue_extra]
  have hc1 := hc.1
  subst hc1
  have hf : max (m.units + s.extraUnits m) (s.rating.active.minimum.get m.channel) = s.finalUnits m := rfl
  rw [hf]
  have h' : (s.removeMeter m.channel p).Takes e m.slot (s.finalUnits m - m.units + m.unposted) :=
      ⟨h.1, h.2, h.3, h.4, h.5⟩
  obtain ⟨q2, q⟩ := State.Takes.post h'
  have ef : (s.removeMeter m.channel p).entryFor m.slot = some (e, s.removeMeter m.channel p) := by
    unfold State.entryFor; rw [h'.entry]
  have oc : (s.removeMeter m.channel p).offerClosed m.slot m.channel (s.finalUnits m - m.units + m.unposted) =
      (((s.removeMeter m.channel p).postEntry e (s.finalUnits m - m.units + m.unposted)).1, some
      (s.finalUnits m - m.units + m.unposted)) := by
    unfold State.offerClosed
    rw [ef]
    dsimp only
    rw [q2]
  rw [oc]
  dsimp only
  simp only [Nat.sub_self, Nat.lt_irrefl, false_and, if_false, Nat.sub_zero, decide_false, Bool.or_false]
  generalize ((s.removeMeter m.channel p).postEntry e (s.finalUnits m - m.units + m.unposted)).1 = u at *
  have ci : u.circuit m.channel p = s.circuit m.channel p := by
    unfold State.circuit State.port? State.chan; rw [q.2.1]; rfl
  refine ⟨trivial, ?_⟩
  have k := quiet_lookAccount (u.queueNotice m.channel (noticeSessionEnd (s.accountOf m.slot) m.line m.channel p
      (s.circuit m.channel p) m.seconds (s.finalUnits m)
          (sessionEndFlags (roundResidue s.rating.active.rounding m.acc).2
              (decide (m.units + s.extraUnits m < s.rating.active.minimum.get m.channel)) m.estimated m.saturated)
              cause)) m.slot
  have ne : noticeSessionEnd (s.accountOf m.slot) m.line m.channel p (s.circuit m.channel p) m.seconds (s.finalUnits m)
          (sessionEndFlags (roundResidue s.rating.active.rounding m.acc).2
              (decide (m.units + s.extraUnits m < s.rating.active.minimum.get m.channel)) m.estimated m.saturated)
              cause = s.sessionEnd m (s.circuit m.channel p) cause := by
    unfold noticeSessionEnd State.sessionEnd State.sessionEndOf sessionEndFlags
    rw [indicator_extra]
    simp [hc.2]
  rw [ne] at k ⊢
  refine ⟨?_, ?_, ?_, ?_, ?_, ?_, ?_, ?_, ?_⟩
  · rw [k.lines]; exact q.1
  · intro d
    have : ∀ a b : State, a.channels = b.channels → a.chan d = b.chan d := fun a b h => by unfold State.chan; rw [h]
    rw [this _ _ k.channels]
    unfold State.queueNotice
    rw [State.chan_modChan]
    have u0 : u.chan d = s.chan d := this _ _ q.2.1
    rw [u0]
    by_cases hd : d = m.channel
    · subst hd; simp
    · rw [if_neg hd, if_neg (Ne.symm hd)]
  · rw [k.rating]; exact q.2.2.1
  · rw [k.store]; exact q.2.2.2.1
  · rw [k.presence]; exact q.2.2.2.2.1
  · rw [k.waiting]; exact q.2.2.2.2.2.1
  · rw [k.setup]; exact q.2.2.2.2.2.2.1
  · rw [k.powered]; exact q.2.2.2.2.2.2.2.1
  · rw [k.entries]; exact q.2.2.2.2.2.2.2.2

theorem find_meter_of_mem {ms : List Meter} {m : Meter} (hd : ms.Pairwise fun a b => ¬ (a.channel = b.channel ∧ a.port
    = b.port)) (hm : m ∈ ms) :
   ms.find? (fun x => x.channel = m.channel ∧ x.port = m.port) = some m := by
  induction ms with
  | nil => simp at hm
  | cons a t ih =>
    rw [List.pairwise_cons] at hd
    rcases List.mem_cons.mp hm with rfl | h
    · simp
    · rw [List.find?_cons_of_neg (by have := hd.1 m h; simpa using this)]
      exact ih hd.2 h

/-- A fold over the meters in which each step maps the meter of its key. -/
theorem fold_meters (step : State → ChanNo → Nat → State) (g : Meter → Meter) (hg : ∀ m, (g m).channel = m.channel ∧
    (g m).port = m.port) (P : State → Prop)
  (all : List Meter) (hP : ∀ (t : State) (m : Meter), P t → P (t.modMeter m.channel m.port g))
  (hs : ∀ (t : State) (m : Meter), P t → m ∈ all → t.meter? m.channel m.port = some m →
      (∀ x ∈ t.rating.meters, x.channel = m.channel ∧ x.port = m.port → x = m) → step t m.channel m.port = t.modMeter
      m.channel m.port g) :
   ∀ (todo done : List Meter) (t : State), done ++ todo = all → P t → t.rating.meters = done.map g ++ todo →
       (done ++ todo).Pairwise (fun a b => ¬ (a.channel = b.channel ∧ a.port = b.port)) →
    (todo.map fun m => (m.channel, m.port)).foldl (fun u k => step u k.1 k.2) t =
        { t with rating := { t.rating with meters := (done ++ todo).map g } } := by
  intro todo
  induction todo with
  | nil =>
    intro done t _ _ ht _
    simp only [List.map_nil, List.foldl_nil, List.append_nil] at ht ⊢
    rw [← ht]
  | cons m rest ih =>
    intro done t hall hp ht hd
    rw [List.map_cons, List.foldl_cons]
    have hdm : ∀ x ∈ done, ¬ (x.channel = m.channel ∧ x.port = m.port) := by
      intro x hx
      rw [List.pairwise_append] at hd
      exact hd.2.2 x hx m (by simp)
    have hrm : ∀ x ∈ rest, ¬ (x.channel = m.channel ∧ x.port = m.port) := by
      intro x hx
      rw [List.pairwise_append, List.pairwise_cons] at hd
      have := hd.2.1.1 x hx
      exact fun k => this ⟨k.1.symm, k.2.symm⟩
    have hf : t.meter? m.channel m.port = some m := by
      unfold State.meter?
      rw [ht, List.find?_append]
      have : (done.map g).find? (fun x => x.channel = m.channel ∧ x.port = m.port) = none := by
        rw [List.find?_eq_none]
        intro x hx
        obtain ⟨y, hy, rfl⟩ := List.mem_map.mp hx
        rw [(hg y).1, (hg y).2]
        simpa using hdm y hy
      rw [this]
      simp
    dsimp only
    have huniq : ∀ x ∈ t.rating.meters, x.channel = m.channel ∧ x.port = m.port → x = m := by
      intro x hx hk
      rw [ht] at hx
      rcases List.mem_append.mp hx with hx | hx
      · obtain ⟨y, hy, rfl⟩ := List.mem_map.mp hx
        rw [(hg y).1, (hg y).2] at hk
        exact absurd hk (hdm y hy)
      · rcases List.mem_cons.mp hx with rfl | hx
        · rfl
        · exact absurd hk (hrm x hx)
    rw [hs t m hp (by rw [← hall]; simp) hf huniq]
    have hmm : (t.modMeter m.channel m.port g).rating.meters = (done ++ [m]).map g ++ rest := by
      show t.rating.meters.map _ = _
      rw [ht]
      simp only [List.map_append, List.map_cons, List.map_nil, List.map_map]
      rw [List.append_assoc]
      congr 1
      · refine List.map_congr_left fun x hx => ?_
        simp only [Function.comp]
        rw [(hg x).1, (hg x).2, if_neg (hdm x hx)]
      · simp only [and_self, if_true]
        rw [List.singleton_append]
        congr 1
        conv => rhs; rw [← List.map_id rest]
        refine List.map_congr_left fun x hx => ?_
        rw [if_neg (hrm x hx)]; rfl
    rw [ih (done ++ [m]) _ (by simpa using hall) (hP t m hp) hmm (by simpa using hd)]
    simp only [List.append_assoc, List.singleton_append]
    rfl

theorem Rating.atBoundary_iff (r : Rating) : r.atBoundary = true ↔ r.active.boundaryAt r.calendar := by
  unfold Rating.atBoundary Bank.boundaryAt Bank.switchList Calendar.dayKind
  simp only [Bool.or_eq_true, decide_eq_true_eq, Bool.and_eq_true, List.any_eq_true]
  refine or_congr Iff.rfl ?_
  have hw : (match (if r.calendar.weekday < 5 then DayKind.workday else .restday) with
      | .workday => r.active.workday | .restday => r.active.restday) = (if r.calendar.weekday < 5 then
              r.active.workday else r.active.restday) := by
    split <;> split <;> simp_all
  constructor
  · rintro ⟨h1, p, hp, h2⟩
    refine ⟨h1, p, ?_, by omega⟩
    rw [← hw]; exact hp
  · rintro ⟨h1, p, hp, h2⟩
    refine ⟨h1, p, ?_, by omega⟩
    rw [← hw] at hp; exact hp

/-- Every meter loads its segment, where the bank has every rate (R118). -/
theorem State.loadSegments_rated (t : State) (hd : t.metersDistinct) (hr : ∀ m ∈ t.rating.meters,
    (t.rating.active.rate m.channel m.speedClass t.rating.period).isSome = true) :
   t.loadSegments = { t with rating := { t.rating with meters := t.rating.meters.map fun m =>
     { m with period := t.rating.period, rate := (t.rating.active.rate m.channel m.speedClass t.rating.period).getD 0, percent := t.rating.active.classPercent m.effClass } } } := by
  unfold State.loadSegments State.meterKeys
  refine fold_meters (fun t c p => t.loadSegment c p) (fun m =>
     { m with period := t.rating.period, rate := (t.rating.active.rate m.channel m.speedClass t.rating.period).getD 0, percent := t.rating.active.classPercent m.effClass }) (fun m => ⟨rfl, rfl⟩) (fun u => u.rating.active = t.rating.active ∧ u.rating.period = t.rating.period) t.rating.meters (fun u m hu => ⟨hu.1, hu.2⟩) ?_ t.rating.meters [] t rfl ⟨rfl, rfl⟩ rfl hd
  intro u m hu hm hf huq
  unfold State.loadSegment
  dsimp only
  rw [hf]
  dsimp only
  rw [hu.1, hu.2]
  have := hr m hm
  rw [if_neg (by intro k; rw [k] at this; cases this)]
  unfold State.modMeter
  have : ∀ f g : Rating → Rating, f u.rating = g u.rating → u.modRating f = u.modRating g := fun f g h =>
      by unfold State.modRating; rw [h]
  refine this _ _ ?_
  dsimp only
  congr 1
  refine List.map_congr_left fun x hx => ?_
  by_cases k : x.channel = m.channel ∧ x.port = m.port
  · rw [if_pos k, if_pos k]
    rw [huq x hx k]
  · rw [if_neg k, if_neg k]

/-- Only write-backs move: pendings, flush sets and all outside the cache and the arbiter stay. -/
structure KeepsCharges (s t : State) : Prop where
  chans : ∀ d, t.chan d = s.chan d
  lines : ∀ l, t.line l = s.line l
  store : t.store = s.store
  rating : t.rating = s.rating
  pend : ∀ e, (t.entry e).pending = (s.entry e).pending
  inq : ∀ e, e ∈ s.cache.queue → e ∈ t.cache.queue ∨ (t.entry e).state = .writing
  st : ∀ e, (t.entry e).state = (s.entry e).state ∨ (t.entry e).state = .writing
  fl : t.cache.flush = s.cache.flush
  re : t.cache.restarting = s.cache.restarting

theorem KeepsCharges.refl (s) : KeepsCharges s s := ⟨fun _ => rfl, fun _ => rfl, rfl, rfl, fun _ => rfl, fun _ h =>
    .inl h, fun _ => .inl rfl, rfl, rfl⟩

theorem KeepsCharges.trans {s t u} (a : KeepsCharges s t) (b : KeepsCharges t u) : KeepsCharges s u := by
  refine ⟨fun d => (b.chans d).trans (a.chans d), fun d => (b.lines d).trans (a.lines d), b.store.trans a.store,
      b.rating.trans a.rating, fun e => (b.pend e).trans (a.pend e), fun e h => ?_, fun e => ?_, b.fl.trans a.fl,
      b.re.trans a.re⟩
  · rcases a.inq e h with k | k
    · exact b.inq e k
    · rcases b.st e with j | j
      · exact .inr (j.trans k)
      · exact .inr j
  · rcases b.st e with j | j
    · rcases a.st e with i | i
      · exact .inl (j.trans i)
      · exact .inr (j.trans i)
    · exact .inr j

theorem keepsCharges_serveVoid (s : State) : KeepsCharges s s.serveVoid :=
  ⟨fun _ => rfl, fun _ => rfl, rfl, rfl, fun _ => rfl, fun _ h => .inl h, fun _ => .inl rfl, rfl, rfl⟩

theorem keepsCharges_serveWriteBack (s : State) (e : Fin 32) (slot) : KeepsCharges s (s.serveWriteBack e slot) := by
  rcases slot with _ | slot
  · exact keepsCharges_serveVoid s
  unfold State.serveWriteBack
  dsimp only
  split
  · refine ⟨fun _ => rfl, fun _ => rfl, rfl, rfl, fun x => ?_, fun x h => ?_, fun x => ?_, rfl, rfl⟩
    · by_cases k : x = e <;> simp [State.modArbiter, State.modEntry, State.modCache, State.entry, vector_get_set, k]
    · by_cases k : x = e
      · subst k; right; simp [State.modArbiter, State.modEntry, State.modCache, State.entry, vector_get_set]
      · left; show x ∈ s.cache.queue.erase e; exact (List.mem_erase_of_ne k).mpr h
    · by_cases k : x = e
      · subst k; right; simp [State.modArbiter, State.modEntry, State.modCache, State.entry, vector_get_set]
      · left; simp [State.modArbiter, State.modEntry, State.modCache, State.entry, vector_get_set, k]
  · exact keepsCharges_serveVoid s

theorem keepsCharges_offerWriteBack (s : State) : KeepsCharges s s.offerWriteBack := by
  unfold State.offerWriteBack
  split
  · exact KeepsCharges.refl s
  · split
    · exact KeepsCharges.refl s
    · split
      · exact KeepsCharges.refl s
      · split
        · exact keepsCharges_serveWriteBack _ _ _
        · exact ⟨fun _ => rfl, fun _ => rfl, rfl, rfl, fun _ => rfl, fun _ h => .inl h, fun _ => .inl rfl, rfl, rfl⟩

/-- An entry that is due is on the queue afterwards, or in its write-back. -/
theorem keepsCharges_lookDue (s : State) (e : Fin 32) : KeepsCharges s (s.lookDue e) ∧
    (s.isDue e = true → e ∈ (s.lookDue e).cache.queue ∨ ((s.lookDue e).entry e).state = .writing) := by
  unfold State.lookDue
  split
  · have a : KeepsCharges s (s.modCache fun c => { c with queue := c.queue ++ [e] }) := ⟨fun _ => rfl, fun _ => rfl,
        rfl, rfl, fun _ => rfl, fun _ h => .inl (List.mem_append_left _ h), fun _ => .inl rfl, rfl, rfl⟩
    have b := keepsCharges_offerWriteBack (s.modCache fun c => { c with queue := c.queue ++ [e] })
    exact ⟨a.trans b, fun _ => b.inq e (List.mem_append_right _ (List.mem_singleton.mpr rfl))⟩
  · next h => exact ⟨KeepsCharges.refl s, fun k => absurd k h⟩

/-- Looking at a list of entries for an orderly restart or a FLUSH (R132, R134). -/
theorem keepsCharges_lookAll : ∀ (L : List (Fin 32)) (s : State), KeepsCharges s (L.foldl (fun t e => t.lookDue e) s) ∧
   ∀ e ∈ L, (s.entry e).state = .gathering → 0 < (s.entry e).pending → (s.cache.restarting = true ∨ s.cache.flushNames
       e = true) →
     e ∈ (L.foldl (fun t e => t.lookDue e) s).cache.queue ∨ ((L.foldl (fun t e => t.lookDue e) s).entry e).state =
         .writing := by
  intro L
  induction L with
  | nil => intro s; exact ⟨KeepsCharges.refl s, fun e he => absurd he List.not_mem_nil⟩
  | cons a L ih =>
    intro s
    obtain ⟨k1, k2⟩ := keepsCharges_lookDue s a
    obtain ⟨i1, i2⟩ := ih (s.lookDue a)
    rw [List.foldl_cons]
    refine ⟨k1.trans i1, fun e he hg hp hr => ?_⟩
    have step : (e ∈ (s.lookDue a).cache.queue ∨ ((s.lookDue a).entry e).state = .writing) → e ∈
        (L.foldl (fun t e => t.lookDue e) (s.lookDue a)).cache.queue ∨
        ((L.foldl (fun t e => t.lookDue e) (s.lookDue a)).entry e).state = .writing := by
      rintro (h | h)
      · exact i1.inq e h
      · rcases i1.st e with j | j
        · exact .inr (j.trans h)
        · exact .inr j
    by_cases heq : e = a
    · subst heq
      by_cases hq : e ∈ s.cache.queue
      · exact step (k1.inq e hq)
      · apply step
        apply k2
        unfold State.isDue
        rcases hr with hr | hr <;> simp [hg, hp, hr, hq]
    · rcases List.mem_cons.mp he with h | h
      · exact absurd h heq
      · rcases k1.st e with j | j
        · refine i2 e h (j.trans hg) (by rw [k1.pend]; exact hp) ?_
          rw [k1.re]; unfold Cache.flushNames; rw [k1.fl]; exact hr
        · exact step (.inr j)

/-- While an access is in progress: only the write-back queue and what waits at the arbiter change. -/
structure KeepsBusy (s t : State) : Prop where
  lines : t.lines = s.lines
  channels : t.channels = s.channels
  rating : t.rating = s.rating
  store : t.store = s.store
  presence : t.presence = s.presence
  setup : t.setup = s.setup
  waiting : t.cache.waiting = s.cache.waiting
  entries : t.cache.entries = s.cache.entries
  current : t.arbiter.current = s.arbiter.current

theorem keepsBusy_lookDue {s : State} (e : Fin 32) (h : s.arbiter.current.isSome = true) : KeepsBusy s (s.lookDue e) :=
    by
  obtain ⟨a, ha⟩ := Option.isSome_iff_exists.mp h
  unfold State.lookDue
  split
  · unfold State.enqueueEntry State.offerWriteBack
    split
    · exact ⟨rfl, rfl, rfl, rfl, rfl, rfl, rfl, rfl, rfl⟩
    · split
      · exact ⟨rfl, rfl, rfl, rfl, rfl, rfl, rfl, rfl, rfl⟩
      · split
        · exact ⟨rfl, rfl, rfl, rfl, rfl, rfl, rfl, rfl, rfl⟩
        · split
          · next hn => rw [show (s.modCache fun c => { c with queue := c.queue ++ [e] }).arbiter.current = some a from
                ha] at hn; cases hn
          · exact ⟨rfl, rfl, rfl, rfl, rfl, rfl, rfl, rfl, rfl⟩
  · exact ⟨rfl, rfl, rfl, rfl, rfl, rfl, rfl, rfl, rfl⟩

/-- Posting to an account without a budget while an access is in progress. -/
theorem State.postEntry_busy {s : State} {e slot n} (hs : (s.entry e).slot = some slot) (hb : s.budget slot = none)
    (hp : (s.presenceOf slot).budget = some .normal) (hc : s.arbiter.current.isSome = true) :
   (s.postEntry e n).2 = min n (s.room slot) ∧
   (let t := (s.postEntry e n).1
    t.lines = s.lines ∧ t.channels = s.channels ∧ t.rating = s.rating ∧ t.store = s.store ∧ t.presence = s.presence ∧
        t.cache.waiting = s.cache.waiting ∧ t.setup = s.setup ∧ t.arbiter.current = s.arbiter.current ∧
      t.cache.entries = s.cache.entries.set e.val
          { s.entry e with pending := (s.entry e).pending + min n (s.room slot) } e.isLt) := by
  rw [State.postEntry_slot hs]
  dsimp only
  refine ⟨rfl, ?_⟩
  generalize min n (s.room slot) = m
  have q : ∀ t : State, t = ((s.modEntry e fun x => { x with pending := x.pending + m }).modCache fun c =>
      { c with recency := c.recency.erase e ++ [e] }) → (if 0 < m then t.recompute slot else t) = t := by
    intro t ht
    split
    · refine State.recompute_unlimited ?_ ?_
      · subst ht; exact hb
      · subst ht; exact hp
    · rfl
  rw [q _ rfl]
  generalize ht : ((s.modEntry e fun x => { x with pending := x.pending + m }).modCache fun c =>
      { c with recency := c.recency.erase e ++ [e] }) = t
  have k := keepsBusy_lookDue (s := t) e (by subst ht; exact hc)
  refine ⟨?_, ?_, ?_, ?_, ?_, ?_, ?_, ?_, ?_⟩
  · rw [k.lines, ← ht]; rfl
  · rw [k.channels, ← ht]; rfl
  · rw [k.rating, ← ht]; rfl
  · rw [k.store, ← ht]; rfl
  · rw [k.presence, ← ht]; rfl
  · rw [k.waiting, ← ht]; rfl
  · rw [k.setup, ← ht]; rfl
  · rw [k.current, ← ht]; rfl
  · rw [k.entries, ← ht]; rfl

/-- Units discarded from a CHARGE raise SATURATE on its channel (R122 to R124, R163). -/
theorem State.saturateChannel_eq {s : State} {c : ChanNo} {slot lost : Nat} (hl : 0 < lost)
    (ha : (s.chan c).state = .up ∨ (s.chan c).state = .quiescing) (hfp : (s.chan c).faultPending = false) :
   ∃ g : Channel → Channel, s.saturateChannel c slot lost = s.modChan c g ∧ g (s.chan c) = if (s.chan c).masks.saturate
       = true then
                  { s.chan c with sticky := { (s.chan c).sticky with saturate := true } }
                else
                  ({ s.chan c with
                    faultPending := true,
                    faults := if (s.chan c).faults.length < 8 then
                        (s.chan c).faults ++
                          [{ kind := .saturate, account := s.accountOf slot, port := none, time := s.rating.calendar }]
                      else (s.chan c).faults,
                    moreFaults := (s.chan c).moreFaults || decide (8 ≤ (s.chan c).faults.length) } : Channel).noted
                    { kind := .billingFault, line := none, body := [] } := by
  unfold State.saturateChannel
  rw [if_pos hl]
  have main : s.raiseException c .saturate (s.accountOf slot) none = if (s.chan c).masks.has .saturate then s.modChan c
      fun ch => { ch with sticky := ch.sticky.add .saturate }
    else s.postFault c { kind := .saturate, account := s.accountOf slot, port := none, time := s.rating.calendar } := by
    unfold State.raiseException; rcases ha with k | k <;> rw [k]
  rw [main]
  by_cases hm : (s.chan c).masks.saturate = true
  · rw [if_pos (show (s.chan c).masks.has .saturate = true from hm), if_pos hm]
    exact ⟨_, rfl, rfl⟩
  · rw [if_neg (show ¬ (s.chan c).masks.has .saturate = true from hm), if_neg hm]
    unfold State.postFault
    rw [hfp]
    simp only [Bool.false_eq_true, if_false, State.queueNotice, State.modChan_modChan]
    refine ⟨_, rfl, ?_⟩
    congr 1
    by_cases q : (s.chan c).faults.length < 8
    · simp [q, Nat.not_le.mpr q]
    · simp [q, Nat.not_lt.mp q]

end Sys2Proof.Machine
end

