-- ==== Sys2Proof/Laws/Tables.lean ====
section
/-! SUPPORT. The tables by slot and number: reading back a write, the rising order, the lowest free slot, and what the
completion of an access does to the store's form (R29, R34, R36). -/

namespace Sys2Proof.Machine

variable {α : Type}

/-! ## Reading back -/

theorem tabGet_tabPut (k j : Nat) (a : α) (t : List (Nat × α)) :
    tabGet j (tabPut k a t) = if k = j then some a else tabGet j t := by
  induction t with
  | nil => simp [tabPut, tabGet]
  | cons e t ih =>
    obtain ⟨i, b⟩ := e
    unfold tabPut
    split
    · simp [tabGet]
    · split
      · next h => subst h; simp only [tabGet]; split <;> rfl
      · next h _ =>
        simp only [tabGet, ih]
        split
        · next hij => subst hij; simp_all [eq_comm]
        · rfl

@[simp] theorem tabGet_tabPut_self (k : Nat) (a : α) (t : List (Nat × α)) : tabGet k (tabPut k a t) = some a := by
  rw [tabGet_tabPut, if_pos rfl]

theorem tabGet_tabErase (k j : Nat) (t : List (Nat × α)) :
    tabGet j (tabErase k t) = if k = j then none else tabGet j t := by
  induction t with
  | nil => simp [tabErase, tabGet]
  | cons e t ih =>
    obtain ⟨i, b⟩ := e
    simp only [tabErase] at ih ⊢
    by_cases h : i = k
    · subst h; simp only [List.filter_cons, bne_self_eq_false, Bool.false_eq_true, if_false, ih, tabGet]
      split <;> simp_all
    · simp only [List.filter_cons, bne_iff_ne, ne_eq, h, not_false_eq_true, if_true, tabGet, ih]
      split
      · next hij => subst hij; simp_all [eq_comm]
      · rfl

theorem mem_of_tabGet {k : Nat} {a : α} {t : List (Nat × α)} (h : tabGet k t = some a) : (k, a) ∈ t := by
  induction t with
  | nil => simp [tabGet] at h
  | cons e t ih =>
    obtain ⟨i, b⟩ := e
    simp only [tabGet] at h
    split at h
    · next hi => subst hi; simp_all
    · exact List.mem_cons_of_mem _ (ih h)

theorem tabGet_none {k : Nat} {t : List (Nat × α)} : tabGet k t = none ↔ ∀ e ∈ t, e.1 ≠ k := by
  induction t with
  | nil => simp [tabGet]
  | cons e t ih =>
    obtain ⟨i, b⟩ := e
    simp only [tabGet, List.forall_mem_cons]
    split <;> simp_all

/-! ## The rising order -/

theorem mem_tabPut {k : Nat} {a : α} {t : List (Nat × α)} {e : Nat × α} (h : e ∈ tabPut k a t) :
    e = (k, a) ∨ e ∈ t := by
  induction t with
  | nil => simp_all [tabPut]
  | cons f t ih =>
    obtain ⟨i, b⟩ := f
    unfold tabPut at h
    split at h
    · simpa using h
    · split at h <;> simp only [List.mem_cons] at h ⊢ <;> tauto

theorem mem_tabErase {k : Nat} {t : List (Nat × α)} {e : Nat × α} (h : e ∈ tabErase k t) : e ∈ t ∧ e.1 ≠ k := by
  simpa [tabErase] using h

theorem tabWf_tabPut {t : List (Nat × α)} (h : tabWf t) (k : Nat) (a : α) : tabWf (tabPut k a t) := by
  induction t with
  | nil => simp [tabWf, tabPut]
  | cons e t ih =>
    obtain ⟨i, b⟩ := e
    simp only [tabWf, List.pairwise_cons] at h
    unfold tabPut
    split
    · next hk =>
      simp only [tabWf, List.pairwise_cons, List.forall_mem_cons]
      exact ⟨⟨hk, fun e he => hk.trans (h.1 e he)⟩, h⟩
    · split
      · next hk => subst hk; simp only [tabWf, List.pairwise_cons]; exact h
      · next h1 h2 =>
        simp only [tabWf, List.pairwise_cons]
        refine ⟨fun e he => ?_, ih h.2⟩
        rcases mem_tabPut he with rfl | he
        · show i < k; omega
        · exact h.1 e he

theorem tabWf_tabErase {t : List (Nat × α)} (h : tabWf t) (k : Nat) : tabWf (tabErase k t) :=
  List.Pairwise.filter _ h

theorem tabGet_of_mem {t : List (Nat × α)} (h : tabWf t) {k : Nat} {a : α} (hm : (k, a) ∈ t) : tabGet k t = some a := by
  induction t with
  | nil => simp at hm
  | cons e t ih =>
    obtain ⟨i, b⟩ := e
    simp only [tabWf, List.pairwise_cons] at h
    simp only [tabGet]
    rcases List.mem_cons.1 hm with he | he
    · simp_all
    · have := h.1 _ he
      rw [if_neg (by simp at this; omega)]
      exact ih h.2 he

/-- The lowest free key is not listed, and every key below it is (R29). -/
theorem lowestFree_spec {t : List (Nat × α)} (h : tabWf t) :
    ∀ n, (∀ e ∈ t, n ≤ e.1) → tabGet (lowestFree n t) t = none ∧ n ≤ lowestFree n t ∧
      ∀ m, n ≤ m → m < lowestFree n t → tabGet m t ≠ none := by
  induction t with
  | nil => intro n _; exact ⟨rfl, le_refl _, fun m h1 h2 => absurd h2 (by simp only [lowestFree]; omega)⟩
  | cons e t ih =>
    obtain ⟨i, b⟩ := e
    simp only [tabWf, List.pairwise_cons] at h
    intro n hn
    simp only [lowestFree]
    split
    · next hi =>
      subst hi
      obtain ⟨h1, h2, h3⟩ := ih h.2 (i + 1) (fun e he => h.1 e he)
      refine ⟨?_, by omega, fun m hm1 hm2 => ?_⟩
      · simp only [tabGet]; rw [if_neg (by omega)]; exact h1
      · simp only [tabGet]
        split
        · simp
        · exact h3 m (by omega) hm2
    · next hi =>
      have hlt : n < i := by have := hn (i, b) (by simp); simp at this; omega
      refine ⟨?_, le_refl _, fun m h1 h2 => absurd h2 (by omega)⟩
      rw [tabGet_none]
      simp only [List.forall_mem_cons]
      exact ⟨by omega, fun e he => by have := h.1 e he; omega⟩

/-! ## The presence table -/

theorem presenceWf_put {t : List (Nat × Presence)} (h : presenceWf t) (slot : Nat) {p : Presence} (hp : p ≠ {}) :
    presenceWf (tabPut slot p t) := by
  refine ⟨tabWf_tabPut h.1 _ _, fun e he => ?_⟩
  rcases mem_tabPut he with rfl | he
  · exact hp
  · exact h.2 e he

theorem presenceWf_erase {t : List (Nat × Presence)} (h : presenceWf t) (slot : Nat) : presenceWf (tabErase slot t) :=
  ⟨tabWf_tabErase h.1 _, fun e he => h.2 e (mem_tabErase he).1⟩

@[simp] theorem State.presenceOf_setPresence (s : State) (slot : Nat) (p : Presence) :
    (s.setPresence slot p).presenceOf slot = p := by
  unfold State.presenceOf State.setPresence
  split
  · next h => simp [tabGet_tabErase, h]
  · simp

theorem State.presenceOf_setPresence_ne (s : State) {slot k : Nat} (p : Presence) (h : k ≠ slot) :
    (s.setPresence slot p).presenceOf k = s.presenceOf k := by
  unfold State.presenceOf State.setPresence
  split
  · simp only [tabGet_tabErase]; rw [if_neg (Ne.symm h)]
  · simp only [tabGet_tabPut]; rw [if_neg (Ne.symm h)]

/-! ## The store as an access completes -/

theorem Store.apply_ok {st : Store} (h : st.ok) {w : StoreWrite} (hw : st.admits w) : (st.apply w).ok := by
  obtain ⟨hr, hd, hm, hok, hg, hb⟩ := h
  cases w with
  | nothing => exact ⟨hr, hd, hm, hok, hg, hb⟩
  | put slot r =>
    obtain ⟨hrec, r', hget, hnum⟩ := hw
    refine ⟨tabWf_tabPut hr _ _, hd, fun n k => ?_, fun e he => ?_, hg, hb⟩
    · simp only [Store.apply, tabGet_tabPut, hm n k]
      constructor
      · rintro ⟨x, hx, hn⟩
        by_cases hk : slot = k
        · subst hk
          rw [hget] at hx
          cases hx
          exact ⟨r, by simp, by rw [← hnum, hn]⟩
        · exact ⟨x, by simp [hk, hx], hn⟩
      · rintro ⟨x, hx, hn⟩
        by_cases hk : slot = k
        · subst hk
          simp only [if_true, Option.some.injEq] at hx
          exact ⟨r', hget, by rw [hnum, hx, hn]⟩
        · exact ⟨x, by simpa [hk] using hx, hn⟩
    · rcases mem_tabPut he with rfl | he
      · exact ⟨(hok _ (mem_of_tabGet hget)).1, hrec⟩
      · exact hok e he
  | insert slot r =>
    obtain ⟨hrec, hslot, hfree, hnew⟩ := hw
    refine ⟨tabWf_tabPut hr _ _, tabWf_tabPut hd _ _, fun n k => ?_, fun e he => ?_, hg, hb⟩
    · simp only [Store.apply, tabGet_tabPut]
      by_cases hn : r.number = n
      · subst hn
        simp only [if_true, Option.some.injEq]
        constructor
        · rintro rfl; exact ⟨r, by simp, rfl⟩
        · rintro ⟨x, hx, hxn⟩
          by_contra hk
          rw [if_neg hk] at hx
          have := (hm r.number k).2 ⟨x, hx, hxn⟩
          rw [hnew] at this
          cases this
      · rw [if_neg hn, hm n k]
        constructor
        · rintro ⟨x, hx, hxn⟩
          have hk : slot ≠ k := by rintro rfl; rw [hfree] at hx; cases hx
          exact ⟨x, by simp [hk, hx], hxn⟩
        · rintro ⟨x, hx, hxn⟩
          by_cases hk : slot = k
          · subst hk; simp only [if_true, Option.some.injEq] at hx; exact absurd (by rw [hx, hxn]) hn
          · exact ⟨x, by simpa [hk] using hx, hxn⟩
    · rcases mem_tabPut he with rfl | he
      · exact ⟨hslot, hrec⟩
      · exact hok e he
  | remove slot number =>
    have hw : tabGet number st.directory = some slot := hw
    refine ⟨tabWf_tabErase hr _, tabWf_tabErase hd _, fun n k => ?_, fun e he => hok e (mem_tabErase he).1, hg, hb⟩
    obtain ⟨r0, hr0, hn0⟩ := (hm number slot).1 hw
    simp only [Store.apply, tabGet_tabErase]
    by_cases hn : number = n
    · subst hn
      simp only [if_true, reduceCtorEq, false_iff]
      rintro ⟨x, hx, hxn⟩
      by_cases hk : slot = k
      · simp [hk] at hx
      · rw [if_neg hk] at hx
        have := (hm number k).2 ⟨x, hx, hxn⟩
        rw [hw] at this
        exact hk (by simpa using this)
    · rw [if_neg hn, hm n k]
      constructor
      · rintro ⟨x, hx, hxn⟩
        have hk : slot ≠ k := by
          rintro rfl
          rw [hr0] at hx; cases hx
          exact hn (by rw [← hn0, hxn])
        exact ⟨x, by simp [hk, hx], hxn⟩
      · rintro ⟨x, hx, hxn⟩
        by_cases hk : slot = k
        · simp [hk] at hx
        · exact ⟨x, by simpa [hk] using hx, hxn⟩

end Sys2Proof.Machine
end

