-- ==== Sys2Proof/Laws/Accounts.lean ====
section
/-! SUPPORT. Account accesses: offering, the budget state, and what DELETE empties (R37, R135, R136, R157). -/

namespace Sys2Proof.Machine

/-- A store busy with an access that is not the channel's own. -/
theorem Arbiter.serving_eq {a : Arbiter} {r : Requester} : a.serving r = true ↔
    ∃ x, a.current = some x ∧ x.who = r ∧ x.result ≠ .taken := by
  unfold Arbiter.serving
  cases a.current <;> simp

theorem State.offerOrder_busy {s : State} {c : ChanNo} (h : s.arbiter.current.isSome = true)
    (k : s.arbiter.serving (.chan c) = false) : s.offerOrder c = s.accessWaits c := by
  obtain ⟨a, ha⟩ := Option.isSome_iff_exists.mp h
  unfold State.offerOrder; rw [k, ha]; rfl

theorem State.offerOrder_idle {s : State} {c : ChanNo} (h : s.arbiter.current = none) : s.offerOrder c = s.serveOrder c
    := by
  have k : s.arbiter.serving (.chan c) = false := by unfold Arbiter.serving; rw [h]
  unfold State.offerOrder; rw [k, h]; rfl

/-- A channel whose own access is still in progress offers no other (R37). -/
theorem State.offerOrder_serving {s : State} {c : ChanNo} (k : s.arbiter.serving (.chan c) = true) : s.offerOrder c = s
    := by
  unfold State.offerOrder; rw [k]; rfl

theorem budgetStateFor_absent {total b} : budgetStateFor total b 0 none = budgetStateOf total b := by
  cases b with
  | none => rfl
  | some v =>
    unfold budgetStateFor budgetStateOf; dsimp only
    by_cases h1 : total < v
    · by_cases h2 : total * 10 < v * 9
      · rw [if_pos h1, if_pos h2, if_pos h2]
      · rw [if_pos h1, if_neg h2, if_neg h2, if_pos h1]
    · rw [if_neg h1, if_neg (by omega), if_neg (by omega), if_neg h1]

theorem budgetStateOf_ne_grace {total b} : budgetStateOf total b ≠ .grace := by
  cases b with
  | none => exact (by decide : BudgetState.normal ≠ .grace)
  | some v => unfold budgetStateOf; dsimp only; split; decide; split <;> decide

/-- A budget state found unset is set (R136). -/
theorem State.recomputeUnset_eq {s : State} {slot r} (hc : s.arbiter.current = none) (hr : s.recordAt slot = some r)
    (hp : (s.presenceOf slot).budget.isSome = true ∨ (s.presenceOf slot).count = 0) :
   s.recomputeUnset slot = if (s.presenceOf slot).budget.isSome then s else s.setPresence slot
       { s.presenceOf slot with budget := some ((s.presenceOf slot).budget.getD (budgetStateOf (r.used + s.pendingOf slot) r.budget)), graceTimer := false } := by
  unfold State.recomputeUnset
  have br : s.budgetRecord slot = some r := by unfold State.budgetRecord; rw [hc]; exact hr
  cases h : (s.presenceOf slot).budget with
  | some b => simp
  | none =>
    have h0 : (s.presenceOf slot).count = 0 := by rcases hp with k | k; rw [h] at k; cases k; exact k
    simp only [if_true, Option.isSome_none, Bool.false_eq_true, if_false, Option.getD_none]
    unfold State.recompute
    rw [br]; dsimp only
    rw [h, h0]
    unfold State.moveBudget State.setBudgetState
    have t1 : s.total slot = r.used + s.pendingOf slot := by unfold State.total; rw [br]; rfl
    have t2 : s.budget slot = r.budget := by unfold State.budget; rw [br]; rfl
    dsimp only
    rw [t1, t2, budgetStateFor_absent]
    congr 2
    exact decide_eq_false budgetStateOf_ne_grace

/-- The recompute of an account with no line signed on (R136, R139). -/
theorem State.recompute_absent {v : State} {slot : Nat} {n : Record} {p : Presence} {total : Nat}
    (vbr : v.budgetRecord slot = some n) (vp : v.presenceOf slot = p) (vt : v.total slot = total)
   (vs : v.signedOn slot = []) (hcnt : p.count = 0) (hng : p.budget ≠ some .grace) :
   ∃ u, v.recompute slot = u ∧ u.arbiter = v.arbiter ∧ (u.presenceOf slot).budget = some (budgetStateOf total n.budget)
       ∧ (u.presenceOf slot).count = 0 ∧ (∀ l, u.line l = v.line l) ∧ u.cache = v.cache ∧ u.store = v.store ∧
    ∀ d, u.chan d = if budgetStateOf total n.budget = .spent ∧ (p.budget = some .normal ∨ p.budget = some .warned) ∧
        (v.chan d).state = .up ∧
                        (v.right d (v.accountOf slot)).edits = true then
                      (v.chan d).noted
                        { kind := .budgetState, line := none,
                          body := bytesBE 2 (v.accountOf slot) ++ [3] ++ bytesBE 3 total ++
                            bytesBE 4 (n.budget.getD 4294967295) }
                    else v.chan d := by
  generalize hb : budgetStateOf total n.budget = b
  have vb : v.budget slot = n.budget := by unfold State.budget; rw [vbr]; rfl
  have new : budgetStateFor total n.budget p.count p.budget = b := by
    rw [hcnt, ← hb, ← budgetStateFor_absent]
    unfold budgetStateFor
    cases n.budget with
    | none => rfl
    | some w =>
      dsimp only
      split
      · rfl
      · cases hb2 : p.budget with
        | none => rfl
        | some q => cases q <;> first | rfl | exact absurd hb2 hng
  have rc : v.recompute slot = v.moveBudget slot p.budget b := by
    unfold State.recompute; rw [vbr]; dsimp only; rw [vp, vt, vb, new]
  rw [rc]
  have sbp : (v.setBudgetState slot b).presenceOf slot = { p with budget := some b, graceTimer := b = .grace } := by
    unfold State.setBudgetState; rw [State.presenceOf_setPresence, vp]
  have plain : ((b = .spent ∧ (p.budget = some .normal ∨ p.budget = some .warned)) → False) → ∃ u, v.setBudgetState
      slot b = u ∧ u.arbiter = v.arbiter ∧ (u.presenceOf slot).budget = some b ∧ (u.presenceOf slot).count = 0 ∧
      (∀ l, u.line l = v.line l) ∧ u.cache = v.cache ∧ u.store = v.store ∧
    ∀ d, u.chan d = if b = .spent ∧ (p.budget = some .normal ∨ p.budget = some .warned) ∧ (v.chan d).state = .up ∧
                        (v.right d (v.accountOf slot)).edits = true then
                      (v.chan d).noted
                        { kind := .budgetState, line := none,
                          body := bytesBE 2 (v.accountOf slot) ++ [3] ++ bytesBE 3 total ++
                            bytesBE 4 (n.budget.getD 4294967295) }
                    else v.chan d := by
    intro hno
    refine ⟨_, rfl, rfl, by rw [sbp], by rw [sbp]; exact hcnt, fun _ => rfl, rfl, rfl, fun d => ?_⟩
    rw [if_neg (fun q => hno ⟨q.1, q.2.1⟩)]; rfl
  unfold State.moveBudget
  cases hpb : p.budget with
  | none => rw [hpb] at plain; exact plain (by rintro ⟨_, q | q⟩ <;> cases q)
  | some ob =>
    rw [hpb] at plain
    dsimp only
    by_cases same : ob = b
    · rw [if_pos same]
      subst same
      refine ⟨_, rfl, rfl, by rw [vp]; exact hpb, by rw [vp]; exact hcnt, fun _ => rfl, rfl, rfl, fun d => ?_⟩
      rw [if_neg]
      rintro ⟨q1, q2 | q2, _⟩ <;> rw [q1] at q2 <;> cases q2
    · rw [if_neg same]
      have bng : b ≠ .grace := hb ▸ budgetStateOf_ne_grace
      have bc : b = .normal ∨ b = .warned ∨ b = .spent := by
        cases b with
        | normal => simp
        | warned => simp
        | grace => exact absurd rfl bng
        | spent => simp
      have obs : b = .spent → ob = .normal ∨ ob = .warned := by
        intro q; subst q
        cases ob with
        | normal => simp
        | warned => simp
        | grace => exact absurd hpb hng
        | spent => exact absurd rfl same
      rcases bc with q | q | q
      · subst q; exact plain (by rintro ⟨z, _⟩; cases z)
      · subst q
        have e : ∀ x, (v.setBudgetState slot .warned).showToAccount slot x = v.setBudgetState slot .warned := by
          intro x; unfold State.showToAccount; rw [show (v.setBudgetState slot .warned).signedOn slot = [] from vs]; rfl
        dsimp only; rw [e]
        split
        · exact plain (by rintro ⟨z, _⟩; cases z)
        · exact plain (by rintro ⟨z, _⟩; cases z)
      · subst q
        dsimp only
        unfold State.budgetNotice
        have zt : (v.setBudgetState slot .spent).total slot = total := vt
        have zb : (v.setBudgetState slot .spent).budget slot = n.budget := vb
        have za : (v.setBudgetState slot .spent).accountOf slot = v.accountOf slot := rfl
        rw [zt, zb, za]
        obtain ⟨x, hx⟩ := State.noticeWhere_eq (v.setBudgetState slot .spent) (fun t c => (t.chan c).state = .up ∧
            (t.right c (v.accountOf slot)).edits) (noticeBudget (v.accountOf slot) .spent total n.budget)
        have hch := State.chan_noticeEdit (v.setBudgetState slot .spent) (v.accountOf slot)
            (noticeBudget (v.accountOf slot) .spent total n.budget)
        have bnE : ∀ u : State, (fun t c => (t.chan c).state = .up ∧ (t.right c (u.accountOf slot)).edits : State →
            ChanNo → Prop) = (fun t c => (t.chan c).state = .up ∧ (t.right c (u.accountOf slot)).edits) := fun _ => rfl
        refine ⟨_, rfl, ?_, ?_, ?_, ?_, ?_, ?_, fun d => ?_⟩
        · rw [hx]; rfl
        · rw [hx]; show ((v.setBudgetState slot .spent).presenceOf slot).budget = _; rw [sbp]
        · rw [hx]; show ((v.setBudgetState slot .spent).presenceOf slot).count = _; rw [sbp]; exact hcnt
        · rw [hx]; intro l; rfl
        · rw [hx]; rfl
        · rw [hx]; rfl
        · rw [hch d]
          have : ((v.setBudgetState slot .spent).chan d) = v.chan d := rfl
          have r2 : (v.setBudgetState slot .spent).right d (v.accountOf slot) = v.right d (v.accountOf slot) := rfl
          rw [this, r2]
          by_cases k : (v.chan d).state = .up ∧ (v.right d (v.accountOf slot)).edits = true
          · rw [if_pos k, if_pos ⟨rfl, by rcases obs rfl with z | z <;> simp [z], k⟩]; rfl
          · rw [if_neg k, if_neg (fun z => k z.2.2)]

theorem tabPut_tabPut {α} (k : Nat) (a b : α) : ∀ t : List (Nat × α), tabPut k b (tabPut k a t) = tabPut k b t := by
  intro t
  induction t with
  | nil => simp [tabPut]
  | cons e t ih =>
    unfold tabPut
    by_cases h1 : k < e.1
    · simp [h1, tabPut]
    · by_cases h2 : k = e.1
      · simp [h2, tabPut]
      · simp [h1, h2, tabPut, ih]

/-- Only flush sets and the replies to FLUSH change. -/
structure KeepsFlushing (s t : State) : Prop where
  arb : t.arbiter = s.arbiter
  pres : t.presence = s.presence
  lines : t.lines = s.lines
  store : t.store = s.store
  rating : t.rating = s.rating
  ents : t.cache.entries = s.cache.entries
  wait : t.cache.waiting = s.cache.waiting
  ords : ∀ d, (t.chan d).orders = (s.chan d).orders
  fl : ∀ d, s.cache.flush.get d = none → t.cache.flush.get d = none ∧ (t.chan d).reply = (s.chan d).reply

theorem KeepsFlushing.refl (s) : KeepsFlushing s s := ⟨rfl, rfl, rfl, rfl, rfl, rfl, rfl, fun _ => rfl, fun _ h =>
    ⟨h, rfl⟩⟩

theorem KeepsFlushing.trans {s t u} (a : KeepsFlushing s t) (b : KeepsFlushing t u) : KeepsFlushing s u :=
  ⟨b.arb.trans a.arb, b.pres.trans a.pres, b.lines.trans a.lines, b.store.trans a.store, b.rating.trans a.rating,
      b.ents.trans a.ents, b.wait.trans a.wait,
   fun d => (b.ords d).trans (a.ords d), fun d h => ⟨(b.fl d (a.fl d h).1).1, (b.fl d (a.fl d h).1).2.trans
       (a.fl d h).2⟩⟩

theorem State.orders_answer (s : State) (c : ChanNo) (o b) (d) : ((s.answer c o b).chan d).orders = (s.chan d).orders
    := by
  unfold State.answer
  rw [State.chan_modChan]
  split
  · next h => subst h; split <;> simp_all
  · rfl

theorem keepsFlushing_leaveFlushOf (s : State) (c : ChanNo) (e : Fin 32) : KeepsFlushing s (s.leaveFlushOf c e) := by
  unfold State.leaveFlushOf
  split
  · exact KeepsFlushing.refl s
  · next set hset =>
    split
    · dsimp only
      split
      · refine ⟨rfl, rfl, rfl, rfl, rfl, rfl, rfl, fun d => State.orders_answer _ _ _ _ _, fun d h => ?_⟩
        have hd : d ≠ c := by rintro rfl; rw [hset] at h; cases h
        refine ⟨?_, ?_⟩
        · show (s.cache.flush.set c.val none c.isLt).get d = none
          rw [vector_get_set, if_neg hd]; exact h
        · unfold State.answer; rw [State.chan_modChan]; rw [if_neg (Ne.symm hd)]; rfl
      · refine ⟨rfl, rfl, rfl, rfl, rfl, rfl, rfl, fun _ => rfl, fun d h => ⟨?_, rfl⟩⟩
        have hd : d ≠ c := by rintro rfl; rw [hset] at h; cases h
        show (s.cache.flush.set c.val _ c.isLt).get d = none
        rw [vector_get_set, if_neg hd]; exact h
    · exact KeepsFlushing.refl s

theorem keepsFlushing_leaveFlush (s : State) (e : Fin 32) : KeepsFlushing s (s.leaveFlush e) := by
  unfold State.leaveFlush
  generalize allChans = L
  induction L generalizing s with
  | nil => exact KeepsFlushing.refl s
  | cons a L ih => rw [List.foldl_cons]; exact (keepsFlushing_leaveFlushOf s a e).trans (ih _)

/-- The CHARGEs of a deleted item are answered NOT FOUND (R135). -/
theorem answer_notFound_all (L : List ChargeWait) : ∀ (s : State),
   (let u := L.foldl (fun t w => t.answer w.channel .notFound []) s
    u.arbiter = s.arbiter ∧ u.presence = s.presence ∧ u.lines = s.lines ∧ u.store = s.store ∧ u.rating = s.rating ∧
        u.cache = s.cache ∧ (∀ d, (u.chan d).orders = (s.chan d).orders) ∧
    ∀ w ∈ L, ∀ a rest, (s.chan w.channel).orders = a :: rest → (u.chan w.channel).reply = some
        { outcome := .notFound, seq := a.seq, body := [] }) := by
  intro s
  induction L generalizing s with
  | nil => exact ⟨rfl, rfl, rfl, rfl, rfl, rfl, fun _ => rfl, fun w hw => absurd hw List.not_mem_nil⟩
  | cons x L ih =>
    have ih2 := ih (s.answer x.channel .notFound [])
    dsimp only at ih2 ⊢
    rw [List.foldl_cons]
    obtain ⟨a1, a2, a3, a4, a5, a6, a7, a8⟩ := ih2
    refine ⟨a1, a2, a3, a4, a5, a6, fun d => (a7 d).trans (State.orders_answer _ _ _ _ _), fun w hw a rest ho => ?_⟩
    by_cases h : w ∈ L
    · exact a8 w h a rest (by rw [State.orders_answer]; exact ho)
    · have : w = x := by rcases List.mem_cons.mp hw with k | k; exact k; exact absurd k h
      subst this
      by_cases h2 : ∃ y ∈ L, y.channel = w.channel
      · obtain ⟨y, hy, hyc⟩ := h2
        have := a8 y hy a rest (by rw [State.orders_answer, hyc]; exact ho)
        rw [hyc] at this; exact this
      · have keep : ∀ (M : List ChargeWait) (t : State), (∀ y ∈ M, y.channel ≠ w.channel) →
            ((M.foldl (fun t w => t.answer w.channel .notFound []) t).chan w.channel) = t.chan w.channel := by
          intro M
          induction M with
          | nil => intro t _; rfl
          | cons y M ihm =>
            intro t hM
            rw [List.foldl_cons, ihm _ (fun z hz => hM z (List.mem_cons_of_mem _ hz))]
            unfold State.answer
            rw [State.chan_modChan, if_neg (hM y (List.mem_cons_self ..))]
        rw [keep L _ (fun y hy q => h2 ⟨y, hy, q⟩)]
        unfold State.answer
        simp [ho]

/-- The item of a deleted account is withdrawn (R135). -/
theorem State.dropItem_facts {v : State} {slot : Nat} {items : List Item} (vw : v.cache.waiting = items)
    (hlen : items.length ≤ 1) (hall : ∀ i ∈ items, i.slot = slot) :
    ∃ w, v.dropItem slot = w ∧ w.arbiter = v.arbiter ∧ w.presence = v.presence ∧ w.lines = v.lines ∧ w.store = v.store
        ∧ w.rating = v.rating ∧ w.cache.entries = v.cache.entries ∧ w.cache.waiting = [] ∧ w.cache.flush =
        v.cache.flush ∧
     (∀ i ∈ items, ∀ x ∈ i.charges, ∀ a rest, (v.chan x.channel).orders = a :: rest → (w.chan x.channel).reply = some
         { outcome := .notFound, seq := a.seq, body := [] }) := by
    unfold State.dropItem
    rw [vw]
    rcases items with _ | ⟨i, _ | ⟨j, L⟩⟩
    · exact ⟨_, rfl, rfl, rfl, rfl, rfl, rfl, rfl, vw, rfl, fun i hi => absurd hi List.not_mem_nil⟩
    · have hs : i.slot = slot := hall i (List.mem_cons_self ..)
      have : [i].find? (fun i => decide (i.slot = slot)) = some i := by simp [hs]
      rw [this]; dsimp only
      obtain ⟨a1, a2, a3, a4, a5, a6, a7, a8⟩ := answer_notFound_all i.charges
          (v.modCache fun k => { k with waiting := k.waiting.filter fun j => j.slot != slot })
      refine ⟨_, rfl, a1, a2, a3, a4, a5, ?_, ?_, ?_, fun i' hi' => ?_⟩
      · rw [a6]; rfl
      · rw [a6]; show v.cache.waiting.filter _ = []; rw [vw]; simp [hs]
      · rw [a6]; rfl
      · have : i' = i := by simpa using hi'
        subst this; exact a8
    · simp at hlen

/-- The entry of a deleted account is emptied (R135). -/
theorem State.dropEntry_facts {s w : State} {slot : Nat} (eo : w.entryOf slot = s.entryOf slot)
    (w6 : w.cache.entries = s.cache.entries) (w7 : w.cache.waiting = []) :
    ∃ x, w.dropEntry slot = x ∧ x.arbiter = w.arbiter ∧ x.presence = w.presence ∧ x.lines = w.lines ∧ x.store = w.store
        ∧ x.rating = w.rating ∧ x.cache.waiting = [] ∧
      (∀ e, s.entryOf slot = some e → x.entry e = {}) ∧ (∀ e, s.entryOf slot ≠ some e → x.entry e = s.entry e) ∧
          (∀ d, w.cache.flush.get d = none → (x.chan d).reply = (w.chan d).reply) := by
    unfold State.dropEntry
    rw [eo]
    cases he : s.entryOf slot with
    | none =>
      exact ⟨_, rfl, rfl, rfl, rfl, rfl, rfl, w7, fun e h => (by cases h), fun e _ => (by unfold State.entry; rw [w6]),
          fun _ _ => rfl⟩
    | some e =>
      dsimp only
      have d := keepsFlushing_leaveFlush w e
      generalize w.leaveFlush e = z at d ⊢
      have en : ∀ k, ((z.modCache fun k => { k with queue := k.queue.erase e }).freeEntry e).entry k = if k = e then
          {} else s.entry k := by
        intro k
        show (z.cache.entries.set e.val {} e.isLt).get k = _
        rw [vector_get_set, d.ents, w6]; rfl
      refine ⟨_, rfl, d.arb, d.pres, d.lines, d.store, d.rating, d.wait.trans w7, fun k hk => ?_, fun k hk => ?_, fun q
          hq => ?_⟩
      · rw [en, if_pos (Option.some.inj hk).symm]
      · rw [en, if_neg (fun z => hk (by rw [z]))]
      · exact (d.fl q hq).2

end Sys2Proof.Machine
end

