-- ==== Sys2Proof/Laws/SteadyBase.lean ====
section
/-! SUPPORT. The updates of the state keep it sound, and leave what a command leaves alone: `Steady` for the updates of
Sys2Proof/Machine/Ops.lean. Each lemma extends a chain `s.Steady t` by one operation on `t`. -/

namespace Sys2Proof.Machine.State.Steady

variable {s t : State}

/-! ## The order -/

theorem refl (s : State) : s.Steady s := ⟨id, rfl, rfl, rfl, rfl, fun _ => ⟨rfl, rfl⟩⟩

theorem trans {u : State} (h : s.Steady t) (k : t.Steady u) : s.Steady u where
  sound hs := k.sound (h.sound hs)
  powered := k.powered.trans h.powered
  setup := k.setup.trans h.setup
  cause := k.cause.trans h.cause
  pending := k.pending.trans h.pending
  config hs := ⟨(k.config (h.setup.trans hs)).1.trans (h.config hs).1, (k.config (h.setup.trans hs)).2.trans (h.config hs).2⟩

theorem ite {u : State} {p : Prop} [Decidable p] (h : s.Steady t) (k : s.Steady u) : s.Steady (if p then t else u) := by
  split
  · exact h
  · exact k

/-- A fold of steady moves is steady. -/
theorem foldl {β : Type} {f : State → β → State} (hf : ∀ t b, s.Steady t → s.Steady (f t b)) (bs : List β)
    (h : s.Steady t) : s.Steady (bs.foldl f t) := by
  induction bs generalizing t with
  | nil => exact h
  | cons b bs ih => exact ih (hf t b h)

/-! ## Updates -/

theorem setLine {l : LineNo} {x : Line} (h : s.Steady t) (hx : (t.line l).ok → x.ok) : s.Steady (t.setLine l x) where
  sound hs :=
    let k := h.sound hs
    { lines := fun i => by
        rw [State.line_setLine]
        split
        · exact hx (k.lines l)
        · exact k.lines i
      chans := k.chans, rating := k.rating, store := k.store, admits := k.admits, presence := k.presence, marker := k.marker }
  powered := h.powered
  setup := h.setup
  cause := h.cause
  pending := h.pending
  config := h.config

theorem modUnit {l : LineNo} {f : LineUnit → LineUnit} (h : s.Steady t) (hf : (t.unit l).ok → (f (t.unit l)).ok) :
    s.Steady (t.modUnit l f) := h.setLine fun k => ⟨hf k.1, k.2⟩

theorem modDialog {l : LineNo} {f : Dialog → Dialog} (h : s.Steady t) (hf : (t.dialog l).ok → (f (t.dialog l)).ok) :
    s.Steady (t.modDialog l f) := h.setLine fun k => ⟨k.1, hf k.2.1, k.2.2⟩

theorem modCtx {l : LineNo} {f : LineContext → LineContext} (h : s.Steady t) (hf : (t.ctx l).ok → (f (t.ctx l)).ok) :
    s.Steady (t.modCtx l f) := h.setLine fun k => ⟨k.1, k.2.1, hf k.2.2⟩

theorem modChan {c : ChanNo} {f : Channel → Channel} (h : s.Steady t) (hf : (t.chan c).ok → (f (t.chan c)).ok) :
    s.Steady (t.modChan c f) where
  sound hs :=
    let k := h.sound hs
    { lines := k.lines
      chans := fun i => by
        rw [State.chan_modChan]
        split
        · next e => exact e ▸ hf (k.chans c)
        · exact k.chans i
      rating := k.rating, store := k.store, admits := k.admits, presence := k.presence, marker := k.marker }
  powered := h.powered
  setup := h.setup
  cause := h.cause
  pending := h.pending
  config := h.config

theorem modPort {c : ChanNo} {p : Nat} {f : Port → Port} (h : s.Steady t) (hf : ∀ x, t.port? c p = some x → x.ok → (f x).ok) :
    s.Steady (t.modPort c p f) := by
  unfold State.modPort
  split
  · next x hx =>
    refine h.modChan fun k => ⟨k.1, k.2.1, k.2.2.1, by simpa using k.2.2.2.1, fun y hy => ?_⟩
    have hmem : x ∈ (t.chan c).ports := List.mem_of_getElem? hx
    rcases List.mem_or_eq_of_mem_set hy with hy | rfl
    · exact k.2.2.2.2 y hy
    · exact hf x hx (k.2.2.2.2 x hmem)
  · exact h

theorem modRating {f : Rating → Rating} (h : s.Steady t) (hf : t.rating.ok → (f t.rating).ok) :
    s.Steady (t.modRating f) where
  sound hs :=
    let k := h.sound hs
    { lines := k.lines, chans := k.chans, rating := hf k.rating, store := k.store, admits := k.admits,
      presence := k.presence, marker := k.marker }
  powered := h.powered
  setup := h.setup
  cause := h.cause
  pending := h.pending
  config := h.config

/-- A change of the store that leaves the records, the directory and the configuration. -/
theorem modStore {f : Store → Store} (h : s.Steady t) (hr : (f t.store).records = t.store.records)
    (hd : (f t.store).directory = t.store.directory) (hc : (f t.store).chanConfig = t.store.chanConfig)
    (hg : (f t.store).groupConfig = t.store.groupConfig)
    (hb : t.store.banner.length ≤ Config.bannerCap → (f t.store).banner.length ≤ Config.bannerCap) :
    s.Steady (t.modStore f) where
  sound hs :=
    let k := h.sound hs
    { lines := k.lines, chans := k.chans, rating := k.rating
      store := by
        obtain ⟨h1, h2, h3, h4, h5, h6⟩ := k.store
        exact ⟨hr ▸ h1, hd ▸ h2, by simp only [Store.matched, State.modStore_store, hr, hd]; exact h3, hr ▸ h4,
          by simp only [State.modStore_store, hg]; exact h5, hb h6⟩
      admits := by
        have := k.admits
        simp only [State.modStore_store, State.modStore_arbiter]
        revert this
        cases t.arbiter.write <;> simp only [Store.admits, hr, hd] <;> exact id
      presence := k.presence, marker := k.marker }
  powered := h.powered
  setup := h.setup
  cause := h.cause
  pending := h.pending
  config hs := ⟨hc.trans (h.config hs).1, hg.trans (h.config hs).2⟩

/-- A change of the arbiter whose access in progress writes what the store admits. -/
theorem modArbiter {f : Arbiter → Arbiter} (h : s.Steady t)
    (hw : t.Sound → t.store.admits (f t.arbiter).write) : s.Steady (t.modArbiter f) where
  sound hs :=
    let k := h.sound hs
    { lines := k.lines, chans := k.chans, rating := k.rating, store := k.store, admits := hw k,
      presence := k.presence, marker := k.marker }
  powered := h.powered
  setup := h.setup
  cause := h.cause
  pending := h.pending
  config := h.config

theorem modCache {f : Cache → Cache} (h : s.Steady t) : s.Steady (t.modCache f) where
  sound hs :=
    let k := h.sound hs
    { lines := k.lines, chans := k.chans, rating := k.rating, store := k.store, admits := k.admits,
      presence := k.presence, marker := fun _ => rfl }
  powered := h.powered
  setup := h.setup
  cause := h.cause
  pending := h.pending
  config := h.config

theorem modEntry {e : Fin 32} {f : Entry → Entry} (h : s.Steady t) : s.Steady (t.modEntry e f) := h.modCache

theorem setPresence {slot : Nat} {p : Presence} (h : s.Steady t) : s.Steady (t.setPresence slot p) where
  sound hs :=
    let k := h.sound hs
    { lines := k.lines, chans := k.chans, rating := k.rating, store := k.store, admits := k.admits
      presence := by
        unfold State.setPresence
        split
        · exact presenceWf_erase k.presence _
        · next hp => exact presenceWf_put k.presence _ hp
      marker := k.marker }
  powered := h.powered
  setup := h.setup
  cause := h.cause
  pending := h.pending
  config := h.config

theorem withChecks {ks : List Check} (h : s.Steady t) : s.Steady { t with checks := ks } where
  sound hs :=
    let k := h.sound hs
    { lines := k.lines, chans := k.chans, rating := k.rating, store := k.store, admits := k.admits,
      presence := k.presence, marker := k.marker }
  powered := h.powered
  setup := h.setup
  cause := h.cause
  pending := h.pending
  config := h.config

/-! ## Text, notices, data blocks and replies -/

theorem place {l : LineNo} {cs : List Code} (h : s.Steady t) : s.Steady (t.place l cs) := by
  refine h.modUnit fun k => ⟨k.1, ?_, k.2.2⟩
  have := k.2.1
  simp only [List.length_append, List.length_take]
  omega

theorem prompt {l : LineNo} (h : s.Steady t) : s.Steady (t.prompt l) := h.place

theorem placeLine {l : LineNo} {cs : List Code} (h : s.Steady t) : s.Steady (t.placeLine l cs) := h.place

theorem showText {l : LineNo} {cs : List Code} (h : s.Steady t) : s.Steady (t.showText l cs) := by
  unfold State.showText
  split
  · exact h.placeLine.prompt.place
  · exact h.placeLine
  · exact h.placeLine
  · split
    · exact h.placeLine
    · exact h.placeLine
    · exact h
    · exact h
    · exact h
  · exact h.ite h.placeLine
  all_goals exact h

theorem queueNotice {c : ChanNo} {n : Notice} (h : s.Steady t) : s.Steady (t.queueNotice c n) := by
  refine h.modChan fun k => ?_
  unfold Channel.noted
  split
  · split
    · exact ⟨k.1, by simp only [List.length_append, List.length_singleton]; omega, k.2.2⟩
    · exact k
  · split
    · exact ⟨k.1, by simp only [List.length_append, List.length_singleton]; omega, k.2.2⟩
    · exact k
  all_goals exact k

theorem noticeWhere {test : State → ChanNo → Bool} {n : Notice} (h : s.Steady t) : s.Steady (t.noticeWhere test n) :=
  foldl (fun _ _ h => h.queueNotice.ite h) _ h

theorem noticeToUp {n : Notice} (h : s.Steady t) : s.Steady (t.noticeToUp n) := h.noticeWhere

theorem queueData {c : ChanNo} {b : DataBlock} (h : s.Steady t) : s.Steady (t.queueData c b) := h.modChan id

theorem indicate {c : ChanNo} {p : Nat} {i : Indication} (h : s.Steady t) : s.Steady (t.indicate c p i) := h.modChan id

theorem answer {c : ChanNo} {o : Outcome} {body : List Byte} (h : s.Steady t) : s.Steady (t.answer c o body) := by
  refine h.modChan fun k => ?_
  split <;> exact k

/-! ## Meters -/

theorem modMeter {c : ChanNo} {p : Nat} {f : Meter → Meter} (h : s.Steady t) (hf : t.rating.ok → ∀ m, m.ok → (f m).ok) :
    s.Steady (t.modMeter c p f) := by
  refine h.modRating fun k => ⟨k.1, k.2.1, k.2.2.1, fun m hm => ?_⟩
  obtain ⟨m', hm', rfl⟩ := List.mem_map.1 hm
  split
  · exact hf k m' (k.2.2.2 m' hm')
  · exact k.2.2.2 m' hm'

theorem removeMeter {c : ChanNo} {p : Nat} (h : s.Steady t) : s.Steady (t.removeMeter c p) :=
  h.modRating fun k => ⟨k.1, k.2.1, k.2.2.1, fun m hm => k.2.2.2 m (List.mem_of_mem_filter hm)⟩

end Sys2Proof.Machine.State.Steady
end

