-- ==== Sys2Proof/Laws/SteadyLines.lean ====
section
/-! SUPPORT. `Steady` for the operations of Sys2Proof/Machine/LineOps.lean, Budget.lean and CacheOps.lean. -/

namespace Sys2Proof.Machine.State.Steady

variable {s t : State}

/-! ## Line units -/

theorem setHealth {l : LineNo} {n : Nat} {x : Health} (h : s.Steady t) (hn : n ≤ Config.scoreMax) :
    s.Steady (t.setHealth l n x) := by
  have k : s.Steady (t.modUnit l fun u => { u with score := n, health := x }) := h.modUnit fun k => ⟨hn, k.2⟩
  exact k.ite k.noticeToUp

theorem raiseScore {l : LineNo} {n : Nat} (h : s.Steady t) : s.Steady (t.raiseScore l n) :=
  h.setHealth (Nat.min_le_right ..)

/-- A score lowered from one in range is in range. -/
theorem lowerScore {l : LineNo} {n : Nat} (h : s.Steady t) : s.Steady (t.lowerScore l n) := by
  have k : s.Steady (t.modUnit l fun u =>
      { u with score := (t.unit l).score - n, health := healthAfter (t.unit l).health ((t.unit l).score - n) }) :=
    h.modUnit fun k => ⟨(Nat.sub_le ..).trans k.1, k.2⟩
  exact k.ite k.noticeToUp

theorem enterPrompt {l : LineNo} (h : s.Steady t) : s.Steady (t.enterPrompt l) :=
  (h.modCtx fun k => ⟨k.1, Nat.zero_le _⟩).prompt

theorem leavePrompt {l : LineNo} (h : s.Steady t) : s.Steady (t.leavePrompt l) := h.modCtx fun k => ⟨k.1, Nat.zero_le _⟩

theorem toCommand {l : LineNo} (h : s.Steady t) : s.Steady (t.toCommand l) := by
  unfold State.toCommand
  split
  · exact (h.modUnit id).enterPrompt
  · exact (h.modUnit id).enterPrompt
  · exact h

theorem toWaiting {l : LineNo} (h : s.Steady t) : s.Steady (t.toWaiting l) := (h.modUnit id).leavePrompt.ite h

theorem toConnected {l : LineNo} (h : s.Steady t) : s.Steady (t.toConnected l) := by
  unfold State.toConnected
  split
  · exact (h.modUnit id).leavePrompt
  · exact (h.modUnit id).leavePrompt
  · exact h

theorem signOnComplete {l : LineNo} {n : Nat} {x : LineState} (h : s.Steady t) : s.Steady (t.signOnComplete l n x) :=
  (((h.modUnit id).lowerScore).modUnit id).ite h

theorem returnToCommand {l : LineNo} {cs : List Code} (h : s.Steady t) : s.Steady (t.returnToCommand l cs) :=
  h.showText.toCommand

theorem startGuard {l : LineNo} (h : s.Steady t) : s.Steady (t.startGuard l) :=
  h.modUnit fun k => ⟨k.1, Nat.zero_le _, k.2.2⟩

/-- Where a clear ends is in range. -/
theorem rest_ok {u : LineUnit} (h : u.ok) : u.rest.ok := by
  unfold LineUnit.rest
  split
  · exact ⟨h.1, h.2.1, h.2.2.1, Nat.zero_le _, h.2.2.2.2⟩
  · exact h

/-! ## Circuits -/

theorem modFlow {c : ChanNo} {p : Nat} {f : Flow → Flow} (h : s.Steady t)
    (hf : ∀ x : Flow, t.flow? c p = some x → x.output.length ≤ Config.outputCap →
      (f x).output.length ≤ Config.outputCap) : s.Steady (t.modFlow c p f) := by
  refine h.modPort fun x hp hx y hy => ?_
  obtain ⟨z, hz, rfl⟩ := Option.map_eq_some_iff.1 hy
  exact hf z (by rw [State.flow?, hp]; exact hz) (hx z hz)

/-- A port without a flow state is in range. -/
theorem noFlow {x : Port} (h : x.flow = none) : x.ok := fun f hf => by rw [h] at hf; cases hf

theorem discardFlow {c : ChanNo} {p : Nat} (h : s.Steady t) : s.Steady (t.discardFlow c p) :=
  (h.modPort fun _ _ _ => noFlow rfl).modChan id

theorem portClosing {c : ChanNo} {p : Nat} {x : Cause} (h : s.Steady t) : s.Steady (t.portClosing c p x) := by
  unfold State.portClosing
  split
  · exact (h.modPort fun _ _ _ => noFlow rfl).queueNotice
  · exact h

theorem leaveQueues {l : LineNo} (h : s.Steady t) : s.Steady (t.leaveQueues l) := foldl (fun _ _ h => h.modChan id) _ h

theorem closeOpenings {l : LineNo} {x : Cause} (h : s.Steady t) : s.Steady (t.closeOpenings l x) :=
  foldl (fun _ _ h => foldl (fun _ _ h => h.portClosing) _ h) _ h

/-! ## Budgets -/

theorem budgetNotice {slot : Nat} {b : BudgetState} (h : s.Steady t) : s.Steady (t.budgetNotice slot b) := h.noticeWhere

theorem setBudgetState {slot : Nat} {b : BudgetState} (h : s.Steady t) : s.Steady (t.setBudgetState slot b) :=
  h.setPresence

theorem showToAccount {slot : Nat} {x : String} (h : s.Steady t) : s.Steady (t.showToAccount slot x) :=
  foldl (fun _ _ h => h.showText) _ h

theorem withdrawLine {l : LineNo} (h : s.Steady t) : s.Steady (t.withdrawLine l) :=
  h.leaveQueues.closeOpenings.toCommand.ite h

theorem enterGrace {slot : Nat} (h : s.Steady t) : s.Steady (t.enterGrace slot) :=
  (foldl (fun _ _ h => h.withdrawLine) _ h.setBudgetState.showToAccount).budgetNotice

theorem moveBudget {slot : Nat} {o : Option BudgetState} {n : BudgetState} (h : s.Steady t) :
    s.Steady (t.moveBudget slot o n) := by
  unfold State.moveBudget
  split
  · exact h.setBudgetState
  · refine h.ite ?_
    split
    · exact h.setBudgetState
    · exact h.setBudgetState.showToAccount.ite h.setBudgetState
    · exact h.enterGrace
    · exact h.setBudgetState.budgetNotice

theorem recompute {slot : Nat} (h : s.Steady t) : s.Steady (t.recompute slot) := by
  unfold State.recompute
  split
  · exact h
  · exact h.moveBudget

theorem recomputeUnset {slot : Nat} (h : s.Steady t) : s.Steady (t.recomputeUnset slot) := h.recompute.ite h

theorem presenceDown {slot : Nat} (h : s.Steady t) : s.Steady (t.presenceDown slot) :=
  h.setPresence.setBudgetState.budgetNotice.ite h.setPresence

/-! ## Billing exceptions -/

theorem postFault {c : ChanNo} {f : FaultRecord} (h : s.Steady t) : s.Steady (t.postFault c f) := by
  have k : s.Steady (t.modChan c fun ch =>
      if ch.faults.length < Config.faultCap then { ch with faults := ch.faults ++ [f] }
      else { ch with moreFaults := true }) := by
    refine h.modChan fun k => ?_
    split
    · exact ⟨k.1, k.2.1, by simp only [List.length_append, List.length_singleton]; omega, k.2.2.2⟩
    · exact k
  exact k.ite (k.modChan id).queueNotice

theorem raiseException {c : ChanNo} {x : ExceptionKind} {a : Nat} {p : Option Nat} (h : s.Steady t) :
    s.Steady (t.raiseException c x a p) := by
  unfold State.raiseException
  split
  · exact h
  · exact h
  · exact (h.modChan id).ite h.postFault
  · exact (h.modChan id).ite h.postFault

/-! ## Meters -/

/-- A rate of a bank in range is in range, an ABSENT one counting as 0. -/
theorem rate_le {b : Bank} (h : b.ok) (c : ChanNo) (k : SpeedClass) (p : Nat) : (b.rate c k p).getD 0 ≤ 60000 := by
  unfold Bank.rate
  cases hv : b.rates[rateIndex c k p]? with
  | none => simp
  | some v =>
    cases v with
    | none => simp
    | some n => simpa using h.1 _ (Vector.mem_of_getElem? hv) n rfl

theorem classPercent_le {b : Bank} (h : b.ok) (n : Nat) : b.classPercent n ≤ 250 := by
  unfold Bank.classPercent
  cases hv : b.percent[n]? with
  | none => simp
  | some v => simpa using h.2.1 _ (Vector.mem_of_getElem? hv)

theorem loadSegment {c : ChanNo} {p : Nat} (h : s.Steady t) : s.Steady (t.loadSegment c p) := by
  unfold State.loadSegment
  split
  · exact h
  · next m _ =>
    have k : s.Steady (t.modMeter c p fun x =>
        { x with period := t.rating.period, rate := (t.rating.active.rate c m.speedClass t.rating.period).getD 0,
                 percent := t.rating.active.classPercent x.effClass }) :=
      h.modMeter fun hr x hx => ⟨hx.1, rate_le hr.2.1 .., classPercent_le hr.2.1 _⟩
    exact k.raiseException.ite k

theorem loadSegments (h : s.Steady t) : s.Steady t.loadSegments := foldl (fun _ _ h => h.loadSegment) _ h

theorem raiseEstimated {c : ChanNo} {slot p : Nat} (h : s.Steady t) : s.Steady (t.raiseEstimated c slot p) :=
  h.ite (h.raiseException.modChan id)

theorem mem_insertMeter {m x : Meter} {ms : List Meter} (h : x ∈ insertMeter m ms) : x = m ∨ x ∈ ms := by
  induction ms with
  | nil => simpa [insertMeter] using h
  | cons y ms ih =>
    unfold insertMeter at h
    split at h
    · simpa using h
    · simp only [List.mem_cons] at h ⊢; tauto

theorem openMeter {c : ChanNo} {p : Nat} {l : LineNo} {slot : Nat} {k : SpeedClass} {n : Nat} (h : s.Steady t) :
    s.Steady (t.openMeter c p l slot k n) := by
  unfold State.openMeter
  have j := (h.modRating (f := fun r => { r with meters := insertMeter (
      { channel := c, port := p, line := l, slot := slot, speedClass := k, effClass := n,
        estimated := t.rating.clock = .fallback } : Meter) r.meters }) fun hr =>
    ⟨hr.1, hr.2.1, hr.2.2.1, fun m hm => by
      rcases mem_insertMeter hm with rfl | hm
      · exact ⟨show (0 : Nat) < _ by decide, Nat.zero_le _, Nat.zero_le _⟩
      · exact hr.2.2.2 m hm⟩).loadSegment (c := c) (p := p)
  exact j.raiseEstimated.ite j

/-! ## Write-backs -/

/-- A record read from a sound store may be written back to its own slot with its running fields changed. -/
theorem admits_put {st : Store} (h : st.ok) {slot : Nat} {r r' : Record} (hr : tabGet slot st.records = some r)
    (hk : r.ok → r'.ok) (hn : r'.number = r.number) : st.admits (.put slot r') :=
  ⟨hk (h.2.2.2.1 _ (mem_of_tabGet hr)).2, r, hr, hn.symm⟩

theorem serveVoid (h : s.Steady t) : s.Steady t.serveVoid := h.modArbiter fun _ => trivial

theorem serveWriteBack {e : Fin 32} {slot : Option Nat} (h : s.Steady t) : s.Steady (t.serveWriteBack e slot) := by
  rcases slot with _ | slot
  · exact h.serveVoid
  unfold State.serveWriteBack
  dsimp only
  split
  · refine (h.modCache.modEntry).modArbiter fun k => ?_
    show t.store.admits (match t.recordAt slot with
      | some r => StoreWrite.put slot { r with used := r.used + (t.entry e).pending }
      | none => .nothing)
    split
    · next r hr => exact admits_put k.store hr id rfl
    · trivial
  · exact h.serveVoid

end Sys2Proof.Machine.State.Steady
end

