-- ==== Sys2Proof/Laws/SteadyCache.lean ====
section
/-! SUPPORT. `Steady` for the write-back queue, the postings, the waiting list and the closes of
Sys2Proof/Machine/CacheOps.lean. -/

namespace Sys2Proof.Machine.State.Steady

variable {s t : State}

theorem offerWriteBack (h : s.Steady t) : s.Steady t.offerWriteBack := by
  unfold State.offerWriteBack
  split
  · exact h
  · refine h.ite ?_
    split
    · exact h
    · split
      · exact h.serveWriteBack
      · exact h.modArbiter fun k => k.admits

theorem enqueueEntry {e : Fin 32} (h : s.Steady t) : s.Steady (t.enqueueEntry e) := h.modCache.offerWriteBack

theorem lookDue {e : Fin 32} (h : s.Steady t) : s.Steady (t.lookDue e) := h.enqueueEntry.ite h

theorem freeEntry {e : Fin 32} (h : s.Steady t) : s.Steady (t.freeEntry e) := h.modCache

theorem lookFree {e : Fin 32} (h : s.Steady t) : s.Steady (t.lookFree e) := h.freeEntry.ite h

theorem lookAccount {slot : Nat} (h : s.Steady t) : s.Steady (t.lookAccount slot) := by
  unfold State.lookAccount
  split
  · exact h.lookDue.lookFree
  · exact h

theorem leaveFlushOf {c : ChanNo} {e : Fin 32} (h : s.Steady t) : s.Steady (t.leaveFlushOf c e) := by
  unfold State.leaveFlushOf
  split
  · exact h
  · exact (h.modCache.answer.ite h.modCache).ite h

theorem leaveFlush {e : Fin 32} (h : s.Steady t) : s.Steady (t.leaveFlush e) := foldl (fun _ _ h => h.leaveFlushOf) _ h

/-! ## Posting -/

theorem addPending {e : Fin 32} {n : Nat} (h : s.Steady t) : s.Steady (t.addPending e n).1 := by
  unfold State.addPending
  split
  · exact h
  · dsimp only; exact h.modEntry.modCache

theorem posted {e : Fin 32} {n : Nat} (h : s.Steady t) : s.Steady (t.posted e n) := by
  unfold State.posted
  split
  · exact h
  · exact (h.recompute.ite h).lookDue

theorem postEntry {e : Fin 32} {n : Nat} (h : s.Steady t) : s.Steady (t.postEntry e n).1 := h.addPending.posted

theorem giveSlot {e : Fin 32} {slot : Nat} (h : s.Steady t) : s.Steady (t.giveSlot e slot) := h.modEntry.modCache

theorem entryFor {slot : Nat} {x : Fin 32 × State} (h : s.Steady t) (hx : t.entryFor slot = some x) : s.Steady x.2 := by
  unfold State.entryFor at hx
  split at hx
  · cases hx; exact h
  · split at hx
    · obtain ⟨e, _, rfl⟩ := Option.map_eq_some_iff.1 hx
      exact h.giveSlot
    · cases hx

theorem modItem {slot : Nat} {f : Item → Item} (h : s.Steady t) : s.Steady (t.modItem slot f) := h.modCache

theorem offerClosed {slot : Nat} {c : ChanNo} {n : Nat} (h : s.Steady t) : s.Steady (t.offerClosed slot c n).1 := by
  unfold State.offerClosed
  split
  · next e u hx => exact (h.entryFor hx).postEntry
  · exact h.modItem

theorem closeMeter {c : ChanNo} {p : Nat} {x : Cause} (h : s.Steady t) : s.Steady (t.closeMeter c p x).1 := by
  unfold State.closeMeter
  split
  · exact h
  · exact (h.removeMeter.offerClosed.raiseException.ite h.removeMeter.offerClosed).queueNotice.lookAccount

/-! ## Sessions that end -/

theorem sessionGone {l : LineNo} {c : ChanNo} {p n : Nat} (h : s.Steady t) : s.Steady (t.sessionGone l c p n) :=
  h.modCtx fun k => ⟨Nat.min_le_right .., k.2⟩

theorem liveRemoved {l : LineNo} {cs : List Code} (h : s.Steady t) : s.Steady (t.liveRemoved l cs) :=
  ((h.modCtx id).modUnit fun k => ⟨k.1, k.2.1, Nat.zero_le _, k.2.2.2⟩).showText.toCommand

theorem partClose {c : ChanNo} {p : Nat} {x : Cause} (h : s.Steady t) : s.Steady (t.partClose c p x).1 := by
  unfold State.partClose
  refine (discardFlow ?_).portClosing
  split
  · exact h.closeMeter.sessionGone
  · exact h.closeMeter

theorem faultClose {c : ChanNo} {p : Nat} (h : s.Steady t) : s.Steady (t.faultClose c p) := by
  unfold State.faultClose
  split
  · exact h.partClose
  · exact h.partClose.liveRemoved.ite h.partClose

theorem meterDiscard {c : ChanNo} {p n : Nat} (h : s.Steady t) : s.Steady (t.meterDiscard c p n) := by
  unfold State.meterDiscard
  split
  · exact h
  · have k : s.Steady (t.modMeter c p fun m => { m with units := m.units - n, saturated := true }) :=
      h.modMeter fun _ _ k => k
    exact k.ite (k.raiseException.ite k.raiseException.faultClose)

/-! ## The waiting list -/

theorem saturateChannel {c : ChanNo} {slot n : Nat} (h : s.Steady t) : s.Steady (t.saturateChannel c slot n) :=
  h.raiseException.ite h

theorem postFor {e : Fin 32} {slot : Nat} {c : ChanNo} {n : Nat} (h : s.Steady t) :
    s.Steady (t.postFor e slot c n).1 := h.addPending.saturateChannel.posted

theorem postCharge {e : Fin 32} {slot : Nat} {c : ChanNo} {n : Nat} (h : s.Steady t) :
    s.Steady (t.postCharge e slot c n).1 := h.postFor

theorem answerCharge {c : ChanNo} {o : Outcome} {body : List Byte} (h : s.Steady t) :
    s.Steady (t.answerCharge c o body) := by
  unfold State.answerCharge
  split
  · next w wr d hc =>
    have k : s.Steady (t.modArbiter fun a => { a with current := some { who := w, write := wr, result := .reply c o body } }) :=
      h.modArbiter fun j => by
        have := j.admits
        unfold Arbiter.write at this
        rw [hc] at this
        exact this
    exact k.ite h.answer
  · exact h.answer

theorem giveEntry {e : Fin 32} {i : Item} (h : s.Steady t) : s.Steady (t.giveEntry e i) := by
  unfold State.giveEntry
  refine lookFree (foldl (fun _ _ h => h.postCharge.answerCharge) _ (foldl (fun u k h => ?_) _
    (foldl (fun _ _ h => ?_) _ h.modCache.giveSlot)))
  · dsimp only
    split
    · exact h
    · next m _ =>
      have j : s.Steady (u.modMeter k.1 k.2 fun m => { m with unposted := 0 }) := h.modMeter fun _ _ k => k
      exact j.postEntry.meterDiscard.ite j.postEntry
  · exact h.postFor.ite h

theorem settleOnce {u : State} (h : s.Steady t) (hu : t.settleOnce = some u) : s.Steady u := by
  unfold State.settleOnce at hu
  split at hu
  · cases hu
  · split at hu
    · cases hu; exact h.giveEntry
    · split at hu
      · cases hu
      · split at hu
        · cases hu
        · split at hu
          · cases hu; exact h.leaveFlush.modCache.freeEntry
          · cases hu; exact h.modEntry.modCache.ite h.modEntry.modCache.enqueueEntry

theorem settleLoop (n : Nat) (h : s.Steady t) : s.Steady (State.settleLoop n t) := by
  induction n generalizing t with
  | zero => exact h
  | succ n ih =>
    unfold State.settleLoop
    split
    · exact h
    · next hu => exact ih (h.settleOnce hu)

theorem settle (h : s.Steady t) : s.Steady t.settle := h.settleLoop _

theorem offerMeter {c : ChanNo} {p n : Nat} (h : s.Steady t) : s.Steady (t.offerMeter c p n) := by
  unfold State.offerMeter
  split
  · exact h
  · refine ite (h.modMeter fun _ _ k => k) ?_
    split
    · next e u hx => exact ((h.entryFor hx).postEntry.meterDiscard.ite (h.entryFor hx).postEntry).settle
    · have k : s.Steady (t.modMeter c p fun m => { m with unposted := n }) := h.modMeter fun _ _ k => k
      exact k.modItem.settle

theorem closeSession {c : ChanNo} {p : Nat} {x : Cause} (h : s.Steady t) : s.Steady (t.closeSession c p x).1 :=
  h.partClose.settle

theorem removeSession {c : ChanNo} {p : Nat} {x : Cause} {cs : List Code} (h : s.Steady t) :
    s.Steady (t.removeSession c p x cs) := by
  have k : s.Steady (t.closeMeter c p x).1 := h.closeMeter
  unfold State.removeSession
  generalize t.closeMeter c p x = r at k ⊢
  refine settle ?_
  split
  · next l _ =>
    have j : s.Steady ((r.1.sessionGone l c p r.2).discardFlow c p) := k.sessionGone.discardFlow
    exact j.liveRemoved.ite j
  · exact k.discardFlow

end Sys2Proof.Machine.State.Steady
end

