-- ==== Sys2Proof/Laws/SteadySwitch.lean ====
section
/-! SUPPORT. `Steady` for the clear of a line and for the session switch: Sys2Proof/Machine/ClearOps.lean and
SwitchOps.lean. -/

namespace Sys2Proof.Machine.State.Steady

variable {s t : State}

/-! ## The clear of a line -/

/-- The mark that a line has cleared leaves the write of the access in progress. -/
theorem markCleared_write (a : Arbiter) : a.markCleared.write = a.write := by
  unfold Arbiter.markCleared Arbiter.write
  split
  · next h => simp [h]
  · rfl

theorem withArbiter {a : Arbiter} (h : s.Steady t) (ha : a.write = t.arbiter.write) : s.Steady { t with arbiter := a } :=
  h.modArbiter (f := fun _ => a) fun k => by rw [ha]; exact k.admits

theorem endDialog {l : LineNo} (h : s.Steady t) : s.Steady (t.modDialog l Dialog.ended) :=
  h.modDialog fun k => ⟨Nat.zero_le _, k.2⟩

theorem withdrawCheck {l : LineNo} (h : s.Steady t) : s.Steady (t.withdrawCheck l) :=
  (h.withChecks (ks := t.checks.filter fun k => k.line != l)).modArbiter
    (f := fun a => { a with signOn := a.signOn && !(t.checks.filter fun k => k.line != l).isEmpty }) fun k => k.admits

theorem uncount {l : LineNo} (h : s.Steady t) : s.Steady (t.uncount l) := by
  unfold State.uncount
  split
  · exact (h.modDialog fun k => ⟨k.1, k.2⟩).presenceDown
  · exact h

theorem signOnClear {l : LineNo} (h : s.Steady t) : s.Steady (t.signOnClear l) :=
  ((h.withArbiter (markCleared_write _)).endDialog).ite (h.withdrawCheck.ite h).endDialog.uncount

theorem closeStack {l : LineNo} {x : Cause} (n : Nat) (h : s.Steady t) : s.Steady (State.closeStack n t l x) := by
  induction n generalizing t with
  | zero => exact h
  | succ n ih =>
    unfold State.closeStack
    split
    · exact h
    · next e _ =>
      have k : s.Steady (t.closeSession e.channel e.port x).1 := h.closeSession
      exact ih (k.modCtx fun k => ⟨k.1, k.2⟩)

theorem closeSessions {l : LineNo} {x : Cause} (h : s.Steady t) : s.Steady (t.closeSessions l x) := h.closeStack _

theorem dropSignOn {l : LineNo} (h : s.Steady t) : s.Steady (t.modCtx l fun x => { x with signOn := none, units := 0 }) :=
  h.modCtx fun k => ⟨Nat.zero_le _, k.2⟩

theorem dropAccount {l : LineNo} (h : s.Steady t) : s.Steady (t.modUnit l fun u => { u with account := 0 }) :=
  h.modUnit fun k => ⟨k.1, k.2⟩

theorem switchClear {l : LineNo} {x : Cause} (h : s.Steady t) : s.Steady (t.switchClear l x) := by
  have k : s.Steady (t.modCtx l fun x =>
      { x with idleTimer := false, attentionTimer := false, forwardTimer := false, attention := .none, field := [] }) :=
    h.modCtx fun k => ⟨k.1, Nat.zero_le _⟩
  unfold State.switchClear
  have j := ((k.closeSessions (l := l) (x := x)).leaveQueues (l := l)).closeOpenings (l := l) (x := x)
  exact j.dropSignOn

theorem clearLine {l : LineNo} {x : Cause} (h : s.Steady t) : s.Steady (t.clearLine l x) := by
  unfold State.clearLine
  refine ite ?_ h
  have k : s.Steady (t.modUnit l fun u =>
      { u with state := .clearing, cause := some x, input := [], answerTimer := false, speedWindow := false,
               lineHit := false, awaitMark := false }) := h.modUnit fun k => ⟨k.1, k.2.1, Nat.zero_le _, k.2.2.2⟩
  have j := (k.signOnClear (l := l)).switchClear (l := l) (x := x)
  exact j.dropAccount.startGuard.ite j.dropAccount

theorem barLine {l : LineNo} {x : Health} (h : s.Steady t) : s.Steady (t.barLine l x) := h.clearLine.ite h

theorem faultScore {l : LineNo} {n : Nat} (h : s.Steady t) : s.Steady (t.faultScore l n) := h.raiseScore.barLine

theorem clearLines {ls : List LineNo} {x : Cause} (h : s.Steady t) : s.Steady (t.clearLines ls x) :=
  foldl (fun _ _ h => h.clearLine) _ h

/-! ## Ports -/

/-- Opening keeps a port's flow state, which a port that is not BOUND has none of. -/
theorem openPort {c : ChanNo} {p : Nat} {l : LineNo} {slot n : Nat} (h : s.Steady t) :
    s.Steady (t.openPort c p l slot n) := by
  unfold State.openPort
  have k : s.Steady (t.modPort c p fun x =>
      { x with state := .opening, line := some l, slot := some slot, cause := none, timer := true }) :=
    h.modPort fun _ _ k => k
  exact k.queueNotice

theorem grantLoop {c : ChanNo} {p : Nat} (n : Nat) (h : s.Steady t) : s.Steady (State.grantLoop n t c p) := by
  induction n generalizing t with
  | zero => exact h
  | succ n ih =>
    unfold State.grantLoop
    split
    · exact h
    · have k : s.Steady (t.modChan c fun ch => { ch with queue := ch.queue.tail }) := h.modChan fun k => ⟨k.1, k.2⟩
      exact k.openPort.ite (ih k.returnToCommand)

theorem grant {c : ChanNo} {p : Nat} (h : s.Steady t) : s.Steady (t.grant c p) := h.grantLoop _

theorem channelDown {c : ChanNo} (h : s.Steady t) : s.Steady (t.channelDown c) := by
  refine h.modChan fun k => ?_
  dsimp only [Channel.clearFaults]
  split
  · refine ⟨k.1, ?_, Nat.zero_le _, Nat.zero_le _, fun _ hx => nomatch hx⟩
    simp only [List.length_append, List.length_singleton]; omega
  · exact ⟨k.1, k.2.1, Nat.zero_le _, Nat.zero_le _, fun _ hx => nomatch hx⟩

theorem quiesceIfDone {c : ChanNo} (h : s.Steady t) : s.Steady (t.quiesceIfDone c) := h.channelDown.ite h

theorem freePort {c : ChanNo} {p : Nat} (h : s.Steady t) : s.Steady (t.modPort c p Port.freed) :=
  h.modPort fun _ _ _ => noFlow rfl

theorem portFree {c : ChanNo} {p : Nat} (h : s.Steady t) : s.Steady (t.portFree c p) :=
  h.freePort.grant.ite h.freePort.quiesceIfDone

theorem dropOpening {c : ChanNo} {cs : List Code} {p : Nat} (h : s.Steady t) : s.Steady (t.dropOpening c cs p) := by
  unfold State.dropOpening
  split
  · exact h.freePort.returnToCommand
  · exact h.freePort

theorem dropQueue {c : ChanNo} {cs : List Code} (h : s.Steady t) : s.Steady (t.dropQueue c cs) :=
  foldl (fun _ _ h => h.returnToCommand) _ (h.modChan fun k => ⟨k.1, k.2⟩)

theorem noPorts {c : ChanNo} (h : s.Steady t) :
    s.Steady (t.modChan c fun ch => { ch with ports := [], queue := [], dataOut := [] }) :=
  h.modChan fun k => ⟨k.1, k.2.1, k.2.2.1, Nat.zero_le _, fun _ hx => nomatch hx⟩

theorem endPorts {c : ChanNo} {x : Cause} {cs : List Code} (h : s.Steady t) : s.Steady (t.endPorts c x cs) := by
  unfold State.endPorts
  refine noPorts (dropQueue (foldl (fun _ _ h => h.dropOpening) _ (foldl (fun u p h => ?_) _ h)))
  have k : s.Steady (u.removeSession c p x cs) := h.removeSession
  exact k.freePort

/-! ## The connect procedure -/

theorem wayTo {l : LineNo} {c : ChanNo} (h : s.Steady t) : s.Steady (t.wayTo l c) := by
  unfold State.wayTo
  split
  · exact h
  · split
    · exact h.openPort
    · exact (h.modChan fun k => ⟨k.1, k.2⟩).showText

/-! ## Data -/

/-- A line whose input buffer is emptied is in range. -/
theorem noInput {l : LineNo} (h : s.Steady t) : s.Steady (t.modUnit l fun u => { u with input := [] }) :=
  h.modUnit fun k => ⟨k.1, k.2.1, Nat.zero_le _, k.2.2.2⟩

theorem sendInput {l : LineNo} {c : ChanNo} {p : Nat} (h : s.Steady t) : s.Steady (t.sendInput l c p) :=
  (h.noInput.modCtx fun k => ⟨k.1, k.2⟩).ite (h.noInput.modCtx fun k => ⟨k.1, k.2⟩).queueData

theorem sendHeldInput {l : LineNo} {c : ChanNo} {p : Nat} (h : s.Steady t) : s.Steady (t.sendHeldInput l c p) :=
  foldl (fun _ _ h => h.queueData) _ (h.noInput.modCtx fun k => ⟨k.1, k.2⟩)

theorem placeOutput {c : ChanNo} {p : Nat} {x : Code} (h : s.Steady t) : s.Steady (t.placeOutput c p x) := by
  unfold State.placeOutput
  split
  · exact h
  · next f hf =>
    split
    · have k : s.Steady (t.modFlow c p fun f => { f with overrun := true }) := h.modFlow fun _ _ k => k
      exact h.ite k.indicate
    · next hlt =>
      have k : s.Steady (t.modFlow c p fun f => { f with output := f.output ++ [x] }) := by
        refine h.modFlow fun g hg _ => ?_
        rw [hf] at hg
        cases hg
        simp only [List.length_append, List.length_singleton]
        omega
      have j : s.Steady ((t.modFlow c p fun f => { f with output := f.output ++ [x] }).modFlow c p fun f =>
        { f with stopSent := true }) := k.modFlow fun _ _ k => k
      exact j.indicate.ite k

theorem inputChar {l : LineNo} {x : Code} (h : s.Steady t) : s.Steady (t.inputChar l x) := by
  unfold State.inputChar
  split
  · exact h
  · split
    · exact h.place
    · next hlt =>
      have k : s.Steady (t.modUnit l fun u => { u with input := u.input ++ [x] }) :=
        h.modUnit fun k => ⟨k.1, k.2.1, by simp only [List.length_append, List.length_singleton]; omega, k.2.2.2⟩
      have j : s.Steady ((t.modUnit l fun u => { u with input := u.input ++ [x] }).modCtx l fun y =>
        { y with forwardTimer := true }) := k.modCtx fun k => ⟨k.1, k.2⟩
      exact j.sendInput.ite j

theorem leaveConnected {l : LineNo} (h : s.Steady t) : s.Steady (t.leaveConnected l) := by
  unfold State.leaveConnected
  split
  · exact h.toCommand
  · have k : s.Steady (t.modCtx l fun x => { x with forwardTimer := false }) := h.modCtx fun k => ⟨k.1, k.2⟩
    exact ((k.ite (k.noInput.place.ite k.sendInput)).modCtx fun k => ⟨k.1, k.2⟩).queueNotice.toCommand

/-! ## Typed commands -/

theorem commandReply {l : LineNo} {cs : List Code} (h : s.Steady t) : s.Steady (t.commandReply l cs) := h.placeLine.prompt

theorem runConnect {l : LineNo} {c : ChanNo} (h : s.Steady t) : s.Steady (t.runConnect l c) := by
  unfold State.runConnect
  split
  · exact h.commandReply
  · exact h.toWaiting.wayTo

theorem makeTopLive {l : LineNo} (h : s.Steady t) : s.Steady (t.makeTopLive l) := by
  unfold State.makeTopLive
  split
  · exact h
  · exact (h.modCtx fun k => ⟨k.1, k.2⟩).queueNotice.toConnected

theorem runResume {l : LineNo} (h : s.Steady t) : s.Steady (t.runResume l) := h.commandReply.ite h.makeTopLive

theorem runRotate {l : LineNo} (h : s.Steady t) : s.Steady (t.runRotate l) :=
  h.commandReply.ite (h.modCtx fun k => ⟨k.1, k.2⟩).makeTopLive

theorem runEnd {l : LineNo} (h : s.Steady t) : s.Steady (t.runEnd l) := by
  unfold State.runEnd
  split
  · exact h.commandReply
  · exact h.closeSession.commandReply

theorem runLogoff {l : LineNo} {x : Cause} (h : s.Steady t) : s.Steady (t.runLogoff l x) := by
  unfold State.runLogoff
  dsimp only
  have k : s.Steady (if x = .idle then (t.closeSessions l x).placeLine l (text "IDLE TIMEOUT") else t.closeSessions l x) :=
    h.closeSessions.placeLine.ite h.closeSessions
  generalize (if x = .idle then (t.closeSessions l x).placeLine l (text "IDLE TIMEOUT") else t.closeSessions l x) = u at k ⊢
  have j := k.placeLine (l := l) (cs := text "UNITS THIS SIGN-ON " ++ decimal (u.ctx l).units)
  generalize u.placeLine l (text "UNITS THIS SIGN-ON " ++ decimal (u.ctx l).units) = v at j ⊢
  split <;> split
  · exact j.placeLine.placeLine.clearLine.lowerScore
  · exact j.placeLine.clearLine.lowerScore
  · exact j.placeLine.placeLine.clearLine
  · exact j.placeLine.clearLine

theorem runStatus {l : LineNo} (h : s.Steady t) : s.Steady (t.runStatus l) := by
  unfold State.runStatus
  refine prompt ?_
  have k : s.Steady (if (t.ctx l).stack = [] then t.placeLine l (text "NO SESSION")
      else (t.ctx l).stack.reverse.foldl (fun t e => t.placeLine l (t.sessionText e)) t) :=
    h.placeLine.ite (foldl (fun _ _ h => h.placeLine) _ h)
  split
  · exact k.placeLine
  · exact k

end Sys2Proof.Machine.State.Steady
end

