-- ==== Sys2Proof/Laws/SteadyStore.lean ====
section
/-! SUPPORT. `Steady` for the sign-on controller and the account store: Sys2Proof/Machine/SignOnOps.lean and
StoreOps.lean. -/

namespace Sys2Proof.Machine

/-! ## A recompute of a budget state leaves the store -/

namespace State

theorem store_foldl {β : Type} {f : State → β → State} (hf : ∀ t b, (f t b).store = t.store) (bs : List β) (s : State) :
    (bs.foldl f s).store = s.store := by
  induction bs generalizing s with
  | nil => rfl
  | cons b bs ih => rw [List.foldl_cons, ih, hf]

@[simp] theorem store_showText (s : State) (l : LineNo) (cs : List Code) : (s.showText l cs).store = s.store := by
  unfold showText
  split <;> try rfl
  · split <;> rfl
  · split <;> rfl

@[simp] theorem store_toCommand (s : State) (l : LineNo) : (s.toCommand l).store = s.store := by
  unfold toCommand; split <;> rfl

@[simp] theorem store_modPort (s : State) (c : ChanNo) (p : Nat) (f : Port → Port) :
    (s.modPort c p f).store = s.store := by
  unfold modPort; split <;> rfl

@[simp] theorem store_portClosing (s : State) (c : ChanNo) (p : Nat) (x : Cause) :
    (s.portClosing c p x).store = s.store := by
  unfold portClosing
  split
  · exact store_modPort ..
  · rfl

@[simp] theorem store_noticeWhere (s : State) (test : State → ChanNo → Bool) (n : Notice) :
    (s.noticeWhere test n).store = s.store :=
  store_foldl (fun t c => by split <;> rfl) _ s

@[simp] theorem store_withdrawLine (s : State) (l : LineNo) : (s.withdrawLine l).store = s.store := by
  unfold withdrawLine
  split
  · rw [store_toCommand, closeOpenings, store_foldl (fun t c => store_foldl (fun t p => store_portClosing ..) _ t),
      leaveQueues]
    exact store_foldl (f := fun t c => t.modChan c fun ch => { ch with queue := ch.queue.filter fun w => w.line != l })
      (fun _ _ => rfl) _ _
  · rfl

@[simp] theorem store_showToAccount (s : State) (slot : Nat) (x : String) : (s.showToAccount slot x).store = s.store :=
  store_foldl (fun _ _ => store_showText ..) _ s

@[simp] theorem store_budgetNotice (s : State) (slot : Nat) (b : BudgetState) :
    (s.budgetNotice slot b).store = s.store := store_noticeWhere ..

@[simp] theorem store_setBudgetState (s : State) (slot : Nat) (b : BudgetState) :
    (s.setBudgetState slot b).store = s.store := rfl

@[simp] theorem store_enterGrace (s : State) (slot : Nat) : (s.enterGrace slot).store = s.store := by
  unfold enterGrace
  rw [store_budgetNotice, store_foldl store_withdrawLine, store_showToAccount, store_setBudgetState]

@[simp] theorem store_moveBudget (s : State) (slot : Nat) (o : Option BudgetState) (n : BudgetState) :
    (s.moveBudget slot o n).store = s.store := by
  unfold moveBudget
  split
  · rfl
  · split
    · rfl
    · split
      · rfl
      · split
        · exact store_showToAccount ..
        · rfl
      · exact store_enterGrace ..
      · exact store_budgetNotice ..

@[simp] theorem store_recompute (s : State) (slot : Nat) : (s.recompute slot).store = s.store := by
  unfold recompute
  split
  · rfl
  · exact store_moveBudget ..

@[simp] theorem store_recomputeUnset (s : State) (slot : Nat) : (s.recomputeUnset slot).store = s.store := by
  unfold recomputeUnset
  split
  · exact store_recompute ..
  · rfl

end State

namespace State.Steady

variable {s t : State}

/-! ## The dialog -/

theorem emptyDialogField {l : LineNo} {p : Phase} {i x : Option Nat} (h : s.Steady t) :
    s.Steady (t.modDialog l fun d => { d with phase := p, field := [], identifier := i, fold := x }) :=
  h.modDialog fun k => ⟨Nat.zero_le _, k.2⟩

theorem enterSignOn {l : LineNo} (h : s.Steady t) : s.Steady (t.enterSignOn l) := by
  have k : s.Steady (t.modDialog l fun d =>
      { d with phase := .ident, field := [], identifier := none, fold := none, timer := true,
               attempts := if (t.unit l).health = .good then 3 else 1 }) :=
    h.modDialog fun _ => ⟨Nat.zero_le _, by dsimp only; split <;> decide⟩
  exact (k.ite k.placeLine).placeLine

theorem dialogBreak {l : LineNo} (h : s.Steady t) : s.Steady (t.dialogBreak l) := by
  have k : s.Steady (t.modDialog l fun d => { d with phase := .ident, field := [], identifier := none }) :=
    h.modDialog fun k => ⟨Nat.zero_le _, k.2⟩
  unfold State.dialogBreak
  split
  · exact k.placeLine
  · exact k.placeLine
  all_goals exact h

theorem endIdent {l : LineNo} (h : s.Steady t) : s.Steady (t.endIdent l) := by
  have k : s.Steady (t.modDialog l fun d =>
      { d with phase := .pass, identifier := some (digitsValue d.field), field := [] }) :=
    h.modDialog fun k => ⟨Nat.zero_le _, k.2⟩
  exact h.placeLine.ite k.placeLine

/-- A field that stays within its length keeps a dialog in range. -/
theorem setField {l : LineNo} {cs : List Code} (h : s.Steady t) (hc : t.Sound → cs.length ≤ Config.passCap) :
    s.Steady (t.modDialog l fun d => { d with field := cs }) where
  sound hs := ((refl t).modDialog (l := l) (f := fun d => { d with field := cs })
    fun k => ⟨hc (h.sound hs), k.2⟩).sound (h.sound hs)
  powered := h.powered
  setup := h.setup
  cause := h.cause
  pending := h.pending
  config := h.config

theorem dropLast_le {l : LineNo} (k : t.Sound) : (t.dialog l).field.dropLast.length ≤ Config.passCap := by
  have := (k.lines l).2.1.1
  simp only [List.length_dropLast]
  exact (Nat.sub_le ..).trans this

theorem identChar {l : LineNo} {x : Code} (h : s.Steady t) : s.Steady (t.identChar l x) := by
  unfold State.identChar
  dsimp only
  split
  · split
    · next hlt => exact (h.setField fun _ => by simpa using (Nat.succ_le_of_lt hlt).trans (by decide)).place
    · exact h.place
  · split
    · exact h.place.ite (h.setField dropLast_le).place
    · exact (h.setField fun _ => Nat.zero_le _).placeLine.ite (h.endIdent.ite h.place)

/-! ## The check -/

theorem serve {w : Requester} {x : StoreWrite} {r : AccessResult} (h : s.Steady t) (hw : t.Sound → t.store.admits x) :
    s.Steady (t.serve w x r) := h.modArbiter hw

theorem failed_ok {r : Record} (h : r.ok) (ha : r.state = .active) : r.failed.ok := by
  obtain ⟨h1, h2, h3, h4, h5, h6, h7, h8, h9, h10⟩ := h
  have := h9 ha
  unfold Record.failed
  split
  · next he => exact ⟨h1, h2, h3, h4, h5, h6, h7, by dsimp only; omega, fun h => by simp at h, by unfold bumpRevision; dsimp only; omega⟩
  · next he =>
    exact ⟨h1, h2, h3, h4, h5, h6, h7, by dsimp only; omega, fun _ => by dsimp only; omega,
      by unfold bumpRevision; dsimp only; omega⟩

theorem succeeded_ok {r : Record} (h : r.ok) (now : Calendar) : (r.succeeded now).ok := by
  obtain ⟨h1, h2, h3, h4, h5, h6, h7, h8, h9, h10⟩ := h
  refine ⟨h1, h2, h3, h4, h5, h6, h7, Nat.zero_le _, fun _ => show 0 < Config.failureCap by decide, ?_⟩
  unfold Record.succeeded bumpRevision
  dsimp only
  split <;> omega

theorem failed_number (r : Record) : r.failed.number = r.number := by unfold Record.failed; split <;> rfl

theorem checkRecord {k : Check} {slot : Nat} {r : Record} (h : s.Steady t)
    (hr : tabGet slot t.store.records = some r) : s.Steady (t.checkRecord k slot r) := by
  unfold State.checkRecord
  split
  · exact h.serve fun _ => trivial
  · next ha =>
    split
    · exact h.serve fun j => admits_put j.store hr (fun hk => failed_ok hk (not_not.1 ha)) (failed_number r)
    · refine ite (h.serve fun _ => trivial) (ite (h.serve fun _ => trivial) ?_)
      exact (h.setPresence.modDialog fun k => ⟨k.1, k.2⟩).serve fun j =>
        admits_put j.store (r := r) (by simpa using hr) (fun hk => succeeded_ok hk _) rfl

theorem serveCheck (h : s.Steady t) : s.Steady t.serveCheck := by
  unfold State.serveCheck
  split
  · exact h
  · next k rest _ =>
    have j : s.Steady (({ t with checks := rest } : State).modDialog k.line fun d =>
        { d with identifier := none, fold := none }) := (h.withChecks (ks := rest)).modDialog fun k => ⟨k.1, k.2⟩
    dsimp only
    split
    · exact j.serve fun _ => trivial
    · split
      · exact j.serve fun _ => trivial
      · next r hr => exact j.recomputeUnset.checkRecord (by rw [State.store_recomputeUnset]; exact hr)

theorem offerCheck (h : s.Steady t) : s.Steady t.offerCheck := by
  unfold State.offerCheck
  refine h.ite ?_
  split
  · exact h.serveCheck
  · exact h.modArbiter fun k => k.admits

/-! ## After the check -/

theorem refuseAttempt {l : LineNo} {o : CheckOutcome} (h : s.Steady t) : s.Steady (t.refuseAttempt l o) := by
  have k : s.Steady ((t.placeLine l o.text).modDialog l fun d =>
      { d with attempts := (t.dialog l).attempts - 1, identifier := none, fold := none }) := by
    refine h.placeLine.modDialog fun k => ⟨k.1, (Nat.sub_le ..).trans ?_⟩
    simpa [State.placeLine, State.place] using k.2
  have j : s.Steady (((t.placeLine l o.text).modDialog l fun d =>
      { d with attempts := (t.dialog l).attempts - 1, identifier := none, fold := none }).modDialog l fun d =>
      { d with phase := .ident }) := k.modDialog fun k => ⟨k.1, k.2⟩
  exact j.placeLine.ite k.clearLine

theorem signOnToCommand {l : LineNo} {a : Nat} (h : s.Steady t) : s.Steady (t.signOnToCommand l a) := by
  have k : s.Steady (t.modDialog l fun d => { d with phase := .none }) := h.modDialog fun k => ⟨k.1, k.2⟩
  exact k.signOnComplete.enterPrompt

theorem setPhase {l : LineNo} {p : Phase} (h : s.Steady t) : s.Steady (t.modDialog l fun d => { d with phase := p }) :=
  h.modDialog fun k => ⟨k.1, k.2⟩

theorem setSignOn {l : LineNo} {r : SignOnRecord} (h : s.Steady t) :
    s.Steady (t.modCtx l fun x => { x with signOn := some r, units := 0 }) :=
  h.modCtx fun k => ⟨Nat.zero_le _, k.2⟩

theorem stopDialogTimer {l : LineNo} (h : s.Steady t) : s.Steady (t.modDialog l fun d => { d with timer := false }) :=
  h.modDialog fun k => ⟨k.1, k.2⟩

theorem succeed {l : LineNo} {a slot n : Nat} {home : Option ChanNo} {w : Bool} (h : s.Steady t) :
    s.Steady (t.succeed l a slot n home w) := by
  unfold State.succeed
  dsimp only
  have k := (h.stopDialogTimer (l := l)).placeLine (l := l) (cs := text "SIGNED ON " ++ decimal a)
  have j := (k.placeLine (l := l) (cs := text "BUDGET 90% USED")).ite (p := w = true) k
  split
  · exact j.setSignOn.signOnToCommand
  · split
    · exact j.setSignOn.setPhase.placeLine.signOnToCommand
    · exact j.setSignOn.setPhase.signOnComplete.setPhase.wayTo

theorem checkResult {l : LineNo} {o : CheckOutcome} {x : Option (Nat × Nat)} {b : Bool} (h : s.Steady t) :
    s.Steady (t.checkResult l o x b) := by
  unfold State.checkResult
  dsimp only
  have k : s.Steady (match x with
      | some (account, rev) =>
        t.noticeWhere (fun u c => (u.chan c).state = .up ∧ (u.right c account).edits) (noticeSuspended account l rev)
      | none => t) := by
    split
    · exact h.noticeWhere
    · exact h
  cases o with
  | success => exact k.uncount.ite k.succeed
  | refused => exact k.ite k.refuseAttempt
  | tooMany => exact k.ite k.refuseAttempt
  | exhausted => exact k.ite k.refuseAttempt

theorem endPass {l : LineNo} (h : s.Steady t) : s.Steady (t.endPass l) := by
  unfold State.endPass
  have k : s.Steady (t.modDialog l fun d =>
      { d with phase := .checking, field := [], fold := some (foldPass (t.dialog l).field) }) :=
    h.modDialog fun k => ⟨Nat.zero_le _, k.2⟩
  exact k.place.withChecks.offerCheck.ite k.place.refuseAttempt

theorem passChar {l : LineNo} {x : Code} (h : s.Steady t) : s.Steady (t.passChar l x) := by
  unfold State.passChar
  dsimp only
  split
  · split
    · next hlt =>
      refine h.modDialog fun k => ⟨?_, k.2⟩
      simp only [List.length_append, List.length_singleton]; omega
    · exact h.place
  · split
    · exact h.place.ite (h.setField dropLast_le)
    · exact (h.setField fun _ => Nat.zero_le _).placeLine.ite (h.endPass.ite h.place)

theorem dialogChar {l : LineNo} {x : Code} (h : s.Steady t) : s.Steady (t.dialogChar l x) := by
  unfold State.dialogChar
  split
  · exact h.identChar
  · exact h.passChar
  all_goals exact h

end State.Steady

end Sys2Proof.Machine
end

