-- ==== Sys2Proof/Laws/SteadyAccess.lean ====
section
/-! SUPPORT. `Steady` for the accesses of the account store, the arbiter's round and the period roll:
Sys2Proof/Machine/StoreOps.lean. With them, the ranges of the fields an order carries (R153, R154). -/

namespace Sys2Proof.Machine

/-! ## Fields of an order -/

theorem beNat_lt (bs : List Byte) : beNat bs < 256 ^ bs.length := by
  have h : ∀ (bs : List Byte) v n, v < 256 ^ n → bs.foldl (fun v b => v * 256 + b.toNat) v < 256 ^ (n + bs.length) := by
    intro bs
    induction bs with
    | nil => intro v n h; simpa using h
    | cons b bs ih =>
      intro v n h
      rw [List.foldl_cons, List.length_cons, show n + (bs.length + 1) = (n + 1) + bs.length by omega]
      refine ih _ _ ?_
      have := b.isLt
      rw [pow_succ]
      omega
  simpa [beNat] using h bs 0 0 (by simp)

/-- A field of `n` bytes is below 256 ^ n. -/
theorem bodyField_lt (body : List Byte) (i n : Nat) : bodyField body i n < 256 ^ n :=
  (beNat_lt _).trans_le (Nat.pow_le_pow_right (by decide) (by simp))

theorem clampClass_le (n : Nat) : clampClass n ≤ 3 := Nat.min_le_right ..

theorem clampLimit_range (n : Nat) : 1 ≤ clampLimit n ∧ clampLimit n ≤ 4 := by unfold clampLimit; omega

theorem budgetOf_le {n b : Nat} (h : budgetOf n = some b) : b ≤ Config.unitMax := by
  unfold budgetOf at h
  split at h
  · cases h
  · cases h; exact Nat.min_le_right ..

theorem passCheckOf_le {n p : Nat} (h : passCheckOf n = some p) : p ≤ Config.unitMax := by
  unfold passCheckOf at h
  split at h
  · cases h; assumption
  · cases h

/-- The record an accepted ADD makes is in range (R30, R153). -/
theorem parseAdd_record_ok {b : List Byte} {f : AddFields} (h : parseAdd b = some f) (period : Nat) :
    (f.record period).ok := by
  unfold parseAdd at h
  dsimp only at h
  split at h
  · cases h
  · next hn =>
    split at h
    · next pass home hosts hp _ _ =>
      cases h
      have := bodyField_lt b 0 2
      refine ⟨by show 1 ≤ bodyField b 0 2; omega, by show bodyField b 0 2 ≤ 65535; omega, passCheckOf_le hp,
        clampClass_le _, fun x hx => budgetOf_le hx, (clampLimit_range _).1, (clampLimit_range _).2, Nat.zero_le _,
        fun _ => show 0 < Config.failureCap by decide, Nat.zero_le _⟩
    · cases h

/-- The settings an EDIT may write are in range. -/
def EditFields.ok (f : EditFields) : Prop :=
  (∀ p, f.passCheck = some p → p ≤ Config.unitMax) ∧ (∀ n, f.cls = some n → n ≤ 3) ∧
    (∀ x, f.budget = some (some x) → x ≤ Config.unitMax) ∧ ∀ n, f.limit = some n → 1 ≤ n ∧ n ≤ 4

theorem named_some {α : Type} {b : Bool} {v : Option α} {x : α} (h : named b v = some (some x)) : v = some x := by
  unfold named at h
  split at h
  · obtain ⟨y, hy, hxy⟩ := Option.map_eq_some_iff.1 h
    rw [hy, hxy]
  · cases h

theorem parseEdit_ok {b : List Byte} {f : EditFields} (h : parseEdit b = some f) : f.ok := by
  unfold parseEdit at h
  dsimp only at h
  split at h
  · cases h
  split at h
  · next st pass home hosts _ hp _ _ =>
    cases h
    refine ⟨fun p hp' => ?_, fun n hn => ?_, fun x hx => ?_, fun n hn => ?_⟩
    · subst hp'; exact passCheckOf_le (named_some hp)
    · dsimp only at hn
      split at hn
      · cases hn; exact clampClass_le _
      · cases hn
    · dsimp only at hx
      split at hx
      · exact budgetOf_le (Option.some.inj hx)
      · cases hx
    · dsimp only at hn
      split at hn
      · cases hn; exact clampLimit_range _
      · cases hn
  · cases h

/-- An accepted EDIT leaves a record in range (R30, R154). -/
theorem edited_ok {r : Record} {f : EditFields} (h : r.ok) (hf : f.ok) : (r.edited f).ok := by
  obtain ⟨h1, h2, h3, h4, h5, h6, h7, h8, h9, h10⟩ := h
  obtain ⟨f1, f2, f3, f4⟩ := hf
  refine ⟨h1, h2, ?_, ?_, fun b hb => ?_, ?_, ?_, ?_, fun ha => ?_, ?_⟩
  · show f.passCheck.getD r.passCheck ≤ _
    cases hp : f.passCheck with
    | none => exact h3
    | some p => exact f1 p hp
  · show f.cls.getD r.cls ≤ 3
    cases hp : f.cls with
    | none => exact h4
    | some p => exact f2 p hp
  · have hb : f.budget.getD r.budget = some b := hb
    cases hp : f.budget with
    | none => rw [hp] at hb; exact h5 b hb
    | some p => rw [hp] at hb; exact f3 b (by rw [hp]; exact congrArg some hb)
  · show 1 ≤ f.limit.getD r.limit
    cases hp : f.limit with
    | none => exact h6
    | some p => exact (f4 p hp).1
  · show f.limit.getD r.limit ≤ 4
    cases hp : f.limit with
    | none => exact h7
    | some p => exact (f4 p hp).2
  · show (if f.state = some .active then 0 else r.failures) ≤ _
    split
    · exact Nat.zero_le _
    · exact h8
  · have ha : f.state.getD r.state = .active := ha
    show (if f.state = some .active then 0 else r.failures) < _
    split
    · decide
    · next hs =>
      cases hp : f.state with
      | none => rw [hp] at ha; exact h9 ha
      | some p => rw [hp] at ha hs; exact absurd (congrArg some ha) hs
  · show bumpRevision r.revision _ ≤ 65535
    unfold bumpRevision
    omega

namespace State.Steady

variable {s t : State}

/-! ## Accesses as they are served -/

theorem serveReply {c : ChanNo} {w : StoreWrite} {o : Outcome} {body : List Byte} (h : s.Steady t)
    (hw : t.Sound → t.store.admits w) : s.Steady (t.serveReply c w o body) := h.serve hw

theorem serveAdd {c : ChanNo} {f : AddFields} (h : s.Steady t) (hf : ∀ period, (f.record period).ok) :
    s.Steady (t.serveAdd c f) := by
  unfold State.serveAdd
  split
  · exact h.serveReply fun _ => trivial
  · next hnew =>
    dsimp only
    split
    · next hlt =>
      have k : s.Steady (t.serveReply c
          (.insert (lowestFree 0 t.store.records) (f.record t.store.periodNumber)) .done
          (bytesBE 2 f.number ++ bytesBE 2 0)) :=
        h.serveReply fun k => ⟨hf _, hlt, (lowestFree_spec k.store.1 0 fun _ _ => Nat.zero_le _).1, hnew⟩
      exact k.setPresence
    · exact h.serveReply fun _ => trivial

theorem serveEdit {c : ChanNo} {f : EditFields} (h : s.Steady t) (hf : f.ok) : s.Steady (t.serveEdit c f) := by
  unfold State.serveEdit
  split
  · exact h.serveReply fun _ => trivial
  · next slot _ =>
    split
    · exact h.serveReply fun _ => trivial
    · next r hr =>
      dsimp only
      have k : s.Steady (t.serveReply c (.put slot (r.edited f)) .done (bytesBE 2 (r.edited f).revision)) :=
        h.serveReply fun j => admits_put j.store hr (fun hk => edited_ok hk hf) rfl
      refine ite (h.serveReply fun _ => trivial) (ite ?_ (recompute ?_))
      all_goals exact k.clearLines.ite k

theorem dropItem {slot : Nat} (h : s.Steady t) : s.Steady (t.dropItem slot) := by
  unfold State.dropItem
  split
  · exact foldl (fun _ _ h => h.answer) _ h.modCache
  · exact h

theorem dropEntry {slot : Nat} (h : s.Steady t) : s.Steady (t.dropEntry slot) := by
  unfold State.dropEntry
  split
  · exact h.leaveFlush.modCache.freeEntry
  · exact h

theorem serveDelete {c : ChanNo} {n : Nat} (h : s.Steady t) : s.Steady (t.serveDelete c n) := by
  unfold State.serveDelete
  split
  · exact h.serveReply fun _ => trivial
  · next slot hs =>
    split
    · exact h.serveReply fun _ => trivial
    · next r hr =>
      refine ite (h.serveReply fun _ => trivial) ?_
      have k : s.Steady (t.serveReply c (.remove slot n) .done
          (bytesBE 3 (min (r.used + t.pendingOf slot + t.closedUnits slot) Config.unitMax) ++ bytesBE 3 r.previous)) :=
        h.serveReply fun _ => hs
      exact (k.modArbiter fun j => j.admits).dropItem.dropEntry.setPresence.settle

theorem serveRead {c : ChanNo} {n : Nat} (h : s.Steady t) : s.Steady (t.serveRead c n) := by
  unfold State.serveRead
  split
  · exact h.serveReply fun _ => trivial
  · split
    · exact h.serveReply fun _ => trivial
    · exact h.recomputeUnset.serveReply fun _ => trivial

theorem serveList {c : ChanNo} {n : Nat} (h : s.Steady t) : s.Steady (t.serveList c n) := h.serveReply fun _ => trivial

theorem serveProbe {c : ChanNo} {n : Nat} (h : s.Steady t) : s.Steady (t.serveProbe c n) := by
  unfold State.serveProbe
  dsimp only
  split
  · exact h.serveReply fun _ => trivial
  · split
    · exact h.serveReply fun _ => trivial
    · exact h.recomputeUnset.serveReply fun _ => trivial

/-- The result of the access in progress does not change its write. -/
theorem setResult {r : AccessResult} (h : s.Steady t) : s.Steady (t.setResult r) :=
  h.modArbiter fun k => by
    have := k.admits
    unfold Arbiter.write at this ⊢
    cases hc : t.arbiter.current with
    | none => simp [Store.admits]
    | some a => simpa [hc] using this

theorem serveCharge {c : ChanNo} {n m : Nat} (h : s.Steady t) : s.Steady (t.serveCharge c n m) := by
  unfold State.serveCharge
  split
  · exact h.serveReply fun _ => trivial
  · have k : s.Steady (t.serve (.chan c) .nothing (.chargeWaits c)) := h.serve fun _ => trivial
    dsimp only
    split
    · next e u hx => exact (k.entryFor hx).postCharge.lookFree.setResult.settle
    · exact k.modItem.settle

theorem serveOrder {c : ChanNo} (h : s.Steady t) : s.Steady (t.serveOrder c) := by
  unfold State.serveOrder
  split
  · exact h
  · dsimp only
    split
    · split
      · next f hf => exact h.serveAdd (parseAdd_record_ok hf)
      · exact h
    · split
      · next f hf => exact h.serveEdit (parseEdit_ok hf)
      · exact h
    · exact h.serveDelete
    · exact h.serveRead
    · exact h.serveList
    · exact h.serveProbe
    · exact h.serveCharge
    · exact h

theorem offerOrder {c : ChanNo} (h : s.Steady t) : s.Steady (t.offerOrder c) := by
  unfold State.offerOrder
  refine h.ite ?_
  split
  · exact h.serveOrder
  · exact h.modArbiter fun k => k.admits

theorem offerHeld {c : ChanNo} (h : s.Steady t) : s.Steady (t.offerHeld c) := by
  unfold State.offerHeld
  split
  · exact h.offerOrder.ite h
  · exact h

/-! ## The period roll -/

theorem serveRoll {slot : Nat} (h : s.Steady t) : s.Steady (t.serveRoll slot) := by
  unfold State.serveRoll
  split
  · exact h.serve fun _ => trivial
  · next r hr =>
    refine ite (h.serve fun _ => trivial) ?_
    dsimp only
    have k : s.Steady (t.serve .roll (.put slot (r.rolled (t.pendingOf slot) t.store.periodNumber)) (.roll slot)) :=
      h.serve fun j => admits_put j.store hr (fun hk => hk) rfl
    refine settle (lookAccount (recompute ?_))
    split
    · exact k.modEntry.leaveFlush.ite k.modEntry
    · exact k

theorem rollVisit (h : s.Steady t) : s.Steady t.rollVisit := by
  unfold State.rollVisit
  split
  · exact h
  · split
    · next slot _ =>
      have k : s.Steady (t.modStore fun st => { st with rollIndex := slot }) := h.modStore rfl rfl rfl rfl id
      dsimp only
      split
      · exact k.serveRoll
      · exact k.modArbiter fun j => j.admits
    · have k : s.Steady (t.modStore fun st => { st with rollIndex := Config.slotCount, periodState := .opened }) :=
        h.modStore rfl rfl rfl rfl id
      exact k.noticeToUp

/-! ## The round and the completion -/

theorem serveWaiting {r : Requester} (h : s.Steady t) : s.Steady (t.serveWaiting r) := by
  unfold State.serveWaiting
  split
  · have k : s.Steady (t.modArbiter fun a => { a with signOn := false }) := h.modArbiter fun j => j.admits
    exact k.serveCheck
  · split
    · have k : s.Steady (t.modArbiter fun a => { a with writeBack := none }) := h.modArbiter fun j => j.admits
      exact k.serveWriteBack
    · exact h
  · split
    · have k : s.Steady (t.modArbiter fun a => { a with roll := none }) := h.modArbiter fun j => j.admits
      exact k.serveRoll
    · exact h
  · next c =>
    have k : s.Steady (t.modArbiter fun a => { a with chans := a.chans.set c false }) := h.modArbiter fun j => j.admits
    exact k.serveOrder

theorem serveNext {r : Requester} (h : s.Steady t) : s.Steady (t.serveNext r) := by
  have k : s.Steady (t.modArbiter fun a => { a with current := none }) := h.modArbiter fun _ => trivial
  unfold State.serveNext
  dsimp only
  split
  · exact k.serveWaiting
  · exact k

theorem flushWrittenOf {c : ChanNo} {e : Fin 32} {frees : Bool} (h : s.Steady t) :
    s.Steady (t.flushWrittenOf c e frees) := by
  unfold State.flushWrittenOf
  split
  · exact h
  · exact h.modCache.ite h.leaveFlushOf

theorem writeBackDone {e : Fin 32} (h : s.Steady t) : s.Steady (t.writeBackDone e) := by
  unfold State.writeBackDone
  dsimp only
  generalize ((t.entry e).pending - (t.entry e).snapshot = 0 &&
    ((t.entry e).evicted || !((t.entry e).slot.any fun k => t.meterOpen k)) : Bool) = frees
  have k : s.Steady (allChans.foldl (fun t c => t.flushWrittenOf c e frees)
      (t.modEntry e fun y => { y with pending := y.pending - y.snapshot, snapshot := 0, state := .gathering })) :=
    foldl (fun _ _ h => h.flushWrittenOf) _ h.modEntry
  generalize allChans.foldl (fun t c => t.flushWrittenOf c e frees)
      (t.modEntry e fun y => { y with pending := y.pending - y.snapshot, snapshot := 0, state := .gathering }) = u at k ⊢
  split
  · exact (recompute (k.freeEntry.ite k.lookDue)).offerWriteBack.settle
  · exact (k.freeEntry.ite k.lookDue).offerWriteBack.settle

theorem takeResult {r : AccessResult} (h : s.Steady t) : s.Steady (t.takeResult r) := by
  unfold State.takeResult
  split
  · exact h.offerHeld
  · exact h
  · exact h
  · exact h.checkResult.offerCheck
  · exact h.writeBackDone
  · exact h.offerWriteBack
  · next slot =>
    have k : s.Steady (t.modStore fun st => { st with rollIndex := slot + 1 }) := h.modStore rfl rfl rfl rfl id
    exact k.rollVisit
  · exact h.answer

theorem apply_config (st : Store) (w : StoreWrite) :
    (st.apply w).chanConfig = st.chanConfig ∧ (st.apply w).groupConfig = st.groupConfig := by
  cases w <;> exact ⟨rfl, rfl⟩

/-- The writes of the access in progress take effect, and it has nothing left to write. -/
theorem applyWrite {a : Access} (h : s.Steady t) (ha : t.arbiter.current = some a) :
    s.Steady ((t.modStore fun st => st.apply a.write).modArbiter fun b =>
      { b with current := some { a with write := .nothing, result := .taken } }) where
  sound hs :=
    let k := h.sound hs
    { lines := k.lines, chans := k.chans, rating := k.rating
      store := Store.apply_ok k.store (by have := k.admits; unfold Arbiter.write at this; simpa [ha] using this)
      admits := trivial, presence := k.presence, marker := k.marker }
  powered := h.powered
  setup := h.setup
  cause := h.cause
  pending := h.pending
  config hs := ⟨(apply_config ..).1.trans (h.config hs).1, (apply_config ..).2.trans (h.config hs).2⟩

theorem completeAccess (h : s.Steady t) : s.Steady t.completeAccess := by
  unfold State.completeAccess
  split
  · exact h
  · next a ha => exact (h.applyWrite ha).takeResult.serveNext

end State.Steady

end Sys2Proof.Machine
end

