-- ==== Sys2Proof/Laws/SteadyOrders.lean ====
section
/-! SUPPORT. `Steady` for the orders and the failure of a channel: Sys2Proof/Machine/OrderOps.lean. With them, the ranges
of tariff items and of configuration items (R42, R114). -/

namespace Sys2Proof.Machine

/-! ## Tariff items -/

/-- An item whose value is within R113. -/
def TariffItem.ok : TariffItem → Prop
  | .rate _ _ _ v => ∀ n, v = some n → n ≤ 60000
  | .minimum _ v => v ≤ 255
  | .percent _ v => v ≤ 250
  | .rounding _ | .switchList _ _ => True

theorem rateOf_le {n r : Nat} (h : rateOf n = some r) : r ≤ 60000 := by
  unfold rateOf at h
  split at h
  · cases h
  · cases h; exact Nat.min_le_right ..

theorem parseItem_ok {bs : List Byte} {x : TariffItem × List Byte} (h : parseItem bs = some x) : x.1.ok := by
  unfold parseItem at h
  split at h
  · split at h
    · split at h
      · split at h
        · split at h
          · cases h; exact fun n hn => rateOf_le hn
          · cases h
        · cases h
      · cases h
    · split at h
      · split at h
        · obtain ⟨c, _, rfl⟩ := Option.map_eq_some_iff.1 h
          exact Nat.min_le_right ..
        · cases h
      · split at h
        · split at h
          · split at h
            · cases h; exact Nat.min_le_right ..
            · cases h
          · cases h
        · split at h
          · split at h
            · obtain ⟨m, _, rfl⟩ := Option.map_eq_some_iff.1 h
              trivial
            · cases h
          · split at h
            · split at h
              · split at h
                · split at h
                  · cases h; trivial
                  · cases h
                · cases h
              · cases h
            · cases h
  · cases h

theorem parseItems_ok (n : Nat) {bs : List Byte} {items : List TariffItem} (h : parseItems n bs = some items) :
    ∀ x ∈ items, x.ok := by
  induction n generalizing bs items with
  | zero =>
    cases bs with
    | nil => simp [parseItems] at h; subst h; simp
    | cons b bs => simp [parseItems] at h
  | succ n ih =>
    cases bs with
    | nil => simp [parseItems] at h; subst h; simp
    | cons b bs =>
      unfold parseItems at h
      split at h
      · next item rest hx =>
        obtain ⟨xs, hxs, rfl⟩ := Option.map_eq_some_iff.1 h
        intro y hy
        rcases List.mem_cons.1 hy with rfl | hy
        · exact parseItem_ok hx
        · exact ih hxs y hy
      · cases h

theorem mem_set {α : Type} {n : Nat} {v : Vector α n} {i : Nat} {h : i < n} {a b : α} (hb : b ∈ v.set i a h) :
    b = a ∨ b ∈ v := by
  obtain ⟨j, hj, rfl⟩ := Vector.mem_iff_getElem.1 hb
  rw [Vector.getElem_set]
  split
  · exact .inl rfl
  · exact .inr (Vector.getElem_mem _)

theorem mem_setIfInBounds {α : Type} {n : Nat} {v : Vector α n} {i : Nat} {a b : α} (hb : b ∈ v.setIfInBounds i a) :
    b = a ∨ b ∈ v := by
  obtain ⟨j, hj, rfl⟩ := Vector.mem_iff_getElem.1 hb
  rw [Vector.getElem_setIfInBounds]
  split
  · exact .inl rfl
  · exact .inr (Vector.getElem_mem _)

theorem write_ok {b : Bank} (h : b.ok) {x : TariffItem} (hx : x.ok) : (b.write x).ok := by
  obtain ⟨h1, h2, h3⟩ := h
  cases x with
  | rate c k p v => exact ⟨fun w hw => (mem_setIfInBounds hw).elim (fun e => e ▸ hx) (h1 w), h2, h3⟩
  | minimum c v => exact ⟨h1, h2, fun w hw => (mem_set (h := c.isLt) hw).elim (fun e => e ▸ hx) (h3 w)⟩
  | percent k v => exact ⟨h1, fun w hw => (mem_setIfInBounds hw).elim (fun e => e ▸ hx) (h2 w), h3⟩
  | rounding m => exact ⟨h1, h2, h3⟩
  | switchList d ps => cases d <;> exact ⟨h1, h2, h3⟩

theorem writes_ok {xs : List TariffItem} {b : Bank} (h : b.ok) (hx : ∀ x ∈ xs, x.ok) : (xs.foldl Bank.write b).ok := by
  induction xs generalizing b with
  | nil => exact h
  | cons x xs ih => exact ih (write_ok h (hx x (by simp))) fun y hy => hx y (by simp [hy])

/-! ## Configuration items -/

theorem charCode_range {n : Nat} (h : 1 ≤ n ∧ n ≤ 31) : 1 ≤ (charCode n).toNat ∧ (charCode n).toNat ≤ 31 := by
  simp only [charCode, BitVec.toNat_ofNat]
  omega

theorem groupWrite_ok {g g' : GroupConfig} {r v : Nat} (h : g.ok) (hw : g.write r v = some g') : g'.ok := by
  obtain ⟨h1, h2, h3, h4, h5⟩ := h
  unfold GroupConfig.write at hw
  split at hw
  · split at hw <;> cases hw
    exact ⟨h1, h2, h3, h4, h5⟩
  · split at hw
    · split at hw <;> cases hw
      next hv => exact ⟨hv, h2, h3, h4, h5⟩
    · split at hw
      · obtain ⟨p, _, rfl⟩ := Option.map_eq_some_iff.1 hw
        exact ⟨h1, h2, h3, h4, h5⟩
      · split at hw
        · split at hw <;> cases hw
          next hv => exact ⟨h1, (charCode_range hv).1, (charCode_range hv).2, h4, h5⟩
        · split at hw
          · split at hw <;> cases hw
            next hv => exact ⟨h1, h2, h3, hv.1, hv.2⟩
          · cases hw

/-- A configuration item stored leaves the rest of the store, and its settings are in range (R23, R42). -/
theorem writeItem_ok {st st' : Store} {i v : Nat} (h : st.writeItem i v = some st') :
    st'.records = st.records ∧ st'.directory = st.directory ∧ st'.banner = st.banner ∧
      ((∀ g, (st.groupConfig.get g).ok) → ∀ g, (st'.groupConfig.get g).ok) := by
  unfold Store.writeItem at h
  split at h
  · obtain ⟨g, _, rfl⟩ := Option.map_eq_some_iff.1 h
    exact ⟨rfl, rfl, rfl, id⟩
  · split at h
    · obtain ⟨g, hg, rfl⟩ := Option.map_eq_some_iff.1 h
      refine ⟨rfl, rfl, rfl, fun hk k => ?_⟩
      have hm := groupWrite_ok (hk _) hg
      simp only [Vector.get_eq_getElem, Vector.getElem_set]
      split
      · exact hm
      · exact hk k
    · cases h

/-! ## Attaching -/

theorem parseAttach_ports {b : List Byte} {a : AttachFields} (h : parseAttach b = some a) :
    a.params.portCount ≤ Config.portCap := by
  unfold parseAttach at h
  dsimp only at h
  split at h
  · cases h; exact Nat.min_le_right ..
  · cases h

theorem newPorts_ok (a : AttachParams) : ∀ x ∈ newPorts a, x.ok := by
  intro x hx
  obtain ⟨i, _, rfl⟩ := List.mem_map.1 hx
  exact State.Steady.noFlow rfl

namespace State.Steady

variable {s t : State}

/-! ## Line orders -/

theorem disableLine {l : LineNo} (h : s.Steady t) : s.Steady (t.disableLine l) := by
  have k : s.Steady (t.modUnit l fun u => { u with enabled := false }) := h.modUnit fun k => ⟨k.1, k.2⟩
  unfold State.disableLine
  dsimp only
  split
  · exact k.modUnit fun j => ⟨j.1, j.2.1, j.2.2.1, Nat.zero_le _, j.2.2.2.2⟩
  · exact k.clearLine

theorem enableLine {l : LineNo} (h : s.Steady t) : s.Steady (t.enableLine l) := by
  have k : s.Steady (t.modUnit l fun u => { u with enabled := true }) := h.modUnit fun k => ⟨k.1, k.2⟩
  unfold State.enableLine
  dsimp only
  split
  · exact (k.modUnit fun j => ⟨j.1, j.2⟩).ite (k.modUnit rest_ok)
  · exact k

theorem releaseLine {l : LineNo} (h : s.Steady t) : s.Steady (t.releaseLine l) := by
  unfold State.releaseLine
  refine ite (h.modUnit fun k => ?_) h
  have j : LineUnit.ok { t.unit l with quietTimer := false } := ⟨k.1, k.2⟩
  exact rest_ok j

theorem restoreLine {l : LineNo} (h : s.Steady t) : s.Steady (t.restoreLine l) := (h.setHealth (Nat.zero_le _)).releaseLine

theorem resetLine {l : LineNo} (h : s.Steady t) : s.Steady (t.resetLine l) := by
  unfold State.resetLine
  dsimp only
  have k : s.Steady (((t.clearLine l .groupReset).setHealth l 0 .good).releaseLine l) :=
    (h.clearLine.setHealth (Nat.zero_le _)).releaseLine
  generalize ((t.clearLine l .groupReset).setHealth l 0 .good).releaseLine l = u at k ⊢
  exact ite (k.modUnit fun j => ⟨j.1, j.2.1, j.2.2.1, Nat.zero_le _, j.2.2.2.2⟩) k

/-! ## Channel orders -/

theorem clearFaults {c : ChanNo} (h : s.Steady t) : s.Steady (t.modChan c Channel.clearFaults) :=
  h.modChan fun k => ⟨k.1, k.2.1, Nat.zero_le _, k.2.2.2⟩

theorem orderAttach {c : ChanNo} {o : Order} (h : s.Steady t) : s.Steady (t.orderAttach c o) := by
  unfold State.orderAttach
  split
  · exact h.answer
  · next a ha =>
    dsimp only
    have k : s.Steady (if (t.chan c).state = .up then
        (t.endPorts c .hostRestart (hostText c " RESTARTED")).modChan c Channel.clearFaults else t) :=
      h.endPorts.clearFaults.ite h
    generalize (if (t.chan c).state = .up then
        (t.endPorts c .hostRestart (hostText c " RESTARTED")).modChan c Channel.clearFaults else t) = u at k ⊢
    exact (k.modChan fun j => ⟨j.1, j.2.1, j.2.2.1,
      by simpa [newPorts] using parseAttach_ports ha, newPorts_ok _⟩).answer

theorem orderDetach {c : ChanNo} (h : s.Steady t) : s.Steady (t.orderDetach c) := by
  have k : s.Steady (t.modChan c fun ch => { ch with state := .quiescing }) := h.modChan fun j => ⟨j.1, j.2⟩
  exact (foldl (fun _ _ h => h.dropOpening) _ k.answer.dropQueue).quiesceIfDone

theorem orderIdle {c : ChanNo} (h : s.Steady t) : s.Steady (t.orderIdle c) := h.answer.modChan fun j => ⟨j.1, j.2⟩

theorem orderSync {c : ChanNo} (h : s.Steady t) : s.Steady (t.orderSync c) :=
  h.answer.modChan fun j => ⟨j.1, j.2.1, Nat.zero_le _, j.2.2.2⟩

/-! ## Port orders -/

theorem withPort {c : ChanNo} {o : Order} {act : Nat → Port → State} (h : s.Steady t)
    (ha : ∀ p x, s.Steady (act p x)) : s.Steady (t.withPort c o act) := by
  unfold State.withPort
  dsimp only
  split
  · exact ha _ _
  · exact h.answer

theorem bindPort {c : ChanNo} {p : Nat} {x : Port} (h : s.Steady t) : s.Steady (t.bindPort c p x) := by
  unfold State.bindPort
  split
  · exact h
  · dsimp only
    have k : s.Steady (t.modPort c p fun y => { y with state := .bound, timer := false, flow := some {} }) :=
      h.modPort fun _ _ _ f hf => by cases hf; exact Nat.zero_le _
    generalize (t.modPort c p fun y => { y with state := .bound, timer := false, flow := some {} }) = u at k ⊢
    exact (k.openMeter.modCtx fun j => ⟨j.1, j.2⟩).toConnected

theorem orderAccept {c : ChanNo} {o : Order} (h : s.Steady t) : s.Steady (t.orderAccept c o) :=
  h.withPort fun p x => by
    split
    · exact h.bindPort.answer
    all_goals exact h.answer

theorem refuseOpening {c : ChanNo} {p : Nat} (h : s.Steady t) : s.Steady (t.refuseOpening c p) := h.dropOpening.portFree

theorem orderRefuse {c : ChanNo} {o : Order} (h : s.Steady t) : s.Steady (t.orderRefuse c o) :=
  h.withPort fun p x => by
    split
    · exact h.refuseOpening.answer
    all_goals exact h.answer

theorem orderClosePort {c : ChanNo} {o : Order} (h : s.Steady t) : s.Steady (t.orderClosePort c o) :=
  h.withPort fun p x => by
    split
    · exact h.removeSession.portFree.answer
    · exact h.portFree.answer
    all_goals exact h.answer

theorem orderCloseAck {c : ChanNo} {o : Order} (h : s.Steady t) : s.Steady (t.orderCloseAck c o) :=
  h.withPort fun p x => by
    split
    · exact h.portFree.answer
    all_goals exact h.answer

/-! ## Account orders -/

theorem orderAdd {c : ChanNo} {o : Order} (h : s.Steady t) : s.Steady (t.orderAdd c o) := by
  unfold State.orderAdd
  split
  · exact h.offerOrder
  · exact h.answer

theorem orderEdit {c : ChanNo} {o : Order} (h : s.Steady t) : s.Steady (t.orderEdit c o) := by
  unfold State.orderEdit
  split
  · exact h.offerOrder
  · exact h.answer

theorem orderCharge {c : ChanNo} {o : Order} (h : s.Steady t) : s.Steady (t.orderCharge c o) := h.answer.ite h.offerOrder

theorem orderFlush {c : ChanNo} (h : s.Steady t) : s.Steady (t.orderFlush c) := by
  unfold State.orderFlush
  exact h.answer.ite (foldl (fun _ _ h => h.lookDue) _ h.modCache)

/-! ## Operator orders and reports -/

theorem orderSetTime {c : ChanNo} {o : Order} (h : s.Steady t) : s.Steady (t.orderSetTime c o) := by
  unfold State.orderSetTime
  dsimp only
  split
  · exact h.answer
  · next hr =>
    have k : s.Steady (t.modRating fun r =>
        { r with calendar := { weekday := bodyField o.body 0 1, time := bodyField o.body 1 3 } }) :=
      h.modRating fun j => ⟨⟨by dsimp only; omega, by dsimp only; omega⟩, j.2⟩
    exact k.loadSegments.answer

theorem orderSetBanner {c : ChanNo} {o : Order} (h : s.Steady t) : s.Steady (t.orderSetBanner c o) := by
  have k : s.Steady (t.modStore fun st => { st with banner := codesOf (o.body.take Config.bannerCap) }) :=
    h.modStore rfl rfl rfl rfl fun _ => by simp [codesOf]
  exact k.answer.ite h.answer

theorem orderLoadTariff {c : ChanNo} {o : Order} (h : s.Steady t) : s.Steady (t.orderLoadTariff c o) := by
  unfold State.orderLoadTariff
  split
  · next items hi =>
    have k : s.Steady (t.modRating fun r => { r with standby := items.foldl Bank.write r.standby, armed := false }) :=
      h.modRating fun j => ⟨j.1, j.2.1, writes_ok j.2.2.1 (parseItems_ok _ hi), j.2.2.2⟩
    exact k.answer
  · exact h.answer

theorem orderArmTariff {c : ChanNo} (h : s.Steady t) : s.Steady (t.orderArmTariff c) := by
  have k : s.Steady (t.modRating fun r => { r with armed := true }) := h.modRating fun j => j
  exact k.answer

theorem orderClosePeriod {c : ChanNo} (h : s.Steady t) : s.Steady (t.orderClosePeriod c) := by
  unfold State.orderClosePeriod
  split
  · exact h.answer
  · have k : s.Steady (t.modStore fun st =>
        { st with periodNumber := (t.store.periodNumber + 1) % 65536, periodState := .closing, rollIndex := 0,
                  chargesLost := false }) := h.modStore rfl rfl rfl rfl id
    exact k.answer.rollVisit

theorem withLine {c : ChanNo} {o : Order} {act : LineNo → State} (h : s.Steady t) (ha : ∀ l, s.Steady (act l)) :
    s.Steady (t.withLine c o act) := by
  unfold State.withLine
  split
  · exact ha _
  · exact h.answer

theorem orderEnableLine {c : ChanNo} {o : Order} (h : s.Steady t) : s.Steady (t.orderEnableLine c o) :=
  h.answer.ite (h.withLine fun _ => h.enableLine.answer)

theorem orderDisableLine {c : ChanNo} {o : Order} (h : s.Steady t) : s.Steady (t.orderDisableLine c o) :=
  h.answer.ite (h.withLine fun _ => h.disableLine.answer)

theorem orderRestoreLine {c : ChanNo} {o : Order} (h : s.Steady t) : s.Steady (t.orderRestoreLine c o) :=
  h.withLine fun _ => h.restoreLine.answer

theorem orderResetGroup {c : ChanNo} {o : Order} (h : s.Steady t) : s.Steady (t.orderResetGroup c o) :=
  h.answer.ite (foldl (fun _ _ h => h.resetLine) _ h).answer

theorem orderRestart (h : s.Steady t) : s.Steady t.orderRestart := foldl (fun _ _ h => h.lookDue) _ h.modCache

theorem orderReadLine {c : ChanNo} {o : Order} (h : s.Steady t) : s.Steady (t.orderReadLine c o) :=
  h.withLine fun _ => h.answer

theorem orderReadTariff {c : ChanNo} {o : Order} (h : s.Steady t) : s.Steady (t.orderReadTariff c o) := by
  unfold State.orderReadTariff
  split <;> exact h.answer

/-- WRITE CONFIG changes the configuration in SETUP only (R177). -/
theorem storeConfig {st : Store} {i v : Nat} (h : s.Steady t) (hs : t.setup = true)
    (hw : t.store.writeItem i v = some st) : s.Steady { t with store := { st with initialised := false } } := by
  obtain ⟨hr, hd, hb, hg⟩ := writeItem_ok hw
  exact
    { sound := fun hk =>
        let k := h.sound hk
        { lines := k.lines, chans := k.chans, rating := k.rating
          store := by
            obtain ⟨h1, h2, h3, h4, h5, h6⟩ := k.store
            exact ⟨hr ▸ h1, hd ▸ h2, by simp only [Store.matched, hr, hd]; exact h3, hr ▸ h4, hg h5, hb ▸ h6⟩
          admits := by
            have := k.admits
            revert this
            show t.store.admits t.arbiter.write → Store.admits { st with initialised := false } t.arbiter.write
            cases t.arbiter.write <;> simp only [Store.admits, hr, hd] <;> exact id
          presence := k.presence, marker := k.marker }
      powered := h.powered
      setup := h.setup
      cause := h.cause
      pending := h.pending
      config := fun h0 => absurd hs (by rw [h.setup, h0]; decide) }

theorem orderWriteConfig {c : ChanNo} {o : Order} (h : s.Steady t) : s.Steady (t.orderWriteConfig c o) := by
  unfold State.orderWriteConfig
  split
  · exact h.answer
  · next hs =>
    split
    · next st hw => exact (h.storeConfig (by simpa using hs) hw).answer
    · exact h.answer

/-! ## Arrival, execution and replies -/

theorem runOrder {c : ChanNo} {o : Order} (h : s.Steady t) : s.Steady (t.runOrder c o) := by
  unfold State.runOrder
  split
  · exact h.orderAttach
  · exact h.orderDetach
  · exact h.orderIdle
  · exact h.orderSync
  · exact h.orderAccept
  · exact h.orderRefuse
  · exact h.orderClosePort
  · exact h.orderCloseAck
  · exact h.orderAdd
  · exact h.orderEdit
  · exact h.offerOrder
  · exact h.offerOrder
  · exact h.offerOrder
  · exact h.offerOrder
  · exact h.orderCharge
  · exact h.orderFlush
  · exact h.orderSetTime
  · exact h.orderSetBanner
  · exact h.orderLoadTariff
  · exact h.orderArmTariff
  · exact h.orderClosePeriod
  · exact h.orderEnableLine
  · exact h.orderDisableLine
  · exact h.orderRestoreLine
  · exact h.orderResetGroup
  · exact h.orderRestart
  · exact h.orderReadLine
  · exact h.orderReadTariff
  · exact h.answer
  · exact h.orderWriteConfig
  · exact h.answer

theorem executeHead {c : ChanNo} (h : s.Steady t) : s.Steady (t.executeHead c) := by
  unfold State.executeHead
  split
  · exact h
  · split
    · exact h.answer
    · exact h.runOrder

theorem heard {c : ChanNo} (h : s.Steady t) : s.Steady (t.heard c) := by
  refine h.modChan fun k => ?_
  split <;> exact ⟨k.1, k.2⟩

theorem arrive {c : ChanNo} {code : Byte} {f : OrderFrame} (h : s.Steady t) : s.Steady (t.arrive c code f) := by
  unfold State.arrive
  dsimp only
  split
  · exact h.heard.modChan fun k => ⟨k.1, k.2⟩
  · next hlt =>
    have k : s.Steady ((t.heard c).modChan c fun ch => { ch with orders := ch.orders ++ [orderOf code f] }) := by
      refine h.heard.modChan fun k => ⟨?_, k.2⟩
      have he : ((t.heard c).chan c).orders = (t.chan c).orders := by
        simp only [State.heard, State.chan_modChan_self]
        split <;> rfl
      rw [he]
      simp only [List.length_append, List.length_singleton]
      omega
    exact k.executeHead.ite k

theorem sendReply {c : ChanNo} (h : s.Steady t) : s.Steady (t.sendReply c) := by
  unfold State.sendReply
  split
  · exact h.modChan fun k => ⟨k.1, k.2⟩
  · next r _ _ =>
    have k : s.Steady (t.modChan c fun ch =>
        { ch with orders := ch.orders.tail, reply := none, linkOut := some (.reply r) }) :=
      h.modChan fun k => ⟨by rw [List.length_tail]; exact (Nat.sub_le ..).trans k.1, k.2⟩
    exact k.executeHead
  · exact h

/-! ## Failure -/

theorem dropOrders {c : ChanNo} (h : s.Steady t) : s.Steady (t.dropOrders c) := by
  have k : s.Steady (t.modArbiter fun a =>
      { a with chans := a.chans.set c false,
               current := a.current.map fun x =>
                 if x.who = .chan c ∧ x.result ≠ .taken then { x with result := .discarded c } else x }) := by
    refine h.modArbiter fun j => ?_
    have hw := j.admits
    unfold Arbiter.write at hw ⊢
    cases hc : t.arbiter.current with
    | none => simp [Store.admits]
    | some x =>
      rw [hc] at hw
      simp only [Option.map_some, Option.getD_some] at hw ⊢
      split <;> exact hw
  unfold State.dropOrders
  dsimp only
  generalize (t.modArbiter fun a =>
      { a with chans := a.chans.set c false,
               current := a.current.map fun x =>
                 if x.who = .chan c ∧ x.result ≠ .taken then { x with result := .discarded c } else x }) = u at k ⊢
  exact modChan k.modCache fun j => ⟨Nat.zero_le _, j.2⟩

theorem channelFail {c : ChanNo} (h : s.Steady t) : s.Steady (t.channelFail c) := by
  have k : s.Steady (t.modChan c fun ch => { ch with state := .failed, silence := false }) :=
    h.modChan fun j => ⟨j.1, j.2⟩
  unfold State.channelFail
  dsimp only
  have j := (k.endPorts (c := c) (x := .hostFailed) (cs := hostText c " NOT RESPONDING")).dropOrders (c := c)
  generalize State.dropOrders (State.endPorts (t.modChan c fun ch => { ch with state := .failed, silence := false }) c
    .hostFailed (hostText c " NOT RESPONDING")) c = u at j ⊢
  exact j.modChan fun i => ⟨i.1, Nat.zero_le _, Nat.zero_le _, i.2.2.2⟩

end State.Steady

end Sys2Proof.Machine
end

