-- ==== Sys2Proof/Laws/SteadyExec.lean ====
section
/-! SUPPORT. `Steady` for the events: what a caller's characters do, the line's and the other timers, the billing second,
and the link. What the full resets and the loss of the supply leave sound. -/

namespace Sys2Proof.Machine

namespace State.Steady

variable {s t : State}

/-! ## Finding the speed -/

theorem failAttempt {l : LineNo} (h : s.Steady t) : s.Steady (t.failAttempt l) := by
  unfold State.failAttempt
  dsimp only
  split
  · exact h.modUnit fun k => ⟨k.1, k.2.1, k.2.2.1, k.2.2.2.1, (Nat.sub_le ..).trans k.2.2.2.2⟩
  · have k : s.Steady (t.modUnit l fun u => { u with attempts := 0, awaitMark := true }) :=
      h.modUnit fun k => ⟨k.1, k.2.1, k.2.2.1, k.2.2.2.1, Nat.zero_le _⟩
    exact k.clearLine.raiseScore

theorem attemptSpeed {l : LineNo} {n : Nat} {x : Code} (h : s.Steady t) : s.Steady (t.attemptSpeed l n x) := by
  unfold State.attemptSpeed
  split
  · next v _ =>
    have k : s.Steady (t.modUnit l fun u => { u with state := .signOn, speed := some v, speedWindow := false }) :=
      h.modUnit fun k => ⟨k.1, k.2⟩
    exact k.enterSignOn.ite h.failAttempt
  · exact h.failAttempt

/-! ## Command mode -/

theorem emptyField {l : LineNo} (h : s.Steady t) : s.Steady (t.emptyField l) := h.modCtx fun k => ⟨k.1, Nat.zero_le _⟩

theorem runCommand {l : LineNo} {k : TypedCommand} (h : s.Steady t) : s.Steady (t.runCommand l k) := by
  cases k with
  | empty => exact h.prompt
  | connect c => exact h.runConnect
  | resume => exact h.runResume
  | rotate => exact h.runRotate
  | endSession => exact h.runEnd
  | logoff => exact h.runLogoff (l := l) (x := .logoff)
  | status => exact h.runStatus
  | unknown => exact h.commandReply

theorem commandChar {l : LineNo} {x : Code} (h : s.Steady t) : s.Steady (t.commandChar l x) := by
  have k : s.Steady (t.modCtx l fun y => { y with idleTimer := true }) := h.modCtx fun k => ⟨k.1, k.2⟩
  unfold State.commandChar
  dsimp only
  split
  · split
    · next hlt =>
      refine (k.modCtx fun j => ⟨j.1, ?_⟩).place
      simp only [List.length_append, List.length_singleton]
      omega
    · exact k.place
  · split
    · refine k.place.ite (k.modCtx fun j => ⟨j.1, ?_⟩).place
      have := j.2
      simp only [State.ctx_modCtx] at this
      simp only [List.length_dropLast]
      exact (Nat.sub_le ..).trans this
    · exact k.emptyField.prompt.ite (k.emptyField.runCommand.ite k.place)

/-! ## The attention character -/

theorem abandon {l : LineNo} (h : s.Steady t) : s.Steady (t.abandon l) := h.leaveQueues.closeOpenings.returnToCommand

theorem setAttention {l : LineNo} {a : Attention} {b : Bool} (h : s.Steady t) :
    s.Steady (t.modCtx l fun y => { y with attention := a, attentionTimer := b }) := h.modCtx fun k => ⟨k.1, k.2⟩

theorem connectedChar {l : LineNo} {x : Code} (h : s.Steady t) : s.Steady (t.connectedChar l x) := by
  unfold State.connectedChar
  dsimp only
  split
  · exact h.setAttention.ite h.inputChar
  · exact h.setAttention.inputChar.ite h.setAttention.leaveConnected.commandChar

theorem takeChar {l : LineNo} {x : Code} (h : s.Steady t) : s.Steady (t.takeChar l x) := by
  unfold State.takeChar
  split
  · exact h.dialogChar
  · exact h.commandChar
  · exact h.abandon.ite h.place
  · exact h.connectedChar
  all_goals exact h

theorem receiveChar {l : LineNo} {x : Code} {p b : Bool} (h : s.Steady t) : s.Steady (t.receiveChar l x p b) :=
  h.ite (h.takeChar.ite h.faultScore)

theorem sendBreak {l : LineNo} (h : s.Steady t) : s.Steady (t.sendBreak l) := by
  unfold State.sendBreak
  split
  · exact h
  · exact h.queueData.ite (h.noInput.modCtx fun k => ⟨k.1, k.2⟩).queueData

/-! ## Sending -/

theorem startMessage {l : LineNo} {x : Code} {rest : List Code} (h : s.Steady t)
    (hr : (t.unit l).partMsg = x :: rest) : s.Steady (t.startMessage l x rest) := by
  have k : s.Steady (t.modUnit l fun u => { u with partMsg := rest, sending := some (t.framed l x) }) := by
    refine h.modUnit fun k => ⟨k.1, ?_, k.2.2⟩
    have := k.2.1
    rw [hr, List.length_cons] at this
    exact (Nat.le_succ _).trans this
  exact k.startGuard.ite k

theorem startOutput {l : LineNo} (h : s.Steady t) : s.Steady (t.startOutput l) := by
  unfold State.startOutput
  split
  · exact h
  · next e _ =>
    split
    · exact h
    · next f hf =>
      split
      · exact h
      · next x rest hx =>
        dsimp only
        have k : s.Steady (t.modFlow e.channel e.port fun g =>
            { g with output := rest,
                     stopSent := g.stopSent && !(f.stopSent && decide (rest.length = Config.startAt)) }) := by
          refine h.modFlow fun g hg hle => ?_
          rw [hf] at hg
          cases hg
          rw [hx, List.length_cons] at hle
          exact (Nat.le_succ _).trans hle
        generalize (t.modFlow e.channel e.port fun g =>
            { g with output := rest,
                     stopSent := g.stopSent && !(f.stopSent && decide (rest.length = Config.startAt)) }) = u at k ⊢
        have j : s.Steady (u.modUnit l fun v => { v with sending := some (t.framed l x) }) :=
          k.modUnit fun k => ⟨k.1, k.2⟩
        exact j.indicate.ite j

theorem startNext {l : LineNo} (h : s.Steady t) : s.Steady (t.startNext l) := by
  unfold State.startNext
  refine ite ?_ h
  split
  · next x rest hx => exact h.startMessage hx
  · exact h.startOutput.ite h

theorem started (h : s.Steady t) : s.Steady t.started := foldl (fun _ _ h => h.startNext) _ h

theorem charSent {l : LineNo} (h : s.Steady t) : s.Steady (t.charSent l) := h.modUnit fun k => ⟨k.1, k.2⟩

/-! ## Line events -/

theorem whenOn {u : State} (h : s.Steady t) (k : s.Steady u) : s.Steady (t.whenOn u) := k.started.ite h

theorem ringLine {l : LineNo} (h : s.Steady t) : s.Steady (t.ringLine l) where
  sound hs := by
    have hk := h.sound hs
    unfold State.ringLine
    dsimp only
    split
    · split
      · exact ((refl t).modUnit fun k => ⟨k.1, k.2.1, k.2.2.1, Nat.zero_le _, k.2.2.2.2⟩).sound hk
      · next hlt =>
        have := (hk.store.2.2.2.2.1 (groupOf l)).2.2.2.2
        have hg : (t.store.groupConfig.get (groupOf l)).ringCount = (t.group l).ringCount := rfl
        exact ((refl t).modUnit fun k => ⟨k.1, k.2.1, k.2.2.1, by dsimp only; omega, k.2.2.2.2⟩).sound hk
    · exact hk
  powered := by unfold State.ringLine; dsimp only; split <;> [split; skip] <;> exact h.powered
  setup := by unfold State.ringLine; dsimp only; split <;> [split; skip] <;> exact h.setup
  cause := by unfold State.ringLine; dsimp only; split <;> [split; skip] <;> exact h.cause
  pending := by unfold State.ringLine; dsimp only; split <;> [split; skip] <;> exact h.pending
  config := by unfold State.ringLine; dsimp only; split <;> [split; skip] <;> exact h.config

theorem carrierUp {l : LineNo} (h : s.Steady t) : s.Steady (t.carrierUp l) := by
  have k : s.Steady (t.modUnit l fun u => { u with lineHit := false }) := h.modUnit fun k => ⟨k.1, k.2⟩
  exact ite (h.modUnit fun k => ⟨k.1, k.2.1, k.2.2.1, k.2.2.2.1, show 3 ≤ 3 by decide⟩) (k.faultScore.ite h)

theorem carrierDown {l : LineNo} (h : s.Steady t) : s.Steady (t.carrierDown l) := by
  have k : s.Steady (t.modUnit l fun u => { u with lineHit := true }) := h.modUnit fun k => ⟨k.1, k.2⟩
  unfold State.carrierDown
  split
  · exact k
  · exact k
  · exact k
  · exact k
  · exact k
  · exact h.ite h.startGuard
  all_goals exact h

theorem hitExpired {l : LineNo} (h : s.Steady t) : s.Steady (t.hitExpired l) :=
  (h.raiseScore.raiseScore.ite h.raiseScore).clearLine

theorem afterGuard_ok {u : LineUnit} (h : u.ok) : u.afterGuard.ok := by
  unfold LineUnit.afterGuard
  dsimp only
  have k : LineUnit.ok { u with guardTimer := false, speed := none, partMsg := [] } := ⟨h.1, Nat.zero_le _, h.2.2⟩
  split
  · exact ⟨k.1, k.2⟩
  · exact rest_ok k

/-! ## Other timers -/

theorem forwardExpired {l : LineNo} (h : s.Steady t) : s.Steady (t.forwardExpired l) := by
  have k : s.Steady (t.modCtx l fun x => { x with forwardTimer := false }) := h.modCtx fun k => ⟨k.1, k.2⟩
  unfold State.forwardExpired
  dsimp only
  split
  · exact k
  · exact k.ite k.sendInput

theorem graceExpired {slot : Nat} (h : s.Steady t) : s.Steady (t.graceExpired slot) :=
  foldl (fun _ _ h => h.showText.clearLine) _ h.setBudgetState.budgetNotice

theorem typed {l : LineNo} {k : TypedCommand} (h : s.Steady t) : s.Steady (t.typed l k) := h.emptyField.runCommand.ite h

theorem waitExpired {c : ChanNo} {l : LineNo} (h : s.Steady t) : s.Steady (t.waitExpired c l) := by
  have k : s.Steady (t.modChan c fun ch => { ch with queue := ch.queue.filter fun w => w.line != l }) :=
    h.modChan fun k => ⟨k.1, k.2⟩
  exact k.returnToCommand

theorem acceptExpired {c : ChanNo} {p : Nat} {x : Port} (h : s.Steady t) : s.Steady (t.acceptExpired c p x) :=
  h.queueNotice.refuseOpening

/-! ## The billing second -/

theorem second_ok {m : Meter} (h : m.ok) : m.second.ok := ⟨Nat.mod_lt _ (by decide), h.2⟩

theorem rateMeter {c : ChanNo} {p : Nat} (h : s.Steady t) : s.Steady (t.rateMeter c p) := by
  unfold State.rateMeter
  split
  · exact h
  · have k : s.Steady (t.modMeter c p Meter.second) := h.modMeter fun _ _ k => second_ok k
    exact k.offerMeter.ite k

theorem rateMeters (h : s.Steady t) : s.Steady t.rateMeters := foldl (fun _ _ h => h.rateMeter) _ h

theorem takeBoundary (h : s.Steady t) : s.Steady t.takeBoundary := by
  have k : s.Steady (t.modRating fun r => { r with active := r.standby, armed := false }) :=
    h.modRating fun j => ⟨j.1, j.2.2.1, j.2.2⟩
  exact (k.noticeToUp.ite h).loadSegments

theorem tick_ok {c : Calendar} (h : c.ok) : c.tick.ok := by
  unfold Calendar.tick
  split
  · next hlt => exact ⟨h.1, hlt⟩
  · refine ⟨?_, show 0 < Config.daySeconds by decide⟩
    dsimp only
    split <;> omega

theorem tick (h : s.Steady t) : s.Steady (t.modRating fun r => { r with calendar := r.calendar.tick }) :=
  h.modRating fun k => ⟨tick_ok k.1, k.2⟩

theorem second (h : s.Steady t) : s.Steady t.second := h.rateMeters.tick.takeBoundary.ite h.rateMeters.tick

theorem enterFallback (h : s.Steady t) : s.Steady t.enterFallback := by
  unfold State.enterFallback
  dsimp only
  have k : s.Steady (t.modRating fun r =>
      { r with clock := .fallback, steady := 0, meters := r.meters.map fun m => { m with estimated := true } }) :=
    h.modRating fun k => ⟨k.1, k.2.1, k.2.2.1, fun m hm => by
      obtain ⟨m', hm', rfl⟩ := List.mem_map.1 hm
      exact k.2.2.2 m' hm'⟩
  generalize (t.modRating fun r =>
      { r with clock := .fallback, steady := 0, meters := r.meters.map fun m => { m with estimated := true } }) = u
    at k ⊢
  exact (foldl (fun _ _ h => h.raiseEstimated) _ k).noticeToUp

theorem leaveFallback (h : s.Steady t) : s.Steady t.leaveFallback := by
  have k : s.Steady (t.modRating fun r => { r with clock := .reference, steady := 10 }) := h.modRating fun j => j
  refine (foldl (fun _ _ h => ?_) _ k).noticeToUp
  exact h.modChan fun j => ⟨j.1, j.2⟩

/-! ## The link -/

theorem takeBlock {c : ChanNo} {p : Nat} {i : Byte} {xs : List Code} (h : s.Steady t) :
    s.Steady (t.takeBlock c p i xs) := by
  have k : s.Steady (t.modFlow c p fun f => { f with hostStop := hostStopAfter i f.hostStop }) :=
    h.modFlow fun _ _ k => k
  unfold State.takeBlock
  dsimp only
  refine foldl (fun _ _ h => h.placeOutput) _ (ite ?_ k)
  split
  · exact k.sendHeldInput
  · exact k

theorem receiveBlock {c : ChanNo} {i : Byte} {p n : BitVec 16} {xs : List Byte} (h : s.Steady t) :
    s.Steady (t.receiveBlock c i p n xs) := h.heard.takeBlock.ite h.heard

theorem sendNotice {c : ChanNo} (h : s.Steady t) : s.Steady (t.sendNotice c) := by
  refine h.modChan fun k => ?_
  split
  · next n rest hn =>
    refine ⟨k.1, ?_, k.2.2⟩
    have := k.2.1
    rw [hn, List.length_cons] at this
    exact (Nat.le_succ _).trans this
  · exact k

theorem sendBlock {c : ChanNo} (h : s.Steady t) : s.Steady (t.sendBlock c) := by
  unfold State.sendBlock
  split
  · next b rest _ =>
    have k : s.Steady (t.modChan c fun ch => { ch with dataOut := rest, linkOut := some (.data b) }) :=
      h.modChan fun k => ⟨k.1, k.2⟩
    dsimp only
    split
    · exact k.modFlow fun _ _ j => j
    · exact k
  · exact h

end State.Steady

/-! ## Every command but the resets -/

/-- A command that makes no full reset and takes no supply away answers a next state, and is steady. -/
theorem exec_steady {i : Instr} (s : State) (h : fullResets i = false) : ∃ t, exec i s = .next t ∧ s.Steady t := by
  have k := State.Steady.refl s
  cases i with
  | powerUp | resetInput | orderlyRestartReset | mainSupplyLoss => cases h
  | timekeeperSecond =>
    refine ⟨_, rfl, ?_⟩
    split
    · exact k
    · exact k.tick
  | ring l => exact ⟨_, rfl, k.whenOn k.ringLine⟩
  | ringGapTimerExpiry l =>
    refine ⟨_, rfl, k.whenOn (State.Steady.ite (k.modUnit fun j => ⟨j.1, j.2.1, j.2.2.1, ?_, j.2.2.2.2⟩) k)⟩
    have := j.2.2.2.1
    dsimp only
    split <;> omega
  | carrierRise l => exact ⟨_, rfl, k.whenOn k.carrierUp⟩
  | carrierLoss l => exact ⟨_, rfl, k.whenOn k.carrierDown⟩
  | answerTimerExpiry l => exact ⟨_, rfl, k.whenOn (k.clearLine.raiseScore.ite k)⟩
  | speedAttempt l n x => exact ⟨_, rfl, k.whenOn (k.attemptSpeed.ite k)⟩
  | speedWindowExpiry l => exact ⟨_, rfl, k.whenOn (k.failAttempt.ite k)⟩
  | markRest l => exact ⟨_, rfl, k.whenOn (k.modUnit fun j => ⟨j.1, j.2⟩)⟩
  | characterReceived l x p b => exact ⟨_, rfl, k.whenOn k.receiveChar⟩
  | breakReceived l =>
    refine ⟨_, rfl, k.whenOn (k.ite ?_)⟩
    split
    · exact k.sendBreak
    · exact k.dialogBreak
    all_goals exact k
  | characterSent l => exact ⟨_, rfl, k.whenOn k.charSent⟩
  | lineHitTimerExpiry l => exact ⟨_, rfl, k.whenOn (k.hitExpired.ite k)⟩
  | guardTimerExpiry l => exact ⟨_, rfl, k.whenOn ((k.modUnit State.Steady.afterGuard_ok).ite k)⟩
  | quietTimerExpiry l => exact ⟨_, rfl, k.whenOn ((k.setHealth (by decide)).releaseLine.ite k)⟩
  | dialogTimerExpiry l => exact ⟨_, rfl, k.whenOn (k.clearLine.raiseScore.ite k)⟩
  | attentionTimerExpiry l => exact ⟨_, rfl, k.whenOn (k.setAttention.leaveConnected.ite k)⟩
  | idleTimerExpiry l => exact ⟨_, rfl, k.whenOn (k.runLogoff.ite k)⟩
  | forwardTimerExpiry l => exact ⟨_, rfl, k.whenOn (k.forwardExpired.ite k)⟩
  | graceTimerExpiry slot => exact ⟨_, rfl, k.whenOn (k.graceExpired.ite k)⟩
  | connect l c => exact ⟨_, rfl, k.whenOn k.typed⟩
  | resume l => exact ⟨_, rfl, k.whenOn k.typed⟩
  | rotate l => exact ⟨_, rfl, k.whenOn k.typed⟩
  | endSession l => exact ⟨_, rfl, k.whenOn k.typed⟩
  | logoff l => exact ⟨_, rfl, k.whenOn k.typed⟩
  | status l => exact ⟨_, rfl, k.whenOn k.typed⟩
  | waitTimerExpiry c l => exact ⟨_, rfl, k.whenOn (k.waitExpired.ite k)⟩
  | acceptTimerExpiry c p =>
    refine ⟨_, rfl, k.whenOn ?_⟩
    split
    · exact k.acceptExpired.ite k
    · exact k
  | closeTimerExpiry c p =>
    refine ⟨_, rfl, k.whenOn ?_⟩
    split
    · exact k.portFree.ite k
    · exact k
  | silenceTimerExpiry c => exact ⟨_, rfl, k.whenOn (k.channelFail.ite k)⟩
  | billingSecond => exact ⟨_, rfl, k.whenOn (k.second.ite k)⟩
  | referenceMissing =>
    refine ⟨_, rfl, k.whenOn ?_⟩
    split
    · exact k.enterFallback
    · exact k.modRating fun j => j
  | referenceSteady =>
    refine ⟨_, rfl, k.whenOn ?_⟩
    split
    · exact k.leaveFallback
    · exact k
  | accessComplete => exact ⟨_, rfl, k.whenOn k.completeAccess⟩
  | writeBackCompleted =>
    refine ⟨_, rfl, k.whenOn ?_⟩
    split
    · exact k.completeAccess
    · exact k
  | dataBlock c i p n xs => exact ⟨_, rfl, k.whenOn k.receiveBlock⟩
  | frameDiscarded c bytes => exact ⟨_, rfl, k.whenOn k.heard⟩
  | replySent c => exact ⟨_, rfl, k.whenOn k.sendReply⟩
  | noticeSent c => exact ⟨_, rfl, k.whenOn k.sendNotice⟩
  | dataBlockSent c => exact ⟨_, rfl, k.whenOn k.sendBlock⟩
  | accept | refuse | closePort | closeAck | add | edit | delete | read | list | probe | charge | flush | attach
  | detach | idle | sync | setTime | setBanner | loadTariff | armTariff | closePeriod | enableLine | disableLine
  | restoreLine | resetGroup | restart | readLine | readTariff | readConfig | writeConfig | badOrder =>
    exact ⟨_, rfl, k.whenOn k.arrive⟩

end Sys2Proof.Machine
end

