-- ==== Sys2Proof/Laws/Resets.lean ====
section
/-! SUPPORT. A full reset and the loss of the supply keep a state sound. -/

namespace Sys2Proof.Machine

theorem Line.default_ok : ({} : Line).ok := by
  refine ⟨⟨?_, ?_, ?_, ?_, ?_⟩, ⟨?_, ?_⟩, ?_, ?_⟩ <;> simp [Config.unitMax]

theorem Channel.default_ok : ({} : Channel).ok := by
  refine ⟨?_, ?_, ?_, ?_, ?_⟩ <;> simp

theorem GroupConfig.default_ok : ({} : GroupConfig).ok := by
  refine ⟨?_, ?_, ?_, ?_, ?_⟩ <;> decide

theorem Bank.default_ok : ({} : Bank).ok := by
  refine ⟨?_, by decide, by decide⟩
  intro v hv n hn
  rw [show ({} : Bank).rates = Vector.replicate 48 none from rfl, Vector.mem_replicate] at hv
  rw [hv.2] at hn
  cases hn

theorem Store.default_ok : ({} : Store).ok := by
  refine ⟨List.Pairwise.nil, List.Pairwise.nil, ?_, ?_, ?_, Nat.zero_le _⟩
  · intro n slot
    simp [tabGet]
  · intro e he
    cases he
  · intro i
    rw [show ({} : Store).groupConfig = Vector.replicate 8 {} from rfl, Vector.get_replicate]
    exact GroupConfig.default_ok

theorem Calendar.default_ok : ({} : Calendar).ok := ⟨by decide, by decide⟩

theorem Cache.default_holds : ({} : Cache).holds = false := by decide

theorem Rating.default_ok : ({} : Rating).ok :=
  ⟨Calendar.default_ok, Bank.default_ok, Bank.default_ok, fun m hm => by cases hm⟩

theorem Store.lineAfterReset_ok (st : Store) (b : Bool) (l : LineNo) : (st.lineAfterReset b l).ok := by
  refine ⟨⟨?_, ?_, ?_, ?_, ?_⟩, ⟨?_, ?_⟩, ?_, ?_⟩ <;> simp [Store.lineAfterReset]

/-- The store after a full reset is in range. -/
theorem State.storeAfterReset_ok {s : State} (h : s.Sound) (cause : ResetCause) : (s.storeAfterReset cause).ok := by
  unfold State.storeAfterReset
  dsimp only
  split
  · exact Store.apply_ok h.store h.admits
  · exact Store.default_ok

theorem Rating.afterReset_ok {r : Rating} (h : r.ok) (b : Bool) : (r.afterReset b).ok :=
  ⟨h.1, h.2.1, h.2.2.1, fun m hm => by cases hm⟩

/-- A full reset keeps a state sound. -/
theorem State.fullReset_sound {s : State} (h : s.Sound) (cause : ResetCause) (a b : Bool) :
    (s.fullReset cause a b).Sound := by
  unfold State.fullReset
  dsimp only
  refine State.Steady.sound (State.Steady.rollVisit (State.Steady.refl _)) ?_
  constructor
  · intro l
    simp only [State.line, Vector.get_ofFn]
    exact Store.lineAfterReset_ok _ _ _
  · intro c
    simp only [State.chan, Vector.get_replicate]
    exact Channel.default_ok
  · refine Rating.afterReset_ok ?_ b
    split
    · exact h.rating
    · exact ⟨Calendar.default_ok, Bank.default_ok, Bank.default_ok, h.rating.2.2.2⟩
  · exact State.storeAfterReset_ok h cause
  · trivial
  · exact ⟨List.Pairwise.nil, fun e he => by cases he⟩
  · intro _
    exact Cache.default_holds.symm

/-- The loss of the supply keeps a state sound. -/
theorem State.loseSupply_sound {s : State} (h : s.Sound) : s.loseSupply.Sound where
  lines l := by
    simp only [State.line, State.loseSupply, Vector.get_replicate]
    exact Line.default_ok
  chans c := by
    simp only [State.chan, State.loseSupply, Vector.get_replicate]
    exact Channel.default_ok
  rating := ⟨h.rating.1, h.rating.2.1, h.rating.2.2.1, fun m hm => by cases hm⟩
  store := Store.apply_ok h.store h.admits
  admits := trivial
  presence := ⟨List.Pairwise.nil, fun e he => by cases he⟩
  marker k := by cases k

/-- A damaged validity mark changes nothing that soundness speaks of. -/
theorem State.damaged_sound {s : State} (h : s.Sound) (b : Bool) :
    (s.modStore fun st => { st with validityMark := b }).Sound where
  lines := h.lines
  chans := h.chans
  rating := h.rating
  store := h.store
  admits := h.admits
  presence := h.presence
  marker := h.marker

end Sys2Proof.Machine
end

