-- ==== Sys2Proof/WellFormed.lean ====
section
/-! DEFINITION. Which terms of `Instr` spell a command the part can be given. An ill-formed term still has a
meaning in the machine (the same operation on the operands as they stand); well-formedness says that the term is the
row it stands for. -/

namespace Sys2Proof

/-- The two bytes of a header field, most significant first (R178). -/
def OrderFrame.field16 (hi lo : Byte) : Nat := hi.toNat * 256 + lo.toNat

/-- Whether a frame from a computer is one that R179 discards: shorter than 6 bytes; of kind 2, 3 or any kind but 1
and 4; or a data block whose length is not 6 plus its body length, or whose body length is above 256. -/
def frameIsDiscarded : List Byte → Bool
  | kind :: _ :: _ :: _ :: hi :: lo :: body =>
    if kind = 1#8 then false
    else if kind = 4#8 then
      decide (OrderFrame.field16 hi lo ≠ body.length) || decide (256 < OrderFrame.field16 hi lo)
    else true
  | _ => true

/-- A command is well formed: ports below 48 (R87), slots below 4096 (R27), a measured interval above 0 (R5), an
order code that is 0 or unknown for BAD_ORDER (R171, R180), a data block whose length fits (R179), and a discarded
frame that R179 discards. -/
def Instr.wf : Instr → Bool
  | .speedAttempt _ micros _ => decide (0 < micros)
  | .graceTimerExpiry slot => decide (slot < Config.slotCount)
  | .acceptTimerExpiry _ port => decide (port < Config.portCap)
  | .closeTimerExpiry _ port => decide (port < Config.portCap)
  | .badOrder _ code _ => decide (code.toNat = 0) || decide (30 < code.toNat)
  | .dataBlock _ _ _ bodyLen chars => decide (bodyLen.toNat = chars.length) && decide (bodyLen.toNat ≤ 256)
  | .frameDiscarded _ bytes => frameIsDiscarded bytes
  | _ => true

end Sys2Proof
end

