-- ==== Sys2Proof/Tests/Slice0.lean ====
section
/-! SUPPORT. Tests: ill-formed terms that the check refuses, worked examples of the description, and for each statement
a state and operands that meet what it supposes, clause by clause and at the ends of the ranges. -/

namespace Sys2Proof.Tests

open Sys2Proof Sys2Proof.Machine

/-! ## Well-formedness: one ill-formed term for each check -/

theorem test_wf_interval_zero : (Instr.speedAttempt 0 0 13).wf = false := by decide
theorem test_wf_slot_4096 : (Instr.graceTimerExpiry 4096).wf = false := by decide
theorem test_wf_accept_port_48 : (Instr.acceptTimerExpiry 0 48).wf = false := by decide
theorem test_wf_close_port_48 : (Instr.closeTimerExpiry 0 48).wf = false := by decide
theorem test_wf_known_code : (Instr.badOrder 0 30 ⟨0, 0, []⟩).wf = false := by decide
theorem test_wf_block_length : (Instr.dataBlock 0 0 0 2 [65]).wf = false := by decide
theorem test_wf_good_frame : (Instr.frameDiscarded 0 [1, 3, 0, 0, 0, 0]).wf = false := by decide
theorem test_wf_short_frame : (Instr.frameDiscarded 0 [1, 3, 0, 0, 0]).wf = true := by decide
theorem test_wf_empty_block : (Instr.dataBlock 0 1 0 0 []).wf = true := by decide

/-- The table gives no row bits, so no word spells a command. -/
theorem test_no_word_spells : decodeTableWord 16 0 = none ∧ State.reset.withFetchWord 16 1 = State.reset := ⟨rfl, rfl⟩

/-! ## Small states -/

/-- A part with one line and one channel set. -/
def part (x : Line) (ch : Channel := {}) : State :=
  { lines := (Vector.replicate 64 {}).set 0 x, channels := (Vector.replicate 4 {}).set 0 ch }

/-- A part whose line 0 has this line unit. -/
def unitPart (u : LineUnit) : State := part { unit := u }

/-- A line unit in a state at which characters are framed. -/
def framing (st : LineState) : LineUnit := { state := st, speed := some .b300 }

/-- Account 1 with the pass phrase HELLO, every host and no budget. -/
def account : Record :=
  { number := 1, state := .active, passCheck := 1515698, cls := 3, homeHost := none, hostSet := 15, budget := none, limit := 1,
    used := 0, previous := 0, stamp := 0, failures := 0, lastSignOn := none, revision := 0 }

/-- A store with one account, in which every channel has every right. -/
def storeOf (r : Record) : Store :=
  { records := [(0, r)], directory := [(r.number, 0)],
    chanConfig := Vector.replicate 4 { windows := Vector.replicate 4 { right := .both }, operator := true } }

/-- A state at which line 0 is signed on with account 1, in command mode. -/
def signedOn : Line :=
  { unit := { state := .command, speed := some .b300, account := 1 }, dialog := { counted := some 0 },
    ctx := { signOn := some { account := 1, slot := 0, effClass := 3 } } }

/-- An UP channel with one port. -/
def upWith (x : Port) : Channel := { state := .up, params := some { portCount := 1, minClass := 3, base := 0 }, ports := [x] }

/-- The same part with this store, and with account 1 counted once in the presence table. -/
def withStore (s : State) (r : Record) (b : Option BudgetState := some .normal) : State :=
  { s with store := storeOf r, presence := [(0, { count := 1, budget := b })] }

/-- A fact about every port follows from the port tables. -/
theorem ports_all {s : State} {P : ChanNo → Port → Prop} (h : ∀ c, ∀ x ∈ (s.chan c).ports, P c x) :
    ∀ c p x, s.port? c p = some x → P c x :=
  fun c _ x e => h c x (List.mem_of_getElem? e)

theorem alone_of {s : State} {l : LineNo} (hd : (s.dialog l).ended = s.dialog l ∧ (s.dialog l).counted = none ∧ s.ctx l = {})
    (hq : ∀ c, ∀ w ∈ (s.chan c).queue, w.line ≠ l)
    (hp : ∀ c, ∀ x ∈ (s.chan c).ports, x.state = .opening → x.line ≠ some l) : s.Alone l :=
  ⟨hd.1, hd.2.1, hd.2.2, hq, ports_all hp⟩

theorem notWaiting_of {s : State} {l : LineNo} (hq : ∀ c, ∀ w ∈ (s.chan c).queue, w.line ≠ l)
    (hp : ∀ c, ∀ x ∈ (s.chan c).ports, x.state = .opening → x.line ≠ some l) : s.NotWaiting l :=
  ⟨hq, ports_all hp⟩

/-- A line in phase `ph` of its dialog, signed on and in the wait queue of channel 0, with nothing else. -/
def caught (u : LineUnit) (ph : Phase) : State :=
  withStore (part { signedOn with unit := u, dialog := { signedOn.dialog with phase := ph } }
    { upWith {} with queue := [{ line := 0, slot := 0, effClass := 3 }] }) account

theorem sessionless_caught (u : LineUnit) (ph : Phase) (h : ph ≠ .checking) : (caught u ph).Sessionless 0 :=
  ⟨h, rfl, ports_all (show ∀ c, ∀ x ∈ ((caught {} .none).chan c).ports, x.state = .opening → x.line ≠ some 0 by decide),
    fun slot e => by cases (show some 0 = some slot from e); show some BudgetState.normal ≠ some .grace; decide⟩

/-! ## Worked examples of the description -/

/-- The fold of AB (R57). -/
theorem test_fold_AB : foldPass [65, 66] = 2081 := by decide
/-- The fold of HELLO (R57). -/
theorem test_fold_HELLO : foldPass (text "HELLO") = 1515698 := by decide
/-- The ends of the speed windows (R5). -/
theorem test_speed_ends : speedOf 10182 = some .b110 ∧ speedOf 10183 = none ∧ speedOf 367 = some .b2400 ∧ speedOf 366 = none ∧
    speedOf 7467 = some .b150 ∧ speedOf 7468 = none := by decide
/-- A block of 2^8 numbers about its base (R43). -/
theorem test_window : let w : Window := { base := 300, exp := 8, right := .edit }
    w.covers 255 = false ∧ w.covers 256 = true ∧ w.covers 511 = true ∧ w.covers 512 = false := by decide
/-- The last second of the week (R105, R109). -/
theorem test_week_ends : ({ weekday := 6, time := 86399 } : Calendar).tick = { weekday := 0, time := 0 } := by decide
/-- The rights of the reading example (R43 to R45). -/
theorem test_windows :
    let w : Vector Window 4 := #v[{ base := 4096, exp := 12, right := .edit }, { base := 4352, exp := 8, right := .both },
      { base := 20000, exp := 10, right := .both }, { base := 0, exp := 16, right := .charge }]
    let g : ChanConfig := { windows := w }
    [5000, 4400, 19800, 20300, 20600, 300].map g.right = [.edit, .edit, .both, .both, .charge, .charge] := by decide

/-- The tariff periods of the example (R111). -/
theorem test_periods :
    let at_ := fun (d t : Nat) =>
      ({ calendar := { weekday := d, time := t },
         active := { workday := [⟨480, 0⟩, ⟨1080, 1⟩, ⟨1320, 2⟩], restday := [⟨600, 1⟩] } } : Rating).period
    [at_ 2 26100, at_ 2 28800, at_ 2 70200, at_ 5 18000, at_ 6 86399] = [2, 0, 1, 1, 1] := by decide

/-- The residue of the metering case: 450,000 of 6,000,000, under each rounding mode (R121). -/
theorem test_rounding : [Rounding.up, .nearest, .down].map (fun m => roundResidue m 450000) = [(1, .up), (0, .down), (0, .down)] ∧
    roundResidue .nearest 5400000 = (1, .up) := by decide

/-- The round of the arbiter example: from channel 2 on, with sign-on, write-back, channels 0 and 3 waiting (R38). -/
theorem test_round :
    let a : Arbiter := { signOn := true, writeBack := some (0, some 311), chans := #v[true, false, false, true] }
    (roundAfter (.chan 2)).find? a.waits = some (.chan 3) ∧ (roundAfter (.chan 3)).find? a.waits = some .signOn := by decide

/-- The state an outcome answers. -/
def after (o : Host.Outcome State Fault Refusal) : State :=
  match o with
  | .next t => t
  | .fault _ => {}
  | .refused _ => {}

set_option maxRecDepth 100000 in
/-- Ring counter 1 of 1 answers the line (R3). -/
theorem test_ring_answers :
    ((after (exec (.ring 0) (unitPart { state := .idle }))).unit 0).state = .answer := by decide

set_option maxRecDepth 100000 in
/-- Second 67 of the metering case makes the first unit and leaves 30,000 (R119). -/
theorem test_second_67 :
    let m : Meter := { channel := 1, port := 0, line := 0, slot := 0, speedClass := .slow, effClass := 0, rate := 1200,
                       percent := 75, acc := 5940000, seconds := 66 }
    let t := after (exec .billingSecond { State.reset with rating := { meters := [m] } })
    t.rating.meters.map (fun k => (k.acc, k.seconds, k.units)) = [(30000, 67, 1)] := by decide

set_option maxRecDepth 100000 in
/-- The CHARGE of 200 units that takes an account into GRACE: total before it 1,850 of a budget of 2,000 (R136, R163). -/
theorem test_charge_to_grace :
    let s : State := { withStore (part signedOn (upWith {})) { account with budget := some 2000, used := 1810 } (some .warned) with
      cache := { entries := (Vector.replicate 32 {}).set 6 { slot := some 0, pending := 40, state := .gathering },
                 recency := [6] } }
    let t := after (exec (.charge 0 ⟨7, 4, [0, 1, 0, 200]⟩) s)
    ((t.presenceOf 0).budget, (t.presenceOf 0).graceTimer, t.arbiter.current.map (·.result)) =
      (some .grace, true, some (.reply 0 .done (bytesBE 3 1850 ++ bytesBE 3 200))) := by decide

set_option maxRecDepth 100000 in
/-- A free line starts a character as soon as one is placed (R11): the echo of a typed letter. -/
theorem test_echo_starts :
    let t := after (exec (.characterReceived 0 65 true true) (part signedOn))
    ((t.unit 0).sending.map (·.code), (t.unit 0).partMsg) = (some 65, []) := by decide

set_option maxRecDepth 100000 in
/-- An EDIT of account number 0 is refused as an ADD of it is (R153, R154). -/
theorem test_edit_of_account_0 :
    let s := withStore (part {} (upWith {})) account
    let t := after (exec (.edit 0 ⟨7, 18, [0, 0, 0, 0, 0, 0, 0, 0, 0, 0, 0, 0, 0, 0, 0, 0, 0, 0]⟩) s)
    ((t.chan 0).reply.map (·.outcome), t.arbiter.current) = (some .badValue, none) := by decide

set_option maxRecDepth 100000 in
/-- The eighth digit of a character code on the link is ignored (R178): 193 is the letter A. -/
theorem test_attach_eighth_digit :
    let t := after (exec (.attach 0 ⟨7, 7, [1, 0, 0, 0, 0, 1, 193]⟩) State.reset)
    ((t.chan 0).state, (t.chan 0).name) = (.up, some [65]) := by decide

/-! ## What the statements suppose is met: the whole machine and the resets -/

theorem wit_StepRunsTheFrontCommand :
    ({ State.reset with pending := [.ring 63, .ring 0] } : State).pending = .ring 63 :: [.ring 0] ∧ State.reset.pending = [] :=
  ⟨rfl, rfl⟩

/-- A sound state that is not the reset state: a caller is signed on with the one account of the store. -/
theorem wit_EveryStepKeepsTheStateSound : (withStore (part signedOn) account).Sound where
  lines l := by
    have h : ∀ l : LineNo, (withStore (part signedOn) account).line l = {} ∨
        (withStore (part signedOn) account).line l = signedOn := by decide
    rcases h l with h | h <;> rw [h] <;> simp [Line.ok, LineUnit.ok, Dialog.ok, LineContext.ok, signedOn, Config.unitMax]
  chans c := by
    have h : ∀ c : ChanNo, (withStore (part signedOn) account).chan c = {} := by decide
    rw [h c]; simp [Channel.ok]
  rating := by
    refine ⟨⟨by decide, by decide⟩, ?_, ?_, by simp [withStore, part]⟩ <;> refine ⟨?_, by decide, by decide⟩ <;>
      simp [withStore, part]
  store := by
    refine ⟨?_, ?_, ?_, ?_, ?_, by decide⟩
    · simp [withStore, storeOf, tabWf]
    · simp [withStore, storeOf, tabWf]
    · intro n k
      simp only [withStore, storeOf, tabGet]
      by_cases hk : 0 = k <;> by_cases hn : account.number = n <;> simp [hk, hn]
    · simp [withStore, storeOf, Record.ok, account, Config.slotCount, Config.unitMax, Config.failureCap]
    · have h : ∀ i, (withStore (part signedOn) account).store.groupConfig.get i = {} := by decide
      intro i; rw [h i]; simp [GroupConfig.ok]
  admits := trivial
  presence := by simp [withStore, presenceWf, tabWf]
  marker _ := by decide

theorem wit_OnlyResetsLeaveTheConfiguration : fullResets (.ring 0) = false ∧ State.reset.setup = false := by decide

theorem wit_FullResetsStartAfreshAndKeepTheStore :
    let s : State := { State.reset with dirtyMarker := true, cache := { restarting := true } }
    s.store.validityMark = true ∧ s.powered = true ∧ s.cache.restarting = true ∧ s.cache.holds = false ∧
      s.storeCompleted.periodState = .opened := by decide

/-- In CLOSING at index 0 slot 0 is due; at index 1 no slot is. -/
theorem wit_FullResetsStartAfreshAndKeepTheStore_roll :
    let r : Record := { account with stamp := 3, used := 77 }
    let s := fun i : Nat =>
      ({ State.reset with
         store := { storeOf r with periodNumber := 4, periodState := .closing, rollIndex := i },
         dirtyMarker := true, cache := { restarting := true } } : State)
    let lost := { (s 0).storeCompleted with chargesLost := (s 0).storeCompleted.chargesLost || (s 0).dirtyMarker }
    (∀ i, (s i).store.validityMark = true ∧ (s i).powered = true ∧ (s i).cache.restarting = true ∧ (s i).cache.holds = false ∧
      (s i).storeCompleted.periodState = .closing) ∧
    (lost.records = [] ++ (0, r) :: [] ∧ lost.rollIndex ≤ 0 ∧ r.stamp ≠ lost.periodNumber ∧ tabGet 0 lost.records = some r) ∧
    ∀ e ∈ (s 1).storeCompleted.records, (s 1).storeCompleted.rollIndex ≤ e.1 → e.2.stamp = (s 1).storeCompleted.periodNumber :=
  ⟨fun _ => ⟨rfl, rfl, rfl, by show ({ restarting := true } : Cache).holds = false; decide, rfl⟩, by decide, by decide⟩

theorem wit_DamagedStoreIsInitialised :
    let s : State := { State.reset with store := { validityMark := false }, cache := { restarting := true } }
    s.powered = true ∧ s.store.validityMark = false ∧ s.cache.restarting = true ∧ s.cache.holds = false := by decide

theorem wit_SupplyLossKeepsTheRetainedState :
    State.reset.powered = true ∧ ({ State.reset with powered := false } : State).powered = false ∧
      Instr.ring 0 ≠ .timekeeperSecond ∧ ∀ a b d, Instr.ring 0 ≠ .powerUp a b d := by decide

theorem wit_CalendarCountsSecondsAndDays : ({ weekday := 6, time := 86399 } : Calendar).ok ∧ ({} : Calendar).ok :=
  ⟨⟨by decide, by decide⟩, by decide, by decide⟩

/-! ## Lines -/

/-- A bank with a rate for every segment. -/
def ratedBank : Bank := { rates := Vector.replicate 48 (some 1000) }

/-- An open meter of account 1 at port 0 of channel 0, just short of a unit. -/
def meter : Meter :=
  { channel := 0, port := 0, line := 0, slot := 0, speedClass := .slow, effClass := 3, rate := 1000, percent := 100,
    acc := 5900000, units := 7 }

/-- A caller with one session at port 0, its meter open, and the account's charges gathered in entry 31. -/
def metered (st : LineState) (k : SessionState) : State :=
  { withStore (part { signedOn with unit := framing st, ctx := { signedOn.ctx with stack := [⟨0, 0, k⟩] } }
      (upWith { state := .bound, line := some 0, slot := some 0, flow := some {} })) account with
    rating := { active := ratedBank, meters := [meter] }, dirtyMarker := true,
    cache := { entries := (Vector.replicate 32 {}).set 31 { slot := some 0, pending := 5, state := .gathering },
               recency := [31] } }

theorem takes_metered (st : LineState) (k : SessionState) (n : Nat) (h : n ≤ 16777210) : (metered st k).Takes 31 0 n :=
  ⟨by show (metered .command .live).entryOf 0 = some 31; decide, rfl,
    by show n ≤ (metered .command .live).room 0; have : (metered .command .live).room 0 = 16777210 := by decide
       omega, rfl, rfl⟩

/-- The session of that caller, at its port and with its meter. -/
theorem running_metered (st : LineState) (k : SessionState) :
    (metered st k).Running 0 ⟨0, 0, k⟩ { state := .bound, line := some 0, slot := some 0, flow := some {} } meter 31 := by
  have h : (metered st k).finalUnits meter = 8 := by show (metered .command .live).finalUnits meter = 8; decide
  exact ⟨rfl, rfl, rfl, by rw [h]; exact takes_metered _ _ _ (by decide)⟩


/-- The states of HealthFollowsTheScore at the ends of its ranges (R18). -/
theorem test_health_ends :
    healthAfter .good 95 = .good ∧ healthAfter .good 96 = .noisy ∧ healthAfter .noisy 64 = .noisy ∧
      healthAfter .noisy 63 = .good ∧ healthAfter .noisy 191 = .noisy ∧ healthAfter .good 192 = .barred ∧
      healthAfter .barred 0 = .barred := by decide

/-- A line unit that nothing else holds a part of. -/
theorem alone_unit (u : LineUnit) : (unitPart u).Alone 0 := by
  refine ⟨rfl, rfl, rfl, ?_, ?_⟩
  · intro c w hw
    have h : ∀ c, ((unitPart u).chan c).queue = [] := by intro c; fin_cases c <;> rfl
    rw [h c] at hw; cases hw
  · refine ports_all fun c x hx => ?_
    have h : ∀ c, ((unitPart u).chan c).ports = [] := by intro c; fin_cases c <;> rfl
    rw [h c] at hx; cases hx

theorem wit_RingingLinesAreAnswered :
    let idle := fun n : Nat =>
      ({ unitPart { state := .idle, ringCount := n, ringGap := true } with
         store := { groupConfig := Vector.replicate 8 { ringCount := 4 } } } : State)
    let answer := unitPart { state := .answer, answerTimer := true }
    ((idle 2).powered = true ∧ ((idle 2).unit 0).state = .idle ∧ ((idle 2).unit 0).ringCount + 1 < ((idle 2).group 0).ringCount ∧
      ((idle 2).unit 0).ringGap = true ∧ ((idle 2).unit 0).lineHit = false ∧
      ((idle 3).group 0).ringCount ≤ ((idle 3).unit 0).ringCount + 1) ∧
    (answer.powered = true ∧ (answer.unit 0).state = .answer ∧ (answer.unit 0).state ≠ .idle ∧
      (answer.unit 0).answerTimer = true ∧ (answer.unit 0).partMsg = [] ∧ answer.Alone 0) :=
  ⟨by decide, by decide, by decide, by decide, by decide, by decide, alone_unit _⟩

theorem wit_LineHitsPauseOrClearTheLine :
    let hit := fun (st : LineState) => unitPart { framing st with lineHit := true, score := 189 }
    (∀ st, (hit st).powered = true ∧ ((hit st).unit 0).state = st ∧ ((hit st).unit 0).lineHit = true ∧
      ((hit st).unit 0).score + 2 < 192) ∧
    (let c := fun st ph => caught { framing st with lineHit := true, score := 190 } ph
     (∀ st ph, ph ≠ .checking → (c st ph).powered = true ∧ ((c st ph).unit 0).state = st ∧ ((c st ph).unit 0).lineHit = true ∧
       (c st ph).Sessionless 0) ∧ Phase.ident ≠ .checking ∧ Phase.none ≠ .checking) ∧
    (let m := (metered .connected .live).modUnit 0 fun u => { u with lineHit := true }
     let x : Port := { state := .bound, line := some 0, slot := some 0, flow := some {} }
     m.powered = true ∧ (m.unit 0).state = .connected ∧ (m.unit 0).lineHit = true ∧ (m.ctx 0).stack = [⟨0, 0, .live⟩] ∧
       m.Running 0 ⟨0, 0, .live⟩ x meter 31 ∧ m.NotWaiting 0 ∧ (m.dialog 0).phase = .none ∧
       (m.dialog 0).counted = some meter.slot) ∧
    (let b := unitPart { framing .speed with lineHit := true, score := 255, health := .barred }
     (b.unit 0).health = .barred ∧ (b.unit 0).lineHit = true) ∧
    (let c := fun g => unitPart { framing .clearing with guardTimer := g }
     ((c false).unit 0).state = .clearing ∧ ((c false).unit 0).guardTimer = false ∧ ((c true).unit 0).guardTimer = true) :=
  ⟨fun _ => ⟨rfl, rfl, rfl, by show 191 < 192; decide⟩,
    ⟨fun _ ph h => ⟨rfl, rfl, rfl, sessionless_caught _ ph h⟩, by decide, by decide⟩,
    ⟨rfl, rfl, rfl, rfl, ⟨rfl, rfl, rfl, (running_metered .connected .live).takes.entry, rfl,
      (running_metered .connected .live).takes.room, rfl, rfl⟩, notWaiting_of (by decide) (by decide), rfl, rfl⟩,
    by decide, by decide⟩

theorem wit_CarriageReturnLocksTheSpeed :
    let s := unitPart { state := .speed, attempts := 3, speedWindow := true }
    s.powered = true ∧ (s.unit 0).state = .speed ∧ (s.unit 0).awaitMark = false ∧ (s.unit 0).lineHit = false ∧
      speedOf 933 = some .b1200 := by decide

theorem wit_FailedSpeedAttemptsAreCounted :
    let s := fun n : Nat => unitPart { state := .speed, attempts := n, speedWindow := true }
    let w := unitPart { state := .speed, attempts := 1, awaitMark := true }
    (∀ n, (s n).powered = true ∧ ((s n).unit 0).state = .speed ∧ ((s n).unit 0).awaitMark = false ∧
      ((s n).unit 0).lineHit = false ∧ ((s n).unit 0).speedWindow = true ∧ ((s n).unit 0).attempts = n ∧
      ((s n).unit 0).partMsg = [] ∧ (s n).Alone 0) ∧
    speedOf 10183 = none ∧ (w.unit 0).awaitMark = true :=
  ⟨fun _ => ⟨rfl, rfl, rfl, rfl, rfl, rfl, rfl, alone_unit _⟩, by decide, rfl⟩

theorem hears_unit (st : LineState) (n : Nat) (h : Health) :
    (unitPart { framing st with score := n, health := h }).Hears 0 := ⟨rfl, rfl, rfl, rfl⟩

theorem wit_BadCharactersAreScored :
    let s := fun (st : LineState) (n : Nat) => unitPart { framing st with score := n, health := .noisy }
    let even : State := { s .signOn 191 with store := { groupConfig := Vector.replicate 8 { parity := .even } } }
    let c := fun st ph => caught { framing st with score := 191, health := .noisy, partMsg := [10] } ph
    (∀ st n, (s st n).Hears 0 ∧ ((s st n).unit 0).state = st ∧ ((s st n).unit 0).score = n) ∧
    (∀ st ph, ph ≠ .checking → (c st ph).Hears 0 ∧ ((c st ph).unit 0).state = st ∧ ((c st ph).unit 0).health ≠ .barred ∧
      192 ≤ ((c st ph).unit 0).score + 1 ∧ (c st ph).Sessionless 0) ∧
    ¬ (even.group 0).parity.accepts 67 false :=
  ⟨fun st n => ⟨hears_unit st n _, rfl, rfl⟩, fun _ ph h => ⟨⟨rfl, rfl, rfl, rfl⟩, rfl,
    by show Health.noisy ≠ .barred; decide, Nat.le_refl 192, sessionless_caught _ ph h⟩, by show ¬ (3 % 2 = 0); decide⟩

/-- A line in the dialog, with what its field holds. -/
def dialogPart (ph : Phase) (cs : List Code) : State :=
  part { unit := framing .signOn,
         dialog := { phase := ph, field := cs, identifier := some 65535, attempts := 2, timer := true } }

theorem wit_IdentifierFieldIsTyped :
    (∀ cs, (dialogPart .ident cs).Hears 0 ∧ ((dialogPart .ident cs).unit 0).state = .signOn ∧
      ((dialogPart .ident cs).dialog 0).phase = .ident ∧ ((dialogPart .ident cs).dialog 0).field = cs ∧
      ∀ x b, ((dialogPart .ident cs).group 0).parity.accepts x b) ∧
    -- each code is in exactly one row
    ∀ x : Code, [decide (48 ≤ x.toNat ∧ x.toNat ≤ 57), decide (x = 8 ∨ x = 127), decide (x = 21), decide (x = 13),
      decide (¬ (48 ≤ x.toNat ∧ x.toNat ≤ 57) ∧ x ≠ 8 ∧ x ≠ 127 ∧ x ≠ 21 ∧ x ≠ 13)].count true = 1 ∧
    (∀ d ∈ [6, 5, 5, 3, 5], d ≤ 9) :=
  ⟨fun _ => ⟨⟨rfl, rfl, rfl, rfl⟩, rfl, rfl, rfl, fun _ _ => trivial⟩, by decide⟩

theorem wit_PassPhraseFieldIsTypedAndFolded :
    let s : State := { dialogPart .pass [65, 66] with
      arbiter := { current := some { who := .chan 0, write := .nothing, result := .taken } } }
    let zero : State := part { unit := framing .signOn, dialog := { phase := .pass, identifier := some 0, attempts := 2 } }
    (s.Hears 0 ∧ (s.unit 0).state = .signOn ∧ (s.dialog 0).phase = .pass ∧ (s.group 0).parity.accepts 13 true ∧
      (s.dialog 0).identifier = some 65535 ∧ s.arbiter.current.isSome = true ∧ s.arbiter.serving .signOn = false) ∧
    (zero.Hears 0 ∧ (zero.dialog 0).identifier = some 0 ∧ 2 ≤ (zero.dialog 0).attempts) ∧
    ∀ x : Code, [decide (32 ≤ x.toNat ∧ x.toNat ≤ 126), decide (x = 8 ∨ x = 127), decide (x = 21), decide (x = 13),
      decide (x ≠ 127 ∧ ¬ (32 ≤ x.toNat) ∧ x ≠ 8 ∧ x ≠ 21 ∧ x ≠ 13)].count true = 1 :=
  ⟨⟨⟨rfl, rfl, rfl, rfl⟩, rfl, rfl, trivial, rfl, rfl, rfl⟩, ⟨⟨rfl, rfl, rfl, rfl⟩, rfl, by decide⟩, by decide⟩

theorem wit_BreakRestartsTheDialog :
    (∀ ph, ((dialogPart ph []).unit 0).state = .signOn ∧ ((dialogPart ph []).dialog 0).phase = ph ∧
      ((dialogPart ph []).unit 0).lineHit = false ∧ (dialogPart ph []).powered = true) ∧
    (let s := unitPart (framing .command); (s.unit 0).state ≠ .signOn ∧ (s.unit 0).state ≠ .connected) :=
  ⟨fun _ => ⟨rfl, rfl, rfl, rfl⟩, by decide⟩

theorem wit_GuardEndsTheClear :
    ∀ b n, let s := unitPart { framing .clearing with enabled := b, score := n, guardTimer := true }
    s.powered = true ∧ (s.unit 0).state = .clearing ∧ (s.unit 0).guardTimer = true ∧ (s.unit 0).enabled = b ∧
      (s.unit 0).score = n := fun _ _ => ⟨rfl, rfl, rfl, rfl, rfl⟩

theorem wit_QuietTimeEndsInProbation :
    let s := unitPart { state := .barred, enabled := true, score := 255, health := .barred, quietTimer := true }
    s.powered = true ∧ (s.unit 0).state = .barred ∧ (s.unit 0).health = .barred ∧ (s.unit 0).quietTimer = true := by decide

theorem wit_PartMessagesAreSentOldestFirst :
    let s := unitPart { framing .clearing with partMsg := [65] }
    let r := unitPart { framing .command with lineHit := true, partMsg := [65] }
    s.powered = true ∧ ¬ s.Rests 0 ∧ (s.unit 0).partMsg = 65 :: [] ∧ (s.unit 0).state = .clearing ∧ r.Rests 0 ∧
      s.Rests 1 := by
  refine ⟨rfl, ?_, rfl, rfl, .inr (.inr (.inl rfl)), .inr (.inl rfl)⟩
  rintro (h | h | h | h | ⟨h, -⟩)
  · exact h rfl
  all_goals exact absurd h (by decide)

theorem wit_DialogTimerEndsTheCall :
    let s := dialogPart .pass [65]
    let w := part { unit := { framing .signOn with partMsg := [10] }, dialog := { phase := .ident, timer := true } }
    (s.powered = true ∧ (s.unit 0).state = .signOn ∧ (s.dialog 0).timer = true ∧ (s.dialog 0).phase = .pass ∧
      (s.dialog 0).counted = none ∧ s.ctx 0 = {} ∧ (s.unit 0).partMsg = [] ∧ s.NotWaiting 0) ∧
    ((w.dialog 0).timer = true ∧ (w.dialog 0).phase = .ident ∧ (w.dialog 0).counted = none ∧ w.ctx 0 = {} ∧
      (w.unit 0).partMsg ≠ [] ∧ (w.unit 0).lineHit = false ∧ w.NotWaiting 0) :=
  ⟨⟨rfl, rfl, rfl, rfl, rfl, rfl, rfl, notWaiting_of (by decide) (by decide)⟩,
   rfl, rfl, rfl, rfl, by decide, rfl, notWaiting_of (by decide) (by decide)⟩

/-- A check that waits behind that of line 63, which is being served, and a success of line 0 not yet taken. -/
theorem wit_DialogTimerEndsTheCall_checking :
    let part := fun (d : Option Nat) (a : Arbiter) =>
      ({ part { unit := framing .signOn, dialog := { phase := .checking, timer := true, counted := d } } with
         checks := [⟨0, 1, 0⟩], arbiter := a } : State)
    let of := fun (l : LineNo) (o : CheckOutcome) =>
      ({ current := some { who := .signOn, write := .nothing, result := .check l o none false } } : Arbiter)
    let waits := part none (of 63 .refused)
    let served := part (some 0) (of 0 (.success 1 0 3 none false))
    (waits.powered = true ∧ (waits.unit 0).state = .signOn ∧ (waits.dialog 0).timer = true ∧
      (waits.dialog 0).phase = .checking ∧ (waits.dialog 0).counted = none ∧ waits.ctx 0 = {} ∧ waits.NotWaiting 0 ∧
      ∀ a o n, waits.arbiter.current = some a → a.result ≠ .check 0 o n false) ∧
    ((served.dialog 0).phase = .checking ∧ (served.dialog 0).timer = true ∧ served.NotWaiting 0 ∧
      served.arbiter.current =
        some { who := .signOn, write := .nothing, result := .check 0 (.success 1 0 3 none false) none false }) := by
  refine ⟨⟨rfl, rfl, rfl, rfl, rfl, rfl, notWaiting_of (by decide) (by decide), fun a o n e h => ?_⟩, rfl, rfl,
    notWaiting_of (by decide) (by decide), rfl⟩
  cases e
  injection h with hl
  exact absurd hl (by decide)

/-! ## Command mode and sessions -/

theorem wit_CommandFieldIsTyped :
    let s := fun cs => part { signedOn with ctx := { signedOn.ctx with field := cs } }
    (∀ cs, (s cs).Hears 0 ∧ ((s cs).unit 0).state = .command ∧ ((s cs).ctx 0).field = cs ∧
      ((s cs).group 0).parity.accepts 13 true) ∧
    ((unitPart { framing .command with lineHit := true }).powered = true ∧
      ((unitPart { framing .command with lineHit := true }).unit 0).lineHit = true) ∧
    readCommand [] = .empty ∧ readCommand (text "HELP") = .unknown ∧ readCommand (text "CONNECT D") = .connect 3 ∧
    readCommand (text "RESUME") = .resume ∧ readCommand (text "ROTATE") = .rotate ∧ readCommand (text "END") = .endSession ∧
    readCommand (text "LOGOFF") = .logoff ∧ readCommand (text "STATUS") = .status ∧
    readCommand (text "  connect  b ") = .connect 1 ∧ readCommand (text "CONNECT E") = .unknown ∧
    readCommand (text "CONNECTA") = .unknown ∧ readCommand (text "E ND") = .unknown ∧ readCommand (text "  ") = .empty ∧
    ∀ x : Code, [decide (32 ≤ x.toNat ∧ x.toNat ≤ 126), decide (x = 8 ∨ x = 127), decide (x = 21), decide (x = 13),
      decide (x.toNat < 32 ∧ x ≠ 8 ∧ x ≠ 21 ∧ x ≠ 13)].count true = 1 :=
  ⟨fun _ => ⟨⟨rfl, rfl, rfl, rfl⟩, rfl, rfl, trivial⟩, ⟨rfl, rfl⟩, by decide⟩

/-- A line connected at port 0 of channel 0, with what it has typed and the flow state of the port. -/
def connected (input : List Code) (g : Flow) (x : LineContext := {}) : State :=
  part { unit := { framing .connected with input := input },
         ctx := { x with stack := [{ channel := 0, port := 0, state := .live }], forwardTimer := true, attentionTimer := true } }
    (upWith { state := .bound, line := some 0, slot := some 0, flow := some g })

theorem wit_TypingGoesToTheLivePort :
    (∀ input g, (connected input g).Hears 0 ∧ ((connected input g).unit 0).state = .connected ∧
      (connected input g).liveSession 0 = some { channel := 0, port := 0, state := .live } ∧
      (connected input g).flow? 0 0 = some g ∧ ((connected input g).unit 0).input = input ∧
      ((connected input g).ctx 0).attention = .none ∧ ((connected input g).ctx 0).forwardTimer = true) ∧
    ((connected [] {} { attention := .pending }).ctx 0).attention = .pending ∧
    ((connected [] {}).group 0).attention = 29 ∧ ((connected [] {}).group 0).parity.accepts 29 true ∧
    -- the three cases of a typed character, at 30, 31 and 128 characters
    ((List.replicate 30 (65 : Code)).length + 1 < 32 ∧ 32 ≤ (List.replicate 31 (65 : Code)).length + 1 ∧
      128 ≤ (List.replicate 128 (65 : Code)).length ∧ (List.replicate 127 (65 : Code)).length < 128) :=
  ⟨fun _ _ => ⟨⟨rfl, rfl, rfl, rfl⟩, rfl, rfl, rfl, rfl, rfl, rfl⟩, rfl, rfl, trivial, by decide⟩

theorem wit_AttentionLeadsToThePrompt :
    let s := connected [65] { hostStop := true }
    s.Hears 0 ∧ s.powered = true ∧ (s.unit 0).state = .connected ∧ (s.ctx 0).attention = .none ∧
      (s.group 0).parity.accepts (s.group 0).attention true ∧
      s.liveSession 0 = some { channel := 0, port := 0, state := .live } ∧ s.flow? 0 0 = some { hostStop := true } ∧
      (s.ctx 0).attentionTimer = true ∧
      (let v := connected [65] {} { attention := .pending }
       v.Hears 0 ∧ (v.unit 0).state = .connected ∧ (v.ctx 0).attention = .pending ∧ (66 : Code) ≠ (v.group 0).attention ∧
         v.liveSession 0 = some { channel := 0, port := 0, state := .live } ∧ v.flow? 0 0 = some {}) :=
  ⟨⟨rfl, rfl, rfl, rfl⟩, rfl, rfl, rfl, trivial, rfl, rfl, rfl, ⟨rfl, rfl, rfl, rfl⟩, rfl, rfl, by decide, rfl, rfl⟩

/-- A signed-on line, an UP channel with one port, and account 1 with this record and budget state. -/
def caller (x : Port) (r : Record) (b : BudgetState) (bank : Bank := ratedBank) (w : List WaitEntry := []) : State :=
  { withStore (part signedOn { upWith x with queue := w }) r (some b) with rating := { active := bank } }

theorem wit_ConnectChecksThenOpensOrWaits :
    let so : SignOnRecord := { account := 1, slot := 0, effClass := 3 }
    -- each check that refuses, in its order
    ((part signedOn).powered = true ∧ ((part signedOn).unit 0).state = .command ∧
      ((part signedOn).unit 0).lineHit = false ∧ ((part signedOn).ctx 0).signOn = some so ∧
      ((part signedOn).chan 0).state ≠ .up) ∧
    (let s := caller {} { account with hostSet := 14 } .normal
     (s.chan 0).state = .up ∧ ∀ r, s.recordAt so.slot = some r → r.state ≠ .active ∨ r.hostSet.getLsbD 0 = false) ∧
    (let s := { caller {} account .normal with store := { storeOf account with chanConfig := Vector.replicate 4 {} } }
     s.recordAt so.slot = some account ∧ account.state = .active ∧ account.hostSet.getLsbD 0 = true ∧
       (s.right 0 so.account).charges = false) ∧
    (let s := caller {} account .grace
     (s.right 0 so.account).charges = true ∧ (s.chan 0).params = some { portCount := 1, minClass := 3, base := 0 } ∧
       3 ≤ so.effClass ∧ 2 < 3 ∧ (s.presenceOf so.slot).budget = some .grace) ∧
    (let s := caller {} account .warned {}
     (s.presenceOf so.slot).budget = some .warned ∧ (s.ctx 0).stack.length < 4 ∧ (s.chan 0).masks.unrated = false ∧
       (s.unit 0).speed = some .b300 ∧ s.rating.active.rate 0 Speed.b300.cls s.rating.period = none) ∧
    -- the two outcomes of a connect that passes
    (let s := caller {} account .normal
     s.MayConnect 0 0 so ∧ s.port? 0 0 = some {} ∧ ∀ q, q < 0 → ∀ y, s.port? 0 q = some y → y.state ≠ .free) ∧
    (let s := caller { state := .bound } account .normal ratedBank
        [{ line := 1, slot := 0, effClass := 3 }, { line := 2, slot := 0, effClass := 2 }]
     s.MayConnect 0 0 so ∧ (∀ p x, s.port? 0 p = some x → x.state ≠ .free) ∧
       (s.chan 0).queue = [{ line := 1, slot := 0, effClass := 3 }] ++ [{ line := 2, slot := 0, effClass := 2 }]) := by
  have h0 : tabGet 0 (storeOf account).records = some account := rfl
  refine ⟨by decide, ⟨rfl, fun r h => ?_⟩, ⟨h0, rfl, by decide, by decide⟩, by decide, by decide, ⟨?_, rfl, fun q h => by omega⟩,
    ?_, ?_, rfl⟩
  · cases (show some { account with hostSet := 14 } = some r from h); exact .inr (by decide)
  · exact ⟨rfl, ⟨account, h0, rfl, by decide⟩, by decide, fun a h => by cases h; exact Nat.le_refl 3, .inl rfl, by decide,
      .inr ⟨.b300, 1000, rfl, by decide⟩⟩
  · exact ⟨rfl, ⟨account, h0, rfl, by decide⟩, by decide, fun a h => by cases h; exact Nat.le_refl 3, .inl rfl, by decide,
      .inr ⟨.b300, 1000, rfl, by decide⟩⟩
  · have h : ∀ c : ChanNo, ∀ x ∈ ((caller { state := .bound } account .normal ratedBank
        [{ line := 1, slot := 0, effClass := 3 }, { line := 2, slot := 0, effClass := 2 }]).chan c).ports,
        x.state ≠ .free := by decide
    exact fun p x => ports_all h 0 p x

/-- Four sessions make the stack full; two are enough to rotate. -/
theorem wit_ResumeAndRotateGiveTheTerminal :
    let k := fun p : Nat => ({ channel := 1, port := p, state := .held } : Session)
    let s := fun st => part { signedOn with ctx := { signedOn.ctx with stack := st } }
    (∀ st, (s st).powered = true ∧ ((s st).unit 0).state = .command ∧ ((s st).unit 0).lineHit = false ∧
      ((s st).ctx 0).stack = st) ∧
    ((s []).ctx 0).stack = [] ∧ ((s [k 0]).ctx 0).stack = [] ++ [k 0] ∧ ((s [k 0]).ctx 0).stack.length < 2 ∧
    ((s [k 0, k 1, k 2, k 3]).ctx 0).stack = [k 0, k 1] ++ [k 2, k 3] ∧ 4 ≤ ((s [k 0, k 1, k 2, k 3]).ctx 0).stack.length :=
  ⟨fun _ => ⟨rfl, rfl, rfl, rfl⟩, rfl, rfl, by decide, rfl, by decide⟩

theorem wit_StatusReportsSessionsAndUse :
    (part signedOn).powered = true ∧ ((part signedOn).unit 0).state = .command ∧ ((part signedOn).unit 0).lineHit = false ∧
      ((part signedOn).ctx 0).signOn = some { account := 1, slot := 0, effClass := 3 } := by decide

theorem wit_LogoffPlacesTheSummaryAndClears :
    let so : SignOnRecord := { account := 1, slot := 0, effClass := 3 }
    let s := fun b => withStore (part { signedOn with ctx := { signedOn.ctx with idleTimer := true } }) account (some b)
    let m := metered .command .held
    let x : Port := { state := .bound, line := some 0, slot := some 0, flow := some {} }
    (∀ b, (s b).powered = true ∧ ((s b).unit 0).state = .command ∧ ((s b).ctx 0).signOn = some so ∧
      ((s b).ctx 0).stack = [] ∧ ((s b).unit 0).lineHit = false ∧ ((s b).dialog 0).phase = .none ∧
      ((s b).dialog 0).counted = some 0 ∧ ((s b).ctx 0).idleTimer = true ∧ ((s b).presenceOf 0).count = 1 ∧
      ((s b).presenceOf 0).budget = some b) ∧ (s .grace).NotWaiting 0 ∧
    (m.powered = true ∧ (m.unit 0).state = .command ∧ (m.ctx 0).signOn = some so ∧ m.NotWaiting 0 ∧ (m.unit 0).lineHit = false ∧
      (m.dialog 0).phase = .none ∧ (m.dialog 0).counted = some 0 ∧ (m.ctx 0).stack = [⟨0, 0, .held⟩] ∧
      m.Running 0 ⟨0, 0, .held⟩ x meter 31 ∧ meter.slot = 0) :=
  ⟨fun _ => ⟨rfl, rfl, rfl, rfl, rfl, rfl, rfl, rfl, rfl, rfl⟩, notWaiting_of (by decide) (by decide), rfl, rfl, rfl,
    notWaiting_of (by decide) (by decide), rfl, rfl, rfl, rfl, running_metered _ _, rfl⟩

/-! ## Ports and wait queues -/

/-- An order frame with a body of one byte. -/
def oneByte (b : Byte) : OrderFrame := ⟨7, 1, [b]⟩

/-- A part with an UP channel whose one port is this one. -/
def portPart (x : Port) : State := part {} (upWith x)

theorem wit_PortOrdersThatFindNoCircuit :
    (∀ x, (portPart x).Attends 0 ∧ (portPart x).port? 0 0 = some x ∧ (portPart x).port? 0 1 = none) ∧
    (oneByte 1).fits 1 ∧ (oneByte 1).body = [1] ∧ (part {} { state := .quiescing }).Attends 0 :=
  ⟨fun _ => ⟨⟨rfl, .inl rfl, rfl⟩, rfl, rfl⟩, ⟨rfl, rfl⟩, rfl, rfl, .inr rfl, rfl⟩

theorem wit_AcceptCompletesTheCircuit :
    let s : State := { withStore (part { signedOn with unit := framing .waiting }
        (upWith { state := .opening, line := some 0, slot := some 0, timer := true })) account with
      rating := { active := ratedBank } }
    let b : State := { s with rating := { clock := .fallback, active := ratedBank },
                              channels := s.channels.set 0 { s.chan 0 with fallbackRaised := true } }
    s.Attends 0 ∧ (oneByte 0).fits 1 ∧ (oneByte 0).body = [0] ∧
      s.port? 0 0 = some { state := .opening, line := some 0, slot := some 0, timer := true } ∧ (s.unit 0).state = .waiting ∧
      (s.ctx 0).signOn = some { account := 1, slot := 0, effClass := 3 } ∧ (s.unit 0).speed = some .b300 ∧
      s.meter? 0 0 = none ∧ s.rating.active.rate 0 Speed.b300.cls s.rating.period = some 1000 ∧
      s.rating.clock = .reference ∧ (b.chan 0).fallbackRaised = true ∧ b.rating.clock = .fallback ∧
      ({ s with rating := {} } : State).rating.active.rate 0 Speed.b300.cls ({} : Rating).period = none :=
  ⟨⟨rfl, .inl rfl, rfl⟩, ⟨rfl, rfl⟩, rfl, rfl, rfl, rfl, rfl, rfl, by decide, rfl, rfl, rfl, by decide⟩

/-- Lines 0 and 1 wait for the one port of channel 0; accounts 1 and 2 stand in slots 0 and 1. -/
def waiters (x : Port) (q : List WaitEntry) (r : Record := account) : State :=
  { withStore (part { signedOn with unit := framing .waiting } { upWith x with queue := q }) r with
    lines := ((Vector.replicate 64 {}).set 0 { signedOn with unit := framing .waiting }).set 1
      { signedOn with unit := framing .waiting },
    store := { storeOf r with records := [(0, r), (1, { account with number := 2 })], directory := [(1, 0), (2, 1)] } }

theorem wit_ClosedPortsAreFreedAndGranted :
    let x : Port := { state := .closing, timer := true }
    let held : Record := { account with state := .held }
    let w := fun (l : LineNo) (k : Nat) => ({ line := l, slot := k, effClass := 3 } : WaitEntry)
    (∀ r q, (waiters x q r).powered = true ∧ (waiters x q r).port? 0 (0 : Byte).toNat = some x ∧
      ((waiters x q r).chan 0).state = .up ∧ ((waiters x q r).chan 0).queue = q ∧ (waiters x q r).Attends 0) ∧
    (oneByte 0).fits 1 ∧
    -- two lines of an account that is HELD, and one of an ACTIVE account behind them
    (let s := waiters x [w 0 0, w 1 0, w 2 1] held
     (s.chan 0).queue = [w 0 0, w 1 0] ++ w 2 1 :: [] ∧
       (∀ v ∈ [w 0 0, w 1 0], (∀ r, s.recordAt v.slot = some r → r.state ≠ .active) ∧ (s.unit v.line).state = .waiting) ∧
       ([w 0 0, w 1 0].map (·.line)).Nodup ∧ s.recordAt 1 = some { account with number := 2 }) ∧
    (let q := part {} { upWith x with state := .quiescing, ports := [x, { state := .bound }] }
     (q.chan 0).state = .quiescing ∧ q.port? 0 1 = some { state := .bound }) := by
  refine ⟨fun _ _ => ⟨rfl, rfl, rfl, rfl, rfl, .inl rfl, rfl⟩, ⟨rfl, rfl⟩, ⟨rfl, fun v hv => ⟨fun r e => ?_, ?_⟩, by decide, rfl⟩,
    rfl, rfl⟩
  · have hs : v.slot = 0 := by
      rcases List.mem_cons.mp hv with h | h
      · rw [h]
      · rw [List.mem_singleton.mp h]
    rw [hs] at e
    cases (show some { account with state := AccountState.held } = some r from e)
    decide
  · rcases List.mem_cons.mp hv with h | h
    · rw [h]; rfl
    · rw [List.mem_singleton.mp h]; rfl

theorem wit_RefusedCallsReturnTheLine :
    let x : Port := { state := .opening, line := some 0, slot := some 0, timer := true }
    let w : WaitEntry := { line := 1, slot := 1, effClass := 3 }
    ∀ q, let s := waiters x q
    s.powered = true ∧ s.port? 0 (0 : Byte).toNat = some x ∧ (s.unit 0).state = .waiting ∧ (s.chan 0).state = .up ∧
      (s.chan 0).queue = q ∧ s.Attends 0 ∧ (oneByte 0).fits 1 ∧ x.timer = true ∧
      s.recordAt w.slot = some { account with number := 2 } ∧ account.state = .active :=
  fun _ => ⟨rfl, rfl, rfl, rfl, rfl, ⟨rfl, .inl rfl, rfl⟩, ⟨rfl, rfl⟩, rfl, rfl, rfl⟩

theorem wit_WaitsEndByTimeOrByTheCaller :
    let waiter : Line := { signedOn with unit := framing .waiting }
    let w : WaitEntry := { line := 0, slot := 0, effClass := 3 }
    let q := part waiter { upWith { state := .bound } with queue := [w] }
    let x : Port := { state := .opening, line := some 0, slot := some 0, timer := true }
    let o := part waiter (upWith x)
    (q.powered = true ∧ (q.unit 0).state = .waiting ∧ w ∈ (q.chan 0).queue ∧ w.line = 0 ∧ w.timer = true ∧ q.Hears 0 ∧
      (q.group 0).parity.accepts 29 true ∧ (q.group 0).attention = 29 ∧
      ∀ c p y, q.port? c p = some y → y.state = .opening → y.line ≠ some 0) ∧
    (o.Hears 0 ∧ o.port? 0 0 = some x ∧
      (∀ d q z, o.port? d q = some z → z.state = .opening → z.line = some 0 → d = 0 ∧ q = 0) ∧
      ∀ d, ∀ v ∈ (o.chan d).queue, v.line ≠ 0) := by
  refine ⟨⟨rfl, rfl, by decide, rfl, rfl, ⟨rfl, rfl, rfl, rfl⟩, trivial, rfl, ports_all (by decide)⟩,
    ⟨rfl, rfl, rfl, rfl⟩, rfl, fun d q z h _ _ => ?_, by decide⟩
  fin_cases d
  · match q, h with
    | 0, _ => exact ⟨rfl, rfl⟩
  all_goals cases h

/-- A channel whose silence timer runs. -/
def silent (s : State) : State := s.modChan 0 fun ch => { ch with silence := true }

/-- The one line that waits for channel 0 is in its queue, or has its port in OPENING; or no line waits. -/
theorem wit_SilenceEndsTheAttachment :
    let w : WaitEntry := { line := 1, slot := 1, effClass := 3 }
    let x : Port := { state := .opening, line := some 0, slot := some 0 }
    let y : Port := { state := .bound, line := some 0, slot := some 0, flow := some {} }
    let free := silent (part {} { upWith {} with notices := [⟨.detached, none, []⟩] })
    let queued := silent (waiters {} [w])
    let opening := silent (waiters x [])
    (free.powered = true ∧ (free.chan 0).silence = true ∧ (free.chan 0).queue = [] ∧
      (∀ p z, free.port? 0 p = some z → z.state = .free) ∧ ((part {}).chan 0).silence = false) ∧
    (queued.powered = true ∧ (queued.chan 0).silence = true ∧ (∀ p z, queued.port? 0 p = some z → z.state = .free) ∧
      (queued.chan 0).queue = [w] ∧ (queued.unit w.line).state = .waiting) ∧
    (opening.powered = true ∧ (opening.chan 0).silence = true ∧ opening.port? 0 0 = some x ∧ x.state = .opening ∧
      (∀ q z, q ≠ 0 → opening.port? 0 q = some z → z.state = .free) ∧ (opening.chan 0).queue = [] ∧
      (opening.unit 0).state = .waiting) ∧
    ∀ st k, let m := silent (metered st k)
      m.powered = true ∧ (m.chan 0).silence = true ∧ m.Running 0 ⟨0, 0, k⟩ y meter 31 ∧ y.state = .bound ∧
        (∀ q z, q ≠ 0 → m.port? 0 q = some z → z.state = .free) ∧ (m.chan 0).queue = [] ∧
        (∀ j ∈ (m.ctx 0).stack, j.channel = 0 → j.port = 0 → j = ⟨0, 0, k⟩) ∧ ⟨0, 0, k⟩ ∈ (m.ctx 0).stack ∧
        (m.unit 0).state = st := by
  refine ⟨⟨rfl, rfl, rfl, fun p x => ports_all (P := fun _ x => x.state = .free) (by decide) 0 p x, rfl⟩,
    ⟨rfl, rfl, fun p x => ports_all (P := fun _ x => x.state = .free) (by decide) 0 p x, rfl, rfl⟩,
    ⟨rfl, rfl, rfl, rfl, ?_, rfl, rfl⟩, fun st k => ⟨rfl, rfl, ⟨rfl, rfl, rfl, (running_metered st k).takes.entry, rfl,
      (running_metered st k).takes.room, rfl, rfl⟩, rfl, ?_, rfl, fun _ hj _ _ => List.mem_singleton.mp hj,
      List.mem_singleton.mpr rfl, rfl⟩⟩
  all_goals
    intro q z hq h
    match q, hq, h with
    | _ + 1, _, h => cases h

/-! ## Metering -/

theorem wit_SessionsEndFromEitherSide :
    let x : Port := { state := .bound, line := some 0, slot := some 0, flow := some {} }
    (∀ k, let s := metered .command k
      s.powered = true ∧ (s.unit 0).state = .command ∧ (s.unit 0).lineHit = false ∧
        (s.ctx 0).stack = [] ++ [⟨0, 0, k⟩] ∧ s.Running 0 ⟨0, 0, k⟩ x meter 31) ∧
    (∀ st k, let v := metered st k
      v.Attends 0 ∧ (v.chan 0).state = .up ∧ (v.chan 0).queue = [] ∧ (oneByte 0).fits 1 ∧ (oneByte 0).body = [0] ∧
        v.Running 0 ⟨0, 0, k⟩ x meter 31 ∧ x.state = .bound ∧
        (∀ j ∈ (v.ctx 0).stack, j.channel = 0 → j.port = 0 → j = ⟨0, 0, k⟩) ∧ ⟨0, 0, k⟩ ∈ (v.ctx 0).stack ∧
        (v.unit 0).state = st) ∧
    ((part signedOn).unit 0).state = .command ∧ ((part signedOn).unit 0).lineHit = false ∧
      ((part signedOn).ctx 0).stack = [] :=
  ⟨fun _ => ⟨rfl, rfl, rfl, rfl, running_metered _ _⟩, fun _ _ => ⟨⟨rfl, .inl rfl, rfl⟩, rfl, rfl, ⟨rfl, rfl⟩, rfl,
    running_metered _ _, rfl, fun _ hj _ _ => List.mem_singleton.mp hj, List.mem_singleton.mpr rfl, rfl⟩, rfl, rfl, rfl⟩

/-- A caller whose account has room for one unit when its meter makes two or more, on a channel that masks SATURATE or
not. -/
def saturating (masked : Bool) : State :=
  let s := metered .connected .live
  { s with
    rating := { active := ratedBank, meters := [{ meter with rate := 60000, percent := 250 }] },
    store := storeOf { account with used := 16777209 },
    channels := s.channels.set 0 { s.chan 0 with masks := { saturate := masked } } }

theorem wit_BillingSecondRatesTheMeters_saturation :
    let m : Meter := { meter with rate := 60000, percent := 250 }
    let x : Port := { state := .bound, line := some 0, slot := some 0, flow := some {} }
    ∀ b, let s := saturating b
    s.powered = true ∧ s.rating.billingTimer = true ∧ s.rating.meters = [m] ∧ m.unposted = 0 ∧ m.saturated = false ∧
      ¬ s.rating.active.boundaryAt s.rating.calendar.tick ∧ s.Takes 31 m.slot (s.room m.slot) ∧
      s.room m.slot < (m.acc + m.rate * m.percent) / 6000000 ∧ (s.chan m.channel).state = .up ∧
      (s.chan m.channel).masks.saturate = b ∧ s.port? 0 0 = some x ∧ (s.ctx 0).stack = [⟨0, 0, .live⟩] ∧
      (s.unit 0).state = .connected := by
  intro m x b
  refine ⟨rfl, rfl, rfl, rfl, rfl, ?_, ⟨?_, rfl, Nat.le_refl _, rfl, rfl⟩, ?_, rfl, rfl, rfl, rfl, rfl⟩
  · show ¬ ((1 : Nat) = 0 ∨ ((1 : Nat) % 60 = 0 ∧ _)); omega
  · show (saturating true).entryOf 0 = some 31; decide
  · cases b <;> decide

theorem wit_BillingSecondRatesTheMeters :
    let s := metered .connected .live
    let low : Meter := { meter with acc := 5899999 }
    let b : State := { s with rating := { active := ratedBank, armed := true, calendar := { weekday := 6, time := 86399 },
                                          meters := [low] } }
    (s.powered = true ∧ s.rating.billingTimer = true ∧ s.rating.meters = [meter] ∧ meter.unposted = 0 ∧
      ¬ s.rating.active.boundaryAt s.rating.calendar.tick ∧ (meter.acc + meter.rate * meter.percent) / 6000000 = 1 ∧
      s.Takes 31 meter.slot ((meter.acc + meter.rate * meter.percent) / 6000000)) ∧
    b.metersDistinct ∧ (∀ m ∈ b.rating.meters, m.acc + m.rate * m.percent < 6000000) ∧
    b.rating.active.boundaryAt b.rating.calendar.tick ∧
    (∀ m ∈ b.rating.meters, (ratedBank.rate m.channel m.speedClass
      ({ b.rating with calendar := b.rating.calendar.tick, active := b.rating.standby } : Rating).period).isSome = true) := by
  refine ⟨⟨rfl, rfl, rfl, rfl, ?_, by decide, takes_metered _ _ _ (by decide)⟩, List.pairwise_singleton _ _, by decide,
    .inl rfl, by decide⟩
  show ¬ ((1 : Nat) = 0 ∨ ((1 : Nat) % 60 = 0 ∧ _)); omega

theorem wit_ClockSourceFollowsTheReference :
    let s := fun (m : Bool) (c : ClockSource) =>
      ({ part {} { upWith {} with masks := { estimated := m } } with rating := { clock := c, meters := [meter] } } : State)
    ∀ m c, (s m c).powered = true ∧ (s m c).rating.clock = c ∧ (s m c).rating.meters = [meter] ∧
      ((s m c).chan meter.channel).state = .up ∧ ((s m c).chan meter.channel).fallbackRaised = false ∧
      ((s m c).chan meter.channel).masks.estimated = m ∧ ((s m c).chan meter.channel).faultPending = false ∧
      ((s m c).chan meter.channel).faults = [] ∧ ∀ k ∈ (s m c).rating.meters, k.channel ≠ 1 :=
  fun _ _ => ⟨rfl, rfl, rfl, rfl, rfl, rfl, rfl, rfl, fun k hk => by cases List.mem_singleton.mp hk; decide⟩

/-! ## Channel orders -/

theorem wit_AttachSetsUpTheChannel :
    -- the second character of the name carries the eighth digit
    let f : OrderFrame := ⟨7, 8, [48, 3, 255, 255, 7, 2, 80, 177]⟩
    let bad : OrderFrame := ⟨7, 7, [48, 3, 255, 255, 7, 1, 127]⟩
    let w : WaitEntry := { line := 1, slot := 1, effClass := 3 }
    let x : Port := { state := .opening, line := some 0, slot := some 0 }
    let y : Port := { state := .bound, line := some 0, slot := some 0, flow := some {} }
    ((State.reset.chan 0).orders = [] ∧ (State.reset.chan 0).faultPending = false ∧ f.fits (6 + 2) ∧
      f.body = [48, 3, 255, 255, 7, BitVec.ofNat 8 2] ++ [80, 177] ∧ (3 : Byte).toNat ≤ 3 ∧
      (∀ b ∈ ([80, 177] : List Byte), 32 ≤ b.toNat % 128 ∧ b.toNat % 128 ≤ 126) ∧
      (State.reset.chan 0).state = .down ∧ bad.fits (6 + 1) ∧ ¬ ((127 : Byte).toNat % 128 ≤ 126)) ∧
    (let s := portPart {}
     (s.chan 0).state = .up ∧ (s.chan 0).queue = [] ∧ (∀ p z, s.port? 0 p = some z → z.state = .free) ∧
       (s.chan 0).orders = [] ∧ (s.chan 0).faultPending = false) ∧
    (let s := waiters {} [w]
     (s.chan 0).state = .up ∧ (s.chan 0).queue = [w] ∧ (s.unit w.line).state = .waiting ∧
       ∀ p z, s.port? 0 p = some z → z.state = .free) ∧
    (let s := waiters x []
     (s.chan 0).state = .up ∧ s.port? 0 0 = some x ∧ x.state = .opening ∧ (s.unit 0).state = .waiting ∧
       (∀ q z, q ≠ 0 → s.port? 0 q = some z → z.state = .free) ∧ (s.chan 0).queue = []) ∧
    ∀ st k, let m := metered st k
      (m.chan 0).state = .up ∧ (m.chan 0).orders = [] ∧ (m.chan 0).faultPending = false ∧ m.Running 0 ⟨0, 0, k⟩ y meter 31 ∧
        y.state = .bound ∧ (∀ q z, q ≠ 0 → m.port? 0 q = some z → z.state = .free) ∧ (m.chan 0).queue = [] ∧
        (m.unit 0).state = st := by
  refine ⟨⟨rfl, rfl, ⟨rfl, rfl⟩, rfl, by decide, by decide, rfl, ⟨rfl, rfl⟩, by decide⟩,
    ⟨rfl, rfl, fun p x => ports_all (P := fun _ x => x.state = .free) (by decide) 0 p x, rfl, rfl⟩,
    ⟨rfl, rfl, rfl, fun p x => ports_all (P := fun _ x => x.state = .free) (by decide) 0 p x⟩,
    ⟨rfl, rfl, rfl, rfl, ?_, rfl⟩, fun _ _ => ⟨rfl, rfl, rfl, running_metered _ _, rfl, ?_, rfl, rfl⟩⟩
  all_goals
    intro q z hq h
    match q, hq, h with
    | _ + 1, _, h => cases h

theorem wit_DetachLeavesWhenThePortsAreFree :
    let f : OrderFrame := ⟨7, 0, []⟩
    let w : WaitEntry := { line := 0, slot := 0, effClass := 3 }
    let x : Port := { state := .opening, line := some 0, slot := some 0 }
    let s := waiters { state := .bound } [w]
    -- beside the port in OPENING the channel has a second port
    let o := fun y : Port => (waiters x []).modChan 0 fun ch => { ch with ports := [x, y] }
    (f.fits 0 ∧ (portPart {}).Attends 0 ∧ ((portPart {}).chan 0).state = .up ∧ ((portPart {}).chan 0).queue = [] ∧
      ∀ p z, (portPart {}).port? 0 p = some z → z.state = .free) ∧
    (s.Attends 0 ∧ (s.chan 0).queue = [w] ∧ (s.unit w.line).state = .waiting ∧ s.port? 0 0 = some { state := .bound } ∧
      ∀ p z, s.port? 0 p = some z → z.state ≠ .opening) ∧
    (∀ y, (o y).Attends 0 ∧ ((o y).chan 0).state = .up ∧ ((o y).chan 0).queue = [] ∧ (o y).port? 0 0 = some x ∧
      ((o y).unit 0).state = .waiting ∧ (o y).port? 0 1 = some y ∧
      (y.state ≠ .opening → ∀ q z, q ≠ 0 → (o y).port? 0 q = some z → z.state ≠ .opening) ∧
      (y.state = .free → ∀ q z, q ≠ 0 → (o y).port? 0 q = some z → z.state = .free)) ∧
    (let q := part {} { upWith { state := .closing, timer := true } with state := .quiescing }
     (q.chan 0).state = .quiescing ∧ q.port? 0 0 = some { state := .closing, timer := true } ∧
       ∀ p y, p ≠ 0 → q.port? 0 p = some y → y.state = .free) := by
  refine ⟨⟨⟨rfl, rfl⟩, ⟨rfl, .inl rfl, rfl⟩, rfl, rfl, fun p x => ports_all (P := fun _ x => x.state = .free) (by decide) 0 p x⟩,
    ⟨⟨rfl, .inl rfl, rfl⟩, rfl, rfl, rfl, fun p x => ports_all (P := fun _ x => x.state ≠ .opening) (by decide) 0 p x⟩,
    fun y => ⟨⟨rfl, .inl rfl, rfl⟩, rfl, rfl, rfl, rfl, rfl, fun hy q z hq h => ?_, fun hy q z hq h => ?_⟩,
    rfl, rfl, fun p y hp h => ?_⟩
  · match q, hq, h with
    | 1, _, h => cases h; exact hy
    | _ + 2, _, h => cases h
  · match q, hq, h with
    | 1, _, h => cases h; exact hy
    | _ + 2, _, h => cases h
  · match p, hp, h with
    | _ + 1, _, h => cases h

theorem wit_IdleAndSyncReportAndClear :
    (State.reset.chan 0).orders = [] ∧ (⟨7, 0, []⟩ : OrderFrame).fits 0 ∧ ((portPart {}).chan 0).state = .up ∧
      ((portPart {}).chan 0).orders = [] := ⟨rfl, ⟨rfl, rfl⟩, rfl, rfl⟩

/-! ## Operator orders and reports -/

/-- A part whose channel 0 is UP and has every right and the operator right. -/
def operated (x : Line := {}) : State := withStore (part x (upWith {})) account

theorem operated_attends (x : Line) : (operated x).Attends 0 ∧ ((operated x).chan 0).faultPending = false ∧
    (operated x).operator 0 = true := ⟨⟨rfl, .inl rfl, rfl⟩, rfl, rfl⟩

theorem wit_OperatorSettingsAreTaken :
    let s : State := { operated with rating := { active := ratedBank, meters := [meter] } }
    let last : OrderFrame := ⟨7, 4, [6, 1, 81, 127]⟩
    (s.Attends 0 ∧ s.operator 0 = true ∧ last.fits 4 ∧ (6 : Byte).toNat ≤ 6 ∧ 1 * 65536 + 81 * 256 + 127 < 86400 ∧
      86400 ≤ 1 * 65536 + 81 * 256 + 128 ∧ s.metersDistinct ∧
      ∀ m ∈ s.rating.meters, (s.rating.active.rate m.channel m.speedClass
        ({ s.rating with calendar := { weekday := 6, time := 86399 } } : Rating).period).isSome = true) ∧
    ((⟨7, 2, [126, 160]⟩ : OrderFrame).fits 2 ∧ ∀ x ∈ ([126, 160] : List Byte), 32 ≤ x.toNat % 128 ∧ x.toNat % 128 ≤ 126) ∧
    ((⟨7, 1, [255]⟩ : OrderFrame).fits 1 ∧ ∃ x ∈ ([255] : List Byte), ¬ (32 ≤ x.toNat % 128 ∧ x.toNat % 128 ≤ 126)) ∧
    (⟨7, 0, []⟩ : OrderFrame).fits 0 ∧ (oneByte 1).fits 1 ∧ (oneByte 2).body = [2] :=
  ⟨⟨⟨rfl, .inl rfl, rfl⟩, rfl, ⟨rfl, rfl⟩, by decide, by decide, by decide, List.pairwise_singleton _ _, by decide⟩,
    ⟨⟨rfl, rfl⟩, by decide⟩, ⟨⟨rfl, rfl⟩, by decide⟩, ⟨rfl, rfl⟩, ⟨rfl, rfl⟩, rfl⟩

/-- The minutes of the reading example: a point that decides, a list with every point later, and an empty list (R111). -/
theorem wit_OperatorSettingsAreTaken_period :
    let p : List SwitchPoint := [⟨480, 0⟩, ⟨1080, 1⟩, ⟨1320, 2⟩]
    let r := fun d t =>
      ({ calendar := { weekday := d, time := t }, active := { ratedBank with workday := p } } : Rating)
    (((r 4 28800).active.workday = [] ++ ⟨480, 0⟩ :: [⟨1080, 1⟩, ⟨1320, 2⟩] ∧ (r 4 28800).calendar.weekday < 5) ∧
      480 ≤ (r 4 28800).calendar.time / 60 ∧
      ∀ x ∈ [(⟨1080, 1⟩ : SwitchPoint), ⟨1320, 2⟩], (r 4 28800).calendar.time / 60 < x.minute) ∧
    ((r 0 28799).active.workday = [⟨480, 0⟩, ⟨1080, 1⟩] ++ [⟨1320, 2⟩] ∧
      ∀ x ∈ (r 0 28799).active.workday, (r 0 28799).calendar.time / 60 < x.minute) ∧
    ((r 5 0).active.restday = [] ∧ ¬ (r 5 0).calendar.weekday < 5) ∧
    ((r 0 0).active.rates[(3 : ChanNo).val * 12 + 8 + 3]? = some (some 1000) ∧ (r 0 0).active.percent[3]? = some 100) := by
  decide

/-- Seven items at the ends of their ranges, one part written twice; and an order that a last item spoils. -/
theorem wit_LoadTariffWritesThePendingBank :
    let ps : List SwitchPoint := [⟨0, 0⟩, ⟨1439, 3⟩]
    let items : List (List Byte × (Bank → Bank)) :=
      [([1, 3, 2, 3, 255, 254], fun b => { b with rates := b.rates.setIfInBounds 47 (some 60000) }),
       ([1, 3, 2, 3, 255, 255], fun b => { b with rates := b.rates.setIfInBounds 47 none }),
       ([2, 3, 1, 0], fun b => { b with minimum := b.minimum.setIfInBounds 3 255 }),
       ([3, 3, 251], fun b => { b with percent := b.percent.setIfInBounds 3 250 }),
       ([4, 2], fun b => { b with rounding := .down }),
       ([5, 0, 0], fun b => { b with workday := [] }),
       ([5, 1, 2] ++ switchBytes ps, fun b => { b with restday := ps })]
    let frame := fun rest => (⟨7, BitVec.ofNat 16 (items.flatMap (·.1) ++ rest).length, items.flatMap (·.1) ++ rest⟩ : OrderFrame)
    (operated.Attends 0 ∧ operated.operator 0 = true ∧ (operated.chan 0).faultPending = false) ∧
    ((frame []).body = items.flatMap (·.1) ∧ (frame []).fits (frame []).body.length ∧ (frame []).body.length ≤ 512 ∧
      (frame [4, 3]).fits (frame [4, 3]).body.length) ∧
    (∀ i ∈ items, TariffItemIs i.1 i.2) ∧
    TariffRefused [4, 3] ∧ TariffRefused [6] ∧ TariffRefused [1, 0, 0, 4, 0, 0] ∧ TariffRefused [5, 0] := by
  intro ps items frame
  refine ⟨⟨⟨rfl, .inl rfl, rfl⟩, rfl, rfl⟩, ⟨List.append_nil _, ⟨by decide, rfl⟩, by decide, by decide, rfl⟩, ?_,
    .rounding 3 [] (by decide), .tag 6 [] (by decide), .rate 0 0 4 0 0 [] (by decide), .short 5 [0] (by decide)⟩
  intro i hi
  simp only [items, List.mem_cons, List.not_mem_nil, or_false] at hi
  rcases hi with rfl | rfl | rfl | rfl | rfl | rfl | rfl
  · simpa using TariffItemIs.rate 3 2 3 255 254 (by decide) (by decide) (by decide)
  · simpa using TariffItemIs.rate 3 2 3 255 255 (by decide) (by decide) (by decide)
  · simpa using TariffItemIs.minimum 3 1 0 (by decide)
  · simpa using TariffItemIs.percent 3 251 (by decide)
  · exact .down
  · exact .workday [] (by unfold switchListRight; decide)
  · exact .restday ps (by unfold switchListRight; decide)

theorem wit_ClosePeriodBeginsTheRoll :
    let busy : State := { operated with arbiter := { current := some { who := .chan 1, write := .nothing, result := .taken } } }
    let s : State := { operated with store := { storeOf account with periodNumber := 65535 } }
    let due : State := { operated with presence := [] }
    (operated.operator 0 = true ∧ operated.store.periodState = .opened ∧ (⟨7, 0, []⟩ : OrderFrame).fits 0 ∧
      ({ operated with store := { storeOf account with periodState := .closing } } : State).store.periodState = .closing) ∧
    (∀ e ∈ s.store.records, e.2.stamp = (s.store.periodNumber + 1) % 65536) ∧
    (operated.store.records = [] ++ (0, account) :: [] ∧ account.stamp ≠ (operated.store.periodNumber + 1) % 65536 ∧
      busy.arbiter.current.isSome = true ∧ operated.arbiter.current = none ∧ tabGet 0 operated.store.records = some account ∧
      account.budget = none ∧ operated.cache.waiting = [] ∧ operated.entryOf 0 = none ∧
      (operated.presenceOf 0).budget = some .normal ∧ (due.presenceOf 0).budget = none) :=
  ⟨⟨rfl, rfl, ⟨rfl, rfl⟩, rfl⟩, by decide, rfl, by decide, rfl, rfl, rfl, rfl, rfl, by decide, rfl, rfl⟩

theorem wit_LineOrdersActOnTheLine :
    let s := fun u : LineUnit => operated { unit := u }
    (∀ u, (s u).Attends 0 ∧ (s u).operator 0 = true ∧ ((s u).chan 0).faultPending = false ∧ ((s u).unit 0) = u ∧
      (s u).setup = false) ∧
    (oneByte 0).fits 1 ∧ (0 : LineNo).val = (0 : Byte).toNat ∧ (63 : LineNo).val = (63 : Byte).toNat ∧ 63 < (64 : Byte).toNat ∧
    ({ operated with setup := true } : State).setup = true ∧ LineState.speed.active = true ∧
    -- a line in its dialog, signed on, or in the wait queue
    ∀ st ph, ph ≠ .checking → let c := caught (framing st) ph
      c.Attends 0 ∧ c.operator 0 = true ∧ (c.chan 0).faultPending = false ∧ c.setup = false ∧ (c.unit 0).state = st ∧
        c.Sessionless 0 :=
  ⟨fun _ => ⟨⟨rfl, .inl rfl, rfl⟩, rfl, rfl, rfl, rfl⟩, ⟨rfl, rfl⟩, rfl, rfl, by decide, rfl, rfl,
    fun _ ph h => ⟨⟨rfl, .inl rfl, rfl⟩, rfl, rfl, rfl, rfl, sessionless_caught _ ph h⟩⟩

theorem wit_ResetGroupReachesItsEightLines :
    let s := caught (framing .waiting) .none
    s.Attends 0 ∧ s.operator 0 = true ∧ (s.chan 0).faultPending = false ∧ (oneByte 0).fits 1 ∧ (oneByte 0).body = [0] ∧
      8 ≤ (8 : Byte).toNat ∧ (s.unit 0).state.active = true ∧
      ∀ l : LineNo, l.val / 8 = (0 : Byte).toNat → (s.unit l).state.active = true → s.Sessionless l := by
  refine ⟨⟨rfl, .inl rfl, rfl⟩, rfl, rfl, ⟨rfl, rfl⟩, rfl, by decide, rfl, fun l _ ha => ?_⟩
  have h : ∀ l : LineNo, ((caught (framing .waiting) .none).unit l).state.active = true → l = 0 := by decide
  rw [h l ha]
  exact sessionless_caught _ _ (by decide)

/-- A write-back of the one entry of the flush set of channel 0's FLUSH. -/
theorem wit_RestartAndFlushWriteTheCache_written :
    let a := orderOf 16 ⟨9, 0, []⟩
    ∀ again, let s : State := { metered .connected .live with
      cache := { entries := (Vector.replicate 32 {}).set 31 { slot := some 0, pending := 5, state := .writing, snapshot := 5 },
                 recency := [31], flush := (Vector.replicate 4 none).set 0 (some [{ entry := 31, again := again }]) },
      arbiter := { current := some { who := .writeBack, write := .put 0 { account with used := 5 }, result := .writeBack 31 } },
      channels := (metered .connected .live).channels.set 0 { (metered .connected .live).chan 0 with orders := [a] } }
    s.powered = true ∧ (s.chan 0).orders = a :: [] ∧ (s.entry 31).slot = some 0 ∧ (s.entry 31).state = .writing ∧
      (s.entry 31).evicted = false ∧ (s.entry 31).pending = (s.entry 31).snapshot ∧ s.meterOpen 0 = true ∧ s.cache.queue = [] ∧
      s.cache.waiting = [] ∧ s.cache.restarting = false ∧ (s.presenceOf 0).budget = some .normal ∧
      ∀ d, s.cache.flush.get d = if d = 0 then some [{ entry := 31, again := again }] else none := by
  intro a again
  refine ⟨rfl, rfl, rfl, rfl, rfl, rfl, by cases again <;> decide, rfl, rfl, rfl, rfl, fun d => ?_⟩
  fin_cases d <;> rfl

theorem wit_RestartAndFlushWriteTheCache :
    let f : OrderFrame := ⟨7, 0, []⟩
    f.fits 0 ∧ operated.Attends 0 ∧ operated.operator 0 = true ∧ (∀ e, (operated.entry e).pending = 0) ∧
      (metered .connected .live).Attends 0 ∧ 0 < ((metered .connected .live).entry 31).pending :=
  ⟨⟨rfl, rfl⟩, ⟨rfl, .inl rfl, rfl⟩, rfl, by decide, ⟨rfl, .inl rfl, rfl⟩, by decide⟩

theorem wit_ConfigurationIsWrittenInSetup :
    (⟨7, 0, []⟩ : OrderFrame).fits 0 ∧ (⟨7, 3, [125, 0, 0]⟩ : OrderFrame).fits 3 ∧ (State.reset.chan 0).orders = [] ∧
      (State.reset.chan 0).faultPending = false ∧ State.reset.setup = false ∧
      ({ State.reset with setup := true } : State).setup = true := ⟨⟨rfl, rfl⟩, ⟨rfl, rfl⟩, rfl, rfl, rfl, rfl⟩

/-! ## Account orders and the store -/

/-- The same part with an access of channel `c` in progress. -/
def busyPart (s : State) (c : ChanNo) : State :=
  { s with arbiter := { current := some { who := .chan c, write := .nothing, result := .discarded c } } }

theorem store_busy (s : State) : (busyPart s 1).storeBusy 0 := ⟨_, rfl, by show Requester.chan 1 ≠ .chan 0; decide⟩

theorem own_access (s : State) : (busyPart s 0).ownAccess 0 :=
  ⟨_, rfl, rfl, by show AccessResult.discarded 0 ≠ .taken; decide⟩

/-- A sound state in which channel 0 has every right, with one account and nobody signed on. -/
def quietPart (r : Record) : State := { part {} (upWith {}) with store := storeOf r }

theorem quiet_sound : (quietPart account).Sound where
  lines l := by
    have h : ∀ l : LineNo, (quietPart account).line l = {} := by decide
    rw [h l]; simp [Line.ok, LineUnit.ok, Dialog.ok, LineContext.ok, Config.unitMax]
  chans c := by
    have h : ∀ c : ChanNo, (quietPart account).chan c = {} ∨ (quietPart account).chan c = upWith {} := by decide
    rcases h c with h | h <;> rw [h] <;> simp [Channel.ok, upWith, Config.portCap, Port.ok]
  rating := by
    refine ⟨⟨by decide, by decide⟩, ?_, ?_, by simp [quietPart, part]⟩ <;> refine ⟨?_, by decide, by decide⟩ <;>
      simp [quietPart, part]
  store := wit_EveryStepKeepsTheStateSound.store
  admits := trivial
  presence := by simp [quietPart, part, presenceWf, tabWf]
  marker _ := by decide

/-- The frame of an ADD of account 65535 with every value at its upper end. -/
def addFrame : OrderFrame := ⟨7, 14, [255, 255, 0, 255, 255, 255, 3, 255, 15, 255, 255, 255, 255, 4]⟩

theorem wit_AddMakesAnAccount :
    let s := quietPart account
    s.Sound ∧ s.Attends 0 ∧ (s.chan 0).faultPending = false ∧ addFrame.fits 14 ∧ (s.right 0 65535).edits = true ∧
      0 * 16777216 + 255 * 65536 + 255 * 256 + 255 ≤ 16777215 ∧ ((255 : Byte).toNat ≤ 3 ∨ (255 : Byte) = 255) ∧
      (15 : Byte).toNat ≤ 15 ∧ s.arbiter.current = none ∧ s.lookup 65535 = none ∧ s.lookup 1 = some 0 ∧
      s.recordAt 1 = none ∧ (∀ j, j < 1 → s.recordAt j ≠ none) ∧ (busyPart s 1).storeBusy 0 ∧ (busyPart s 0).ownAccess 0 ∧
      (({ s with store := {} } : State).right 0 65535).edits = false :=
  ⟨quiet_sound, ⟨rfl, .inl rfl, rfl⟩, rfl, ⟨rfl, rfl⟩, rfl, by decide, .inr rfl, by decide, rfl, rfl, rfl, rfl, by decide,
    store_busy _, own_access _, rfl⟩

theorem wit_ReadListAndProbeReport :
    let s := quietPart { account with budget := some 0 }
    s.Attends 0 ∧ (s.chan 0).faultPending = false ∧ (⟨7, 2, [0, 1]⟩ : OrderFrame).fits 2 ∧ s.right 0 1 = .both ∧
      s.arbiter.current = none ∧ s.lookup 1 = some 0 ∧ s.recordAt 0 = some { account with budget := some 0 } ∧
      (s.presenceOf 0).count = 0 ∧ (s.presenceOf 0).budget = none ∧ s.lookup 2 = none ∧ (busyPart s 1).storeBusy 0 ∧
      (busyPart s 0).ownAccess 0 ∧ ({ s with store := {} } : State).right 0 1 = .none :=
  ⟨⟨rfl, .inl rfl, rfl⟩, rfl, ⟨rfl, rfl⟩, rfl, rfl, rfl, rfl, rfl, rfl, rfl, store_busy _, own_access _, rfl⟩

/-- The frame of an EDIT of account 1 at revision 0, with this change set, state and budget. -/
def editFrame (set st b : Byte) : OrderFrame := ⟨7, 18, [0, 1, 0, 0, set, st, 0, 0, 0, 0, 0, 0, 0, 0, 0, 0, b, 1]⟩

theorem wit_EditWritesTheSettings :
    let s := quietPart account
    -- one line is signed on, with nothing held for it but the count
    let h := withStore (part { unit := framing .command, dialog := { counted := some 0 } } (upWith {})) account
    (s.Attends 0 ∧ (s.chan 0).faultPending = false ∧ (∀ x y z, (editFrame x y z).fits 18) ∧ (s.right 0 1).edits = true ∧
      s.arbiter.current = none ∧ s.lookup 1 = some 0 ∧ s.recordAt 0 = some account ∧ account.revision = 0 * 256 + 0 ∧
      s.signedOn 0 = [] ∧ (s.presenceOf 0).count = 0 ∧ (s.presenceOf 0).budget ≠ some .grace ∧ 0 * 256 + 1 ≠ 0 ∧
      (busyPart s 1).storeBusy 0 ∧ (busyPart s 0).ownAccess 0) ∧
    ((account.settled 32 0 0 0 0 0 0 1).budget ≠ account.budget ∧ (account.settled 1 2 0 0 0 0 0 1).state = .held ∧
      (account.settled 1 2 0 0 0 0 0 1).budget = account.budget ∧ (1 : Byte).getLsbD 0 = true ∧ (2 : Byte) = 2) ∧
    (h.signedOn 0 = [0] ∧ h.arbiter.current = none ∧ (h.unit 0).state.active = true ∧ (h.dialog 0).phase ≠ .checking ∧
      (h.ctx 0).stack = [] ∧ h.NotWaiting 0 ∧ (h.unit 0).partMsg = [] ∧ (h.presenceOf 0).budget ≠ some .grace ∧
      h.Attends 0 ∧ (h.right 0 1).edits = true ∧ h.lookup 1 = some 0 ∧ h.recordAt 0 = some account) :=
  ⟨⟨⟨rfl, .inl rfl, rfl⟩, rfl, fun _ _ _ => ⟨rfl, rfl⟩, rfl, rfl, rfl, rfl, rfl, by decide, rfl, by decide,
    by decide, store_busy _, own_access _⟩, by decide,
    by decide, rfl, rfl, by decide, rfl, notWaiting_of (by decide) (by decide), rfl, by decide, ⟨rfl, .inl rfl, rfl⟩, rfl, rfl,
    rfl⟩

theorem wit_DeleteFreesTheAccount :
    let i : Item := { slot := 0, closed := #v[3, 0, 0, 0], charges := [{ channel := 1, amount := 5 }] }
    let s : State := { quietPart account with cache := { waiting := [i], evicting := true }, dirtyMarker := true,
                                              channels := #v[upWith {}, { upWith {} with orders := [orderOf 15 ⟨9, 4, [0, 1, 0, 5]⟩] },
                                                             {}, {}] }
    (s.Attends 0 ∧ (s.chan 0).faultPending = false ∧ (⟨7, 2, [0, 1]⟩ : OrderFrame).fits 2 ∧ (s.right 0 1).edits = true ∧
      s.arbiter.current = none ∧ s.lookup 1 = some 0 ∧ s.recordAt 0 = some account ∧ (s.presenceOf 0).count = 0 ∧
      s.meterOpen 0 = false ∧ s.cache.waiting = [i] ∧ [i].length ≤ 1 ∧ (∀ k ∈ [i], k.slot = 0) ∧
      s.cache.flush.get 1 = none ∧ (s.chan 1).orders = orderOf 15 ⟨9, 4, [0, 1, 0, 5]⟩ :: [] ∧ (busyPart s 1).storeBusy 0 ∧
      (busyPart s 0).ownAccess 0) ∧
    (let t := metered .connected .live
     0 < (t.presenceOf 0).count ∧ t.meterOpen 0 = true ∧ t.lookup 1 = some 0) :=
  ⟨⟨⟨rfl, .inl rfl, rfl⟩, rfl, ⟨rfl, rfl⟩, rfl, rfl, rfl, rfl, rfl, rfl, rfl, by decide, by decide, rfl, rfl, store_busy _,
    own_access _⟩, by decide⟩

/-- Account 1 with this record, budget state and count, its line `x` and a channel 0; its entry 6 holds 40 units, or it
has no entry and the lowest FREE one is entry 1. -/
def charged (r : Record) (b : BudgetState) (n : Nat) (own : Bool) (x : Line) (ch : Channel) : State :=
  { withStore (part x ch) r with
    presence := [(0, { count := n, budget := some b })], dirtyMarker := own,
    cache :=
      if own then { entries := (Vector.replicate 32 {}).set 6 { slot := some 0, pending := 40, state := .gathering },
                    recency := [6] }
      else { entries := (Vector.replicate 32 {}).set 0 { slot := some 9, state := .gathering }, recency := [0] } }

theorem wit_ChargePostsUnits :
    let f : OrderFrame := ⟨7, 4, [0, 1, 255, 255]⟩
    let none_ : OrderFrame := ⟨7, 4, [0, 1, 0, 0]⟩
    let s := charged account .normal 1 true signedOn (upWith {})
    let v := charged account .normal 1 false signedOn (upWith {})
    (s.Attends 0 ∧ (s.chan 0).faultPending = false ∧ f.fits 4 ∧ none_.fits 4 ∧ (s.right 0 1).charges = true ∧
      (busyPart s 1).storeBusy 0 ∧ (busyPart s 0).ownAccess 0 ∧ s.arbiter.current = none ∧ s.lookup 1 = some 0 ∧
      s.recordAt 0 = some account ∧ s.cache.waiting = [] ∧ account.budget = none ∧ (s.presenceOf 0).budget = some .normal ∧
      s.entryOf 0 = some 6 ∧ 0 < (s.entry 6).pending) ∧
    (v.entryOf 0 = none ∧ (v.entry 1).state = .free ∧ (∀ j, j < 1 → (v.entry j).state ≠ .free) ∧
      account.used < 16777215) ∧
    -- amounts that the room does not hold
    ({ account with used := 16777000 } : Record).used + 40 + min 65535 (16777215 - (16777000 + 40)) = 16777215 :=
  ⟨⟨⟨rfl, .inl rfl, rfl⟩, rfl, ⟨rfl, rfl⟩, ⟨rfl, rfl⟩, rfl, store_busy _, own_access _, rfl, rfl, rfl, rfl, rfl, rfl, by decide,
    by decide⟩, by decide, by decide⟩

/-- A CHARGE of 200 units with a budget of 2,000: from 1,640 units to WARNED, from 1,840 to GRACE or SPENT, and from 1,780
with 41 units nowhere. -/
theorem wit_ChargePostsUnits_budget :
    let r := fun used : Nat => ({ account with budget := some 2000, used := used } : Record)
    let w : WaitEntry := { line := 0, slot := 0, effClass := 3 }
    let x : Port := { state := .opening, line := some 0, slot := some 0 }
    let inn := { signedOn with unit := framing .waiting }
    let warned := charged (r 1600) .normal 1 true signedOn (upWith {})
    let shown := charged (r 1800) .normal 1 true signedOn (upWith {})
    let queued := charged (r 1800) .normal 1 true inn { upWith {} with queue := [w] }
    let opening := charged (r 1800) .warned 1 true inn (upWith x)
    let spent := charged (r 1800) .warned 0 true {} (upWith {})
    (1600 + 40 + 200 < 2000 ∧ 2000 * 9 ≤ (1600 + 40 + 200) * 10 ∧ (warned.presenceOf 0).budget = some .normal ∧
      warned.signedOn 0 = [0] ∧ (warned.unit 0).state = .command) ∧
    (2000 ≤ 1800 + 40 + 200 ∧ (spent.presenceOf 0).count = 0 ∧ (spent.presenceOf 0).budget = some .warned) ∧
    (0 < (shown.presenceOf 0).count ∧ shown.signedOn 0 = [0] ∧ (shown.unit 0).state = .command ∧ shown.NotWaiting 0) ∧
    (queued.signedOn 0 = [0] ∧ (queued.unit 0).state = .waiting ∧ (∃ d, ∃ v ∈ (queued.chan d).queue, v.line = 0) ∧
      ∀ d q y, queued.port? d q = some y → y.state = .opening → y.line ≠ some 0) ∧
    (opening.signedOn 0 = [0] ∧ (opening.unit 0).state = .waiting ∧ (∀ d, ∀ v ∈ (opening.chan d).queue, v.line ≠ 0) ∧
      opening.port? 0 0 = some x ∧
      ∀ d q z, opening.port? d q = some z → z.state = .opening → z.line = some 0 → d = 0 ∧ q = 0) := by
  refine ⟨by decide, by decide, ⟨by decide, by decide, rfl, notWaiting_of (by decide) (by decide)⟩,
    ⟨by decide, rfl, ⟨0, by decide⟩, ports_all (by decide)⟩, by decide, rfl, by decide, rfl, fun d q z h _ _ => ?_⟩
  fin_cases d
  · match q, h with
    | 0, _ => exact ⟨rfl, rfl⟩
  all_goals cases h

/-- No entry is FREE; entry 6 is the least recently used GATHERING one, with units pending or without. -/
theorem wit_ChargePostsUnits_eviction :
    ∀ n : Fin 2, let full : State := { operated with
      cache := { entries := (Vector.replicate 32 { slot := some 7, pending := 1, state := .writing }).set 6
                   { slot := some 8, pending := n, state := .gathering },
                 recency := [3, 6, 9] },
      dirtyMarker := true }
    (full.right 0 1).charges = true ∧ full.arbiter.current = none ∧ full.lookup 1 = some 0 ∧
      full.recordAt 0 = some account ∧ full.cache.waiting = [] ∧ (full.presenceOf 0).budget = some .normal ∧
      full.entryOf 0 = none ∧ (∀ e, (full.entry e).state ≠ .free) ∧ full.cache.evicting = false ∧
      ({ full with cache := { full.cache with evicting := true } } : State).cache.evicting = true ∧
      full.cache.recency = [3] ++ 6 :: [9] ∧ (∀ j ∈ [3], (full.entry j).state ≠ .gathering) ∧
      (full.entry 6).state = .gathering ∧ (full.entry 6).pending = n ∧ (∀ k, full.cache.flush.get k = none) ∧
      account.used + 65535 ≤ 16777215 ∧ ∀ m ∈ full.rating.meters, m.slot = 0 → m.unposted = 0 := by decide

theorem wit_CompletedAccessesWriteTheStore :
    let a : Access := { who := .chan 0, write := .nothing, result := .reply 0 .done [] }
    let two : State := { portPart {} with
      arbiter := { current := some a, chans := (Vector.replicate 4 false).set 1 true },
      channels := #v[{ upWith {} with orders := [orderOf 3 ⟨1, 0, []⟩] }, { upWith {} with orders := [orderOf 12 ⟨2, 2, [0, 1]⟩] },
                     {}, {}] }
    let w : State := { metered .connected .live with
      cache := { entries := (Vector.replicate 32 {}).set 31 { slot := some 0, pending := 69, state := .writing, snapshot := 5 },
                 recency := [31] },
      arbiter := { current := some { who := .writeBack, write := .put 0 { account with used := 5 }, result := .writeBack 31 } } }
    (State.reset.powered = true ∧ State.reset.arbiter.current = none ∧ a.who ≠ .writeBack) ∧
    (two.powered = true ∧ (two.chan 0).orders = orderOf 3 ⟨1, 0, []⟩ :: [] ∧ (1 : ChanNo) ≠ 0 ∧
      (two.chan 1).orders = [orderOf 12 ⟨2, 2, [0, 1]⟩] ∧ (⟨2, 2, [0, 1]⟩ : OrderFrame).fits 2 ∧
      tabGet (0 * 256 + 1) two.storeCompleted.directory = none) ∧
    ((w.entry 31).slot = some 0 ∧ (w.entry 31).state = .writing ∧ (w.entry 31).evicted = false ∧ w.cache.queue = [] ∧
      w.cache.waiting = [] ∧ (∀ c, w.cache.flush.get c = none) ∧ w.cache.restarting = false ∧
      (w.presenceOf 0).budget = some .normal ∧ 64 ≤ (w.entry 31).pending - (w.entry 31).snapshot ∧ w.meterOpen 0 = true ∧
      ({ w with rating := {} } : State).meterOpen 0 = false) :=
  ⟨by decide, ⟨rfl, rfl, by decide, rfl, ⟨rfl, rfl⟩, rfl⟩, by decide⟩

/-- The writes of an ADD, an EDIT and a DELETE at a store with accounts 1 and 65535. -/
theorem wit_CompletedAccessesWriteTheStore_records :
    let q : Record := { account with number := 65535 }
    let r : Record := { account with number := 2 }
    let st : Store := { storeOf account with records := [(0, account), (4095, q)], directory := [(1, 0), (65535, 4095)] }
    st.ok ∧ st.admits (.insert 1 r) ∧ st.admits (.put 4095 { q with used := 9 }) ∧ st.admits (.remove 4095 65535) ∧
      st.admits .nothing := by
  have ok : ∀ n u, 1 ≤ n → n ≤ 65535 → ({ account with number := n, used := u } : Record).ok := by
    intro n u h1 h2; simp [Record.ok, account, Config.unitMax, Config.failureCap, h1, h2]
  refine ⟨⟨by simp [tabWf], by simp [tabWf], fun n k => ?_, fun e he => ?_, fun i => ?_, by decide⟩,
    ⟨ok 2 0 (by decide) (by decide), by decide, rfl, rfl⟩, ⟨ok 65535 9 (by decide) (by decide), _, rfl, rfl⟩, rfl, trivial⟩
  · simp only [tabGet]
    by_cases h0 : 0 = k <;> by_cases h1 : 4095 = k <;> by_cases h2 : account.number = n <;> by_cases h3 : 65535 = n <;>
      simp_all [account] <;> omega
  · rcases List.mem_cons.mp he with h | h
    · rw [h]; exact ⟨by decide, ok 1 0 (by decide) (by decide)⟩
    · rw [List.mem_singleton.mp h]; exact ⟨by decide, ok 65535 0 (by decide) (by decide)⟩
  · have h : ∀ i, (storeOf account).groupConfig.get i = {} := by decide
    show ((storeOf account).groupConfig.get i).ok
    rw [h i]; simp [GroupConfig.ok]

/-- An entry written back to be evicted, with one CHARGE of channel 1 waiting. -/
theorem wit_CompletedAccessesWriteTheStore_eviction :
    let q : Record := { account with number := 2, used := 3 }
    let a := orderOf 15 ⟨9, 4, [0, 2, 0, 9]⟩
    let s : State := { quietPart account with
      presence := [(0, { budget := some .normal }), (1, { budget := some .normal })],
      store := { storeOf account with records := [(0, account), (1, q)], directory := [(1, 0), (2, 1)] }, dirtyMarker := true,
      cache := { entries := (Vector.replicate 32 { slot := some 7, pending := 1, state := .gathering }).set 31
                   { slot := some 0, pending := 5, state := .writing, snapshot := 5, evicted := true },
                 recency := [2, 31], waiting := [{ slot := 1, charges := [{ channel := 1, amount := 9 }] }], evicting := true },
      arbiter := { current := some { who := .writeBack, write := .put 0 { account with used := 5 }, result := .writeBack 31 } },
      channels := #v[upWith {}, { upWith {} with orders := [a] }, {}, {}] }
    s.powered = true ∧ (s.entry 31).slot = some 0 ∧ (s.entry 31).state = .writing ∧ (s.entry 31).evicted = true ∧
      (s.entry 31).pending = (s.entry 31).snapshot ∧ s.cache.queue = [] ∧ (∀ d, s.cache.flush.get d = none) ∧
      s.cache.restarting = false ∧ (s.presenceOf 0).budget = some .normal ∧ (∀ i, i ≠ 31 → (s.entry i).state ≠ .free) ∧
      s.entryOf 1 = none ∧ tabGet 1 s.storeCompleted.records = some q ∧ q.budget = none ∧
      (s.presenceOf 1).budget = some .normal ∧ (∀ m ∈ s.rating.meters, m.slot = 1 → m.unposted = 0) ∧
      q.used + 9 ≤ 16777215 ∧ (s.chan 1).orders = a :: [] := by decide

/-- The roll at slot 0, with slot 1 due after it; and at slot 1, with no slot due after it. -/
theorem wit_CompletedAccessesWriteTheStore_roll :
    let q : Record := { account with number := 2, used := 3 }
    let done : Record := { account with stamp := 4 }
    let s := fun (slot : Nat) (w : StoreWrite) =>
      ({ quietPart account with
         presence := [(0, { budget := some .normal }), (1, { budget := some .normal })],
         store := { storeOf account with
           records := [(0, account), (1, q)], directory := [(1, 0), (2, 1)], periodNumber := 4, periodState := .closing,
           rollIndex := slot },
         cache := { entries := (Vector.replicate 32 {}).set 31 { slot := some 1, pending := 5, state := .gathering },
                    recency := [31] },
         dirtyMarker := true, arbiter := { current := some { who := .roll, write := w, result := .roll slot } } } : State)
    let first := s 0 (.put 0 done)
    let last := s 1 (.put 1 { q with stamp := 4 })
    (first.powered = true ∧ first.store.periodState = .closing ∧
      first.storeCompleted.records = [(0, done)] ++ (1, q) :: [] ∧
      (∀ e ∈ [(0, done)], 0 < e.1 → e.2.stamp = first.storeCompleted.periodNumber) ∧
      q.stamp ≠ first.storeCompleted.periodNumber ∧ tabGet 1 first.storeCompleted.records = some q ∧ q.budget = none ∧
      (first.presenceOf 1).budget = some .normal ∧ first.cache.waiting = [] ∧ (∀ c, first.cache.flush.get c = none) ∧
      first.entryOf 1 = some 31) ∧
    (last.store.periodState = .closing ∧
      ∀ e ∈ last.storeCompleted.records, 1 < e.1 → e.2.stamp = last.storeCompleted.periodNumber) := by decide

theorem wit_GraceEndsInSpent :
    let s : State := { withStore (part signedOn (upWith {})) account (some .grace) with
               presence := [(0, { count := 1, budget := some .grace, graceTimer := true })] }
    s.powered = true ∧ (s.presenceOf 0).graceTimer = true ∧ s.signedOn 0 = [0] ∧ (s.unit 0).state = .command ∧
      (s.unit 0).lineHit = false ∧ (s.dialog 0).phase = .none ∧ (s.ctx 0).stack = [] ∧ s.NotWaiting 0 ∧ s.signedOn 1 = [] ∧
      (s.presenceOf 1).graceTimer = false ∧
      (let v : State := { part {} with presence := [(0, { budget := some .grace, graceTimer := true })] }
       (v.presenceOf 0).graceTimer = true ∧ v.signedOn 0 = []) :=
  ⟨rfl, rfl, by decide, rfl, rfl, rfl, rfl, notWaiting_of (by decide) (by decide), by decide, rfl, by decide⟩

/-! ## Sign-on -/

/-- A line at the end of its pass-phrase field, identifier 1. -/
def passing (cs : List Code) (r : Record) (p : List (Nat × Presence)) : State :=
  { part { unit := framing .signOn, dialog := { phase := .pass, field := cs, identifier := some 1, attempts := 1, timer := true } } with
    store := storeOf r, presence := p }

theorem wit_SignOnCheckFollowsTheTests :
    let s := passing (text "HELLO") account []
    (s.Hears 0 ∧ (s.unit 0).state = .signOn ∧ (s.dialog 0).phase = .pass ∧ (s.group 0).parity.accepts 13 true ∧
      (s.dialog 0).identifier = some 1 ∧ s.arbiter.current = none ∧ s.arbiter.signOn = false ∧ s.checks = [] ∧
      s.lookup 1 = some 0 ∧ s.recordAt 0 = some account ∧ (s.presenceOf 0).count = 0 ∧ account.state = .active ∧
      account.passCheck ≠ 0 ∧ foldPass (s.dialog 0).field = account.passCheck ∧ account.budget = none) ∧
    ((passing [65] { account with number := 2 } []).lookup 1 = none ∧
      foldPass (text "HELL") ≠ account.passCheck ∧ ({ account with failures := 4 } : Record).failures = 4 ∧
      ({ account with state := .held } : Record).state ≠ .active ∧
      ((passing [] account [(0, { count := 1, budget := some .normal })]).presenceOf 0).budget.isSome = true ∧
      account.limit ≤ ((passing [] account [(0, { count := 1, budget := some .normal })]).presenceOf 0).count ∧
      ((passing [] { account with budget := some 0 } []).recordAt 0).map (·.budget) = some (some 0) ∧ 0 ≤ 0 + 0) :=
  ⟨⟨⟨rfl, rfl, rfl, rfl⟩, rfl, rfl, trivial, rfl, rfl, rfl, rfl, rfl, rfl, rfl, rfl, by decide, by decide, rfl⟩, by decide⟩

theorem wit_SignOnResultsAreTaken :
    let s := fun (o : CheckOutcome) (sus : Option (Nat × Nat)) (clr : Bool) (n : Nat) (d : Option Nat) =>
      ({ part { unit := framing .signOn, dialog := { phase := .checking, attempts := n, timer := true, counted := d } } with
         store := storeOf account, presence := [(0, { count := 1, budget := some .normal })],
         arbiter := { current := some { who := .signOn, write := .nothing, result := .check 0 o sus clr } } } : State)
    (∀ o sus clr n d, (s o sus clr n d).powered = true ∧ (s o sus clr n d).checks = [] ∧
      ((s o sus clr n d).unit 0).state = .signOn ∧ ((s o sus clr n d).dialog 0).attempts = n ∧
      ((s o sus clr n d).dialog 0).counted = d ∧ ((s o sus clr n d).unit 0).lineHit = false ∧
      (s o sus clr n d).ctx 0 = {} ∧ ((s o sus clr n d).presenceOf 0).budget ≠ some .grace) ∧
    (s .refused none false 1 none).NotWaiting 0 :=
  ⟨fun _ _ _ _ _ => ⟨rfl, rfl, rfl, rfl, rfl, rfl, rfl, by show some BudgetState.normal ≠ _; decide⟩,
    notWaiting_of (by decide) (by decide)⟩

/-- The automatic connect to host A: refused, with a FREE port, and with none and two lines waiting. -/
theorem wit_SignOnResultsAreTaken_connect :
    let so : SignOnRecord := { account := 1, slot := 0, effClass := 3 }
    let k := fun (l : LineNo) (n : Nat) => ({ line := l, slot := 0, effClass := n } : WaitEntry)
    -- the state in which the result is taken: the access has completed
    let t := fun ch : Channel =>
      ({ part { unit := framing .signOn, dialog := { phase := .checking, attempts := 3, timer := true, counted := some 0 } } ch with
         store := storeOf account, presence := [(0, { count := 1, budget := some .normal })],
         rating := { active := ratedBank } } : State)
    let busy := { upWith { state := .bound } with queue := [k 1 3, k 2 2] }
    (t {}).ConnectRefused 0 0 so (text "HOST A NOT AVAILABLE") ∧
    (∀ x q, (t { upWith x with queue := q }).MayConnect 0 0 so) ∧
    ((t (upWith {})).port? 0 0 = some {} ∧ ∀ q, q < 0 → ∀ y, (t (upWith {})).port? 0 q = some y → y.state ≠ .free) ∧
    ((∀ p x, (t busy).port? 0 p = some x → x.state ≠ .free) ∧ ((t busy).chan 0).queue = [k 1 3] ++ [k 2 2] ∧
      (∀ j ∈ [k 1 3], so.effClass ≤ j.effClass) ∧ ∀ j, [k 2 2].head? = some j → j.effClass < so.effClass) ∧
    min 3 ((t {}).group 0).classCap = so.effClass := by
  have h0 : tabGet 0 (storeOf account).records = some account := rfl
  refine ⟨.inl ⟨by decide, rfl⟩, fun x q => ⟨rfl, ⟨account, h0, rfl, by decide⟩, rfl,
    fun a h => by cases h; exact Nat.le_refl 3, .inl rfl, by show 0 < 4; decide,
    .inr ⟨.b300, 1000, rfl, by show ratedBank.rate 0 .slow ({ active := ratedBank } : Rating).period = some 1000; decide⟩⟩,
    ⟨rfl, fun q h => by omega⟩, ⟨?_, rfl, by decide, fun j h => by cases h; decide⟩, rfl⟩
  exact fun p x => ports_all (P := fun _ x => x.state ≠ .free) (by decide) 0 p x

theorem wit_RightsFollowTheWindows :
    let ws : Vector Window 4 :=
      #v[{ base := 256, exp := 8, right := .edit }, { base := 256, exp := 9, right := .both }, { exp := 8 }, { exp := 8 }]
    let s : State := { State.reset with store := { chanConfig := Vector.replicate 4 { windows := ws } } }
    let g := s.store.chanConfig.get 0
    (State.reset.setup = false ∧ ({ State.reset with setup := true } : State).setup = true) ∧
    (511 / 2 ^ (g.windows.get 0).exp = (g.windows.get 0).base / 2 ^ (g.windows.get 0).exp ∧ ∀ j : Fin 4, ¬ j < 0) ∧
    (∀ i : Fin 4, ¬ 512 / 2 ^ (g.windows.get i).exp = (g.windows.get i).base / 2 ^ (g.windows.get i).exp) ∧
    (({} : Window).exp = 16 ∧ ({} : Window).base ≤ 65535) := by decide

/-! ## Orders and data on the link -/

theorem wit_OrdersAreJudgedInOrder :
    let ord := fun n : Nat => List.replicate n (orderOf 3 ⟨1, 0, []⟩)
    let s := fun (st : ChanState) (n : Nat) => part {} { upWith {} with state := st, orders := ord n }
    (∀ st n, (s st n).powered = true ∧ ((s st n).chan 0).orders = ord n ∧ ((s st n).chan 0).state = st) ∧
    (8 ≤ (ord 8).length ∧ 1 ≤ (ord 7).length ∧ (ord 7).length ≤ 7 ∧ ord 0 = []) ∧
    ({ upWith {} with faultPending := true } : Channel).faultPending = true ∧ (quietPart account).operator 0 = true ∧
    State.reset.operator 0 = false ∧ State.reset.right 0 1 = .none ∧ (Right.none).edits = false ∧ (Right.edit).charges = false ∧
    ((⟨7, 2, [0, 1]⟩ : OrderFrame).body = 0 :: 1 :: []) :=
  ⟨fun _ _ => ⟨rfl, rfl, rfl⟩, by decide, rfl, rfl, rfl, rfl, rfl, rfl, rfl⟩

theorem wit_RecordsLeaveOnTheLink :
    let r : Reply := { outcome := .busy, seq := 1, body := [] }
    let n : Notice := { kind := .detached, line := none, body := [] }
    let b : DataBlock := { port := 0, overrun := true }
    let bad : Order := orderOf 31 ⟨1, 0, []⟩
    let s := part {} { upWith {} with busy := [r], notices := [n], dataOut := [b], reply := some r,
                                      orders := [orderOf 3 ⟨1, 0, []⟩, bad] }
    let q := part {} { upWith {} with reply := some r, orders := [bad], dataOut := [{ port := 0 }] }
    (s.powered = true ∧ (s.chan 0).busy = r :: [] ∧ (s.chan 0).notices = n :: [] ∧ (s.chan 0).dataOut = b :: [] ∧
      b.overrun = true ∧ (s.chan 0).orders = orderOf 3 ⟨1, 0, []⟩ :: bad :: [] ∧ 30 < bad.code.toNat) ∧
    ((q.chan 0).busy = [] ∧ (q.chan 0).reply = some r ∧ (q.chan 0).orders = [bad] ∧ (q.chan 0).notices = [] ∧
      (part {}).chan 0 = {}) := ⟨by decide, by decide⟩

theorem wit_DataBlocksReachTheTerminal :
    let x := fun g : Flow => ({ state := .bound, line := some 0, slot := some 0, flow := some g } : Port)
    let out := fun n : Nat => ({ output := List.replicate n 65, stopSent := true, hostStop := true } : Flow)
    let s := fun g : Flow => connected [66] g
    (∀ g, (s g).powered = true ∧ (s g).port? 0 (0 : BitVec 16).toNat = some (x g) ∧ (x g).state = .bound ∧
      (x g).flow = some g ∧ (x g).line = some 0 ∧ ((s g).unit 0).state = .connected ∧
      (s g).liveSession 0 = some { channel := 0, port := 0, state := .live } ∧ ((s g).unit 0).input ≠ [] ∧
      ((s g).unit 0).input.length ≤ 32 ∧ (s g).Hears 0 ∧ ((s g).unit 0).partMsg = [] ∧ ((s g).unit 0).speed = some .b300 ∧
      (s g).flow? 0 0 = some g) ∧
    ((∀ n, (out n).output.length = n ∧ (out n).stopSent = true ∧ (out n).hostStop = true ∧
        ({ out n with stopSent := false } : Flow).stopSent = false ∧ (out (n + 1)).output = 65 :: List.replicate n 65) ∧
      255 + [(65 : Byte)].length ≤ 256) ∧
    ((1 : Byte).getLsbD 0 = true ∧ (2 : Byte).getLsbD 0 = false ∧ (2 : Byte).getLsbD 1 = true ∧ (0 : Byte).getLsbD 1 = false) ∧
    (portPart {}).port? 0 1 = none ∧ (1 : BitVec 16).toNat ≠ ([] : List Byte).length :=
  ⟨fun _ => ⟨rfl, rfl, rfl, rfl, rfl, rfl, rfl, by show [(66 : Code)] ≠ []; decide, by show 1 ≤ 32; decide,
    ⟨rfl, rfl, rfl, rfl⟩, rfl, rfl, rfl⟩, ⟨fun _ => ⟨List.length_replicate, rfl, rfl, rfl, rfl⟩, by decide⟩, by decide, rfl, by decide⟩

/-- The two ways an indication joins the waiting blocks, and lines at rest beside the one that drains. -/
theorem wit_DataBlocksReachTheTerminal_joins :
    let b := fun cs : List Code => ({ port := 0, chars := cs } : DataBlock)
    let stop := fun d : DataBlock => { d with stop := true }
    Joins 0 stop (·.start) [b []] ([b []] ++ [stop { port := 0 }]) ∧
    Joins 0 stop (·.start) [b [], b [1], b [2]] ([b []] ++ stop (b [1]) :: [b [2]]) ∧
    (let s := connected [] { output := [65] }
     s.Hears 0 ∧ (s.unit 0).partMsg = [] ∧ ∀ k, k ≠ 0 → s.Rests k) := by
  refine ⟨.inl ⟨by decide, rfl⟩, .inr ⟨[_], _, [_], rfl, by decide, rfl, by decide, by decide, rfl⟩, ⟨rfl, rfl, rfl, rfl⟩, rfl,
    fun k hk => .inr (.inl ?_)⟩
  have h : ∀ k : LineNo, k ≠ 0 → ((connected [] { output := [65] }).unit k).speed = none := by decide
  exact h k hk

end Sys2Proof.Tests
end

section
/-! The guard of a clear runs out (R16). -/

namespace Sys2Proof.Machine

/-! ## The line unit when its guard ends -/

/-- A disabled line goes to OFF, whatever its score (R16). -/
theorem LineUnit.afterGuard_of_disabled {u : LineUnit} (he : u.enabled = false) :
    u.afterGuard = { u with state := .off, speed := none, partMsg := [], guardTimer := false } := by
  simp [LineUnit.afterGuard, LineUnit.rest, he]

/-- An enabled line at the barring score goes to BARRED, where its quiet timer runs (R16). -/
theorem LineUnit.afterGuard_of_barred {u : LineUnit} (he : u.enabled = true) (hs : 192 ≤ u.score) :
    u.afterGuard =
      { u with state := .barred, speed := none, partMsg := [], guardTimer := false, quietTimer := true } := by
  simp [LineUnit.afterGuard, he, hs]

/-- An enabled line below the barring score waits for a call again (R16). -/
theorem LineUnit.afterGuard_of_fit {u : LineUnit} (he : u.enabled = true) (hs : u.score < 192) :
    u.afterGuard = { u with state := .idle, ringCount := 0, speed := none, partMsg := [], guardTimer := false } := by
  simp [LineUnit.afterGuard, LineUnit.rest, he, Nat.not_le.2 hs]

/-! ## The command -/

/-- The expiry of a running guard writes the line's own unit only, as `LineUnit.afterGuard` says; any update that agrees
with it there describes the command. -/
theorem exec_guardTimerExpiry_of_clearing {s : State} {l : LineNo} {f : LineUnit → LineUnit} (hp : s.powered = true)
    (hc : (s.unit l).state = .clearing) (hg : (s.unit l).guardTimer = true)
    (hf : (s.unit l).afterGuard = f (s.unit l)) :
    exec (.guardTimerExpiry l) s = .next (s.modUnit l f).started := by
  have hx : exec (.guardTimerExpiry l) s = execGuardTimerExpiry l s := rfl
  have hw : ((s.unit l).guardTimer && (s.unit l).state = .clearing) = true := by simp [hc, hg]
  rw [hx, execGuardTimerExpiry, if_pos hw, State.whenOn_on hp, State.modUnit_congr hf]

/-- Settles O18: the three ends of a clear are the three ends of `LineUnit.afterGuard`. -/
theorem guardEndsTheClear : Obligations.GuardEndsTheClear := by
  intro s l hp hc hg
  refine ⟨fun he => ?disabled, fun he hs => ?barred, fun he hs => ?fit⟩
  case disabled => exact exec_guardTimerExpiry_of_clearing hp hc hg (LineUnit.afterGuard_of_disabled he)
  case barred => exact exec_guardTimerExpiry_of_clearing hp hc hg (LineUnit.afterGuard_of_barred he hs)
  case fit => exact exec_guardTimerExpiry_of_clearing hp hc hg (LineUnit.afterGuard_of_fit he hs)

end Sys2Proof.Machine
end

section
/-! The identifier field of the sign-on dialog (R54, R55), and a break (R9, R53). -/

namespace Sys2Proof.Machine

/-! ## Prompts -/

/-- The prompt of the identifier field on a line of its own (R51). -/
theorem State.placeLine_identPrompt (s : State) (l : LineNo) :
    s.placeLine l (text "ID:") = s.place l [13, 10, 73, 68, 58] := rfl

/-- The prompt of the pass-phrase field on a line of its own (R55). -/
theorem State.placeLine_passPrompt (s : State) (l : LineNo) :
    s.placeLine l (text "PW:") = s.place l [13, 10, 80, 87, 58] := rfl

/-! ## A character in the identifier field

A row that writes the field reads the old field through the state, the row's statement through the entry being updated;
that the two agree is `rfl`. -/

section
variable {s : State} {l : LineNo} {x : Code}

theorem State.identChar_digit_of_room (hx : 48 ≤ x.toNat ∧ x.toNat ≤ 57) (hf : (s.dialog l).field.length ≤ 4) :
    s.identChar l x = (s.modDialog l fun d => { d with field := d.field ++ [x] }).place l [x] := by
  have hroom : (s.dialog l).field.length < Config.identCap := Nat.lt_succ_of_le hf
  simp only [State.identChar, if_pos hx, if_pos hroom]
  rfl

theorem State.identChar_digit_of_full (hx : 48 ≤ x.toNat ∧ x.toNat ≤ 57) (hf : 5 ≤ (s.dialog l).field.length) :
    s.identChar l x = s.place l [7] := by
  have hfull : ¬ (s.dialog l).field.length < Config.identCap := Nat.not_lt.2 hf
  simp only [State.identChar, if_pos hx, if_neg hfull, bell]

/-- Backspace and delete are no digits. -/
theorem not_digit_of_rubOut (hx : x = 8 ∨ x = 127) : ¬ (48 ≤ x.toNat ∧ x.toNat ≤ 57) := by
  rcases hx with rfl | rfl <;> decide

theorem State.identChar_rubOut (hx : x = 8 ∨ x = 127) (hf : (s.dialog l).field ≠ []) :
    s.identChar l x = (s.modDialog l fun d => { d with field := d.field.dropLast }).place l [8, 32, 8] := by
  simp only [State.identChar, if_neg (not_digit_of_rubOut hx), if_pos hx, if_neg hf, rubOut]
  rfl

theorem State.identChar_rubOut_of_empty (hx : x = 8 ∨ x = 127) (hf : (s.dialog l).field = []) :
    s.identChar l x = s.place l [7] := by
  simp only [State.identChar, if_neg (not_digit_of_rubOut hx), if_pos hx, if_pos hf, bell]

theorem State.identChar_cancel :
    s.identChar l 21 = (s.modDialog l fun d => { d with field := [] }).place l [13, 10, 73, 68, 58] := by
  have hd : ¬ (48 ≤ (21 : Code).toNat ∧ (21 : Code).toNat ≤ 57) := by decide
  have hr : ¬ ((21 : Code) = 8 ∨ (21 : Code) = 127) := by decide
  rw [State.identChar, if_neg hd, if_neg hr, if_pos rfl, State.placeLine_identPrompt]

theorem State.identChar_return : s.identChar l 13 = s.endIdent l := by
  have hd : ¬ (48 ≤ (13 : Code).toNat ∧ (13 : Code).toNat ≤ 57) := by decide
  have hr : ¬ ((13 : Code) = 8 ∨ (13 : Code) = 127) := by decide
  have hc : ¬ (13 : Code) = 21 := by decide
  rw [State.identChar, if_neg hd, if_neg hr, if_neg hc, if_pos rfl]

theorem State.identChar_other (hd : ¬ (48 ≤ x.toNat ∧ x.toNat ≤ 57)) (hb : x ≠ 8) (hdel : x ≠ 127) (hc : x ≠ 21)
    (hr : x ≠ 13) : s.identChar l x = s.place l [7] := by
  simp only [State.identChar, if_neg hd, if_neg (not_or.2 ⟨hb, hdel⟩), if_neg hc, if_neg hr, bell]

/-- An empty field is asked for again (R55). -/
theorem State.endIdent_of_empty (hf : (s.dialog l).field = []) :
    s.endIdent l = s.place l [13, 10, 73, 68, 58] := by
  rw [State.endIdent, if_pos hf, State.placeLine_identPrompt]

/-- The digits of the field are the identifier, and the pass phrase is asked for (R55). -/
theorem State.endIdent_of_typed (hf : (s.dialog l).field ≠ []) :
    s.endIdent l =
      (s.modDialog l fun d =>
        { d with phase := .pass, identifier := some (digitsValue (s.dialog l).field), field := [] }).place l
        [13, 10, 80, 87, 58] := by
  rw [State.endIdent, if_neg hf, State.placeLine_passPrompt]
  rfl

/-- A good character at a line that hears in IDENT goes to the identifier field (R10, R54). -/
theorem State.Hears.receives_ident {bit : Bool} (h : s.Hears l) (hs : (s.unit l).state = .signOn)
    (hi : (s.dialog l).phase = .ident) (hp : (s.group l).parity.accepts x bit) :
    exec (.characterReceived l x bit true) s = .next (s.identChar l x).started := by
  have ht : s.takeChar l x = s.identChar l x := by simp only [State.takeChar, hs, State.dialogChar, hi]
  rw [h.receives (.inl hs) hp, ht]

end

/-! ## The value of the field -/

theorem digitsValue_append_singleton (cs : List Code) (c : Code) :
    digitsValue (cs ++ [c]) = digitsValue cs * 10 + (c.toNat - 48) := by
  simp [digitsValue]

/-- The code of a decimal digit lies that digit above the code of 0. -/
theorem toNat_digit_sub {d : Nat} (h : d ≤ 9) : (BitVec.ofNat 7 (48 + d)).toNat - 48 = d := by
  rw [BitVec.toNat_ofNat]
  omega

/-- The last character typed is the units digit, the first of the reversed list that `Nat.ofDigits` reads. -/
theorem digitsValue_map_digit (ds : List Nat) (h : ∀ d ∈ ds, d ≤ 9) :
    digitsValue (ds.map fun d => BitVec.ofNat 7 (48 + d)) = Nat.ofDigits 10 ds.reverse := by
  induction ds using List.reverseRecOn with
  | nil => rfl
  | append_singleton ds d ih =>
    have hds : ∀ e ∈ ds, e ≤ 9 := fun e he => h e (List.mem_append_left _ he)
    have hd : d ≤ 9 := h d (List.mem_append_right _ (List.mem_singleton_self d))
    rw [List.map_append, List.map_singleton, digitsValue_append_singleton, ih hds, toNat_digit_sub hd,
      List.reverse_append, List.reverse_singleton, List.singleton_append, Nat.ofDigits_cons]
    omega

/-- Settles O15: each row is the row of `State.identChar` with that name, and the value is read from the units digit up. -/
theorem identifierFieldIsTyped : Obligations.IdentifierFieldIsTyped := by
  refine ⟨fun s l x bit h hs hi hp => ?_, digitsValue_map_digit⟩
  rw [h.receives_ident hs hi hp]
  refine ⟨fun hx hf => ?digit, fun hx hf => ?full, fun hx hf => ?rubOut, fun hx hf => ?nothing, fun hx => ?cancel,
    fun hx hf => ?empty, fun hx hf => ?typed, fun hd hb hdel hc hr => ?other⟩
  case digit => rw [State.identChar_digit_of_room hx hf]
  case full => rw [State.identChar_digit_of_full hx hf]
  case rubOut => rw [State.identChar_rubOut hx hf]
  case nothing => rw [State.identChar_rubOut_of_empty hx hf]
  case cancel => rw [hx, State.identChar_cancel]
  case empty => rw [hx, State.identChar_return, State.endIdent_of_empty hf]
  case typed => rw [hx, State.identChar_return, State.endIdent_of_typed hf]
  case other => rw [State.identChar_other hd hb hdel hc hr]

/-! ## A break -/

section
variable {s : State} {l : LineNo}

/-- In IDENT and PASS the dialog starts again at an empty identifier (R53). -/
theorem State.dialogBreak_of_typing (h : (s.dialog l).phase = .ident ∨ (s.dialog l).phase = .pass) :
    s.dialogBreak l =
      (s.modDialog l fun d => { d with phase := .ident, field := [], identifier := none }).place l
        [13, 10, 73, 68, 58] := by
  rcases h with h | h <;> simp only [State.dialogBreak, h, State.placeLine_identPrompt]

/-- Once the pass phrase is in, a break is discarded (R53). -/
theorem State.dialogBreak_of_checked (h : (s.dialog l).phase = .checking ∨ (s.dialog l).phase = .handover) :
    s.dialogBreak l = s := by
  rcases h with h | h <;> simp only [State.dialogBreak, h]

/-- Outside a line hit, a break in SIGNON goes to the dialog (R9). -/
theorem exec_breakReceived_of_signOn (hp : s.powered = true) (hh : (s.unit l).lineHit = false)
    (hs : (s.unit l).state = .signOn) : exec (.breakReceived l) s = .next (s.dialogBreak l).started := by
  have hx : exec (.breakReceived l) s = execBreak l s := rfl
  simp only [hx, execBreak, hh, hs, State.whenOn_on hp, Bool.false_eq_true, if_false]

/-- A break is ignored in every state but SIGNON and CONNECTED (R9). -/
theorem exec_breakReceived_of_ignoring (hp : s.powered = true) (hs : (s.unit l).state ≠ .signOn)
    (hc : (s.unit l).state ≠ .connected) : exec (.breakReceived l) s = .next s.started := by
  have hx : exec (.breakReceived l) s = execBreak l s := rfl
  rw [hx, execBreak, State.whenOn_on hp]
  cases hst : (s.unit l).state with
  | signOn => exact absurd hst hs
  | connected => exact absurd hst hc
  | off | idle | answer | speed | command | waiting | clearing | barred => simp only [ite_self]

end

/-- Settles O17: the phase decides in SIGNON, and the line state elsewhere. -/
theorem breakRestartsTheDialog : Obligations.BreakRestartsTheDialog := by
  intro s l hp hh
  refine ⟨fun hs => ⟨fun ht => ?typing, fun hk => ?checked⟩, fun hs hc => ?ignored⟩
  case typing => rw [exec_breakReceived_of_signOn hp hh hs, State.dialogBreak_of_typing ht]
  case checked => rw [exec_breakReceived_of_signOn hp hh hs, State.dialogBreak_of_checked hk]
  case ignored => exact exec_breakReceived_of_ignoring hp hs hc

end Sys2Proof.Machine
end

section
/-! One step, the reset state, and the invariants of every step. -/

namespace Sys2Proof.Machine

/-- Settles O1: the two arms of `step`. -/
theorem stepRunsTheFrontCommand : Obligations.StepRunsTheFrontCommand :=
  ⟨fun s i rest h => by simp only [step, h], fun s h => by simp only [step, h]⟩

/-- Settles O2: every field of the reset state is at its default. -/
theorem soundAtReset : Obligations.SoundAtReset where
  lines l := by
    rw [show State.reset.line l = {} from Vector.get_replicate ..]
    exact Line.default_ok
  chans c := by
    rw [show State.reset.chan c = {} from Vector.get_replicate ..]
    exact Channel.default_ok
  rating := Rating.default_ok
  store := Store.default_ok
  admits := trivial
  presence := ⟨List.Pairwise.nil, fun _ he => by cases he⟩
  marker _ := Cache.default_holds.symm

/-- A command that can make a full reset, or takes the supply away, keeps a state sound. -/
theorem exec_fullResets_sound {i : Instr} {s : State} (hs : s.Sound) (hi : fullResets i = true) :
    ∃ t, exec i s = .next t ∧ t.Sound := by
  cases i with
  | powerUp a b held =>
    refine ⟨_, rfl, ?_⟩
    cases held with
    | true => exact State.fullReset_sound hs _ _ _
    | false => exact State.fullReset_sound (State.damaged_sound hs false) _ _ _
  | resetInput a b =>
    refine ⟨_, rfl, ?_⟩
    split
    · exact State.fullReset_sound hs _ _ _
    · exact hs
  | orderlyRestartReset a b =>
    refine ⟨_, rfl, ?_⟩
    split
    · exact State.fullReset_sound hs _ _ _
    · exact hs
  | mainSupplyLoss =>
    refine ⟨_, rfl, ?_⟩
    split
    · exact State.loseSupply_sound hs
    · exact hs
  | _ => cases hi

/-- Every command answers a next state, and keeps a state sound. -/
theorem exec_sound (i : Instr) {s : State} (hs : s.Sound) : ∃ t, exec i s = .next t ∧ t.Sound := by
  cases hi : fullResets i with
  | true => exact exec_fullResets_sound hs hi
  | false =>
    obtain ⟨t, ht, hst⟩ := exec_steady s hi
    exact ⟨t, ht, hst.sound hs⟩

/-- What waits in the queue of commands does not bear on soundness. -/
theorem State.sound_pending {s : State} (hs : s.Sound) (is : List Instr) : ({ s with pending := is } : State).Sound :=
  ⟨hs.lines, hs.chans, hs.rating, hs.store, hs.admits, hs.presence, hs.marker⟩

/-- Settles O3: by the kind of the front command, a full reset or a steady one. -/
theorem everyStepKeepsTheStateSound : Obligations.EveryStepKeepsTheStateSound := by
  intro s hs
  cases hp : s.pending with
  | nil => exact ⟨s, stepRunsTheFrontCommand.2 s hp, hs⟩
  | cons i rest =>
    rw [stepRunsTheFrontCommand.1 s i rest hp]
    exact exec_sound i (State.sound_pending hs rest)

/-- Settles O4: these commands are steady. -/
theorem onlyResetsLeaveTheConfiguration : Obligations.OnlyResetsLeaveTheConfiguration := by
  intro i s hi
  obtain ⟨t, ht, hst⟩ := exec_steady s hi
  exact ⟨t, ht, hst.setup, hst.cause, hst.powered, hst.pending, hst.config⟩

/-- Settles O8: within a day, at the end of a day, and at the end of the week. -/
theorem calendarCountsSecondsAndDays : Obligations.CalendarCountsSecondsAndDays := by
  rintro ⟨weekday, time⟩ ⟨hday, htime⟩
  have hday : weekday ≤ 6 := hday
  have htime : time < 86400 := htime
  simp only [Calendar.tick, Calendar.ok, Config.daySeconds]
  split_ifs with hin hweek <;> simp only <;> omega

end Sys2Proof.Machine
end

section
/-! Full resets, and the loss of the supply (R26 to R28, R40, R105, R109, R133, R134, R145, R146, R150). -/

namespace Sys2Proof.Machine

/-! ## The supply -/

theorem State.whenOn_off {s : State} (h : s.powered = false) (t : State) : s.whenOn t = s := by
  simp only [State.whenOn, h, Bool.false_eq_true, if_false]

/-- With the supply off, only its return and the timekeeper change anything. -/
theorem exec_off {i : Instr} {s : State} (hoff : s.powered = false) (htick : i ≠ .timekeeperSecond)
    (hup : ∀ a b d, i ≠ .powerUp a b d) : exec i s = .next s := by
  cases i with
  | timekeeperSecond => exact absurd rfl htick
  | powerUp a b d => exact absurd rfl (hup a b d)
  | resetInput | orderlyRestartReset | mainSupplyLoss =>
    simp only [exec, execResetInput, execOrderlyRestartReset, execMainSupplyLoss, hoff, Bool.false_and,
      Bool.false_eq_true, if_false]
  | _ => exact congrArg Host.Outcome.next (State.whenOn_off hoff _)

/-- The timekeeper ticks with the supply off, and leaves the calendar to the billing second with the supply on. -/
theorem exec_timekeeperSecond (s : State) : exec .timekeeperSecond s =
    .next (if s.powered then s else { s with rating := { s.rating with calendar := s.rating.calendar.tick } }) := rfl

theorem exec_mainSupplyLoss {s : State} (hp : s.powered = true) : exec .mainSupplyLoss s = .next s.loseSupply := by
  have hx : exec .mainSupplyLoss s = execMainSupplyLoss s := rfl
  rw [hx, execMainSupplyLoss, if_pos hp]

/-- Settles O7: `State.loseSupply` names what stays, and `exec_off` what then happens. -/
theorem supplyLossKeepsTheRetainedState : Obligations.SupplyLossKeepsTheRetainedState := by
  refine ⟨fun s hp => ⟨⟨s.loseSupply, exec_mainSupplyLoss hp, rfl, rfl, rfl, rfl, rfl, rfl, rfl, rfl, ?_⟩, ?_⟩,
    fun i s hoff htick hup => exec_off hoff htick hup⟩
  · rfl
  · rw [exec_timekeeperSecond, if_pos hp]

/-! ## The state a full reset starts from -/

theorem Store.apply_validityMark (st : Store) (w : StoreWrite) : (st.apply w).validityMark = st.validityMark := by
  cases w <;> rfl

/-- Everything afresh around a retained store and a rating unit (R26). -/
def State.afresh (s : State) (st : Store) (r : Rating) (cause : ResetCause) (switchOn reference : Bool) : State :=
  { lines := Vector.ofFn (st.lineAfterReset switchOn), rating := r.afterReset reference, store := st,
    resetCause := cause, setup := switchOn, pending := s.pending }

theorem State.fullReset_valid {s : State} (h : s.store.validityMark = true) (cause : ResetCause) (a b : Bool) :
    s.fullReset cause a b = (s.afresh (s.storeAfterReset cause) s.rating cause a b).rollVisit := by
  simp only [State.fullReset, h, if_true]
  rfl

theorem State.storeAfterReset_valid {s : State} (h : s.store.validityMark = true) (cause : ResetCause) :
    s.storeAfterReset cause = { s.storeCompleted with
      chargesLost := s.storeCompleted.chargesLost || (s.dirtyMarker && cause != .restart) } :=
  if_pos ((Store.apply_validityMark _ _).trans h)

/-- A power-up or a reset input records charges lost where it finds the dirty marker set (R133). -/
theorem State.storeAfterReset_loses {s : State} (h : s.store.validityMark = true) {cause : ResetCause}
    (hc : cause ≠ .restart) : s.storeAfterReset cause = { s.storeCompleted with
      chargesLost := s.storeCompleted.chargesLost || s.dirtyMarker } := by
  rw [State.storeAfterReset_valid h, bne_iff_ne.2 hc, Bool.and_true]

/-- An orderly restart loses nothing (R133). -/
theorem State.storeAfterReset_restart {s : State} (h : s.store.validityMark = true) :
    s.storeAfterReset .restart = s.storeCompleted := by
  rw [State.storeAfterReset_valid h, show (ResetCause.restart != .restart) = false from rfl, Bool.and_false,
    Bool.or_false]

theorem State.fullReset_damaged {s : State} (h : s.store.validityMark = false) (cause : ResetCause) (a b : Bool) :
    s.fullReset cause a b = s.afresh {} s.rating.notValid cause a b := by
  have hmark : (s.store.apply ((s.arbiter.current.map (·.write)).getD .nothing)).validityMark = false := by
    rw [Store.apply_validityMark, h]
  simp only [State.fullReset, State.storeAfterReset, hmark, h, Bool.false_eq_true, if_false]
  rfl

theorem exec_powerUp (a b held : Bool) (s : State) : exec (.powerUp a b held) s =
    .next ((if held then s else s.modStore fun st => { st with validityMark := false }).fullReset .power a b) := rfl

theorem exec_resetInput {s : State} (hp : s.powered = true) (a b : Bool) :
    exec (.resetInput a b) s = .next (s.fullReset .resetInput a b) := by
  have hx : exec (.resetInput a b) s = execResetInput a b s := rfl
  rw [hx, execResetInput, if_pos hp]

theorem exec_orderlyRestartReset {s : State} (hp : s.powered = true) (hr : s.cache.restarting = true)
    (hh : s.cache.holds = false) (a b : Bool) :
    exec (.orderlyRestartReset a b) s = .next (s.fullReset .restart a b) := by
  have hx : exec (.orderlyRestartReset a b) s = execOrderlyRestartReset a b s := rfl
  simp only [hx, execOrderlyRestartReset, hp, hr, hh, Bool.not_false, Bool.and_self, if_true]

/-! ## The store found damaged -/

/-- A new store enables no line (R28). -/
theorem Store.lineAfterReset_new (a : Bool) (l : LineNo) : ({} : Store).lineAfterReset a l = {} := by
  have h : ({} : Store).configuredEnable l = false := by
    simp only [Store.configuredEnable, Vector.get_replicate]
    exact BitVec.getLsbD_zero
  simp only [Store.lineAfterReset, h, Bool.and_false, Bool.false_eq_true, if_false]

theorem State.afresh_new (s : State) (cause : ResetCause) (a b : Bool) :
    s.afresh {} s.rating.notValid cause a b =
      { State.reset with rating := { clock := if b then .reference else .fallback }, setup := a, resetCause := cause,
                         pending := s.pending } := by
  have hlines : Vector.ofFn (({} : Store).lineAfterReset a) = Vector.replicate 64 ({} : Line) :=
    Vector.ext fun i hi => by
      rw [Vector.getElem_ofFn, Vector.getElem_replicate, Store.lineAfterReset_new]
  simp only [State.afresh, hlines]
  rfl

/-- Settles O6: a damaged mark, found or left by the battery, has every full reset start from a new store. -/
theorem damagedStoreIsInitialised : Obligations.DamagedStoreIsInitialised := by
  intro s a b held
  refine ⟨fun h => ?powerUp, fun hp h => ?resetInput, fun hp hr hh h => ?restart⟩
  case powerUp =>
    cases held with
    | true =>
      have hmark : s.store.validityMark = false := h.resolve_left Bool.noConfusion
      simp only [exec_powerUp, if_true, State.fullReset_damaged hmark, State.afresh_new]
      rfl
    | false =>
      simp only [exec_powerUp, Bool.false_eq_true, if_false]
      rw [State.fullReset_damaged rfl, State.afresh_new]
      rfl
  case resetInput => rw [exec_resetInput hp, State.fullReset_damaged h, State.afresh_new]
  case restart => rw [exec_orderlyRestartReset hp hr hh, State.fullReset_damaged h, State.afresh_new]

/-! ## The roll after a full reset -/

theorem Store.nextDue_none {st : Store} (h : ∀ e ∈ st.records, st.rollIndex ≤ e.1 → e.2.stamp = st.periodNumber) :
    st.nextDue = none := by
  have hf : st.records.find? (fun e => decide (st.rollIndex ≤ e.1) && e.2.stamp != st.periodNumber) = none := by
    rw [List.find?_eq_none]
    intro e he
    by_cases hi : st.rollIndex ≤ e.1
    · simp [h e he hi]
    · simp [hi]
  simp only [Store.nextDue, hf, Option.map_none]

theorem Store.nextDue_first {st : Store} {a b : List (Nat × Record)} {k : Nat} {r : Record}
    (hl : st.records = a ++ (k, r) :: b) (ha : ∀ e ∈ a, st.rollIndex ≤ e.1 → e.2.stamp = st.periodNumber)
    (hk : st.rollIndex ≤ k) (hr : r.stamp ≠ st.periodNumber) : st.nextDue = some k := by
  have hf : st.records.find? (fun e => decide (st.rollIndex ≤ e.1) && e.2.stamp != st.periodNumber) = some (k, r) := by
    rw [hl, List.find?_append, List.find?_eq_none.2, List.find?_cons_of_pos]
    · rfl
    · simp [hk, hr]
    · intro e he
      by_cases hi : st.rollIndex ≤ e.1
      · simp [ha e he hi]
      · simp [hi]
  simp only [Store.nextDue, hf, Option.map_some]

/-- The budget state of an account whose used has become 0, with nobody signed on (R136). -/
theorem budgetStateFor_zero (budget : Option Nat) :
    budgetStateFor 0 budget 0 none = if budget = some 0 then .spent else .normal := by
  cases budget with
  | none => rfl
  | some b =>
    cases b with
    | zero => rfl
    | succ n => simp [budgetStateFor]

/-- The roll access at an empty cache and an empty presence table writes the record and sets the budget state (R146). -/
theorem State.serveRoll_fresh {s : State} {slot : Nat} {r : Record} (hc : s.cache = {}) (hp : s.presence = [])
    (hr : s.recordAt slot = some r) (hs : r.stamp ≠ s.store.periodNumber) :
    s.serveRoll slot =
      { s with
        arbiter := { s.arbiter with
          current := some { who := .roll, write := .put slot (r.rolled 0 s.store.periodNumber), result := .roll slot } }
        presence := [(slot, { budget := some (if r.budget = some 0 then .spent else .normal) })] } := by
  have hentry : ∀ t : State, t.cache = {} → t.entryOf slot = none := by
    intro t ht
    simp [State.entryOf, State.entry, ht]
  have hpend : ∀ t : State, t.cache = {} → t.pendingOf slot = 0 := by
    intro t ht
    simp only [State.pendingOf, hentry t ht]
  generalize ht : s.serve .roll (.put slot (r.rolled 0 s.store.periodNumber)) (.roll slot) = t
  have htc : t.cache = {} := by rw [← ht]; exact hc
  have htp : t.presenceOf slot = {} := by rw [← ht]; simp [State.presenceOf, State.serve, hp, tabGet]
  have htr : t.budgetRecord slot = some (r.rolled 0 s.store.periodNumber) := by
    rw [← ht]; simp [State.budgetRecord, State.serve]
  have htot : t.total slot = 0 := by simp [State.total, htr, hpend t htc, Record.rolled]
  have hbud : t.budget slot = r.budget := by simp [State.budget, htr, Record.rolled]
  have hrec : t.recompute slot = t.setPresence slot { budget := some (if r.budget = some 0 then .spent else .normal) } := by
    simp only [State.recompute, htr, htp, htot, hbud, budgetStateFor_zero, State.moveBudget, State.setBudgetState]
    split_ifs <;> rfl
  have hset : ∀ p : Presence, p ≠ {} → t.setPresence slot p = { t with presence := [(slot, p)] } := by
    intro p hne
    rw [State.setPresence, if_neg hne, show t.presence = [] from by rw [← ht]; exact hp]
    rfl
  have hlook : ∀ u : State, u.cache = {} → u.lookAccount slot = u := by
    intro u hu
    simp only [State.lookAccount, hentry u hu]
  simp only [State.serveRoll, hr, if_neg hs, hpend s hc, hentry s hc, ht]
  rw [hrec, hset _ (by split_ifs <;> decide), hlook, State.settle_empty, ← ht]
  · rfl
  · exact congrArg Cache.waiting htc
  · exact htc

theorem State.serveRoll_frame {s : State} (hc : s.cache = {}) (hp : s.presence = []) (slot : Nat) :
    ∃ a p, s.serveRoll slot = { s with arbiter := a, presence := p } := by
  cases hr : s.recordAt slot with
  | none => exact ⟨_, s.presence, by simp only [State.serveRoll, hr]; rfl⟩
  | some r =>
    by_cases hs : r.stamp = s.store.periodNumber
    · exact ⟨_, s.presence, by simp only [State.serveRoll, hr, if_pos hs]; rfl⟩
    · exact ⟨_, _, State.serveRoll_fresh hc hp hr hs⟩

/-- No channel is UP, so that no notice is queued. -/
theorem State.noticeToUp_none {s : State} (h : s.channels = Vector.replicate 4 {}) (n : Notice) : s.noticeToUp n = s := by
  have hup : ∀ c, (s.chan c).state ≠ .up := by
    intro c
    rw [State.chan, h, Vector.get_replicate]
    decide
  simp [State.noticeToUp, State.noticeWhere, allChans, hup]

theorem State.rollVisit_opened {s : State} (h : s.store.periodState = .opened) : s.rollVisit = s := by
  simp only [State.rollVisit, h]

theorem State.rollVisit_ends {s : State} (h : s.store.periodState = .closing) (hd : s.store.nextDue = none) :
    s.rollVisit = (s.modStore fun st => { st with rollIndex := 4096, periodState := .opened }).noticeToUp
      (noticePeriodClosed s.store.periodNumber s.rating.calendar) := by
  simp only [State.rollVisit, h, hd]

theorem State.rollVisit_idle {s : State} {slot : Nat} (h : s.store.periodState = .closing)
    (hd : s.store.nextDue = some slot) (hi : s.arbiter.current = none) :
    s.rollVisit = (s.modStore fun st => { st with rollIndex := slot }).serveRoll slot := by
  simp only [State.rollVisit, h, hd, State.modStore_arbiter, hi]

theorem State.afresh_line (s : State) (st : Store) (r : Rating) (cause : ResetCause) (a b : Bool) (l : LineNo) :
    (s.afresh st r cause a b).line l = st.lineAfterReset a l := by
  simp only [State.line, State.afresh, Vector.get_ofFn]

theorem State.afresh_chan (s : State) (st : Store) (r : Rating) (cause : ResetCause) (a b : Bool) (c : ChanNo) :
    (s.afresh st r cause a b).chan c = {} := by
  simp only [State.chan, State.afresh, Vector.get_replicate]

/-- What is begun afresh stays so while only the roll index, the period state, the arbiter and the presence table move. -/
theorem State.restarted_of_afresh {s : State} {st u : Store} {cause : ResetCause} {a b : Bool} (x : Arbiter)
    (p : List (Nat × Presence)) (hu : u.groupConfig = st.groupConfig)
    (ho : u.periodState = .opened → x = {} ∧ p = []) :
    s.Restarted { s.afresh st s.rating cause a b with store := u, arbiter := x, presence := p } cause a b where
  lines l := by
    refine ((State.line_of_lines rfl l).trans (s.afresh_line st s.rating cause a b l)).trans ?_
    simp only [Store.lineAfterReset, Store.configuredEnable, hu]
    rfl
  checks := rfl
  channels c := (State.chan_of_channels rfl c).trans (s.afresh_chan st s.rating cause a b c)
  rating := rfl
  cache := rfl
  marker := rfl
  presence h := (ho h).2
  arbiter h := (ho h).1
  cause := rfl
  setup := rfl
  powered := rfl
  pending := by simp only [State.afresh]

/-- What the roll of an unfinished close leaves of a state just begun afresh. -/
theorem State.restarted_rollVisit (s : State) (st : Store) (cause : ResetCause) (a b : Bool) :
    s.Restarted (s.afresh st s.rating cause a b).rollVisit cause a b := by
  cases hst : st.periodState with
  | opened =>
    have he : s.afresh st s.rating cause a b =
        { s.afresh st s.rating cause a b with store := st, arbiter := {}, presence := [] } := by simp only [State.afresh]
    rw [State.rollVisit_opened (s := s.afresh st s.rating cause a b) hst, he]
    exact State.restarted_of_afresh {} [] rfl fun _ => ⟨rfl, rfl⟩
  | closing =>
    cases hd : st.nextDue with
    | none =>
      rw [State.rollVisit_ends (s := s.afresh st s.rating cause a b) hst hd, State.noticeToUp_none rfl]
      exact State.restarted_of_afresh (st := st) {} [] rfl fun _ => ⟨rfl, rfl⟩
    | some slot =>
      rw [State.rollVisit_idle (s := s.afresh st s.rating cause a b) hst hd rfl]
      obtain ⟨x, p, hx⟩ := State.serveRoll_frame
        (s := (s.afresh st s.rating cause a b).modStore fun st => { st with rollIndex := slot }) rfl rfl slot
      have he : { (s.afresh st s.rating cause a b).modStore fun st => { st with rollIndex := slot } with
            arbiter := x, presence := p } =
          { s.afresh st s.rating cause a b with store := { st with rollIndex := slot }, arbiter := x, presence := p } := by
        simp only [State.afresh, State.modStore]
      rw [hx, he]
      exact State.restarted_of_afresh x p rfl fun ho => absurd (hst.symm.trans ho) (by decide)

/-- How the roll of an unfinished close goes on from a state just begun afresh (R145, R146, R150). -/
theorem State.rollVisit_afresh (s : State) (st : Store) (cause : ResetCause) (a b : Bool) :
    let t := (s.afresh st s.rating cause a b).rollVisit
    (st.periodState = .opened → t.store = st) ∧
    (st.periodState = .closing → (∀ e ∈ st.records, st.rollIndex ≤ e.1 → e.2.stamp = st.periodNumber) →
      t.store = { st with rollIndex := 4096, periodState := .opened } ∧ t.arbiter = {} ∧ t.presence = []) ∧
    ∀ d e k r, st.periodState = .closing → st.records = d ++ (k, r) :: e →
      (∀ i ∈ d, st.rollIndex ≤ i.1 → i.2.stamp = st.periodNumber) → st.rollIndex ≤ k → r.stamp ≠ st.periodNumber →
      tabGet k st.records = some r →
      t.store = { st with rollIndex := k } ∧
      t.arbiter = {
        current := some { who := .roll, write := .put k { r with previous := r.used, used := 0, stamp := st.periodNumber },
                          result := .roll k } } ∧
      t.presence = [(k, { budget := some (if r.budget = some 0 then .spent else .normal) })] := by
  refine ⟨fun ho => ?_, fun hc hnone => ?_, fun d e k r hc hl hd hk hr hg => ?_⟩
  · rw [State.rollVisit_opened ho]
    rfl
  · rw [State.rollVisit_ends hc (Store.nextDue_none hnone), State.noticeToUp_none rfl]
    exact ⟨rfl, rfl, rfl⟩
  · rw [State.rollVisit_idle hc (Store.nextDue_first hl hd hk hr) rfl]
    generalize hu : (s.afresh st s.rating cause a b).modStore (fun st => { st with rollIndex := k }) = u
    have hrec : u.recordAt k = some r := by rw [← hu]; exact hg
    have hstamp : r.stamp ≠ u.store.periodNumber := by rw [← hu]; exact hr
    have hcache : u.cache = {} := by rw [← hu]; rfl
    have hpres : u.presence = [] := by rw [← hu]; rfl
    rw [State.serveRoll_fresh hcache hpres hrec hstamp, ← hu]
    exact ⟨rfl, rfl, rfl⟩

/-- Settles O5: each full reset is `State.afresh` and the roll. -/
theorem fullResetsStartAfreshAndKeepTheStore : Obligations.FullResetsStartAfreshAndKeepTheStore := by
  refine ⟨fun s a b h => ⟨?_, fun hp => ?_, fun hp hr hh => ?_⟩, fun s a b h => ⟨?_, fun hp => ?_, fun hp hr hh => ?_⟩⟩
  · exact ⟨_, rfl, s.fullReset_valid h .power a b ▸ s.restarted_rollVisit ..⟩
  · exact ⟨_, exec_resetInput hp a b, s.fullReset_valid h .resetInput a b ▸ s.restarted_rollVisit ..⟩
  · exact ⟨_, exec_orderlyRestartReset hp hr hh a b, s.fullReset_valid h .restart a b ▸ s.restarted_rollVisit ..⟩
  · refine ⟨_, rfl, ?_⟩
    rw [← State.storeAfterReset_loses h (by decide : ResetCause.power ≠ .restart)]
    exact s.fullReset_valid h .power a b ▸ s.rollVisit_afresh ..
  · refine ⟨_, exec_resetInput hp a b, ?_⟩
    rw [← State.storeAfterReset_loses h (by decide : ResetCause.resetInput ≠ .restart)]
    exact s.fullReset_valid h .resetInput a b ▸ s.rollVisit_afresh ..
  · refine ⟨_, exec_orderlyRestartReset hp hr hh a b, ?_⟩
    rw [← State.storeAfterReset_restart h]
    exact s.fullReset_valid h .restart a b ▸ s.rollVisit_afresh ..

end Sys2Proof.Machine
end

section
/-! The line unit: health, ringing, finding the speed, and characters that fail their checks (R3 to R8, R14 to R20). -/

namespace Sys2Proof.Machine

/-! ## Commands with the supply on -/

/-- A command that changes `s` to `t` while the supply is on: every free line then starts a character (R11). -/
theorem exec_on {i : Instr} {s t u : State} (hp : s.powered = true) (hx : exec i s = .next (s.whenOn t)) (he : t = u) :
    exec i s = .next u.started := by
  rw [hx, State.whenOn_on hp, he]

/-! ## The score and the health state -/

@[simp] theorem bytesBE_one (v : Nat) : bytesBE 1 v = [BitVec.ofNat 8 v] := by
  simp only [bytesBE, Nat.pow_zero, Nat.div_one]

section
variable (s : State) (l : LineNo) (n : Nat) (h : Health)

theorem State.dialog_setHealth : (s.setHealth l n h).dialog l = s.dialog l := by
  rw [State.dialog, State.line_setHealth]
  exact State.dialog_modUnit s l l _

theorem State.ctx_setHealth : (s.setHealth l n h).ctx l = s.ctx l := by
  rw [State.ctx, State.line_setHealth]
  exact State.ctx_modUnit s l l _

theorem State.line_setHealth_ne {k : LineNo} (hk : k ≠ l) : (s.setHealth l n h).line k = s.line k := by
  rw [State.line_setHealth, State.line_modUnit, if_neg (Ne.symm hk)]

/-- A change of score leaves the queues and the port table of every channel. -/
theorem State.queue_ports_setHealth (c : ChanNo) : ((s.setHealth l n h).chan c).queue = (s.chan c).queue ∧
    ((s.setHealth l n h).chan c).ports = (s.chan c).ports := by
  rw [State.chan_setHealth]
  split
  · exact ⟨rfl, rfl⟩
  · exact ⟨Channel.noted_queue .., Channel.noted_ports ..⟩

end

theorem State.Sessionless.setHealth {s : State} {l : LineNo} (a : s.Sessionless l) (n : Nat) (h : Health) :
    (s.setHealth l n h).Sessionless l where
  check := by rw [State.dialog_setHealth]; exact a.check
  stack := by rw [State.ctx_setHealth]; exact a.stack
  openings c p x := by
    rw [State.port?, (State.queue_ports_setHealth s l n h c).2]
    exact a.openings c p x
  grace slot hslot := by
    rw [State.dialog_setHealth] at hslot
    obtain ⟨v, hv⟩ := s.setHealth_eq l n h
    rw [hv]
    exact a.grace slot hslot

/-- The notice of a change of health state that a change of score makes (R18). -/
theorem healthNotice_after {old new : Health} (ho : old ≠ .barred) :
    healthNotice old new = if new = .barred then .lineBarred else if new = .noisy then .lineNoisy else .lineGood := by
  cases old with
  | barred => exact absurd rfl ho
  | good | noisy => cases new <;> rfl

/-- Settles O9: `State.setHealth_eq` is the frame, and the notice is that of `healthNotice_after`. -/
theorem healthFollowsTheScore : Obligations.HealthFollowsTheScore := by
  intro s l
  refine ⟨fun _ => rfl, fun _ => rfl, fun score => ?_⟩
  intro u health t
  have hhealth : health = healthAfter (s.unit l).health score := by
    simp only [health, u]
    cases (s.unit l).health <;> rfl
  clear_value health
  subst hhealth
  refine ⟨State.unit_setHealth .., State.dialog_setHealth .., State.ctx_setHealth ..,
    fun k hk => State.line_setHealth_ne s l score _ hk, fun c => ?_, ?_⟩
  · refine (State.chan_setHealth ..).trans (ite_congr rfl (fun _ => rfl) fun hn => ?_)
    have hup : (s.chan c).state = .up := not_not.1 (not_or.1 hn).2
    have hold : (s.unit l).health ≠ .barred := fun hb => (not_or.1 hn).1 (by rw [hb]; rfl)
    simp only [Channel.noted, hup, healthNotice_after hold, noticeHealth, bytesBE_one, List.cons_append,
      List.nil_append]
  · obtain ⟨x, hx⟩ := s.setHealth_eq l score (healthAfter (s.unit l).health score)
    simp only [t, State.changeScore, hx, State.modUnit_rating, State.modUnit_cache, State.modUnit_store, State.modUnit_arbiter,
      State.modUnit_presence, State.modUnit_checks, State.modUnit_dirtyMarker, State.modUnit_setup,
      State.modUnit_resetCause, State.modUnit_powered, State.modUnit_pending, and_self]

/-! ## Ringing and answering -/

section
variable {s : State} {l : LineNo}

/-- A line in IDLE without a line hit ignores carrier (R3). -/
theorem State.carrier_idle (hi : (s.unit l).state = .idle) (hh : (s.unit l).lineHit = false) :
    s.carrierUp l = s ∧ s.carrierDown l = s := by
  simp [State.carrierUp, State.carrierDown, hi, hh]

/-- A line in which nothing is framed ignores characters (R8, R10). -/
theorem State.receiveChar_deaf (hd : (s.unit l).listens = false) (x : Code) (p b : Bool) : s.receiveChar l x p b = s := by
  simp [State.receiveChar, hd]

end

/-- Settles O10: by the line state and the ring count. -/
theorem ringingLinesAreAnswered : Obligations.RingingLinesAreAnswered := by
  refine ⟨fun s l hp => ⟨fun hi => ⟨fun hlt => ?counted, fun hle => ?answered, fun hg => ?gap, fun hh => ?ignored⟩,
    fun hn => ?elsewhere⟩, fun s l hp ha => ⟨?carrier, fun ht hm hal => ?expired⟩⟩
  case counted =>
    exact exec_on hp rfl (by simp only [State.ringLine, if_pos hi, if_neg (Nat.not_le.2 hlt)]; rfl)
  case answered => exact exec_on hp rfl (by simp only [State.ringLine, if_pos hi, if_pos hle])
  case gap =>
    exact exec_on hp rfl ((if_pos hg).trans (State.modUnit_congr (by simp only [hi, if_true])))
  case ignored =>
    refine ⟨exec_on hp rfl (State.carrier_idle hi hh).1, exec_on hp rfl (State.carrier_idle hi hh).2, fun x p b => ?_⟩
    exact exec_on hp rfl (State.receiveChar_deaf (by simp [LineUnit.listens, hi]) x p b)
  case elsewhere => exact exec_on hp rfl (by simp only [State.ringLine, if_neg hn])
  case carrier => exact exec_on hp rfl (by simp only [State.carrierUp, if_pos ha])
  case expired =>
    refine exec_on hp rfl ?_
    rw [if_pos (by simp [ht, ha]), State.clearLine_alone .noCarrier (by rw [ha]; rfl) hal (.inl hm)]

/-! ## Finding the speed -/

theorem speedOf_windows (t : Nat) :
    (speedOf t = some .b110 ↔ 8000 ≤ t ∧ t ≤ 10182) ∧ (speedOf t = some .b150 ↔ 5867 ≤ t ∧ t ≤ 7467) ∧
    (speedOf t = some .b300 ↔ 2933 ≤ t ∧ t ≤ 3733) ∧ (speedOf t = some .b600 ↔ 1467 ≤ t ∧ t ≤ 1867) ∧
    (speedOf t = some .b1200 ↔ 733 ≤ t ∧ t ≤ 933) ∧ (speedOf t = some .b2400 ↔ 367 ≤ t ∧ t ≤ 467) := by
  unfold speedOf
  split_ifs <;> simp <;> omega

theorem Speed.cls_iff (v : Speed) : (v.cls = .slow ↔ v = .b110 ∨ v = .b150 ∨ v = .b300) ∧
    (v.cls = .medium ↔ v = .b600 ∨ v = .b1200) ∧ (v.cls = .fast ↔ v = .b2400) := by
  cases v <;> decide

section
variable {s : State} {l : LineNo}

/-- A line in SPEED whose input has rested measures the next character (R5). -/
theorem exec_speedAttempt (hp : s.powered = true) (hs : (s.unit l).state = .speed) (hm : (s.unit l).awaitMark = false)
    (hh : (s.unit l).lineHit = false) (micros : Nat) (x : Code) :
    exec (.speedAttempt l micros x) s = .next (s.attemptSpeed l micros x).started :=
  exec_on hp rfl (if_pos (by simp [hs, hm, hh]))

/-- The dialog opens with the banner, where there is one, and the prompt (R51). -/
theorem State.enterSignOn_eq (s : State) (l : LineNo) : s.enterSignOn l =
    ((s.modDialog l fun d =>
        { phase := .ident, field := [], identifier := none, fold := none, timer := true, counted := d.counted,
          attempts := if (s.unit l).health = .good then 3 else 1 }).place l
      (if s.store.banner = [] then [] else [13, 10] ++ s.store.banner)).place l [13, 10, 73, 68, 58] := by
  unfold State.enterSignOn
  by_cases hb : s.store.banner = []
  · simp only [if_pos hb, State.place_nil]
    rfl
  · simp only [if_neg hb]
    rfl

theorem State.failAttempt_spare (ha : 2 ≤ (s.unit l).attempts) : s.failAttempt l =
    s.modUnit l fun u => { u with attempts := u.attempts - 1, speedWindow := true, awaitMark := true } := by
  have hpos : 0 < (s.unit l).attempts - 1 := by omega
  simp only [State.failAttempt, if_pos hpos]
  rfl

theorem State.failAttempt_last (hs : (s.unit l).state = .speed) (ha : (s.unit l).attempts ≤ 1)
    (hm : (s.unit l).partMsg = []) (hal : s.Alone l) : s.failAttempt l =
    (s.modUnit l fun u => { u.cleared .speedFailed with attempts := 0 }).raiseScore l 8 := by
  have hzero : ¬ 0 < (s.unit l).attempts - 1 := by omega
  simp only [State.failAttempt, if_neg hzero]
  generalize ht : s.modUnit l (fun u => LineUnit.mk _ _ _ _ _ _ _ _ _ _ _ _ _ _ _ _ _ _ _ _) = t
  have hu : t.unit l = { s.unit l with attempts := 0, awaitMark := true } := by rw [← ht, State.unit_modUnit]
  have halone : t.Alone l := by
    rw [← ht]
    exact ⟨by simpa using hal.dialog, by simpa using hal.counted, by simpa using hal.ctx, hal.queues, hal.openings⟩
  rw [State.clearLine_alone .speedFailed (by rw [hu, hs]; rfl) halone (.inl (by rw [hu]; exact hm)), ← ht,
    State.modUnit_modUnit]
  rfl

theorem State.attemptSpeed_fails {micros : Nat} {x : Code} (h : speedOf micros = none ∨ x ≠ 13) :
    s.attemptSpeed l micros x = s.failAttempt l := by
  unfold State.attemptSpeed
  split
  next v hv => exact if_neg (h.resolve_left (by rw [hv]; exact Option.some_ne_none v))
  next => rfl

end

/-- Settles O12: the windows, and `State.enterSignOn_eq` on the line whose speed is locked. -/
theorem carriageReturnLocksTheSpeed : Obligations.CarriageReturnLocksTheSpeed := by
  refine ⟨fun t => ?_, fun s l micros v hp hs hm hh hv => ?_⟩
  · obtain ⟨h110, h150, h300, h600, h1200, h2400⟩ := speedOf_windows t
    exact ⟨h110, h150, h300, h600, h1200, h2400, Speed.cls_iff⟩
  · rw [exec_speedAttempt hp hs hm hh, State.attemptSpeed, hv]
    simp only [if_true, State.enterSignOn_eq, State.unit_modUnit, State.modUnit_store]
    rfl

/-- Settles O13: an attempt to spare and the last one, of a measurement and of a window. -/
theorem failedSpeedAttemptsAreCounted : Obligations.FailedSpeedAttemptsAreCounted := by
  intro s l hp hs
  refine ⟨fun micros x hm hh hf => ⟨fun ha => ?spare, fun ha hpm hal => ?last⟩, fun micros x hb => ?barred,
    fun hw => ⟨fun ha => ?windowSpare, fun ha hpm hal => ?windowLast⟩, ?rest⟩
  case spare => rw [exec_speedAttempt hp hs hm hh, State.attemptSpeed_fails hf, State.failAttempt_spare ha]
  case last => rw [exec_speedAttempt hp hs hm hh, State.attemptSpeed_fails hf, State.failAttempt_last hs ha hpm hal]
  case barred => exact exec_on hp rfl (if_neg (by rcases hb with h | h <;> simp [h]))
  case windowSpare => exact exec_on hp rfl ((if_pos (by simp [hw, hs])).trans (State.failAttempt_spare ha))
  case windowLast => exact exec_on hp rfl ((if_pos (by simp [hw, hs])).trans (State.failAttempt_last hs ha hpm hal))
  case rest => exact exec_on hp rfl rfl

/-! ## Characters that fail their checks -/

/-- A change of score bars a line exactly when it reaches 192 (R18). -/
theorem healthAfter_barred_iff {h : Health} (hn : h ≠ .barred) (score : Nat) :
    healthAfter h score = .barred ↔ 192 ≤ score := by
  cases h with
  | barred => exact absurd rfl hn
  | good | noisy =>
    simp only [healthAfter, Config.barredAt]
    split_ifs <;> simp <;> omega

section
variable {s : State} {l : LineNo}

theorem State.health_raiseScore (s : State) (l : LineNo) (n : Nat) : ((s.raiseScore l n).unit l).health =
    healthAfter (s.unit l).health (min ((s.unit l).score + n) 255) := by
  rw [State.raiseScore_eq, State.unit_setHealth]

theorem State.state_raiseScore (s : State) (l : LineNo) (n : Nat) :
    ((s.raiseScore l n).unit l).state = (s.unit l).state := by
  rw [State.raiseScore_eq, State.unit_setHealth]

/-- A fault that does not bar the line only scores (R17 to R19). -/
theorem State.faultScore_scores {n : Nat}
    (h : (s.unit l).health = .barred ∨ (s.unit l).score + n < 192 ∨ (s.unit l).state.active = false) :
    s.faultScore l n = s.raiseScore l n := by
  unfold State.faultScore State.barLine
  split
  next hb =>
    obtain ⟨hn, hbar⟩ := hb
    rw [State.health_raiseScore, healthAfter_barred_iff hn] at hbar
    have ha : ((s.raiseScore l n).unit l).state.active = false := by
      rw [State.state_raiseScore]
      exact (h.resolve_left hn).resolve_left (by omega)
    simp only [State.clearLine, ha, Bool.false_eq_true, if_false]
  next => rfl

/-- A fault that bars a line in an active state clears it (R19). -/
theorem State.faultScore_bars {n : Nat} (hn : (s.unit l).health ≠ .barred) (h : 192 ≤ (s.unit l).score + n)
    (ha : (s.unit l).state.active = true) (hs : s.Sessionless l) :
    s.faultScore l n = (s.raiseScore l n).cleared l .lineBarred := by
  have hbar : ((s.raiseScore l n).unit l).health = .barred := by
    rw [State.health_raiseScore, healthAfter_barred_iff hn]
    omega
  rw [State.faultScore, State.barLine, if_pos ⟨hn, hbar⟩, State.clearLine_cleared]
  · rw [State.state_raiseScore]
    exact ha
  · exact hs.setHealth _ _

/-- A line that hears scores a character whose parity or stop bit is wrong (R8). -/
theorem State.Hears.scores {x : Code} {bit stop : Bool} (h : s.Hears l)
    (hs : (s.unit l).state = .signOn ∨ (s.unit l).state = .command ∨ (s.unit l).state = .waiting ∨
      (s.unit l).state = .connected ∨ (s.unit l).state = .clearing)
    (hbad : stop = false ∨ ¬ (s.group l).parity.accepts x bit) : s.receiveChar l x bit stop = s.faultScore l 1 := by
  have hcheck : (stop && parityOk (s.group l).parity x bit) = false := by
    rcases hbad with hst | hpar
    · rw [hst, Bool.false_and]
    · rw [Bool.eq_false_iff.2 fun hok => hpar ((parityOk_iff _ x bit).1 hok), Bool.and_false]
  simp only [State.receiveChar, h.listens hs, hcheck, Bool.not_true, Bool.false_eq_true, if_false]

end

/-- Settles O14: by whether the score bars the line. -/
theorem badCharactersAreScored : Obligations.BadCharactersAreScored := by
  intro s l x bit stop h hs hbad
  refine ⟨fun hsc => ?scores, fun hn hb hc hsl => ?bars⟩
  case scores =>
    refine exec_on h.powered rfl ((h.scores hs hbad).trans (State.faultScore_scores ?_))
    exact hsc.imp_right (.imp_right fun hc => by rw [hc]; rfl)
  case bars =>
    refine exec_on h.powered rfl ((h.scores hs hbad).trans (State.faultScore_bars hn hb ?_ hsl))
    rcases hs with h | h | h | h | h
    · rw [h]; rfl
    · rw [h]; rfl
    · rw [h]; rfl
    · rw [h]; rfl
    · exact absurd h hc

/-! ## The quiet timer -/

/-- A BARRED line that is released goes to IDLE or OFF, and its quiet timer stops (R20). -/
theorem State.releaseLine_barred {s : State} {l : LineNo} (h : (s.unit l).state = .barred) :
    s.releaseLine l = s.modUnit l fun u => { u with
      quietTimer := false, state := if u.enabled then .idle else .off,
      ringCount := if u.enabled then 0 else u.ringCount } := by
  rw [State.releaseLine, if_pos h]
  refine State.modUnit_congr ?_
  cases he : (s.unit l).enabled <;> simp [LineUnit.rest]

/-- Settles O19: the change to NOISY at 128, then the release. -/
theorem quietTimeEndsInProbation : Obligations.QuietTimeEndsInProbation := by
  intro s l hp hs hh hq
  have hst : ((s.setHealth l 128 .noisy).unit l).state = .barred := by rw [State.unit_setHealth]; exact hs
  refine ⟨_, exec_on hp rfl ((if_pos (by simp [hq, hs])).trans (State.releaseLine_barred hst)), ?_, fun k hk => ?_,
    fun c => ?_, ?_⟩
  · rw [State.unit_modUnit, State.unit_setHealth]
  · rw [State.line_modUnit, if_neg (Ne.symm hk), State.line_setHealth_ne s l 128 .noisy hk]
  · rw [State.chan_modUnit, State.chan_setHealth, hh]
    by_cases hup : (s.chan c).state = .up
    · rw [if_neg (by simp [hup]), if_pos hup]
      simp only [noticeHealth, bytesBE_one]
      rfl
    · rw [if_pos (.inr hup), if_neg hup]
  · obtain ⟨x, hx⟩ := s.setHealth_eq l 128 .noisy
    rw [hx]
    exact ⟨rfl, rfl, rfl⟩

end Sys2Proof.Machine
end

section
/-! The pass-phrase field and its fold, and the dialog timer (R52, R56, R57, R61, R64). -/

namespace Sys2Proof.Machine

/-! ## The fold -/

/-- Reading characters as the digits of a number to the base 31, after a number already read. -/
theorem foldl_base31 (cs : List Code) : ∀ v k : Nat, cs.foldl (fun v c => v * 31 + c.toNat) v =
    v * 31 ^ cs.length + ((cs.zipIdx k).map fun e => e.1.toNat * 31 ^ (cs.length + k - 1 - e.2)).sum := by
  induction cs with
  | nil => intro v k; simp
  | cons c cs ih =>
    intro v k
    have hlen : (c :: cs).length + k = cs.length + (k + 1) := by simp only [List.length_cons]; omega
    have hlast : cs.length + (k + 1) - 1 - k = cs.length := by omega
    rw [List.foldl_cons, ih (v * 31 + c.toNat) (k + 1), List.zipIdx_cons, List.map_cons, List.sum_cons, hlen, hlast,
      List.length_cons, Nat.pow_succ]
    ring

/-- Taking the remainder at every step is taking it once. -/
theorem foldl_base31_mod (cs : List Code) : ∀ v : Nat,
    cs.foldl (fun v c => (v * 31 + c.toNat) % 16777216) (v % 16777216) =
      cs.foldl (fun v c => v * 31 + c.toNat) v % 16777216 := by
  induction cs with
  | nil => intro v; rfl
  | cons c cs ih =>
    intro v
    have hstep : (v % 16777216 * 31 + c.toNat) % 16777216 = (v * 31 + c.toNat) % 16777216 := by omega
    rw [List.foldl_cons, List.foldl_cons, hstep, ih]

theorem foldPass_eq (cs : List Code) :
    foldPass cs = ((cs.zipIdx.map fun e => e.1.toNat * 31 ^ (cs.length - 1 - e.2)).sum) % 16777216 := by
  have h := foldl_base31_mod cs 0
  rw [foldl_base31 cs 0 0, Nat.zero_mul, Nat.zero_add] at h
  exact h

/-! ## A character in the pass-phrase field -/

section
variable {s : State} {l : LineNo} {x : Code}

theorem State.passChar_room (hx : 32 ≤ x.toNat ∧ x.toNat ≤ 126) (hf : (s.dialog l).field.length ≤ 11) :
    s.passChar l x = s.modDialog l fun d => { d with field := d.field ++ [x] } := by
  have hroom : (s.dialog l).field.length < Config.passCap := Nat.lt_succ_of_le hf
  simp only [State.passChar, if_pos hx, if_pos hroom]
  rfl

theorem State.passChar_full (hx : 32 ≤ x.toNat ∧ x.toNat ≤ 126) (hf : 12 ≤ (s.dialog l).field.length) :
    s.passChar l x = s.place l [7] := by
  have hfull : ¬ (s.dialog l).field.length < Config.passCap := Nat.not_lt.2 hf
  simp only [State.passChar, if_pos hx, if_neg hfull, bell]

/-- The two rub-out codes are no characters of the field. -/
theorem rubOut_not_text (hx : x = 8 ∨ x = 127) : ¬ (32 ≤ x.toNat ∧ x.toNat ≤ 126) := by
  rcases hx with rfl | rfl <;> decide

theorem State.passChar_rub (hx : x = 8 ∨ x = 127) (hf : (s.dialog l).field ≠ []) :
    s.passChar l x = s.modDialog l fun d => { d with field := d.field.dropLast } := by
  simp only [State.passChar, if_neg (rubOut_not_text hx), if_pos hx, if_neg hf]
  rfl

theorem State.passChar_rub_empty (hx : x = 8 ∨ x = 127) (hf : (s.dialog l).field = []) :
    s.passChar l x = s.place l [7] := by
  simp only [State.passChar, if_neg (rubOut_not_text hx), if_pos hx, if_pos hf, bell]

theorem State.passChar_again : s.passChar l 21 =
    (s.modDialog l fun d => { d with field := [] }).place l [13, 10, 80, 87, 58] := rfl

theorem State.passChar_return : s.passChar l 13 = s.endPass l := rfl

theorem State.passChar_other (h127 : x ≠ 127) (hlow : ¬ 32 ≤ x.toNat) (h8 : x ≠ 8) (h21 : x ≠ 21) (h13 : x ≠ 13) :
    s.passChar l x = s.place l [7] := by
  have htext : ¬ (32 ≤ x.toNat ∧ x.toNat ≤ 126) := fun h => hlow h.1
  have hrub : ¬ (x = 8 ∨ x = 127) := not_or.2 ⟨h8, h127⟩
  simp only [State.passChar, if_neg htext, if_neg hrub, if_neg h21, if_neg h13, bell]

/-! ## The carriage return -/

/-- A check on the list waits at a busy store (R37, R58). -/
theorem State.offerCheck_busy {t : State} (hc : t.checks ≠ []) (hb : t.arbiter.current.isSome = true)
    (hs : t.arbiter.serving .signOn = false) :
    t.offerCheck = { t with arbiter := { t.arbiter with signOn := true } } := by
  obtain ⟨a, ha⟩ := Option.isSome_iff_exists.1 hb
  have hlist : t.checks.isEmpty = false := by simpa using hc
  cases hw : t.arbiter.signOn with
  | false =>
    simp only [State.offerCheck, hlist, hw, hs, ha, Bool.or_false, Bool.false_eq_true, if_false,
      State.modArbiter]
  | true =>
    simp only [State.offerCheck, hlist, hw, Bool.or_true, Bool.true_or, if_true]
    rw [← hw]

/-- The check of an account number joins the list, and waits while another access is in progress (R37, R57, R58). -/
theorem State.endPass_waits {n : Nat} (hid : (s.dialog l).identifier = some n) (hn : 1 ≤ n ∧ n ≤ 65535)
    (hb : s.arbiter.current.isSome = true) (hs : s.arbiter.serving .signOn = false) :
    s.endPass l = { (s.modDialog l fun d =>
        { d with phase := .checking, field := [], fold := some (foldPass (s.dialog l).field) }).place l [13, 10] with
      checks := s.checks ++ [{ line := l, identifier := n, fold := foldPass (s.dialog l).field }],
      arbiter := { s.arbiter with signOn := true } } := by
  simp only [State.endPass, hid, Option.getD_some, if_pos hn]
  exact State.offerCheck_busy (List.append_ne_nil_of_right_ne_nil _ (List.cons_ne_nil _ _)) hb hs

/-- An identifier that is no account number uses an attempt at once (R57, R61). -/
theorem State.endPass_refused {n : Nat} (hid : (s.dialog l).identifier = some n) (hn : n = 0 ∨ 65535 < n)
    (ha : 2 ≤ (s.dialog l).attempts) :
    s.endPass l = (((s.place l [13, 10]).place l ([13, 10] ++ text "SIGN-ON REFUSED")).place l [13, 10, 73, 68, 58]).modDialog
      l fun d => { d with phase := .ident, field := [], identifier := none, fold := none, attempts := d.attempts - 1 } := by
  have hno : ¬ (1 ≤ n ∧ n ≤ 65535) := by omega
  have hatt : 0 < (s.dialog l).attempts - 1 := by omega
  simp only [State.endPass, hid, Option.getD_some, if_neg hno, State.refuseAttempt, CheckOutcome.text, State.placeLine,
    State.place, newLine, State.dialog_modUnit, State.dialog_modDialog, if_pos hatt, State.modUnit_modDialog,
    State.modDialog_modDialog]
  rfl

end

/-- Settles O16: row by row, and the fold by `foldPass_eq`. -/
theorem passPhraseFieldIsTypedAndFolded : Obligations.PassPhraseFieldIsTypedAndFolded := by
  refine ⟨fun s l x bit h hs hph hpar => ?_, foldPass_eq⟩
  have hrow : exec (.characterReceived l x bit true) s = .next (s.passChar l x).started := by
    rw [h.receives (.inl hs) hpar, State.takeChar, hs]
    simp only [State.dialogChar, hph]
  refine ⟨fun hx hf => ?_, fun hx hf => ?_, fun hx hf => ?_, fun hx hf => ?_, fun hx => ?_,
    fun h127 hlow h8 h21 h13 => ?_, fun hx n hid => ⟨fun h1 h2 hb hsv => ?_, fun hn ha => ?_⟩⟩
  · rw [hrow, State.passChar_room hx hf]
  · rw [hrow, State.passChar_full hx hf]
  · rw [hrow, State.passChar_rub hx hf]
  · rw [hrow, State.passChar_rub_empty hx hf]
  · rw [hrow, hx, State.passChar_again]
  · rw [hrow, State.passChar_other h127 hlow h8 h21 h13]
  · rw [hrow, hx, State.passChar_return, State.endPass_waits hid ⟨h1, h2⟩ hb hsv]
  · rw [hrow, hx, State.passChar_return, State.endPass_refused hid hn ha]

/-! ## The dialog timer -/

section
variable {s : State} {l : LineNo}

theorem exec_dialogTimerExpiry (hp : s.powered = true) (hs : (s.unit l).state = .signOn)
    (ht : (s.dialog l).timer = true) :
    exec (.dialogTimerExpiry l) s = .next ((s.clearLine l .signOnTimeout).raiseScore l 2).started :=
  exec_on hp rfl (if_pos (by simp [ht, hs]))

/-- A clear while a field is typed (R64): the dialog ends, and the line unit is cleared. -/
theorem State.clearLine_typing {cause : Cause} (ha : (s.unit l).state.active = true) (hx : s.ctx l = {})
    (hw : s.NotWaiting l) (hph : (s.dialog l).phase ≠ .checking) (hc : (s.dialog l).counted = none) :
    s.clearLine l cause = (s.modDialog l Dialog.ended).modUnit l fun u => u.afterClear cause := by
  have hsl : s.Sessionless l := ⟨hph, by rw [hx], hw.openings, by rw [hc]; nofun⟩
  have hun : s.uncounted l = s := by rw [State.uncounted, hc]
  have hended : { (s.dialog l).ended with counted := none } = (s.dialog l).ended := by
    rw [← hc]
    rfl
  rw [State.clearLine_cleared cause ha hsl, State.cleared_notWaiting cause hw, hun, State.modCtx_self]
  · simp only [State.modDialog, hended]
  · rw [State.ctx_modDialog, hx]

/-- A line unit as a clear takes it to CLEARING (R14, R15). -/
def LineUnit.entersClear (cause : Cause) (u : LineUnit) : LineUnit :=
  { u with state := .clearing, cause := some cause, input := [], answerTimer := false, speedWindow := false,
           lineHit := false, awaitMark := false }

/-- A clear of a line in an active state: its line unit, then the blocks in their order (R14, R15; assumption 15). -/
theorem State.clearLine_active {cause : Cause} (ha : (s.unit l).state.active = true) : s.clearLine l cause =
    (let t := (((s.modUnit l (LineUnit.entersClear cause)).signOnClear l).switchClear l cause).modUnit l fun u =>
      { u with account := 0 }
    if (s.unit l).lineHit = true ∨ (t.unit l).partMsg = [] then t.startGuard l else t) := by
  rw [State.clearLine, if_pos ha]
  rfl

theorem LineUnit.afterClear_eq (u : LineUnit) (cause : Cause) : u.afterClear cause =
    if u.lineHit = true ∨ u.partMsg = [] then
      { { u.entersClear cause with account := 0 } with partMsg := [], answerOut := false, guardTimer := true }
    else { u.entersClear cause with account := 0 } := rfl

/-- A clear has nothing to do at the switch for a line without a context that does not wait (R86). -/
theorem State.switchClear_nothing {v : State} (cause : Cause) (hx : v.ctx l = {}) (hw : v.NotWaiting l) :
    v.switchClear l cause = v := by
  rw [State.switchClear_sessionless cause (by rw [hx]) hw.openings, State.unqueued_self hw.queues, State.modCtx_self]
  exact hx.symm

/-- A clear of such a line: what the sign-on controller makes of it, and the line unit. -/
theorem State.clearLine_controller {cause : Cause} {v : State} (ha : (s.unit l).state.active = true)
    (hv : ∀ g, (s.modUnit l g).signOnClear l = v.modUnit l g) (hx : v.ctx l = {}) (hw : v.NotWaiting l)
    (hu : v.unit l = s.unit l) : s.clearLine l cause = v.modUnit l fun u => u.afterClear cause := by
  have hswitch : (v.modUnit l (LineUnit.entersClear cause)).switchClear l cause = v.modUnit l (LineUnit.entersClear cause) :=
    State.switchClear_nothing cause (by rw [State.ctx_modUnit, hx]) (hw.of_eq rfl)
  rw [State.clearLine_active ha, hv, hswitch]
  simp only [State.modUnit_modUnit, State.unit_modUnit, State.startGuard]
  have hmsg : (LineUnit.entersClear cause (v.unit l)).partMsg = (s.unit l).partMsg := by rw [hu]; rfl
  split
  next h => exact State.modUnit_congr (by rw [LineUnit.afterClear_eq, hu, if_pos (by rwa [hmsg] at h)])
  next h => exact State.modUnit_congr (by rw [LineUnit.afterClear_eq, hu, if_neg (by rwa [hmsg] at h)])

/-- A check that has not been served is withdrawn by a clear (R39, R58, R64). -/
theorem State.signOnClear_withdraws (hph : (s.dialog l).phase = .checking) (hc : (s.dialog l).counted = none)
    (hs : s.arbiter.servedCheck l = false) (g : LineUnit → LineUnit) :
    (s.modUnit l g).signOnClear l = ((s.withdrawCheck l).modDialog l Dialog.ended).modUnit l g := by
  have hno : ¬ ((s.dialog l).phase = .checking ∧ s.arbiter.servedCheck l = true) := by simp [hs]
  simp only [State.signOnClear, State.dialog_modUnit, State.modUnit_arbiter, if_neg hno, if_pos hph]
  have hcommute : (s.modUnit l g).withdrawCheck l = (s.withdrawCheck l).modUnit l g := rfl
  have hcounted : ((((s.withdrawCheck l).modDialog l Dialog.ended).modUnit l g).dialog l).counted = none := by
    rw [State.dialog_modUnit, State.dialog_modDialog]
    exact hc
  rw [hcommute, State.modUnit_modDialog, State.uncount, hcounted]

/-- A check that has been served completes; its result will find the line cleared (R64). -/
theorem State.signOnClear_marks (hph : (s.dialog l).phase = .checking) (hs : s.arbiter.servedCheck l = true)
    (g : LineUnit → LineUnit) : (s.modUnit l g).signOnClear l =
      (({ s with arbiter := s.arbiter.markCleared } : State).modDialog l Dialog.ended).modUnit l g := by
  have hyes : (s.dialog l).phase = .checking ∧ s.arbiter.servedCheck l = true := ⟨hph, hs⟩
  simp only [State.signOnClear, State.dialog_modUnit, State.modUnit_arbiter, if_pos hyes]
  rw [← State.modUnit_modDialog]
  rfl

/-- No check of the line is in progress. -/
theorem Arbiter.servedCheck_false {a : Arbiter}
    (h : ∀ x o n, a.current = some x → x.result ≠ .check l o n false) : a.servedCheck l = false := by
  unfold Arbiter.servedCheck
  split
  next k o n hcur =>
    refine decide_eq_false fun hk => ?_
    subst hk
    exact h _ o n hcur rfl
  next => rfl

end

/-- Settles O21: by the phase, and in CHECKING by whether the check has been served. -/
theorem dialogTimerEndsTheCall : Obligations.DialogTimerEndsTheCall := by
  intro s l hp hs ht hx hw
  have ha : (s.unit l).state.active = true := by rw [hs]; rfl
  refine ⟨fun hph hc => ?typing, fun hph => ⟨fun hc hno => ?waiting, fun q w o n hcur => ?served⟩⟩
  case typing =>
    have hnc : (s.dialog l).phase ≠ .checking := by rcases hph with h | h <;> rw [h] <;> decide
    rw [exec_dialogTimerExpiry hp hs ht, State.clearLine_typing ha hx hw hnc hc]
    refine ⟨fun hmsg => ?_, fun hmsg hhit => ?_⟩
    · rw [State.modUnit_congr (g := fun u => u.cleared .signOnTimeout)]
      rw [State.unit_modDialog]
      exact if_pos hmsg.symm
    · rw [State.modUnit_congr (g := fun u => u.clearing .signOnTimeout)]
      rw [State.unit_modDialog]
      exact if_neg (by simp [hmsg, hhit])
  case waiting =>
    rw [exec_dialogTimerExpiry hp hs ht, State.clearLine_controller ha
      (State.signOnClear_withdraws hph hc (Arbiter.servedCheck_false hno)) (by rw [State.ctx_modDialog]; exact hx)
      (hw.of_eq rfl) (by rw [State.unit_modDialog]; rfl)]
    simp only [ne_eq, decide_not]
    rfl
  case served =>
    have hserved : s.arbiter.servedCheck l = true := by simp [Arbiter.servedCheck, hcur]
    have hmark : s.arbiter.markCleared =
        { s.arbiter with current := some { who := q, write := w, result := .check l o n true } } := by
      simp [Arbiter.markCleared, hcur]
    rw [exec_dialogTimerExpiry hp hs ht, State.clearLine_controller ha (State.signOnClear_marks hph hserved)
      (by rw [State.ctx_modDialog]; exact hx) (hw.of_eq rfl) (by rw [State.unit_modDialog]; rfl), hmark]
    rfl

end Sys2Proof.Machine
end

section
/-! What free lines start at the end of a command (R8, R11, R12, R15, R82). -/

namespace Sys2Proof.Machine

/-! ## One line's turn -/

/-- What the turn of line `l` keeps: the context and the dialog of every line, every other line unit, the rest of the
state, and that an empty output buffer stays empty. -/
structure State.Turn (s t : State) (l : LineNo) : Prop where
  others : ∀ k, k ≠ l → t.line k = s.line k
  dialog : t.dialog l = s.dialog l
  ctx    : t.ctx l = s.ctx l
  rest   : t = { s with lines := t.lines, channels := t.channels }
  flow   : ∀ c p g, t.flow? c p = some g → ∃ f, s.flow? c p = some f ∧ (f.output = [] → g.output = [])

section
variable {s : State} {l : LineNo}

theorem State.Turn.refl (s : State) (l : LineNo) : s.Turn s l :=
  ⟨fun _ _ => rfl, rfl, rfl, rfl, fun _ _ g h => ⟨g, h, id⟩⟩

theorem State.Turn.modUnit {t : State} (h : s.Turn t l) (f : LineUnit → LineUnit) : s.Turn (t.modUnit l f) l where
  others k hk := by rw [State.line_modUnit, if_neg (Ne.symm hk)]; exact h.others k hk
  dialog := by rw [State.dialog_modUnit]; exact h.dialog
  ctx := by rw [State.ctx_modUnit]; exact h.ctx
  rest := by rw [h.rest]; rfl
  flow c p g hg := h.flow c p g hg

/-- A change of a channel that leaves the flow states. -/
theorem State.Turn.modChan {t : State} (h : s.Turn t l) {d : ChanNo} {f : Channel → Channel}
    (hf : (f (t.chan d)).ports = (t.chan d).ports) : s.Turn (t.modChan d f) l where
  others k hk := by rw [State.line_modChan]; exact h.others k hk
  dialog := by rw [State.dialog_modChan]; exact h.dialog
  ctx := by rw [State.ctx_modChan]; exact h.ctx
  rest := by rw [h.rest]; rfl
  flow c p g hg := by
    refine h.flow c p g ?_
    rw [← hg]
    have hports : ((t.modChan d f).chan c).ports = (t.chan c).ports := by
      rw [State.chan_modChan]
      split
      next hdc => rw [← hdc, hf]
      next => rfl
    simp only [State.flow?, State.port?, hports]

/-- The flow state of the port changed, and of every other. -/
theorem State.flow_modFlow {c d : ChanNo} {p q : Nat} {x : Flow} (hx : s.flow? c p = some x) (f : Flow → Flow) :
    (s.modFlow c p f).flow? d q = if d = c ∧ q = p then some (f x) else s.flow? d q := by
  obtain ⟨y, hy, hyx⟩ := Option.bind_eq_some_iff.1 hx
  by_cases hd : d = c
  · by_cases hq : q = p
    · rw [if_pos ⟨hd, hq⟩, hd, hq, State.flow?, State.modFlow, State.port_modPort hy]
      simp only [Option.bind_some, hyx, Option.map_some]
    · rw [if_neg fun h => hq h.2, hd, State.flow?, State.modFlow, State.port_modPort_ne hq]
      rfl
  · rw [if_neg fun h => hd h.1, State.flow?, State.modFlow, State.modPort_some hy, State.port?,
      State.chan_modChan_ne _ _ hd]
    rfl

/-- Draining a buffer that is not empty. -/
theorem State.Turn.modFlow {c : ChanNo} {p : Nat} {x : Flow} (hx : s.flow? c p = some x) (hne : x.output ≠ [])
    (f : Flow → Flow) : s.Turn (s.modFlow c p f) l where
  others k _ := State.line_modPort ..
  dialog := congrArg Line.dialog (State.line_modPort ..)
  ctx := congrArg Line.ctx (State.line_modPort ..)
  rest := by
    unfold State.modFlow State.modPort
    split <;> rfl
  flow d q g hg := by
    rw [State.flow_modFlow hx] at hg
    split at hg
    next h => exact ⟨x, by rw [h.1, h.2]; exact hx, fun he => absurd he hne⟩
    next => exact ⟨g, hg, id⟩

theorem State.turn_startMessage (x : Code) (rest : List Code) : s.Turn (s.startMessage l x rest) l := by
  unfold State.startMessage State.startGuard
  dsimp only
  split
  · exact ((State.Turn.refl s l).modUnit _).modUnit _
  · exact (State.Turn.refl s l).modUnit _

theorem State.turn_startOutput : s.Turn (s.startOutput l) l := by
  unfold State.startOutput
  split
  next => exact .refl s l
  next e _ =>
    split
    next => exact .refl s l
    next f hf =>
      split
      next => exact .refl s l
      next x rest hout =>
        have hturn := (State.Turn.modFlow (l := l) hf (by rw [hout]; exact List.cons_ne_nil _ _)
          fun g => { g with output := rest, stopSent := g.stopSent && !(f.stopSent && rest.length = Config.startAt) }).modUnit
            fun u => { u with sending := some (s.framed l x) }
        dsimp only
        split
        · exact hturn.modChan rfl
        · exact hturn

theorem State.turn_startNext : s.Turn (s.startNext l) l := by
  unfold State.startNext
  split
  · split
    · exact s.turn_startMessage _ _
    · split
      · exact s.turn_startOutput
      · exact .refl s l
  · exact .refl s l

/-! ## Lines that rest, and lines that are free -/

theorem LineUnit.free_iff (u : LineUnit) : u.free = true ↔
    u.sending = none ∧ u.speed ≠ none ∧ u.lineHit = false ∧ u.guardTimer = false := by
  simp [LineUnit.free, and_assoc, ← Option.isSome_iff_ne_none]

/-- A line at rest starts nothing. -/
theorem State.Rests.startNext (h : s.Rests l) : s.startNext l = s := by
  unfold State.startNext
  split
  next hfree =>
    obtain ⟨hsend, hspeed, hhit, hguard⟩ := (LineUnit.free_iff _).1 hfree
    obtain ⟨hmsg, hout⟩ : (s.unit l).partMsg = [] ∧ _ := by
      rcases h with h | h | h | h | h
      · exact absurd hsend h
      · exact absurd h hspeed
      · exact absurd (hhit.symm.trans h) (by decide)
      · exact absurd (hguard.symm.trans h) (by decide)
      · exact h
    rw [hmsg]
    dsimp only
    split
    next hc =>
      unfold State.startOutput
      split
      next => rfl
      next e he =>
        split
        next => rfl
        next g hg => rw [hout hc e g he hg]
    next => rfl
  next => rfl

/-- A line that does not rest is free. -/
theorem State.free_of_not_rests (h : ¬ s.Rests l) : (s.unit l).free = true := by
  simp only [State.Rests, not_or, not_not, ne_eq, Bool.not_eq_true] at h
  obtain ⟨hsend, hspeed, hhit, hguard, -⟩ := h
  exact (LineUnit.free_iff _).2 ⟨hsend, hspeed, hhit, hguard⟩

theorem State.startNext_message {x : Code} {rest : List Code} (h : (s.unit l).free = true)
    (hm : (s.unit l).partMsg = x :: rest) : s.startNext l = s.startMessage l x rest := by
  rw [State.startNext, if_pos h, hm]

theorem State.unit_startMessage (x : Code) (rest : List Code) : (s.startMessage l x rest).unit l =
    if (s.unit l).state = .clearing ∧ rest = [] then
      { s.unit l with partMsg := [], sending := some (s.framed l x), answerOut := false, guardTimer := true }
    else { s.unit l with partMsg := rest, sending := some (s.framed l x) } := by
  unfold State.startMessage State.startGuard
  dsimp only
  split
  · rw [State.unit_modUnit, State.unit_modUnit]
  · rw [State.unit_modUnit]

theorem State.channels_startMessage (x : Code) (rest : List Code) : (s.startMessage l x rest).channels = s.channels := by
  unfold State.startMessage
  dsimp only
  split <;> rfl

theorem State.framed_spec (x : Code) : s.Framed l x (s.framed l x) where
  code := rfl
  parity := parityBit_accepted _ _
  mark h := by simp only [State.framed, h, parityBit]
  stops := by
    cases hv : (s.unit l).speed with
    | none => simp [State.framed, hv]
    | some v => cases v <;> simp [State.framed, hv, Speed.stops]

/-- What another line's turn, or several, leave of a line: what it is and what it could start. -/
structure State.Awaits (s t : State) (l : LineNo) : Prop where
  line  : t.line l = s.line l
  store : t.store = s.store
  rests : s.Rests l → t.Rests l

theorem State.Turn.awaits {t : State} {k : LineNo} (h : s.Turn t k) (hk : l ≠ k) : s.Awaits t l where
  line := h.others l hk
  store := by rw [h.rest]
  rests hr := by
    have hu : t.unit l = s.unit l := congrArg Line.unit (h.others l hk)
    have hctx : t.ctx l = s.ctx l := congrArg Line.ctx (h.others l hk)
    have hlive : t.liveSession l = s.liveSession l := by rw [State.liveSession, hctx]; rfl
    unfold State.Rests at hr ⊢
    rw [hu, hlive]
    refine hr.imp_right (.imp_right (.imp_right (.imp_right (.imp_right fun hout hc e g he hg => ?_))))
    obtain ⟨f, hf, hempty⟩ := h.flow _ _ g hg
    exact hempty (hout hc e f he hf)

theorem State.Awaits.trans {t u : State} (h : s.Awaits t l) (k : t.Awaits u l) : s.Awaits u l :=
  ⟨k.line.trans h.line, k.store.trans h.store, k.rests ∘ h.rests⟩

/-- The turns of other lines. -/
theorem State.awaits_turns (ls : List LineNo) : ∀ s : State, l ∉ ls → s.Awaits (ls.foldl State.startNext s) l := by
  induction ls with
  | nil => exact fun s _ => ⟨rfl, rfl, id⟩
  | cons k ls ih =>
    intro s hl
    obtain ⟨hk, hls⟩ := not_or.1 (mt List.mem_cons.2 hl)
    exact (s.turn_startNext.awaits hk).trans (ih _ hls)

/-- A line is as its own turn leaves it, at a state that its own part of has not changed. -/
theorem State.line_started (s : State) (l : LineNo) : ∃ t, s.Awaits t l ∧ s.started.line l = (t.startNext l).line l := by
  obtain ⟨before, after, hsplit⟩ := List.append_of_mem (List.mem_finRange l : l ∈ allLines)
  have hnodup : (before ++ l :: after).Nodup := hsplit ▸ List.nodup_finRange 64
  have hb : l ∉ before := fun h => (List.nodup_append.1 hnodup).2.2 l h l (List.mem_cons_self ..) rfl
  have ha : l ∉ after := (List.nodup_cons.1 (List.nodup_append.1 hnodup).2.1).1
  refine ⟨before.foldl State.startNext s, State.awaits_turns before s hb, ?_⟩
  rw [State.started, allLines, hsplit, List.foldl_append, List.foldl_cons]
  exact (State.awaits_turns after _ ha).line

/-! ## All lines -/

theorem State.turns_frame (ls : List LineNo) : ∀ s : State,
    (∀ l, (ls.foldl State.startNext s).dialog l = s.dialog l ∧ (ls.foldl State.startNext s).ctx l = s.ctx l) ∧
    ls.foldl State.startNext s =
      { s with lines := (ls.foldl State.startNext s).lines, channels := (ls.foldl State.startNext s).channels } := by
  induction ls with
  | nil => exact fun s => ⟨fun _ => ⟨rfl, rfl⟩, rfl⟩
  | cons k ls ih =>
    intro s
    have hturn := s.turn_startNext (l := k)
    obtain ⟨hline, hrest⟩ := ih (s.startNext k)
    refine ⟨fun l => ?_, ?_⟩
    · obtain ⟨hd, hx⟩ := hline l
      by_cases hlk : l = k
      · subst hlk
        exact ⟨hd.trans hturn.dialog, hx.trans hturn.ctx⟩
      · exact ⟨hd.trans (congrArg Line.dialog (hturn.others l hlk)), hx.trans (congrArg Line.ctx (hturn.others l hlk))⟩
    · rw [List.foldl_cons]
      generalize List.foldl State.startNext (s.startNext k) ls = t at hrest ⊢
      rw [hrest, hturn.rest]

/-- Where no LIVE port has output to drain, the turns leave the channels. -/
theorem State.turns_channels (ls : List LineNo) : ∀ s : State, ls.Nodup → (∀ l ∈ ls, s.Rests l ∨ (s.unit l).partMsg ≠ []) →
    (ls.foldl State.startNext s).channels = s.channels := by
  induction ls with
  | nil => exact fun _ _ _ => rfl
  | cons k ls ih =>
    intro s hnodup hall
    obtain ⟨hk, hls⟩ := List.nodup_cons.1 hnodup
    have hone : (s.startNext k).channels = s.channels := by
      by_cases hr : s.Rests k
      · rw [hr.startNext]
      · obtain ⟨x, rest, hm⟩ := List.exists_cons_of_ne_nil ((hall k (List.mem_cons_self ..)).resolve_left hr)
        rw [State.startNext_message (State.free_of_not_rests hr) hm, State.channels_startMessage]
    rw [List.foldl_cons, ih _ hls, hone]
    intro l hl
    have haw := s.turn_startNext.awaits fun h : l = k => hk (h ▸ hl)
    have hu : (s.startNext k).unit l = s.unit l := congrArg Line.unit haw.line
    rw [hu]
    exact (hall l (List.mem_cons_of_mem _ hl)).imp_left haw.rests

theorem State.unit_started_rests (h : s.Rests l) : s.started.unit l = s.unit l := by
  obtain ⟨t, ht, hline⟩ := s.line_started l
  rw [State.unit, hline, (ht.rests h).startNext]
  exact congrArg Line.unit ht.line

end

/-- Settles O20: a line is as its own turn leaves it, and the turns of the others do not touch it. -/
theorem partMessagesAreSentOldestFirst : Obligations.PartMessagesAreSentOldestFirst := by
  refine ⟨fun s l hp => exec_on hp rfl rfl, fun s => ⟨fun l h => State.unit_started_rests h, fun l x rest h hm => ?_,
    fun l => (State.turns_frame allLines s).1 l, fun h => ?_, (State.turns_frame allLines s).2⟩⟩
  · obtain ⟨t, ht, hline⟩ := s.line_started l
    have hu : t.unit l = s.unit l := congrArg Line.unit ht.line
    have hframed : t.framed l x = s.framed l x := by rw [State.framed, State.group, ht.store, hu]; rfl
    refine ⟨s.framed l x, State.framed_spec x, ?_⟩
    have hstart : t.startNext l = t.startMessage l x rest := by
      refine State.startNext_message ?_ (by rw [hu]; exact hm)
      rw [hu]
      exact State.free_of_not_rests h
    rw [State.unit, hline, hstart, ← hu, ← hframed]
    exact State.unit_startMessage x rest
  · exact State.turns_channels allLines s (List.nodup_finRange 64) fun l _ => h l

end Sys2Proof.Machine
end

section
/-! The command field, and the commands it spells (R12, R72 to R74). -/

namespace Sys2Proof.Machine

/-! ## Words -/

/-- Nothing but spaces. -/
def blankText (cs : List Code) : Prop := ∀ x ∈ cs, x = 32

/-- Characters of which none is a space. -/
def isWord (w : List Code) : Prop := w ≠ [] ∧ ∀ x ∈ w, x ≠ 32

theorem wordsOf_space (cs : List Code) : wordsOf (32 :: cs) = wordsOf cs := by
  simp [wordsOf, List.splitOn, List.splitOnP_cons_eq_if_modifyHead]

theorem wordsOf_word_space {w : List Code} (h : isWord w) (cs : List Code) : wordsOf (w ++ 32 :: cs) = w :: wordsOf cs := by
  have hw : List.splitOnP (fun x => x == (32 : Code)) (w ++ 32 :: cs) =
      w :: List.splitOnP (fun x => x == (32 : Code)) cs :=
    List.splitOnP_append_cons_of_forall_mem (by simpa using h.2) 32 (by simp) cs
  rw [wordsOf, List.splitOn, hw, List.filter_cons_of_pos (p := fun w => w != []) (bne_iff_ne.2 h.1)]
  rfl

theorem wordsOf_word {w : List Code} (h : isWord w) : wordsOf w = [w] := by
  have hw : List.splitOn (32 : Code) ([(32 : Code)].intercalate [w]) = [w] :=
    List.splitOn_intercalate 32 (by simpa using fun hm => h.2 32 hm rfl) (List.cons_ne_nil _ _)
  simp only [List.intercalate_singleton] at hw
  rw [wordsOf, hw, List.filter_cons_of_pos (p := fun w => w != []) (bne_iff_ne.2 h.1), List.filter_nil]

theorem wordsOf_blank_append {a : List Code} (h : blankText a) (cs : List Code) : wordsOf (a ++ cs) = wordsOf cs := by
  induction a with
  | nil => rfl
  | cons x a ih =>
    rw [h x (List.mem_cons_self ..), List.cons_append, wordsOf_space]
    exact ih fun y hy => h y (List.mem_cons_of_mem _ hy)

theorem wordsOf_blank {b : List Code} (h : blankText b) : wordsOf b = [] := by
  rw [← List.append_nil b, wordsOf_blank_append h]
  rfl

theorem wordsOf_word_blank {w b : List Code} (hw : isWord w) (hb : blankText b) (cs : List Code) (hne : b ≠ []) :
    wordsOf (w ++ (b ++ cs)) = w :: wordsOf cs := by
  cases b with
  | nil => exact absurd rfl hne
  | cons x b =>
    rw [hb x (List.mem_cons_self ..), List.cons_append, wordsOf_word_space hw, wordsOf_blank_append]
    exact fun y hy => hb y (List.mem_cons_of_mem _ hy)

/-- A text is blank, or has a first word, which ends with the text or at a space. -/
theorem exists_first_word (cs : List Code) : blankText cs ∨
    ∃ a w r, cs = a ++ (w ++ r) ∧ blankText a ∧ isWord w ∧ (r = [] ∨ ∃ r', r = 32 :: r') := by
  induction cs with
  | nil => exact .inl fun _ hx => absurd hx (List.not_mem_nil)
  | cons x cs ih =>
    by_cases hx : x = 32
    · subst hx
      rcases ih with hb | ⟨a, w, r, hcs, ha, hw, hr⟩
      · exact .inl (List.forall_mem_cons.2 ⟨rfl, hb⟩)
      · exact .inr ⟨32 :: a, w, r, by rw [hcs]; rfl, List.forall_mem_cons.2 ⟨rfl, ha⟩, hw, hr⟩
    · right
      have hone : isWord [x] := ⟨List.cons_ne_nil _ _, List.forall_mem_singleton.2 hx⟩
      rcases ih with hb | ⟨a, w, r, hcs, ha, hw, hr⟩
      · refine ⟨[], [x], cs, rfl, List.forall_mem_nil _, hone, ?_⟩
        cases cs with
        | nil => exact .inl rfl
        | cons y cs => exact .inr ⟨cs, by rw [hb y (List.mem_cons_self ..)]⟩
      · cases a with
        | nil => exact ⟨[], x :: w, r, by rw [hcs]; rfl, List.forall_mem_nil _,
            ⟨List.cons_ne_nil _ _, List.forall_mem_cons.2 ⟨hx, hw.2⟩⟩, hr⟩
        | cons y a =>
          refine ⟨[], [x], cs, rfl, List.forall_mem_nil _, hone, .inr ⟨a ++ (w ++ r), ?_⟩⟩
          rw [hcs, ha y (List.mem_cons_self ..)]
          rfl

/-- The words of a text are its first one and the words of what follows it. -/
theorem wordsOf_first {a w r : List Code} (ha : blankText a) (hw : isWord w) (hr : r = [] ∨ ∃ r', r = 32 :: r') :
    wordsOf (a ++ (w ++ r)) = w :: wordsOf r := by
  rw [wordsOf_blank_append ha]
  rcases hr with rfl | ⟨r', rfl⟩
  · rw [List.append_nil, wordsOf_word hw]
    rfl
  · rw [wordsOf_word_space hw, wordsOf_space]

theorem wordsOf_eq_nil_iff (cs : List Code) : wordsOf cs = [] ↔ blankText cs := by
  refine ⟨fun h => (exists_first_word cs).resolve_right ?_, wordsOf_blank⟩
  rintro ⟨a, w, r, rfl, ha, hw, hr⟩
  rw [wordsOf_first ha hw hr] at h
  exact List.cons_ne_nil _ _ h

theorem wordsOf_eq_cons_iff (cs w : List Code) (ws : List (List Code)) : wordsOf cs = w :: ws ↔
    ∃ a r, cs = a ++ (w ++ r) ∧ blankText a ∧ isWord w ∧ (r = [] ∨ ∃ r', r = 32 :: r') ∧ wordsOf r = ws := by
  constructor
  · intro h
    rcases exists_first_word cs with hb | ⟨a, v, r, rfl, ha, hv, hr⟩
    · rw [wordsOf_blank hb] at h
      exact absurd h.symm (List.cons_ne_nil _ _)
    · rw [wordsOf_first ha hv hr, List.cons.injEq] at h
      obtain ⟨rfl, rfl⟩ := h
      exact ⟨a, r, rfl, ha, hv, hr, rfl⟩
  · rintro ⟨a, r, rfl, ha, hw, hr, rfl⟩
    exact wordsOf_first ha hw hr

theorem wordsOf_eq_one_iff {w : List Code} (hw : isWord w) (cs : List Code) : wordsOf cs = [w] ↔
    ∃ a b, cs = a ++ w ++ b ∧ blankText a ∧ blankText b := by
  rw [wordsOf_eq_cons_iff]
  constructor
  · rintro ⟨a, b, rfl, ha, -, -, hb⟩
    exact ⟨a, b, (List.append_assoc ..).symm, ha, (wordsOf_eq_nil_iff b).1 hb⟩
  · rintro ⟨a, b, rfl, ha, hb⟩
    refine ⟨a, b, List.append_assoc .., ha, hw, ?_, wordsOf_blank hb⟩
    cases b with
    | nil => exact .inl rfl
    | cons y b => exact .inr ⟨b, by rw [hb y (List.mem_cons_self ..)]⟩

theorem wordsOf_eq_two_iff {w v : List Code} (hw : isWord w) (hv : isWord v) (cs : List Code) : wordsOf cs = [w, v] ↔
    ∃ a m b, cs = a ++ w ++ m ++ v ++ b ∧ blankText a ∧ blankText m ∧ m ≠ [] ∧ blankText b := by
  constructor
  · intro h
    obtain ⟨a, r, rfl, ha, -, hr, hrest⟩ := (wordsOf_eq_cons_iff ..).1 h
    obtain ⟨m, b, rfl, hm, hb⟩ := (wordsOf_eq_one_iff hv r).1 hrest
    refine ⟨a, m, b, by simp only [List.append_assoc], ha, hm, fun hnil => ?_, hb⟩
    subst hnil
    obtain ⟨x, v', rfl⟩ := List.exists_cons_of_ne_nil hv.1
    rcases hr with hr | ⟨r', hr⟩
    · exact absurd hr (List.cons_ne_nil _ _)
    · exact hv.2 x (List.mem_cons_self ..) (List.cons.inj hr).1
  · rintro ⟨a, m, b, rfl, ha, hm, hne, hb⟩
    simp only [List.append_assoc]
    rw [wordsOf_blank_append ha, wordsOf_word_blank hw hm _ hne]
    refine congrArg (w :: ·) ((wordsOf_eq_one_iff hv _).2 ⟨[], b, rfl, List.forall_mem_nil _, hb⟩)

/-! ## Capitals -/

theorem upper_eq (x : Code) : upper x = if 97 ≤ x.toNat ∧ x.toNat ≤ 122 then BitVec.ofNat 7 (x.toNat - 32) else x := by
  unfold upper
  split_ifs with h
  · bv_omega
  · rfl

/-- A space is a space, and no letter becomes one. -/
theorem upper_eq_space (x : Code) : upper x = 32 ↔ x = 32 := by
  unfold upper
  split_ifs with h
  · constructor <;> intro he <;> bv_omega
  · rfl

theorem blankText_map_upper (cs : List Code) : blankText (cs.map upper) ↔ blankText cs := by
  simp only [blankText, List.forall_mem_map, upper_eq_space]

/-! ## How a field reads -/

theorem hostOf_eq_some_iff (h : List Code) (c : ChanNo) : hostOf h = some c ↔ h = [hostLetter c] := by
  match h with
  | [] => simp [hostOf]
  | x :: y :: t => simp [hostOf]
  | [x] =>
    have hletter : (hostLetter c).toNat = 65 + c.val := by
      have := c.isLt
      simp only [hostLetter, charCode, BitVec.toNat_ofNat]
      omega
    rw [List.cons.injEq, and_iff_left rfl, ← BitVec.toNat_inj, hletter]
    simp only [hostOf, chanOf]
    have := c.isLt
    constructor
    · intro hx
      split_ifs at hx with h1 h2
      have := congrArg Fin.val (Option.some.inj hx)
      simp only at this
      omega
    · intro hx
      have h1 : 65 ≤ x.toNat := by omega
      have h2 : x.toNat - 65 < 4 := by omega
      rw [if_pos h1, dif_pos h2]
      exact congrArg some (Fin.ext (by simp only; omega))

/-- The five commands of one word. -/
def oneWordCommands : List (TypedCommand × List Code) :=
  [(.resume, text "RESUME"), (.rotate, text "ROTATE"), (.endSession, text "END"), (.logoff, text "LOGOFF"),
   (.status, text "STATUS")]

theorem readCommand_empty_iff (field : List Code) : readCommand field = .empty ↔ wordsOf (field.map upper) = [] := by
  unfold readCommand
  split
  · simp_all
  · split_ifs <;> simp_all
  · split_ifs
    · split <;> simp_all
    · simp_all
  · simp_all

theorem readCommand_word_iff (field : List Code) : ∀ k ∈ oneWordCommands,
    (readCommand field = k.1 ↔ wordsOf (field.map upper) = [k.2]) := by
  simp only [oneWordCommands, List.forall_mem_cons]
  unfold readCommand
  split
  · simp_all
  next w hw =>
    rw [hw]
    simp only [List.cons.injEq, and_true]
    have hdistinct : (oneWordCommands.map Prod.snd).Nodup := by decide
    simp only [oneWordCommands, List.map_cons, List.map_nil, List.nodup_cons, List.mem_cons, List.not_mem_nil, not_or] at hdistinct
    split_ifs <;> simp_all
  next w h hw =>
    rw [hw]
    split_ifs
    · split <;> simp_all
    · simp_all
  · simp_all

theorem readCommand_connect_iff (field : List Code) (c : ChanNo) :
    readCommand field = .connect c ↔ wordsOf (field.map upper) = [text "CONNECT", [hostLetter c]] := by
  unfold readCommand
  split
  · simp_all
  next w hw =>
    rw [hw]
    split_ifs <;> simp_all
  next w h hw =>
    rw [hw]
    simp only [List.cons.injEq, and_true]
    by_cases hc : w = text "CONNECT"
    · rw [if_pos hc, ← hostOf_eq_some_iff]
      cases hostOf h <;> simp [hc]
    · simp [hc]
  · simp_all

/-- The letters a field may hold for a name. -/
theorem map_upper_eq_one_iff {name : List Code} (hn : isWord name) (field : List Code) :
    wordsOf (field.map upper) = [name] ↔
      ∃ a w b, field = a ++ w ++ b ∧ blankText a ∧ blankText b ∧ w.map upper = name := by
  rw [wordsOf_eq_one_iff hn]
  constructor
  · rintro ⟨a, b, h, ha, hb⟩
    obtain ⟨aw, b, rfl, haw, rfl⟩ := List.map_eq_append_iff.1 h
    obtain ⟨a, w, rfl, rfl, hw⟩ := List.map_eq_append_iff.1 haw
    exact ⟨a, w, b, rfl, (blankText_map_upper a).1 ha, (blankText_map_upper b).1 hb, hw⟩
  · rintro ⟨a, w, b, rfl, ha, hb, rfl⟩
    exact ⟨a.map upper, b.map upper, by simp only [List.map_append], (blankText_map_upper a).2 ha,
      (blankText_map_upper b).2 hb⟩

theorem isWord_hostLetter (c : ChanNo) : isWord [hostLetter c] := by
  refine ⟨List.cons_ne_nil _ _, List.forall_mem_singleton.2 ?_⟩
  revert c
  decide

theorem map_upper_eq_connect_iff (field : List Code) (c : ChanNo) :
    wordsOf (field.map upper) = [text "CONNECT", [hostLetter c]] ↔
      ∃ a w m h b, field = a ++ w ++ m ++ [h] ++ b ∧ blankText a ∧ blankText m ∧ m ≠ [] ∧ blankText b ∧
        w.map upper = text "CONNECT" ∧ upper h = hostLetter c := by
  rw [wordsOf_eq_two_iff ⟨by decide, by decide⟩ (isWord_hostLetter c)]
  constructor
  · rintro ⟨a, m, b, hfield, ha, hm, hne, hb⟩
    obtain ⟨awmh, b, rfl, hawmh, rfl⟩ := List.map_eq_append_iff.1 hfield
    obtain ⟨awm, h, rfl, hawm, hh⟩ := List.map_eq_append_iff.1 hawmh
    obtain ⟨aw, m, rfl, haw, rfl⟩ := List.map_eq_append_iff.1 hawm
    obtain ⟨a, w, rfl, rfl, hw⟩ := List.map_eq_append_iff.1 haw
    obtain ⟨x, rfl, hx⟩ := List.map_eq_singleton_iff.1 hh
    exact ⟨a, w, m, x, b, rfl, (blankText_map_upper a).1 ha, (blankText_map_upper m).1 hm,
      fun h => hne (by rw [h]; rfl), (blankText_map_upper b).1 hb, hw, hx⟩
  · rintro ⟨a, w, m, h, b, rfl, ha, hm, hne, hb, hw, hh⟩
    refine ⟨a.map upper, m.map upper, b.map upper, ?_, (blankText_map_upper a).2 ha, (blankText_map_upper m).2 hm,
      fun h => hne (List.map_eq_nil_iff.1 h), (blankText_map_upper b).2 hb⟩
    simp only [List.map_append, hw, List.map_cons, List.map_nil, hh]

/-! ## A character in the command field -/

section
variable {s : State} {l : LineNo} {x : Code}

theorem State.commandChar_room (hx : 32 ≤ x.toNat ∧ x.toNat ≤ 126) (hf : (s.ctx l).field.length ≤ 31) :
    s.commandChar l x = ((s.modCtx l fun y => { y with idleTimer := true }).modCtx l fun y =>
      { y with field := y.field ++ [x] }).place l [x] := by
  have hroom : (s.ctx l).field.length < Config.commandCap := Nat.lt_succ_of_le hf
  simp only [State.commandChar, if_pos hx, if_pos hroom, State.modCtx_modCtx]
  rfl

theorem State.commandChar_full (hx : 32 ≤ x.toNat ∧ x.toNat ≤ 126) (hf : 32 ≤ (s.ctx l).field.length) :
    s.commandChar l x = (s.modCtx l fun y => { y with idleTimer := true }).place l [7] := by
  have hfull : ¬ (s.ctx l).field.length < Config.commandCap := Nat.not_lt.2 hf
  simp only [State.commandChar, if_pos hx, if_neg hfull, bell]

theorem State.commandChar_rub (hx : x = 8 ∨ x = 127) (hf : (s.ctx l).field ≠ []) :
    s.commandChar l x = ((s.modCtx l fun y => { y with idleTimer := true }).modCtx l fun y =>
      { y with field := y.field.dropLast }).place l [8, 32, 8] := by
  simp only [State.commandChar, if_neg (rubOut_not_text hx), if_pos hx, if_neg hf, State.modCtx_modCtx]
  rfl

theorem State.commandChar_rub_empty (hx : x = 8 ∨ x = 127) (hf : (s.ctx l).field = []) :
    s.commandChar l x = (s.modCtx l fun y => { y with idleTimer := true }).place l [7] := by
  simp only [State.commandChar, if_neg (rubOut_not_text hx), if_pos hx, if_pos hf, bell]

theorem State.commandChar_again : s.commandChar l 21 = ((s.modCtx l fun y => { y with idleTimer := true }).modCtx l
    fun y => { y with field := [] }).place l [13, 10, 62] := rfl

theorem State.commandChar_return : s.commandChar l 13 =
    ((s.modCtx l fun y => { y with idleTimer := true }).emptyField l).runCommand l (readCommand (s.ctx l).field) := rfl

theorem State.commandChar_other (hlow : x.toNat < 32) (h8 : x ≠ 8) (h21 : x ≠ 21) (h13 : x ≠ 13) :
    s.commandChar l x = (s.modCtx l fun y => { y with idleTimer := true }).place l [7] := by
  have htext : ¬ (32 ≤ x.toNat ∧ x.toNat ≤ 126) := fun h => Nat.not_le.2 hlow h.1
  have h127 : x ≠ 127 := fun h => by rw [h] at hlow; exact absurd hlow (by decide)
  have hrub : ¬ (x = 8 ∨ x = 127) := not_or.2 ⟨h8, h127⟩
  simp only [State.commandChar, if_neg htext, if_neg hrub, if_neg h21, if_neg h13, bell]

/-- A typed command is carried out in COMMAND while no line hit is running (R74). -/
theorem State.typed_command (hs : (s.unit l).state = .command) (hh : (s.unit l).lineHit = false) (k : TypedCommand) :
    s.typed l k = (s.emptyField l).runCommand l k := if_pos ⟨hs, hh⟩

/-- During a line hit the carriage return is discarded (R12). -/
theorem State.typed_hit (hh : (s.unit l).lineHit = true) (k : TypedCommand) : s.typed l k = s :=
  if_neg fun h => Bool.noConfusion (hh.symm.trans h.2)

end

/-- Settles O22: row by row; the carriage return by `readCommand`, and that by the words of the field. -/
theorem commandFieldIsTyped : Obligations.CommandFieldIsTyped := by
  refine ⟨fun s l x bit h hs hpar => ?_, fun s l hp hh => ⟨fun x bit stop => ?_, fun c => ?_, fun i hi => ?_⟩,
    fun field => ?_⟩
  · intro t field r
    have hrow : r = .next (s.commandChar l x).started := by
      simp only [r]
      rw [h.receives (.inr (.inl hs)) hpar, State.takeChar, hs]
    have hts : (t.unit l).state = .command := by rw [State.unit_modCtx]; exact hs
    have hth : (t.unit l).lineHit = false := by rw [State.unit_modCtx]; exact h.carrier
    have htp : t.powered = true := (State.modCtx_powered ..).trans h.powered
    refine ⟨fun hx hf => ?_, fun hx hf => ?_, fun hx hf => ?_, fun hx hf => ?_, fun hx => ?_,
      fun hlow h8 h21 h13 => ?_, fun hx => ?_⟩
    · rw [hrow, State.commandChar_room hx hf]
    · rw [hrow, State.commandChar_full hx hf]
    · rw [hrow, State.commandChar_rub hx hf]
    · rw [hrow, State.commandChar_rub_empty hx hf]
    · rw [hrow, hx, State.commandChar_again]
    · rw [hrow, State.commandChar_other hlow h8 h21 h13]
    · have hrun : ∀ k, readCommand field = k → r = .next ((t.emptyField l).runCommand l k).started := fun k hk => by
        rw [hrow, hx, State.commandChar_return, hk]
      have htyped : ∀ i k, exec i t = .next (t.whenOn (t.typed l k)) → readCommand field = k → r = exec i t :=
        fun i k hi hk => by rw [hrun k hk, exec_on htp hi (State.typed_command hts hth k)]
      have hempty : (t.emptyField l).runCommand l .empty = (t.modCtx l fun y => { y with field := [] }).place l [13, 10, 62] :=
        rfl
      have hunknown : (t.emptyField l).runCommand l .unknown =
        (t.modCtx l fun y => { y with field := [] }).answeredLine l [63] := rfl
      exact ⟨fun hk => (hrun _ hk).trans (by rw [hempty]), fun hk => (hrun _ hk).trans (by rw [hunknown]),
        fun c => htyped (.connect l c) (.connect c) rfl, htyped (.resume l) .resume rfl, htyped (.rotate l) .rotate rfl,
        htyped (.endSession l) .endSession rfl, htyped (.logoff l) .logoff rfl, htyped (.status l) .status rfl⟩
  · exact exec_on hp rfl (State.receiveChar_deaf (by simp [LineUnit.listens, hh]) x bit stop)
  · exact exec_on hp rfl (State.typed_hit hh (.connect c))
  · simp only [List.mem_cons, List.not_mem_nil, or_false] at hi
    rcases hi with rfl | rfl | rfl | rfl | rfl
    · exact exec_on hp rfl (State.typed_hit hh .resume)
    · exact exec_on hp rfl (State.typed_hit hh .rotate)
    · exact exec_on hp rfl (State.typed_hit hh .endSession)
    · exact exec_on hp rfl (State.typed_hit hh .logoff)
    · exact exec_on hp rfl (State.typed_hit hh .status)
  · have hcap : upper = fun x => if 97 ≤ x.toNat ∧ x.toNat ≤ 122 then BitVec.ofNat 7 (x.toNat - 32) else x :=
      funext upper_eq
    have hword : ∀ k ∈ oneWordCommands, isWord k.2 → (readCommand field = k.1 ↔
        ∃ a w b, field = a ++ w ++ b ∧ blankText a ∧ blankText b ∧ w.map upper = k.2) := fun k hk hw =>
      (readCommand_word_iff field k hk).trans (map_upper_eq_one_iff hw field)
    rw [hcap] at hword
    refine ⟨?_, hword (.resume, _) (by decide) ⟨by decide, by decide⟩, hword (.rotate, _) (by decide) ⟨by decide, by decide⟩,
      hword (.endSession, _) (by decide) ⟨by decide, by decide⟩, hword (.logoff, _) (by decide) ⟨by decide, by decide⟩,
      hword (.status, _) (by decide) ⟨by decide, by decide⟩, fun c => ?_⟩
    · rw [readCommand_empty_iff, wordsOf_eq_nil_iff, blankText_map_upper]
      rfl
    · have hconnect := (readCommand_connect_iff field c).trans (map_upper_eq_connect_iff field c)
      rw [hcap] at hconnect
      exact hconnect

end Sys2Proof.Machine
end

section
/-! What a connected caller types, and the attention character (R70 to R72, R83, R84). -/

namespace Sys2Proof.Machine

section
variable {s : State} {l : LineNo} {x : Code} {e : Session} {f : Flow}

/-! ## Input of a live session -/

theorem State.hostStopped_eq {c : ChanNo} {p : Nat} (hf : s.flow? c p = some f) : s.hostStopped c p = f.hostStop := by
  simp only [State.hostStopped, hf, Option.map_some, Option.getD_some]

/-- The input buffer of a line is sent in one block (R83). -/
theorem State.sendInput_eq (s : State) (l : LineNo) (c : ChanNo) (p : Nat) (hne : (s.unit l).input ≠ []) :
    s.sendInput l c p = ((s.modUnit l fun u => { u with input := [] }).modCtx l fun y =>
      { y with forwardTimer := false }).modChan c fun ch =>
        { ch with dataOut := ch.dataOut ++ [{ port := p, chars := (s.unit l).input }] } := by
  simp only [State.sendInput, if_neg hne]
  rfl

theorem State.inputChar_full (he : s.liveSession l = some e) (h : 128 ≤ (s.unit l).input.length) :
    s.inputChar l x = s.place l [7] := by
  simp only [State.inputChar, he, if_pos h, bell]

theorem State.inputChar_held (he : s.liveSession l = some e) (hf : s.flow? e.channel e.port = some f)
    (h : (s.unit l).input.length < 128) (hk : f.hostStop = true ∨ (x ≠ 13 ∧ (s.unit l).input.length + 1 < 32)) :
    s.inputChar l x = (s.modUnit l fun u => { u with input := u.input ++ [x] }).modCtx l fun y =>
      { y with forwardTimer := true } := by
  have hno : ¬ ((!s.hostStopped e.channel e.port) = true ∧ (x = 13 ∨ 32 ≤ ((s.unit l).input ++ [x]).length)) := by
    rw [State.hostStopped_eq hf, List.length_append, List.length_singleton]
    rcases hk with hk | hk
    · simp [hk]
    · simp only [hk.1, false_or]
      omega
  simp only [State.inputChar, he, if_neg (Nat.not_le.2 h), State.unit_modCtx, State.unit_modUnit, if_neg hno]

theorem State.inputChar_sent (he : s.liveSession l = some e) (hf : s.flow? e.channel e.port = some f)
    (h : (s.unit l).input.length < 128) (hk : f.hostStop = false) (hx : x = 13 ∨ 32 ≤ (s.unit l).input.length + 1) :
    s.inputChar l x = ((s.modUnit l fun u => { u with input := [] }).modCtx l fun y =>
      { y with forwardTimer := false }).modChan e.channel fun ch =>
        { ch with dataOut := ch.dataOut ++ [{ port := e.port, chars := (s.unit l).input ++ [x] }] } := by
  have hyes : (!s.hostStopped e.channel e.port) = true ∧ (x = 13 ∨ 32 ≤ ((s.unit l).input ++ [x]).length) := by
    rw [State.hostStopped_eq hf, hk, List.length_append, List.length_singleton]
    exact ⟨rfl, hx⟩
  simp only [State.inputChar, he, if_neg (Nat.not_le.2 h), State.unit_modCtx, State.unit_modUnit, if_pos hyes]
  rw [State.sendInput_eq]
  · simp only [State.unit_modCtx, State.unit_modUnit, State.modUnit_modCtx, State.modUnit_modUnit, State.modCtx_modCtx]
  · simp

theorem State.liveSession_modCtx {g : LineContext → LineContext} (hg : (g (s.ctx l)).stack = (s.ctx l).stack) :
    (s.modCtx l g).liveSession l = s.liveSession l := by
  rw [State.liveSession, State.ctx_modCtx, hg]
  rfl

theorem State.connectedChar_plain (ha : (s.ctx l).attention = .none) (hx : x ≠ (s.group l).attention) :
    s.connectedChar l x = s.inputChar l x := by
  simp only [State.connectedChar, ha, if_neg hx]

theorem State.connectedChar_first (ha : (s.ctx l).attention = .none) :
    s.connectedChar l (s.group l).attention =
      s.modCtx l fun y => { y with attention := .pending, attentionTimer := true } := by
  simp only [State.connectedChar, ha, if_true]

theorem State.connectedChar_pair (ha : (s.ctx l).attention = .pending) :
    s.connectedChar l (s.group l).attention =
      (s.modCtx l fun y => { y with attention := .none, attentionTimer := false }).inputChar l (s.group l).attention := by
  simp only [State.connectedChar, ha, if_true]

theorem State.connectedChar_other (ha : (s.ctx l).attention = .pending) (hx : x ≠ (s.group l).attention) :
    s.connectedChar l x =
      ((s.modCtx l fun y => { y with attention := .none, attentionTimer := false }).leaveConnected l).commandChar l x := by
  simp only [State.connectedChar, ha, if_neg hx]

/-- A character of a CONNECTED line that hears (R10). -/
theorem State.Hears.connected (h : s.Hears l) (hs : (s.unit l).state = .connected) {bit : Bool}
    (hpar : (s.group l).parity.accepts x bit) :
    exec (.characterReceived l x bit true) s = .next (s.connectedChar l x).started := by
  rw [h.receives (.inr (.inr (.inr (.inl hs)))) hpar, State.takeChar, hs]

theorem State.forwardExpired_sent (he : s.liveSession l = some e) (hf : s.flow? e.channel e.port = some f)
    (hk : f.hostStop = false) (hne : (s.unit l).input ≠ []) : s.forwardExpired l =
      ((s.modUnit l fun u => { u with input := [] }).modCtx l fun y => { y with forwardTimer := false }).modChan e.channel
        fun ch => { ch with dataOut := ch.dataOut ++ [{ port := e.port, chars := (s.unit l).input }] } := by
  have hu : ((s.modCtx l fun y => { y with forwardTimer := false }).unit l).input ≠ [] := by rwa [State.unit_modCtx]
  simp only [State.forwardExpired, he, State.hostStopped_eq hf, hk, Bool.false_eq_true, if_false]
  rw [State.sendInput_eq _ _ _ _ hu]
  simp only [State.unit_modCtx, State.modUnit_modCtx, State.modCtx_modCtx]

theorem State.forwardExpired_held (he : s.liveSession l = some e) (hf : s.flow? e.channel e.port = some f)
    (hk : f.hostStop = true) : s.forwardExpired l = s.modCtx l fun y => { y with forwardTimer := false } := by
  simp only [State.forwardExpired, he, State.hostStopped_eq hf, hk, if_true]

/-- A break in CONNECTED goes to the computer (R9, R84). -/
theorem exec_breakReceived_of_connected (hp : s.powered = true) (hs : (s.unit l).state = .connected)
    (hh : (s.unit l).lineHit = false) : exec (.breakReceived l) s = .next (s.sendBreak l).started := by
  refine exec_on hp rfl ?_
  simp only [hh, hs, Bool.false_eq_true, if_false]

end

/-- Settles O23: each row is a lemma about `State.inputChar`, the forward timer or the break. -/
theorem typingGoesToTheLivePort : Obligations.TypingGoesToTheLivePort := by
  intro s l e f h hs he hf input sent
  refine ⟨fun x bit hpar t ht => ?_, fun htimer => ⟨fun hk hne => ?_, fun hk => ?_⟩, fun hk => ?_, fun hk => ?_⟩
  · intro r
    have hlive : t.liveSession l = some e ∧ t.flow? e.channel e.port = some f ∧ t.unit l = s.unit l := by
      rcases ht with ⟨-, -, rfl⟩ | ⟨-, -, rfl⟩
      · exact ⟨he, hf, rfl⟩
      · exact ⟨by rw [State.liveSession_modCtx rfl, he], hf, State.unit_modCtx ..⟩
    have hrow : r = .next (t.inputChar l x).started := by
      simp only [r]
      rw [h.connected hs hpar]
      rcases ht with ⟨ha, hx, rfl⟩ | ⟨ha, rfl, rfl⟩
      · rw [State.connectedChar_plain ha hx]
      · rw [State.connectedChar_pair ha]
    obtain ⟨hte, htf, htu⟩ := hlive
    refine ⟨fun hfull => ?_, fun hlen hk => ?_, fun hlen hk hx => ?_⟩
    · rw [hrow, State.inputChar_full hte (by rw [htu]; exact hfull)]
    · rw [hrow, State.inputChar_held hte htf (by rw [htu]; exact hlen) (by rw [htu]; exact hk)]
    · rw [hrow, State.inputChar_sent hte htf (by rw [htu]; exact hlen) hk (by rw [htu]; exact hx), htu]
  · exact exec_on h.powered rfl ((if_pos (by simp [htimer, hs])).trans (State.forwardExpired_sent he hf hk hne))
  · exact exec_on h.powered rfl ((if_pos (by simp [htimer, hs])).trans (State.forwardExpired_held he hf hk))
  · rw [exec_breakReceived_of_connected h.powered hs h.carrier, State.sendBreak, he]
    simp only [State.hostStopped_eq hf, hk, Bool.false_eq_true, if_false]
    rfl
  · rw [exec_breakReceived_of_connected h.powered hs h.carrier, State.sendBreak, he]
    simp only [State.hostStopped_eq hf, hk, if_true]
    rfl

/-! ## From CONNECTED to COMMAND -/

section
variable {s : State} {l : LineNo} {e : Session} {f : Flow}

/-- A session of a stack is HELD from now on (R72). -/
def heldIn (e : Session) (stack : List Session) : List Session :=
  stack.map fun k => if k.channel = e.channel ∧ k.port = e.port then { k with state := .held } else k

/-- The way from CONNECTED to the prompt (R72): what was typed is sent, or dropped with a bell under host stop, and the
session is HELD. -/
theorem State.leaveConnected_eq (hs : (s.unit l).state = .connected) (he : s.liveSession l = some e)
    (hf : s.flow? e.channel e.port = some f) : s.leaveConnected l =
      (((((s.modCtx l fun y => { y with forwardTimer := false, field := [], idleTimer := true, stack := heldIn e y.stack }).modUnit
        l fun u => { u with state := .command, input := [] }).modChan e.channel fun ch => Channel.noted
          { ch with dataOut := ch.dataOut ++
              if (s.unit l).input = [] ∨ f.hostStop = true then [] else [{ port := e.port, chars := (s.unit l).input }] }
          (noticeSession .held e.port (s.circuit e.channel e.port) l)).place l
        (if (s.unit l).input ≠ [] ∧ f.hostStop = true then [7] else [])).place l [13, 10, 62]) := by
  have hcmd : ∀ t : State, (t.unit l).state = .connected →
      t.toCommand l = (t.modUnit l fun u => { u with state := .command }).enterPrompt l := fun t ht => by
    simp only [State.toCommand, ht]
  by_cases hin : (s.unit l).input = []
  · simp only [State.leaveConnected, he, if_pos hin]
    rw [hcmd _ (by simpa [State.queueNotice] using hs)]
    simp only [hin, true_or, if_true, ne_eq, not_true_eq_false, false_and, if_false, List.append_nil, State.enterPrompt,
      State.prompt, State.place, State.queueNotice, State.modUnit_modChan, State.modCtx_modChan, State.modUnit_modCtx,
      State.modCtx_modCtx, State.modUnit_modUnit]
    refine State.modUnit_congr ?_
    simp only [State.unit_modCtx, State.unit_modChan, hin, List.take_nil, List.append_nil]
    rfl
  · by_cases hk : f.hostStop = true
    · simp only [State.leaveConnected, he, if_neg hin, State.hostStopped_eq hf, hk, if_true]
      rw [hcmd _ (by simpa [State.queueNotice, State.place] using hs)]
      simp only [hin, or_true, if_true, ne_eq, not_false_eq_true, and_self, List.append_nil, State.enterPrompt,
        State.prompt, State.place, State.queueNotice, State.modUnit_modChan, State.modCtx_modChan, State.modUnit_modCtx,
        State.modCtx_modCtx, State.modUnit_modUnit]
      rfl
    · rw [Bool.not_eq_true] at hk
      simp only [State.leaveConnected, he, if_neg hin, State.hostStopped_eq hf, hk, Bool.false_eq_true, if_false]
      rw [State.sendInput_eq _ _ _ _ (by rwa [State.unit_modCtx]), hcmd _ (by simpa [State.queueNotice] using hs)]
      simp only [hin, or_false, if_false, ne_eq, not_false_eq_true, and_false, State.unit_modCtx, State.enterPrompt,
        State.prompt, State.place, State.queueNotice, State.modUnit_modChan, State.modCtx_modChan, State.modUnit_modCtx,
        State.modCtx_modCtx, State.modUnit_modUnit, State.modChan_modChan, List.take_nil, List.append_nil]
      rfl

/-- A line that heard in CONNECTED hears in COMMAND. -/
theorem State.leaveConnected_hears (h : s.Hears l) (hs : (s.unit l).state = .connected) (he : s.liveSession l = some e)
    (hf : s.flow? e.channel e.port = some f) : (s.leaveConnected l).Hears l ∧
      ((s.leaveConnected l).unit l).state = .command ∧ (s.leaveConnected l).group l = s.group l := by
  have hu : (s.leaveConnected l).unit l = { s.unit l with
      state := .command, input := [], partMsg := ((s.leaveConnected l).unit l).partMsg } := by
    rw [State.leaveConnected_eq hs he hf]
    simp only [State.place, State.unit_modUnit, State.unit_modChan, State.unit_modCtx]
  rw [State.leaveConnected_eq hs he hf] at hu ⊢
  refine ⟨⟨?_, ?_, ?_, ?_⟩, ?_, rfl⟩
  · exact h.powered
  · rw [hu]; exact h.locked
  · rw [hu]; exact h.carrier
  · rw [hu]; exact h.guard
  · rw [hu]

end

/-- Settles O24: `State.leaveConnected_eq`, from the timer and from another character. -/
theorem attentionLeadsToThePrompt : Obligations.AttentionLeadsToThePrompt := by
  intro s l hp hs
  refine ⟨fun bit h hpar ha => by rw [h.connected hs hpar, State.connectedChar_first ha], fun e f he hf => ?_⟩
  intro input t held led
  generalize hv : s.modCtx l (fun y => { y with attention := .none, attentionTimer := false }) = v
  have hvs : (v.unit l).state = .connected := by rw [← hv, State.unit_modCtx]; exact hs
  have hve : v.liveSession l = some e := by rw [← hv, State.liveSession_modCtx rfl, he]
  have hvf : v.flow? e.channel e.port = some f := by rw [← hv]; exact hf
  have hled : v.leaveConnected l = led := by
    rw [State.leaveConnected_eq hvs hve hvf, ← hv]
    simp only [State.modCtx_modCtx, State.unit_modCtx]
    rfl
  refine ⟨fun ht => ?_, fun x bit h hpar ha hx => ?_⟩
  · exact exec_on hp rfl ((if_pos (by simp [ht, hs])).trans (by rw [hv, hled]))
  · have hvh : v.Hears l := by
      rw [← hv]
      exact ⟨h.powered, by rw [State.unit_modCtx]; exact h.locked, by rw [State.unit_modCtx]; exact h.carrier,
        by rw [State.unit_modCtx]; exact h.guard⟩
    obtain ⟨hlh, hls, hlg⟩ := State.leaveConnected_hears hvh hvs hve hvf
    have hvg : v.group l = s.group l := by rw [← hv]; rfl
    rw [hled] at hlh hls hlg
    have hrow : exec (.characterReceived l x bit true) led = .next (led.commandChar l x).started := by
      rw [hlh.receives (.inr (.inl hls)) (by rw [hlg, hvg]; exact hpar), State.takeChar, hls]
    rw [hrow, h.connected hs hpar, State.connectedChar_other ha hx, hv, hled]

end Sys2Proof.Machine
end

section
/-! CONNECT, RESUME, ROTATE and STATUS (R75, R76, R79, R89 to R91, R95). -/

namespace Sys2Proof.Machine

section
variable {s : State} {l : LineNo} {c : ChanNo} {so : SignOnRecord}

/-! ## The connect checks -/

theorem State.accountActive_iff (slot : Nat) : s.accountActive slot = true ↔
    ∃ r, s.recordAt slot = some r ∧ r.state = .active := by
  unfold State.accountActive
  cases s.recordAt slot <;> simp

/-- Check 2: the account is ACTIVE and has the host (R89). -/
theorem State.hostCheck_iff :
    (s.accountActive so.slot && ((s.recordAt so.slot).any fun r => r.hostSet.getLsbD c.val)) = true ↔
      ∃ r, s.recordAt so.slot = some r ∧ r.state = .active ∧ r.hostSet.getLsbD c.val = true := by
  rw [Bool.and_eq_true, State.accountActive_iff]
  cases s.recordAt so.slot <;> simp

/-- Check 4: the class is not below the channel's (R89). -/
theorem State.classCheck_iff : ¬ so.effClass < ((s.chan c).params.map (·.minClass)).getD 0 ↔
    ∀ a, (s.chan c).params = some a → a.minClass ≤ so.effClass := by
  cases (s.chan c).params <;> simp

/-- Check 5: the budget state is NORMAL or WARNED (R89). -/
theorem State.budgetCheck_iff (slot : Nat) :
    (decide ((s.presenceOf slot).budget = some .normal) || decide ((s.presenceOf slot).budget = some .warned)) = true ↔
      (s.presenceOf slot).budget = some .normal ∨ (s.presenceOf slot).budget = some .warned := by
  rw [Bool.or_eq_true, decide_eq_true_eq, decide_eq_true_eq]

/-- Check 7: there is a rate, or the channel masks UNRATED (R89). -/
theorem State.tariffCheck_iff : ((s.chan c).masks.unrated ||
      ((s.unit l).speed.bind fun v => s.rating.active.rate c v.cls s.rating.period).isSome) = true ↔
    (s.chan c).masks.unrated = true ∨
      ∃ v n, (s.unit l).speed = some v ∧ s.rating.active.rate c v.cls s.rating.period = some n := by
  rw [Bool.or_eq_true, Option.isSome_iff_exists]
  cases (s.unit l).speed <;> simp

theorem bnot_of_not {b : Bool} (h : ¬ b = true) : (!b) = true := by simpa using h

theorem not_bnot_of {b : Bool} (h : b = true) : ¬ (!b) = true := by simpa using h

/-- The first check that fails refuses with its text (R89). -/
theorem State.connectRefusal_refused {cs : List Code} (hso : (s.ctx l).signOn = some so)
    (h : s.ConnectRefused l c so cs) : s.connectRefusal l c = some cs := by
  unfold State.ConnectRefused at h
  simp only [← State.hostCheck_iff, ← State.classCheck_iff, ← State.budgetCheck_iff, ← State.tariffCheck_iff] at h
  simp only [State.connectRefusal, hso, hostText]
  rcases h with ⟨h1, rfl⟩ | ⟨h1, h2, rfl⟩ | ⟨h1, h2, h3, rfl⟩ | ⟨h1, h2, h3, h4, rfl⟩ | ⟨h1, h2, h3, h4, h5, rfl⟩ |
    ⟨h1, h2, h3, h4, h5, h6, rfl⟩ | ⟨h1, h2, h3, h4, h5, h6, h7, rfl⟩
  · rw [if_pos h1]
  · rw [if_neg (not_not.2 h1), if_pos (bnot_of_not h2)]
  · rw [if_neg (not_not.2 h1), if_neg (not_bnot_of h2), if_pos (bnot_of_not h3)]
  · rw [if_neg (not_not.2 h1), if_neg (not_bnot_of h2), if_neg (not_bnot_of h3), if_pos (not_not.1 h4)]
  · rw [if_neg (not_not.2 h1), if_neg (not_bnot_of h2), if_neg (not_bnot_of h3), if_neg h4,
      if_pos (bnot_of_not h5)]
  · rw [if_neg (not_not.2 h1), if_neg (not_bnot_of h2), if_neg (not_bnot_of h3), if_neg h4,
      if_neg (not_bnot_of h5), if_pos (Nat.not_lt.1 h6)]
  · rw [if_neg (not_not.2 h1), if_neg (not_bnot_of h2), if_neg (not_bnot_of h3), if_neg h4,
      if_neg (not_bnot_of h5), if_neg (Nat.not_le.2 h6), if_pos (bnot_of_not h7)]

/-- A line that may connect is not refused (R89). -/
theorem State.MayConnect.accepted (hso : (s.ctx l).signOn = some so) (h : s.MayConnect l c so) :
    s.connectRefusal l c = none := by
  obtain ⟨h1, h2, h3, h4, h5, h6, h7⟩ := h
  rw [← State.hostCheck_iff] at h2
  rw [← State.classCheck_iff] at h4
  rw [← State.budgetCheck_iff] at h5
  rw [← State.tariffCheck_iff] at h7
  simp only [State.connectRefusal, hso]
  rw [if_neg (not_not.2 h1), if_neg (not_bnot_of h2), if_neg (not_bnot_of h3), if_neg h4,
    if_neg (not_bnot_of h5), if_neg (Nat.not_le.2 h6), if_neg (not_bnot_of h7)]

/-- The connect checks do not look at what a line types. -/
theorem State.connectRefusal_modCtx {g : LineContext → LineContext} (h1 : (g (s.ctx l)).signOn = (s.ctx l).signOn)
    (h2 : (g (s.ctx l)).stack = (s.ctx l).stack) : (s.modCtx l g).connectRefusal l c = s.connectRefusal l c := by
  unfold State.connectRefusal
  simp only [State.ctx_modCtx, h1, h2, State.unit_modCtx, State.chan_modCtx]
  rfl

/-! ## The way to a channel -/

/-- The lowest-numbered FREE port (R90). -/
theorem State.freePort_lowest {p : Nat} {x : Port} (hx : s.port? c p = some x) (hf : x.state = .free)
    (hlow : ∀ q y, q < p → s.port? c q = some y → y.state ≠ .free) : s.freePort? c = some p := by
  rw [State.freePort?, State.portsIn, List.head?_filter, List.find?_range_eq_some]
  refine ⟨by simp [hx, hf], List.mem_range.2 (State.port_lt hx), fun q hq => ?_⟩
  cases hy : s.port? c q with
  | none => rfl
  | some y => simpa using hlow q y hq hy

theorem State.freePort_none (h : ∀ p x, s.port? c p = some x → x.state ≠ .free) : s.freePort? c = none := by
  rw [State.freePort?, State.portsIn_nil h]
  rfl

/-- The place of a line in a queue that stands in the order of R91. -/
theorem insertWait_split {w : WaitEntry} {a b : List WaitEntry} (ha : ∀ k ∈ a, w.effClass ≤ k.effClass)
    (hb : ∀ k, b.head? = some k → k.effClass < w.effClass) :
    insertWait w (a ++ b) = a ++ [w] ++ b ∧ (a ++ b).takeWhile (fun x => w.effClass ≤ x.effClass) = a := by
  have hta : ∀ x ∈ a, decide (w.effClass ≤ x.effClass) = true := fun x hx => decide_eq_true (ha x hx)
  have hb' : b.takeWhile (fun x => decide (w.effClass ≤ x.effClass)) = [] ∧
      b.dropWhile (fun x => decide (w.effClass ≤ x.effClass)) = b := by
    cases b with
    | nil => exact ⟨rfl, rfl⟩
    | cons y b =>
      have hy : ¬ decide (w.effClass ≤ y.effClass) = true := by simpa using hb y rfl
      exact ⟨List.takeWhile_cons_of_neg hy, List.dropWhile_cons_of_neg hy⟩
  have htake : (a ++ b).takeWhile (fun x => decide (w.effClass ≤ x.effClass)) = a := by
    rw [List.takeWhile_append_of_pos hta, hb'.1, List.append_nil]
  refine ⟨?_, htake⟩
  rw [insertWait, htake, List.dropWhile_append_of_pos hta, hb'.2]

theorem State.wayTo_port {p : Nat} (hso : (s.ctx l).signOn = some so) (hp : s.freePort? c = some p) :
    s.wayTo l c = s.openPort c p l so.slot so.effClass := by
  simp only [State.wayTo, hso, hp]

theorem State.wayTo_queue {a b : List WaitEntry} (hso : (s.ctx l).signOn = some so) (hp : s.freePort? c = none)
    (hs : (s.unit l).state = .waiting) (hq : (s.chan c).queue = a ++ b) (ha : ∀ k ∈ a, so.effClass ≤ k.effClass)
    (hb : ∀ k, b.head? = some k → k.effClass < so.effClass) : s.wayTo l c =
      (s.modChan c fun ch => { ch with queue := a ++ [{ line := l, slot := so.slot, effClass := so.effClass }] ++ b }).place
        l ([13, 10] ++ (text "WAITING FOR HOST " ++ [hostLetter c] ++ text ", POSITION " ++ decimal (a.length + 1))) := by
  obtain ⟨hins, htake⟩ := insertWait_split (w := { line := l, slot := so.slot, effClass := so.effClass }) ha hb
  simp only [State.wayTo, hso, hp, hq, hins, htake, State.showText, State.unit_modChan, hs]
  rfl

theorem State.openPort_eq {p : Nat} {x : Port} (hx : s.port? c p = some x) (slot cls : Nat) : s.openPort c p l slot cls =
    (s.modPort c p fun z =>
      { z with state := .opening, line := some l, slot := some slot, cause := none, timer := true }).modChan c fun ch =>
        ch.noted { kind := .circuitRequest, line := some l,
                   body := bytesBE 1 p ++ bytesBE 2 x.circuit ++ bytesBE 1 l.val ++ bytesBE 2 (s.accountOf slot) ++
                     bytesBE 1 cls ++ speedByte (s.unit l).speed } := by
  simp only [State.openPort, State.circuit, hx, Option.map_some, Option.getD_some]
  rfl

/-- A typed command of a line in COMMAND (R74). -/
theorem exec_typed {i : Instr} {k : TypedCommand} {t : State} (hp : s.powered = true) (hs : (s.unit l).state = .command)
    (hh : (s.unit l).lineHit = false) (hi : exec i s = .next (s.whenOn (s.typed l k)))
    (ht : (s.emptyField l).runCommand l k = t) : exec i s = .next t.started :=
  exec_on hp hi ((State.typed_command hs hh k).trans ht)

/-- The line enters WAITING from COMMAND (R13, R72). -/
theorem State.toWaiting_command (hs : (s.unit l).state = .command) : (s.emptyField l).toWaiting l =
    (s.modUnit l fun u => { u with state := .waiting }).modCtx l fun y => { y with field := [], idleTimer := false } := by
  have hcmd : ((s.emptyField l).unit l).state = .command := by rw [State.emptyField, State.unit_modCtx]; exact hs
  rw [State.toWaiting, if_pos hcmd, State.leavePrompt, State.emptyField]
  simp only [State.modUnit_modCtx, State.modCtx_modCtx]

end

/-- Settles O25: the checks, then a FREE port or the queue. -/
theorem connectChecksThenOpensOrWaits : Obligations.ConnectChecksThenOpensOrWaits := by
  intro s l c so hp hs hh hso t
  have hchecks : (s.emptyField l).connectRefusal l c = s.connectRefusal l c := State.connectRefusal_modCtx rfl rfl
  refine ⟨fun cs hr => exec_typed (k := .connect c) hp hs hh rfl ?refused, fun hm => ?accepted⟩
  case refused =>
    rw [State.runCommand, State.runConnect, hchecks, State.connectRefusal_refused hso hr]
    rfl
  case accepted =>
    intro w
    have hrun : (s.emptyField l).runCommand l (.connect c) = w.wayTo l c := by
      rw [State.runCommand, State.runConnect, hchecks, hm.accepted hso]
      exact congrArg (fun v : State => v.wayTo l c) (State.toWaiting_command hs)
    have hwso : (w.ctx l).signOn = some so := by
      simp only [w, State.ctx_modCtx, State.ctx_modUnit]
      exact hso
    have hwport : ∀ q, w.port? c q = s.port? c q := fun _ => rfl
    have hwspeed : (w.unit l).speed = (s.unit l).speed := by
      simp only [w, State.unit_modCtx, State.unit_modUnit]
    refine ⟨fun p x hx hf hlow => exec_typed (k := .connect c) hp hs hh rfl ?_,
      fun hbusy a b hq ha hb => exec_typed (k := .connect c) hp hs hh rfl ?_⟩
    · rw [hrun, State.wayTo_port hwso (State.freePort_lowest (s := w) hx hf hlow), State.openPort_eq (s := w) hx, hwspeed]
      rfl
    · refine hrun.trans (State.wayTo_queue hwso (State.freePort_none (s := w) hbusy) ?_ hq ha hb)
      simp only [w, State.unit_modCtx, State.unit_modUnit]

/-! ## RESUME and ROTATE -/

section
variable {s : State} {l : LineNo}

/-- The session at the top of a stack becomes LIVE (R76). -/
theorem State.makeTopLive_eq {st : List Session} {e : Session} (hs : (s.unit l).state = .command)
    (hst : (s.ctx l).stack = st ++ [e]) : s.makeTopLive l =
      ((s.modCtx l fun y => { y with field := [], idleTimer := false, stack := st ++ [{ e with state := .live }] }).modUnit l
        fun u => { u with state := .connected }).modChan e.channel fun ch => ch.noted
          { kind := .resumed, line := some l,
            body := bytesBE 1 e.port ++ bytesBE 2 (s.circuit e.channel e.port) ++ bytesBE 1 l.val } := by
  have htop : s.liveSession l = some e := by rw [State.liveSession, hst, List.getLast?_concat]
  have hconn : ∀ t : State, (t.unit l).state = .command →
      t.toConnected l = (t.modUnit l fun u => { u with state := .connected }).leavePrompt l := fun t ht => by
    simp only [State.toConnected, ht]
  simp only [State.makeTopLive, htop]
  rw [hconn _ (by rw [State.queueNotice, State.unit_modChan, State.unit_modCtx]; exact hs)]
  have hctx : ∀ g : LineContext → LineContext, g (s.ctx l) =
      { s.ctx l with field := [], idleTimer := false, stack := st ++ [{ e with state := .live }] } →
      s.modCtx l g = s.modCtx l fun y =>
        { y with field := [], idleTimer := false, stack := st ++ [{ e with state := .live }] } := fun g hg => by
    rw [State.modCtx, hg]
    rfl
  simp only [State.queueNotice, State.leavePrompt, State.modUnit_modChan, State.modCtx_modChan, State.modUnit_modCtx,
    State.modCtx_modCtx, noticeSession]
  rw [← State.modCtx_modChan, hctx]
  · rfl
  · simp only [hst, List.dropLast_concat]

end

/-- Settles O26: the number of sessions decides, and `State.makeTopLive_eq` gives the terminal. -/
theorem resumeAndRotateGiveTheTerminal : Obligations.ResumeAndRotateGiveTheTerminal := by
  intro s l hp hs hh live noSession
  have hes : ((s.emptyField l).unit l).state = .command := by rw [State.emptyField, State.unit_modCtx]; exact hs
  have hstack : ((s.emptyField l).ctx l).stack = (s.ctx l).stack := by rw [State.emptyField, State.ctx_modCtx]
  refine ⟨fun hnil => exec_typed (k := .resume) hp hs hh rfl ?_, fun st e hst => exec_typed (k := .resume) hp hs hh rfl ?_,
    fun hfew => exec_typed (k := .rotate) hp hs hh rfl ?_, fun st y z hst => exec_typed (k := .rotate) hp hs hh rfl ?_⟩
  · rw [State.runCommand, State.runResume, if_pos (by rw [hstack, hnil])]
    rfl
  · rw [State.runCommand, State.runResume, if_neg (by rw [hstack, hst]; simp), State.makeTopLive_eq hes (hstack.trans hst),
      State.emptyField]
    simp only [State.modCtx_modCtx]
    rfl
  · rw [State.runCommand, State.runRotate, if_pos (by rw [hstack]; exact hfew)]
    rfl
  · have hlen : ¬ ((s.emptyField l).ctx l).stack.length < 2 := by
      rw [hstack, hst]
      simp
    have hrot : rotateStack (st ++ [y, z]) = (z :: st) ++ [y] := by
      have hsplit : st ++ [y, z] = (st ++ [y]) ++ [z] := by simp
      rw [hsplit, rotateStack, List.getLast?_concat, List.dropLast_concat]
      rfl
    rw [State.runCommand, State.runRotate, if_neg hlen, State.makeTopLive_eq (st := z :: st) (e := y)]
    · rw [State.emptyField]
      simp only [State.modCtx_modCtx]
      rfl
    · rw [State.unit_modCtx]
      exact hes
    · rw [State.ctx_modCtx]
      simp only [hstack, hst, hrot]

/-! ## STATUS -/

/-- Lines of text placed one after another. -/
theorem State.foldl_placeLine (l : LineNo) (es : List Session) (f : Session → List Code) : ∀ s : State,
    (∀ t : State, t.channels = s.channels → t.rating = s.rating → ∀ e ∈ es, t.sessionText e = f e) →
    es.foldl (fun t e => t.placeLine l (t.sessionText e)) s =
      (es.map f).foldl (fun t cs => t.place l ([13, 10] ++ cs)) s := by
  induction es with
  | nil => exact fun _ _ => rfl
  | cons e es ih =>
    intro s h
    have hpl : s.placeLine l (f e) = s.place l ([13, 10] ++ f e) := rfl
    rw [List.foldl_cons, List.map_cons, List.foldl_cons, h s rfl rfl e (List.mem_cons_self ..), hpl]
    exact ih _ fun t hc hr k hk => h t hc hr k (List.mem_cons_of_mem _ hk)

/-- Placing lines of text changes the line unit only. -/
theorem State.foldl_place_frame (l : LineNo) (ts : List (List Code)) : ∀ s : State,
    let t := ts.foldl (fun t cs => t.place l ([13, 10] ++ cs)) s
    t.ctx l = s.ctx l ∧ t = { s with lines := t.lines } := by
  induction ts with
  | nil => exact fun _ => ⟨rfl, rfl⟩
  | cons cs ts ih =>
    intro s
    obtain ⟨hctx, hrest⟩ := ih (s.place l ([13, 10] ++ cs))
    exact ⟨hctx.trans (State.ctx_modUnit ..), hrest⟩

/-- What STATUS and LOGOFF say of the account's use reads no line (R78, R79). -/
theorem State.usedText_lines (s : State) (v : Vector Line 64) (slot : Nat) :
    ({ s with lines := v } : State).usedText slot = s.usedText slot := rfl

/-- Settles O27: the lines of text in their order, and the prompt. -/
theorem statusReportsSessionsAndUse : Obligations.StatusReportsSessionsAndUse := by
  intro s l so hp hs hh hso session used lines
  refine exec_typed (k := .status) hp hs hh rfl ?_
  generalize hv : s.emptyField l = v
  have hstack : (v.ctx l).stack = (s.ctx l).stack := by rw [← hv, State.emptyField, State.ctx_modCtx]
  have hsign : (v.ctx l).signOn = some so := by rw [← hv, State.emptyField, State.ctx_modCtx]; exact hso
  have hused : v.usedText so.slot = used := by
    rw [← hv]
    simp only [used]
    show s.usedText so.slot = _
    unfold State.usedText
    cases s.budget so.slot <;> rfl
  have hsessions : (if (v.ctx l).stack = [] then v.placeLine l (text "NO SESSION")
      else (v.ctx l).stack.reverse.foldl (fun t e => t.placeLine l (t.sessionText e)) v) =
      (if (s.ctx l).stack = [] then [text "NO SESSION"] else (s.ctx l).stack.reverse.map session).foldl
        (fun t cs => t.place l ([13, 10] ++ cs)) v := by
    rw [hstack]
    split_ifs
    · rfl
    · refine State.foldl_placeLine l _ session v fun t hc hr e _ => ?_
      have hm : t.meter? e.channel e.port = s.meter? e.channel e.port := by
        rw [State.meter?, hr, ← hv]
        rfl
      have hn : t.chan e.channel = s.chan e.channel := State.chan_of_channels (hc.trans (by rw [← hv]; rfl)) _
      simp only [State.sessionText, hm, hn, session]
      rfl
  rw [State.runCommand, State.runStatus, hsessions]
  generalize hw : (if (s.ctx l).stack = [] then [text "NO SESSION"] else (s.ctx l).stack.reverse.map session) = ts
  obtain ⟨hctx, hrest⟩ := State.foldl_place_frame l ts v
  have hlines : lines = ts ++ [used] := by simp only [lines, hw]
  rw [hlines, List.foldl_append, show s.modCtx l (fun y => { y with field := [] }) = v from hv]
  generalize List.foldl (fun t cs => State.place t l ([13, 10] ++ cs)) v ts = u at hctx hrest ⊢
  have huse : u.usedText so.slot = used := by rw [hrest, State.usedText_lines, hused]
  simp only [hctx, hsign, huse]
  rfl

end Sys2Proof.Machine
end

section
/-! The port orders, grants, and how a wait ends (R88, R92 to R97, R99, R100, R102, R117, R118). -/

namespace Sys2Proof.Machine

/-! ## Reading and changing a port -/

section
variable {s : State} {c : ChanNo} {p : Nat} {x : Port} {l : LineNo}

theorem State.modPort_congr {g k : Port → Port} (hx : s.port? c p = some x) (h : g x = k x) :
    s.modPort c p g = s.modPort c p k := by
  rw [State.modPort_some hx, State.modPort_some hx, h]

theorem State.modPort_self {g : Port → Port} (hx : s.port? c p = some x) (h : g x = x) : s.modPort c p g = s := by
  rw [State.modPort_some hx, h]
  refine State.modChan_self ?_
  have hlt := State.port_lt hx
  have he : (s.chan c).ports[p] = x := by
    rw [State.port?, List.getElem?_eq_getElem hlt] at hx
    exact Option.some.inj hx
  rw [← he, List.set_getElem_self]

theorem State.port_freed (hx : s.port? c p = some x) : (s.freed c p).port? c p = some { circuit := x.circuit } :=
  State.port_modPort hx _

theorem State.chan_modPort_ne {d : ChanNo} (h : d ≠ c) (g : Port → Port) : (s.modPort c p g).chan d = s.chan d := by
  unfold State.modPort
  split
  · exact State.chan_modChan_ne _ _ h
  · rfl

/-- A line that returns to COMMAND changes nothing but the lines. -/
theorem State.returned_frame (s : State) (l : LineNo) (cs : List Code) :
    s.returned l cs = { s with lines := (s.returned l cs).lines } := rfl

theorem State.chan_returned (s : State) (l : LineNo) (cs : List Code) (d : ChanNo) :
    (s.returned l cs).chan d = s.chan d := State.chan_of_channels (by rw [State.returned_frame]) d

theorem State.port_returned (s : State) (l : LineNo) (cs : List Code) (d : ChanNo) (q : Nat) :
    (s.returned l cs).port? d q = s.port? d q := State.port_of_ports (by rw [State.chan_returned])

theorem State.modChan_returned (s : State) (l : LineNo) (cs : List Code) (g : Channel → Channel) :
    (s.returned l cs).modChan c g = (s.modChan c g).returned l cs := by
  simp only [State.returned, State.place, State.modUnit_modChan, State.modCtx_modChan]

theorem State.speed_returned (s : State) (l k : LineNo) (cs : List Code) :
    ((s.returned l cs).unit k).speed = (s.unit k).speed := by
  by_cases h : k = l
  · subst h
    simp [State.returned, State.place]
  · rw [State.unit, State.line_returned_ne _ _ h]
    rfl

theorem State.showText_channels (s : State) (l : LineNo) (cs : List Code) : (s.showText l cs).channels = s.channels := by
  unfold State.showText
  repeat' split
  all_goals rfl

theorem State.toCommand_channels (s : State) (l : LineNo) : (s.toCommand l).channels = s.channels := by
  unfold State.toCommand
  split <;> rfl

theorem State.returnToCommand_channels (s : State) (l : LineNo) (cs : List Code) :
    (s.returnToCommand l cs).channels = s.channels :=
  (State.toCommand_channels _ l).trans (State.showText_channels s l cs)

end

/-! ## The port orders -/

section
variable {s : State} {c : ChanNo} {f : OrderFrame} {p : Byte} {x : Port}

theorem exec_accept (ha : s.Attends c) (hf : f.fits 1) : exec (.accept c f) s =
    .next ((s.inExecution c 5 f).orderAccept c (orderOf 5 f)).started :=
  congrArg Host.Outcome.next (ha.run_port hf (Or.inl rfl))

theorem exec_refuse (ha : s.Attends c) (hf : f.fits 1) : exec (.refuse c f) s =
    .next ((s.inExecution c 6 f).orderRefuse c (orderOf 6 f)).started :=
  congrArg Host.Outcome.next (ha.run_port hf (Or.inr (Or.inl rfl)))

theorem exec_closePort (ha : s.Attends c) (hf : f.fits 1) : exec (.closePort c f) s =
    .next ((s.inExecution c 7 f).orderClosePort c (orderOf 7 f)).started :=
  congrArg Host.Outcome.next (ha.run_port hf (Or.inr (Or.inr (Or.inl rfl))))

theorem exec_closeAck (ha : s.Attends c) (hf : f.fits 1) : exec (.closeAck c f) s =
    .next ((s.inExecution c 8 f).orderCloseAck c (orderOf 8 f)).started :=
  congrArg Host.Outcome.next (ha.run_port hf (Or.inr (Or.inr (Or.inr rfl))))

/-- A port order whose port gives `t` answers `t`. -/
theorem State.withPort_at {code : Byte} {act : Nat → Port → State} (hf : f.fits 1) (hb : f.body = [p])
    (hx : s.port? c p.toNat = some x) :
    (s.inExecution c code f).withPort c (orderOf code f) act = act p.toNat x := by
  rw [State.withPort_inExecution hf hb, hx]

theorem State.withPort_bad {code : Byte} {act : Nat → Port → State} (hf : f.fits 1) (hb : f.body = [p])
    (hx : s.port? c p.toNat = none) :
    (s.inExecution c code f).withPort c (orderOf code f) act = (s.inExecution c code f).replied c f .badValue [] := by
  rw [State.withPort_inExecution hf hb, hx]

end

/-- Settles O29: the rows of the port orders in which nothing is changed. -/
theorem portOrdersThatFindNoCircuit : Obligations.PortOrdersThatFindNoCircuit := by
  intro s c f p ha hf hb answered
  have accept {t : State} (h : (s.inExecution c 5 f).orderAccept c (orderOf 5 f) = t) :
      exec (.accept c f) s = .next t.started := by rw [exec_accept ha hf, h]
  have refuse {t : State} (h : (s.inExecution c 6 f).orderRefuse c (orderOf 6 f) = t) :
      exec (.refuse c f) s = .next t.started := by rw [exec_refuse ha hf, h]
  have closePort {t : State} (h : (s.inExecution c 7 f).orderClosePort c (orderOf 7 f) = t) :
      exec (.closePort c f) s = .next t.started := by rw [exec_closePort ha hf, h]
  have closeAck {t : State} (h : (s.inExecution c 8 f).orderCloseAck c (orderOf 8 f) = t) :
      exec (.closeAck c f) s = .next t.started := by rw [exec_closeAck ha hf, h]
  refine ⟨fun h => ⟨accept ?_, refuse ?_, closePort ?_, closeAck ?_⟩, fun x hx =>
    ⟨fun h => ⟨accept ?_, refuse ?_, closePort ?_, closeAck ?_⟩, fun h => ⟨accept ?_, refuse ?_⟩,
      fun h => ⟨accept ?_, refuse ?_, closeAck ?_⟩, fun h => ⟨closePort ?_, closeAck ?_⟩⟩⟩
  iterate 4 exact State.withPort_bad hf hb h
  all_goals
    refine (State.withPort_at hf hb hx).trans ?_
    simp only [h, State.answer_inExecution]

/-! ## ACCEPT -/

section
variable {s : State} {c : ChanNo} {p : Nat}

/-- A billing exception raised on a channel in UP or QUIESCING (R123, R124). -/
theorem State.raiseException_live (h : (s.chan c).state = .up ∨ (s.chan c).state = .quiescing) (k : ExceptionKind)
    (account : Nat) (port : Option Nat) : s.raiseException c k account port =
      s.modChan c fun ch => ch.raised k account port s.rating.calendar := by
  have hraise : s.raiseException c k account port =
      if (s.chan c).masks.has k then s.modChan c fun ch => { ch with sticky := ch.sticky.add k }
      else s.postFault c { kind := k, account := account, port := port, time := s.rating.calendar } := by
    unfold State.raiseException
    rcases h with h | h <;> rw [h]
  have hpost : s.postFault c { kind := k, account := account, port := port, time := s.rating.calendar } =
      s.modChan c fun ch =>
        let posted := { ch with
          faultPending := true,
          faults := if ch.faults.length < 8 then
              ch.faults ++ [{ kind := k, account := account, port := port, time := s.rating.calendar }] else ch.faults,
          moreFaults := ch.moreFaults || decide (8 ≤ ch.faults.length) }
        if ch.faultPending then posted else posted.noted { kind := .billingFault, line := none, body := [] } := by
    unfold State.postFault State.queueNotice
    by_cases hp : (s.chan c).faultPending = true
    · rw [if_pos hp]
      refine State.modChan_congr ?_
      by_cases hl : (s.chan c).faults.length < 8
      · simp only [Config.faultCap, hl, hp, if_true, Nat.not_le.2 hl, decide_false, Bool.or_false]
      · simp only [Config.faultCap, hl, hp, if_true, if_false, Nat.not_lt.1 hl, decide_true, Bool.or_true]
    · rw [if_neg hp, State.modChan_modChan, State.modChan_modChan]
      refine State.modChan_congr ?_
      by_cases hl : (s.chan c).faults.length < 8
      · simp only [Config.faultCap, hl, hp, if_true, Nat.not_le.2 hl, decide_false, Bool.or_false]
        rfl
      · simp only [Config.faultCap, hl, hp, if_false, Nat.not_lt.1 hl, decide_true, Bool.or_true]
        rfl
  rw [hraise, hpost]
  split
  · next hm => cases k <;> exact State.modChan_congr (if_pos hm).symm
  · next hm => cases k <;> exact State.modChan_congr (if_neg hm).symm

/-- A billing exception leaves the order queue and the flag of the spell (R123, R124). -/
theorem Channel.raised_frame (ch : Channel) (k : ExceptionKind) (account : Nat) (port : Option Nat) (now : Calendar) :
    (ch.raised k account port now).orders = ch.orders ∧
      (ch.raised k account port now).fallbackRaised = ch.fallbackRaised := by
  simp only [Channel.raised, Channel.noted]
  cases k <;> (repeat' split) <;> exact ⟨rfl, rfl⟩

/-! ### The meter of the circuit -/

theorem find_insertMeter {m : Meter} {ms : List Meter} (h : ∀ x ∈ ms, ¬ (x.channel = m.channel ∧ x.port = m.port)) :
    (insertMeter m ms).find? (fun x => x.channel = m.channel ∧ x.port = m.port) = some m := by
  induction ms with
  | nil => simp [insertMeter]
  | cons x t ih =>
    unfold insertMeter
    split
    · simp
    · rw [List.find?_cons_of_neg (by simpa using h x List.mem_cons_self)]
      exact ih fun y hy => h y (List.mem_cons_of_mem x hy)

theorem map_insertMeter {m : Meter} {ms : List Meter} {g : Meter → Meter}
    (hg : (g m).channel = m.channel ∧ (g m).port = m.port)
    (h : ∀ x ∈ ms, ¬ (x.channel = m.channel ∧ x.port = m.port)) :
    (insertMeter m ms).map (fun x => if x.channel = m.channel ∧ x.port = m.port then g x else x) =
      insertMeter (g m) ms := by
  have hrest : ∀ t : List Meter, (∀ x ∈ t, ¬ (x.channel = m.channel ∧ x.port = m.port)) →
      t.map (fun x => if x.channel = m.channel ∧ x.port = m.port then g x else x) = t := fun t ht =>
    (List.map_congr_left fun x hx => if_neg (ht x hx)).trans (List.map_id t)
  induction ms with
  | nil => simp [insertMeter]
  | cons x t ih =>
    have ht : ∀ y ∈ t, ¬ (y.channel = m.channel ∧ y.port = m.port) := fun y hy => h y (List.mem_cons_of_mem x hy)
    have hx := h x List.mem_cons_self
    unfold insertMeter
    rw [hg.1, hg.2]
    split
    · rw [List.map_cons, List.map_cons, if_pos ⟨rfl, rfl⟩, if_neg hx, hrest t ht]
    · rw [List.map_cons, if_neg hx, ih ht]

/-- The meter of a circuit with its first segment (R117, R118). -/
def State.openedMeter (s : State) (c : ChanNo) (p : Nat) (l : LineNo) (slot : Nat) (k : SpeedClass) (cls : Nat) : Meter :=
  { channel := c, port := p, line := l, slot := slot, speedClass := k, effClass := cls, period := s.rating.period,
    rate := (s.rating.active.rate c k s.rating.period).getD 0, percent := s.rating.active.classPercent cls,
    estimated := s.rating.clock = .fallback }

/-- A meter opens with its first segment (R117, R118). In FALLBACK its channel has raised ESTIMATED before (R107). -/
theorem State.openMeter_eq {l : LineNo} {slot : Nat} {k : SpeedClass} {cls : Nat} (hm : s.meter? c p = none)
    (hlive : (s.chan c).state = .up ∨ (s.chan c).state = .quiescing)
    (hclock : s.rating.clock = .reference ∨ (s.chan c).fallbackRaised = true) :
    s.openMeter c p l slot k cls =
      (s.modRating fun r => { r with meters := insertMeter (s.openedMeter c p l slot k cls) r.meters }).modChan c fun ch =>
        if s.rating.active.rate c k s.rating.period = none then
          ch.raised .unrated (s.accountOf slot) (some p) s.rating.calendar
        else ch := by
  have hnone : ∀ x ∈ s.rating.meters, ¬ (x.channel = c ∧ x.port = p) := by
    simpa [State.meter?, List.find?_eq_none] using hm
  let m : Meter := { channel := c, port := p, line := l, slot := slot, speedClass := k, effClass := cls,
                     estimated := s.rating.clock = .fallback }
  let g : Meter → Meter := fun x =>
    { x with period := s.rating.period, rate := (s.rating.active.rate c k s.rating.period).getD 0,
             percent := s.rating.active.classPercent x.effClass }
  have hfind : (s.modRating fun r => { r with meters := insertMeter m r.meters }).meter? c p = some m :=
    find_insertMeter (m := m) hnone
  have hmod : (s.modRating fun r => { r with meters := insertMeter m r.meters }).modMeter c p g =
      s.modRating fun r => { r with meters := insertMeter (s.openedMeter c p l slot k cls) r.meters } := by
    have hmap := map_insertMeter (m := m) (g := g) ⟨rfl, rfl⟩ hnone
    simp only [State.modMeter, State.modRating]
    exact congrArg (fun ms => { s with rating := { s.rating with meters := ms } }) hmap
  have hseg : (s.modRating fun r => { r with meters := insertMeter m r.meters }).loadSegment c p =
      (s.modRating fun r => { r with meters := insertMeter (s.openedMeter c p l slot k cls) r.meters }).modChan c fun ch =>
        if s.rating.active.rate c k s.rating.period = none then
          ch.raised .unrated (s.accountOf slot) (some p) s.rating.calendar
        else ch := by
    unfold State.loadSegment
    rw [hfind]
    refine Eq.trans (congrArg (fun t : State => if s.rating.active.rate c k s.rating.period = none then
      t.raiseException c .unrated (t.accountOf slot) (some p) else t) hmod) ?_
    split
    · exact State.raiseException_live (s := s.modRating _) hlive _ _ _
    · exact (State.modChan_id _ c).symm
  have hopen : s.openMeter c p l slot k cls =
      if s.rating.clock = .fallback then
        ((s.modRating fun r => { r with meters := insertMeter m r.meters }).loadSegment c p).raiseEstimated c slot p
      else (s.modRating fun r => { r with meters := insertMeter m r.meters }).loadSegment c p := rfl
  rw [hopen, hseg]
  split
  · next hfb =>
    refine if_pos ?_
    rw [State.chan_modChan_self]
    have hraised : (s.chan c).fallbackRaised = true := by
      rcases hclock with h | h
      · rw [h] at hfb; cases hfb
      · exact h
    split
    · exact (Channel.raised_frame _ _ _ _ _).2.trans hraised
    · exact hraised
  · rfl

/-- The circuit of an OPENING port whose line waits is completed (R96). -/
theorem State.bindPort_eq {x : Port} {l : LineNo} {slot : Nat} {so : SignOnRecord} {v : Speed}
    (hlive : (s.chan c).state = .up ∨ (s.chan c).state = .quiescing) (hx : s.port? c p = some x)
    (hl : x.line = some l) (hslot : x.slot = some slot) (hs : (s.unit l).state = .waiting)
    (hso : (s.ctx l).signOn = some so) (hv : (s.unit l).speed = some v) (hm : s.meter? c p = none)
    (hclock : s.rating.clock = .reference ∨ (s.chan c).fallbackRaised = true) :
    s.bindPort c p x =
      ((((s.modPort c p fun y => { y with state := .bound, timer := false, flow := some {} }).modRating fun r =>
          { r with meters := insertMeter (s.openedMeter c p l slot v.cls so.effClass) r.meters }).modLine l fun y =>
        { y with unit := { y.unit with state := .connected },
                 ctx  := { y.ctx with field := [], idleTimer := false,
                                      stack := y.ctx.stack ++ [{ channel := c, port := p, state := .live }] } }).modChan
        c fun ch =>
          if s.rating.active.rate c v.cls s.rating.period = none then
            ch.raised .unrated (s.accountOf slot) (some p) s.rating.calendar
          else ch) := by
  have hbound : (s.modPort c p fun y => { y with state := .bound, timer := false, flow := some {} }) =
      s.modChan c fun ch =>
        { ch with ports := ch.ports.set p { x with state := .bound, timer := false, flow := some {} } } :=
    State.modPort_some hx _
  unfold State.bindPort
  simp only [hl, hslot, hso, hv, Option.map_some, Option.getD_some]
  rw [hbound]
  generalize hg : (fun ch : Channel =>
    { ch with ports := ch.ports.set p { x with state := .bound, timer := false, flow := some {} } }) = g
  have hstate : (g (s.chan c)).state = (s.chan c).state ∧ (g (s.chan c)).fallbackRaised = (s.chan c).fallbackRaised := by
    rw [← hg]; exact ⟨rfl, rfl⟩
  rw [State.openMeter_eq (s := s.modChan c g) hm (by rw [State.chan_modChan_self, hstate.1]; exact hlive)
    (by rw [State.chan_modChan_self, hstate.2]; exact hclock)]
  have hconn : ∀ t : State, (t.unit l).state = .waiting → t.toConnected l =
      (t.modUnit l fun u => { u with state := .connected }).leavePrompt l := by
    intro t ht
    unfold State.toConnected
    rw [ht]
  generalize hu : ((s.modChan c g).modRating fun r =>
    { r with meters := insertMeter ((s.modChan c g).openedMeter c p l slot v.cls so.effClass) r.meters }) = u
  have hline : u.line l = s.line l := by rw [← hu]; exact State.line_modChan s c g l
  rw [hconn]
  · simp only [State.leavePrompt, State.modUnit, State.modCtx, State.modLine, State.modChan_setLine,
      State.setLine_setLine, State.line_setLine_self, State.unit, State.ctx, State.line_modChan, ← hu]
    rfl
  · rw [State.unit_modCtx, State.unit_modChan]
    simpa [State.unit, hline] using hs

end

/-- Settles O30: ACCEPT, by the meter's opening and the order in which the circuit's parts are written. -/
theorem acceptCompletesTheCircuit : Obligations.AcceptCompletesTheCircuit := by
  intro s c f p x l slot so v ha hf hb hx hst hl hslot hs hso hv hm hclock opened
  have hux : (s.inExecution c 5 f).port? c p.toNat = some x :=
    (State.port_of_ports (by rw [State.chan_inExecution])).trans hx
  have hlive : ((s.inExecution c 5 f).chan c).state = .up ∨ ((s.inExecution c 5 f).chan c).state = .quiescing := by
    rw [State.chan_inExecution]; exact ha.live
  have hbind := State.bindPort_eq (s := s.inExecution c 5 f) hlive hux hl hslot hs hso hv hm
    (by rw [State.chan_inExecution]; exact hclock)
  have hrun : exec (.accept c f) s =
      .next (((s.inExecution c 5 f).bindPort c p.toNat x).answer c .done []).started := by
    rw [exec_accept ha hf, State.orderAccept, State.withPort_at hf hb hx]
    simp only [hst]
  have horders : (((s.inExecution c 5 f).bindPort c p.toNat x).chan c).orders = [orderOf 5 f] := by
    have hkeep : ∀ ch : Channel, (if (s.inExecution c 5 f).rating.active.rate c v.cls (s.inExecution c 5 f).rating.period =
        none then ch.raised .unrated ((s.inExecution c 5 f).accountOf slot) (some p.toNat)
          (s.inExecution c 5 f).rating.calendar else ch).orders = ch.orders := by
      intro ch
      split
      · exact (Channel.raised_frame _ _ _ _ _).1
      · rfl
    rw [hbind, State.chan_modChan_self, hkeep]
    refine (State.orders_modPort (s.inExecution c 5 f) c p.toNat _ c).trans ?_
    rw [State.chan_inExecution]
  rw [State.answer_replied horders, hbind] at hrun
  have hrating : (s.inExecution c 5 f).rating = s.rating := rfl
  refine ⟨fun n hn => hrun.trans ?_, fun hn => hrun.trans ?_⟩
  · simp only [State.openedMeter, hrating, hn, Option.getD_some, reduceCtorEq, if_false]
  · simp only [State.openedMeter, hrating, hn, Option.getD_none, if_true]
    rfl

/-! ## Freed ports and grants -/

section
variable {s : State} {c : ChanNo} {p : Nat}

theorem Channel.noted_orders (ch : Channel) (n : Notice) : (ch.noted n).orders = ch.orders := by
  unfold Channel.noted
  repeat' split
  all_goals rfl

theorem State.orders_openPort (s : State) (c : ChanNo) (p : Nat) (l : LineNo) (slot cls : Nat) :
    ((s.openPort c p l slot cls).chan c).orders = (s.chan c).orders := by
  rw [State.openPort, State.queueNotice, State.chan_modChan_self, Channel.noted_orders, State.orders_modPort]

theorem State.orders_grantLoop (c : ChanNo) (p : Nat) : ∀ (n : Nat) (s : State),
    ((State.grantLoop n s c p).chan c).orders = (s.chan c).orders := by
  intro n
  induction n with
  | zero => exact fun _ => rfl
  | succ n ih =>
    intro s
    unfold State.grantLoop
    split
    · rfl
    · dsimp only
      split
      · rw [State.orders_openPort, State.chan_modChan_self]
      · rw [ih, State.chan_of_channels (State.returnToCommand_channels _ _ _), State.chan_modChan_self]

/-- A port that becomes FREE leaves its channel's order queue (R94, R102). -/
theorem State.orders_portFree (s : State) (c : ChanNo) (p : Nat) :
    ((s.portFree c p).chan c).orders = (s.chan c).orders := by
  unfold State.portFree
  dsimp only
  split
  · exact (State.orders_grantLoop c p _ _).trans (State.orders_modPort s c p _ c)
  · unfold State.quiesceIfDone State.channelDown
    split
    · rw [State.chan_modChan_self]
      dsimp only
      split <;> exact State.orders_modPort s c p _ c
    · exact State.orders_modPort s c p _ c

/-- The lines of wait entries return to COMMAND with a text, one after another (R94). -/
def State.passedOver (s : State) (a : List WaitEntry) (cs : List Code) : State :=
  a.foldl (fun u v => u.returned v.line cs) s

theorem State.passedOver_frame (a : List WaitEntry) (cs : List Code) : ∀ s : State,
    s.passedOver a cs = { s with lines := (s.passedOver a cs).lines } := by
  induction a with
  | nil => exact fun _ => rfl
  | cons v a ih =>
    intro s
    have hstep : s.passedOver (v :: a) cs = (s.returned v.line cs).passedOver a cs := rfl
    rw [hstep, ih]
    rfl

theorem State.modChan_passedOver (g : Channel → Channel) (a : List WaitEntry) (cs : List Code) : ∀ s : State,
    (s.passedOver a cs).modChan c g = (s.modChan c g).passedOver a cs := by
  induction a with
  | nil => exact fun _ => rfl
  | cons v a ih =>
    intro s
    exact (ih _).trans (congrArg (State.passedOver · a cs) (State.modChan_returned ..))

theorem State.speed_passedOver (k : LineNo) (a : List WaitEntry) (cs : List Code) : ∀ s : State,
    ((s.passedOver a cs).unit k).speed = (s.unit k).speed := by
  induction a with
  | nil => exact fun _ => rfl
  | cons v a ih => exact fun s => (ih _).trans (State.speed_returned ..)

theorem State.chan_passedOver (a : List WaitEntry) (cs : List Code) (s : State) (d : ChanNo) :
    (s.passedOver a cs).chan d = s.chan d := State.chan_of_channels (by rw [State.passedOver_frame]) d

/-- The wait entries that a grant passes over: their accounts are not ACTIVE, and their lines, all different, are in
WAITING (R94, R95). -/
structure State.PassedOver (s : State) (a : List WaitEntry) : Prop where
  notActive : ∀ v ∈ a, s.accountActive v.slot = false
  waiting   : ∀ v ∈ a, (s.unit v.line).state = .waiting
  distinct  : (a.map (·.line)).Nodup

theorem State.PassedOver.tail {v : WaitEntry} {a : List WaitEntry} (h : s.PassedOver (v :: a)) (g : Channel → Channel)
    (cs : List Code) : ((s.modChan c g).returned v.line cs).PassedOver a where
  notActive w hw := h.notActive w (List.mem_cons_of_mem v hw)
  waiting w hw := by
    have hne : w.line ≠ v.line := by
      rintro heq
      have hd := h.distinct
      rw [List.map_cons, List.nodup_cons] at hd
      exact hd.1 (heq ▸ List.mem_map_of_mem hw)
    rw [State.unit, State.line_returned_ne _ _ hne]
    exact h.waiting w (List.mem_cons_of_mem v hw)
  distinct := by
    have hd := h.distinct
    rw [List.map_cons, List.nodup_cons] at hd
    exact hd.2

theorem State.grantLoop_passes {b : List WaitEntry} (n : Nat) : ∀ (a : List WaitEntry) (s : State),
    (s.chan c).queue = a ++ b → s.PassedOver a → State.grantLoop (n + a.length) s c p =
      State.grantLoop n ((s.modChan c fun ch => { ch with queue := b }).passedOver a (text "NOT PERMITTED")) c p := by
  intro a
  induction a with
  | nil =>
    intro s hq _
    rw [List.nil_append] at hq
    have hsame : (s.modChan c fun ch => { ch with queue := b }) = s := State.modChan_self (by rw [← hq])
    rw [hsame]
    rfl
  | cons v a ih =>
    intro s hq h
    have hstep : State.grantLoop (n + (v :: a).length) s c p = State.grantLoop (n + a.length)
        ((s.modChan c fun ch => { ch with queue := ch.queue.tail }).returned v.line (text "NOT PERMITTED")) c p := by
      rw [List.length_cons, ← Nat.add_assoc]
      have hact : s.accountActive v.slot = false := h.notActive v List.mem_cons_self
      have hwait : ((s.modChan c fun ch => { ch with queue := ch.queue.tail }).unit v.line).state = .waiting := by
        rw [State.unit_modChan]; exact h.waiting v List.mem_cons_self
      simp only [State.grantLoop, hq, List.cons_append, hact, Bool.false_eq_true, if_false,
        State.returnToCommand_waiting hwait]
    rw [hstep, ih _ _ (h.tail _ _)]
    · rw [State.modChan_returned, State.modChan_modChan]
      rfl
    · rw [State.chan_returned, State.chan_modChan_self, hq]
      rfl

/-- The grant of a port freed on an UP channel, past waiters that are not ACTIVE (R94). -/
theorem State.portFree_passes {a b : List WaitEntry} (h : (s.chan c).state = .up) (hq : (s.chan c).queue = a ++ b)
    (ha : s.PassedOver a) : s.portFree c p = State.grantLoop b.length
      (((s.freed c p).modChan c fun ch => { ch with queue := b }).passedOver a (text "NOT PERMITTED")) c p := by
  have hq' : ((s.freed c p).chan c).queue = a ++ b := by rw [State.freed, State.queue_modPort, hq]
  have ha' : (s.freed c p).PassedOver a :=
    ⟨fun v hv => by
        rw [← ha.notActive v hv, State.accountActive, State.accountActive, State.recordAt, State.recordAt, State.freed,
          State.store_of_modPort],
      fun v hv => by rw [State.freed, State.unit_modPort]; exact ha.waiting v hv, ha.distinct⟩
  have hrun : s.portFree c p = if ((s.freed c p).chan c).state = .up then (s.freed c p).grant c p
    else (s.freed c p).quiesceIfDone c := rfl
  rw [hrun, if_pos (by rw [State.freed, State.state_modPort, h]), State.grant, hq', List.length_append, Nat.add_comm,
    State.grantLoop_passes _ a _ hq' ha']

/-- A port freed on an UP channel goes to the first waiter whose account is ACTIVE (R94, R95). -/
theorem State.portFree_grants {x : Port} {a rest : List WaitEntry} {w : WaitEntry} (hx : s.port? c p = some x)
    (h : (s.chan c).state = .up) (hq : (s.chan c).queue = a ++ w :: rest) (ha : s.PassedOver a)
    (hw : s.accountActive w.slot = true) : s.portFree c p =
      ((((s.freed c p).modChan c fun ch => { ch with queue := rest }).passedOver a (text "NOT PERMITTED")).modPort c p
        fun y => { y with state := .opening, line := some w.line, slot := some w.slot, timer := true }).modChan c fun ch =>
          ch.noted
            { kind := .circuitRequest, line := some w.line,
              body := bytesBE 1 p ++ bytesBE 2 x.circuit ++ bytesBE 1 w.line.val ++ bytesBE 2 (s.accountOf w.slot) ++
                bytesBE 1 w.effClass ++ speedByte (s.unit w.line).speed } := by
  rw [State.portFree_passes h hq ha, List.length_cons]
  generalize hU : ((s.freed c p).modChan c fun ch => { ch with queue := w :: rest }).passedOver a
    (text "NOT PERMITTED") = U
  have htail : (U.modChan c fun ch => { ch with queue := ch.queue.tail }) =
      ((s.freed c p).modChan c fun ch => { ch with queue := rest }).passedOver a (text "NOT PERMITTED") := by
    rw [← hU, State.modChan_passedOver, State.modChan_modChan]
    rfl
  have hqU : (U.chan c).queue = w :: rest := by
    rw [← hU, State.chan_passedOver, State.chan_modChan_self]
  have hstore : ∀ g : Channel → Channel, (((s.freed c p).modChan c g).passedOver a (text "NOT PERMITTED")).store =
      s.store := by
    intro g
    rw [State.passedOver_frame]
    exact State.store_of_modPort s c p _
  have hactU : U.accountActive w.slot = true := by
    rw [← hU, State.accountActive, State.recordAt, hstore]
    exact hw
  simp only [State.grantLoop, hqU, hactU, if_true]
  rw [htail]
  generalize hV : ((s.freed c p).modChan c fun ch => { ch with queue := rest }).passedOver a (text "NOT PERMITTED") = V
  have hport : V.port? c p = some { circuit := x.circuit } := by
    rw [← State.port_freed hx, ← hV]
    exact State.port_of_ports (by rw [State.chan_passedOver, State.chan_modChan_self])
  have hacc : V.accountOf w.slot = s.accountOf w.slot := by
    rw [← hV, State.accountOf, State.recordAt, hstore]
    rfl
  have hspeed : (V.unit w.line).speed = (s.unit w.line).speed := by
    rw [← hV, State.speed_passedOver, State.unit_modChan, State.freed, State.unit_modPort]
  rw [State.openPort_eq hport, hacc, hspeed]
  exact congrArg (State.modChan · c _) (State.modPort_congr hport rfl)

/-- A CLOSING port becomes FREE by each of its three ways, as `portFree` does it (R99, R100). -/
theorem State.closing_frees {p : Byte} {x : Port} {g : State → State} (hp : s.powered = true)
    (hx : s.port? c p.toNat = some x) (hst : x.state = .closing) (hs : s.portFree c p.toNat = g s)
    (hi : ∀ code f, (s.inExecution c code f).portFree c p.toNat = g (s.inExecution c code f)) :
    (x.timer = true → exec (.closeTimerExpiry c p.toNat) s = .next (g s).started) ∧
      ∀ f : OrderFrame, s.Attends c → f.fits 1 → f.body = [p] →
        exec (.closeAck c f) s = .next ((g (s.inExecution c 8 f)).replied c f .done []).started ∧
        exec (.closePort c f) s = .next ((g (s.inExecution c 7 f)).replied c f .gone []).started := by
  have horders : ∀ code f, (((s.inExecution c code f).portFree c p.toNat).chan c).orders = [orderOf code f] := by
    intro code f
    rw [State.orders_portFree, State.chan_inExecution]
  refine ⟨fun ht => ?_, fun f ha hf hb => ⟨?_, ?_⟩⟩
  · refine exec_on hp rfl ?_
    simp only [hx, hst, ht, and_self, if_true]
    exact hs
  · rw [exec_closeAck ha hf, State.orderCloseAck, State.withPort_at hf hb hx, ← hi,
      ← State.answer_replied (horders 8 f)]
    simp only [hst]
  · rw [exec_closePort ha hf, State.orderClosePort, State.withPort_at hf hb hx, ← hi,
      ← State.answer_replied (horders 7 f)]
    simp only [hst]

theorem State.port_inExecution (code : Byte) (f : OrderFrame) (q : Nat) :
    (s.inExecution c code f).port? c q = s.port? c q := State.port_of_ports (by rw [State.chan_inExecution])

theorem State.PassedOver.inExecution {a : List WaitEntry} (h : s.PassedOver a) (code : Byte) (f : OrderFrame) :
    (s.inExecution c code f).PassedOver a :=
  ⟨h.notActive, fun v hv => by rw [State.inExecution, State.unit_modChan]; exact h.waiting v hv, h.distinct⟩

end

/-- Settles O31: a CLOSING port becomes FREE and is granted, by induction on the waiters that are passed over. -/
theorem closedPortsAreFreedAndGranted : Obligations.ClosedPortsAreFreedAndGranted := by
  intro s c p x hp hx hst frees
  have hstate : ∀ code f, ((s.inExecution c code f).chan c).state = (s.chan c).state := fun code f => by
    rw [State.chan_inExecution]
  have hqueue : ∀ code f, ((s.inExecution c code f).chan c).queue = (s.chan c).queue := fun code f => by
    rw [State.chan_inExecution]
  have hport : ∀ code f, (s.inExecution c code f).port? c p.toNat = some x := fun code f =>
    (State.port_inExecution code f _).trans hx
  have hfrees : ∀ g : State → State, s.portFree c p.toNat = g s →
      (∀ code f, (s.inExecution c code f).portFree c p.toNat = g (s.inExecution c code f)) → frees g :=
    fun g hs hi => State.closing_frees hp hx hst hs hi
  clear_value frees
  refine ⟨?_, fun hquiet hother => ?_⟩
  · intro hup a b hq ha hnd passed
    have hpassed : passed = fun t rest =>
        ((t.freed c p.toNat).modChan c fun ch => { ch with queue := rest }).passedOver a (text "NOT PERMITTED") := rfl
    clear_value passed
    subst hpassed
    have hover : s.PassedOver a := by
      refine ⟨fun v hv => ?_, fun v hv => (ha v hv).2, hnd⟩
      rw [← Bool.not_eq_true, State.accountActive_iff]
      rintro ⟨r, hr, hact⟩
      exact (ha v hv).1 r hr hact
    refine ⟨fun hb => hfrees _ ?_ fun code f => ?_, fun w rest r hb hr hact => hfrees _ ?_ fun code f => ?_⟩
    · subst hb
      exact State.portFree_passes hup hq hover
    · subst hb
      exact State.portFree_passes ((hstate code f).trans hup) ((hqueue code f).trans hq) (hover.inExecution code f)
    · subst hb
      exact State.portFree_grants hx hup hq hover ((State.accountActive_iff _).2 ⟨r, hr, hact⟩)
    · subst hb
      have hgrants := State.portFree_grants (hport code f) ((hstate code f).trans hup) ((hqueue code f).trans hq)
        (hover.inExecution code f) ((State.accountActive_iff w.slot).2 ⟨r, hr, hact⟩)
      have hunit : (s.inExecution c code f).unit w.line = s.unit w.line := State.unit_modChan ..
      have hacc : (s.inExecution c code f).accountOf w.slot = s.accountOf w.slot := rfl
      rw [hunit, hacc] at hgrants
      exact hgrants
  · obtain ⟨q, y, hne, hy, hfree⟩ := hother
    exact hfrees _ (State.portFree_quiescing hquiet ⟨q, y, hne, hy, hfree⟩) fun code f =>
      State.portFree_quiescing ((hstate code f).trans hquiet)
        ⟨q, y, hne, (State.port_inExecution code f q).trans hy, hfree⟩

/-! ## The end of an opening -/

section
variable {s : State} {c : ChanNo} {p : Nat} {x : Port} {l : LineNo}

/-- The opening of a port is refused: the line returns to COMMAND and the port becomes FREE (R97). -/
theorem State.refuseOpening_eq (hx : s.port? c p = some x) (hl : x.line = some l) (hs : (s.unit l).state = .waiting) :
    s.refuseOpening c p =
      ((s.freed c p).returned l (text "HOST " ++ [hostLetter c] ++ text " REFUSED")).portFree c p := by
  have hwait : ((s.modPort c p Port.freed).unit l).state = .waiting := by rw [State.unit_modPort]; exact hs
  simp only [State.refuseOpening, State.dropOpening, hx, Option.bind_some, hl, State.returnToCommand_waiting hwait]
  rfl

theorem State.refuseOpening_empty (hx : s.port? c p = some x) (hl : x.line = some l)
    (hs : (s.unit l).state = .waiting) (hup : (s.chan c).state = .up) (hq : (s.chan c).queue = []) :
    s.refuseOpening c p = (s.freed c p).returned l (text "HOST " ++ [hostLetter c] ++ text " REFUSED") := by
  rw [State.refuseOpening_eq hx hl hs, State.portFree_empty, State.freed]
  · exact State.modPort_self (x := { circuit := x.circuit }) ((State.port_returned ..).trans (State.port_freed hx)) rfl
  · rw [State.chan_returned, State.freed, State.state_modPort, hup]
  · rw [State.chan_returned, State.freed, State.queue_modPort, hq]

theorem State.refuseOpening_grant {w : WaitEntry} {rest : List WaitEntry} {r : Record} (hx : s.port? c p = some x)
    (hl : x.line = some l) (hs : (s.unit l).state = .waiting) (hup : (s.chan c).state = .up)
    (hq : (s.chan c).queue = w :: rest) (hr : s.recordAt w.slot = some r) (hact : r.state = .active) :
    s.refuseOpening c p =
      ((((s.freed c p).returned l (text "HOST " ++ [hostLetter c] ++ text " REFUSED")).modChan c fun ch =>
          { ch with queue := rest }).modPort c p fun y =>
        { y with state := .opening, line := some w.line, slot := some w.slot, timer := true }).modChan c fun ch =>
      ch.noted
        { kind := .circuitRequest, line := some w.line,
          body := bytesBE 1 p ++ bytesBE 2 x.circuit ++ bytesBE 1 w.line.val ++ bytesBE 2 (s.accountOf w.slot) ++
            bytesBE 1 w.effClass ++ speedByte (s.unit w.line).speed } := by
  rw [State.refuseOpening_eq hx hl hs]
  generalize ht : (s.freed c p).returned l (text "HOST " ++ [hostLetter c] ++ text " REFUSED") = t
  have hport : t.port? c p = some { circuit := x.circuit } := by
    rw [← ht]; exact (State.port_returned ..).trans (State.port_freed hx)
  have hstore : t.store = s.store := by
    rw [← ht, State.returned_frame]; exact State.store_of_modPort s c p _
  have hupt : (t.chan c).state = .up := by rw [← ht, State.chan_returned, State.freed, State.state_modPort, hup]
  have hqt : (t.chan c).queue = w :: rest := by rw [← ht, State.chan_returned, State.freed, State.queue_modPort, hq]
  have hrt : t.recordAt w.slot = some r := by rw [State.recordAt, hstore]; exact hr
  have hacc : t.accountOf w.slot = s.accountOf w.slot := by rw [State.accountOf, hrt, State.accountOf, hr]
  have hspeed : (t.unit w.line).speed = (s.unit w.line).speed := by
    rw [← ht, State.speed_returned, State.freed, State.unit_modPort]
  have hport' : (t.modChan c fun ch => { ch with queue := rest }).port? c p = some { circuit := x.circuit } :=
    (State.port_of_ports (by rw [State.chan_modChan_self])).trans hport
  rw [State.portFree_grant hport hupt hqt hrt hact, hacc, hspeed]
  exact congrArg (State.modChan · c _) (State.modPort_congr hport' rfl)

/-- An OPENING port is refused by both of its ways, as `refuseOpening` does it (R97). -/
theorem State.opening_refused {p : Byte} {g : State → State} (hp : s.powered = true) (hx : s.port? c p.toNat = some x)
    (hst : x.state = .opening) (hl : x.line = some l)
    (hi : ∀ f, (s.inExecution c 6 f).refuseOpening c p.toNat = g (s.inExecution c 6 f))
    (hn : ∀ n, (s.modChan c fun ch => ch.noted n).refuseOpening c p.toNat = g (s.modChan c fun ch => ch.noted n)) :
    (∀ f : OrderFrame, s.Attends c → f.fits 1 → f.body = [p] →
      exec (.refuse c f) s = .next ((g (s.inExecution c 6 f)).replied c f .done []).started) ∧
    (x.timer = true → exec (.acceptTimerExpiry c p.toNat) s =
      .next (g (s.modChan c fun ch => ch.noted
        { kind := .circuitClosed, line := some l,
          body := bytesBE 1 p.toNat ++ bytesBE 2 x.circuit ++ bytesBE 1 l.val ++ [19] })).started) := by
  refine ⟨fun f ha hf hb => ?_, fun ht => ?_⟩
  · have horders : (((s.inExecution c 6 f).refuseOpening c p.toNat).chan c).orders = [orderOf 6 f] := by
      have hdrop : ((s.inExecution c 6 f).dropOpening c (hostText c " REFUSED") p.toNat).chan c =
          ((s.inExecution c 6 f).modPort c p.toNat Port.freed).chan c := by
        simp only [State.dropOpening]
        split
        · exact State.chan_of_channels (State.returnToCommand_channels _ _ _) c
        · rfl
      rw [State.refuseOpening, State.orders_portFree, hdrop, State.orders_modPort, State.chan_inExecution]
    rw [exec_refuse ha hf, State.orderRefuse, State.withPort_at hf hb hx, ← hi, ← State.answer_replied horders]
    simp only [hst]
  · refine exec_on hp rfl ?_
    simp only [hx, hst, ht, and_self, if_true, State.acceptExpired, State.queueNotice]
    rw [← hn, noticeCircuitClosed, hl]
    rfl

end

/-- Settles O32: the two ways in which an opening ends by refusal, without and with a waiter. -/
theorem refusedCallsReturnTheLine : Obligations.RefusedCallsReturnTheLine := by
  intro s c p x l hp hx hst hl hs hup cs refused
  have hrefused : ∀ g : State → State,
      (∀ f, (s.inExecution c 6 f).refuseOpening c p.toNat = g (((s.inExecution c 6 f).freed c p.toNat).returned l cs)) →
      (∀ n, (s.modChan c fun ch => ch.noted n).refuseOpening c p.toNat =
        g (((s.modChan c fun ch => ch.noted n).freed c p.toNat).returned l cs)) → refused g :=
    fun g hi hn => State.opening_refused (g := fun t => g ((t.freed c p.toNat).returned l cs)) hp hx hst hl hi hn
  clear_value refused
  have hport : ∀ g : Channel → Channel, (g (s.chan c)).ports = (s.chan c).ports →
      (s.modChan c g).port? c p.toNat = some x := fun g hg =>
    (State.port_of_ports (by rw [State.chan_modChan_self, hg])).trans hx
  have hwait : ∀ g : Channel → Channel, ((s.modChan c g).unit l).state = .waiting := fun g => by
    rw [State.unit_modChan]; exact hs
  refine ⟨fun hq => hrefused _ (fun f => ?_) fun n => ?_, fun w rest r hq hr hact => hrefused _ (fun f => ?_) fun n => ?_⟩
  · exact State.refuseOpening_empty (hport _ rfl) hl (hwait _) (by rw [State.chan_inExecution]; exact hup)
      (by rw [State.chan_inExecution]; exact hq)
  · exact State.refuseOpening_empty (hport _ (Channel.noted_ports _ _)) hl (hwait _)
      (by rw [State.chan_modChan_self, Channel.noted_state, hup]) (by rw [State.chan_modChan_self, Channel.noted_queue, hq])
  · have h := State.refuseOpening_grant (s := s.inExecution c 6 f) (w := w) (rest := rest) (hport _ rfl) hl (hwait _)
      (by rw [State.chan_inExecution]; exact hup) (by rw [State.chan_inExecution]; exact hq) hr hact
    have hunit : (s.inExecution c 6 f).unit w.line = s.unit w.line := State.unit_modChan ..
    have hacc : (s.inExecution c 6 f).accountOf w.slot = s.accountOf w.slot := rfl
    rw [hunit, hacc] at h
    exact h
  · have h := State.refuseOpening_grant (s := s.modChan c fun ch => ch.noted n) (w := w) (rest := rest)
      (hport _ (Channel.noted_ports _ _)) hl (hwait _) (by rw [State.chan_modChan_self, Channel.noted_state, hup])
      (by rw [State.chan_modChan_self, Channel.noted_queue, hq]) hr hact
    have hacc : (s.modChan c fun ch => ch.noted n).accountOf w.slot = s.accountOf w.slot := rfl
    rw [State.unit_modChan, hacc] at h
    exact h

/-! ## The end of a wait -/

section
variable {s : State} {l : LineNo} {x : Code}

theorem State.takeChar_waiting (hs : (s.unit l).state = .waiting) (hx : x ≠ (s.group l).attention) :
    s.takeChar l x = s.place l [7] := by
  simp only [State.takeChar, hs, hx, if_false]
  rfl

theorem State.takeChar_abandon (hs : (s.unit l).state = .waiting) : s.takeChar l (s.group l).attention = s.abandon l := by
  simp only [State.takeChar, hs, if_true]

theorem State.foldl_openings_nil {cause : Cause} (cs : List ChanNo) (h : ∀ d ∈ cs, s.portsFor d .opening l = []) :
    cs.foldl (fun t c => (t.portsFor c .opening l).foldl (fun t p => t.portClosing c p cause) t) s = s := by
  induction cs with
  | nil => rfl
  | cons d cs ih =>
    rw [List.foldl_cons, h d List.mem_cons_self]
    exact ih fun k hk => h k (List.mem_cons_of_mem d hk)

/-- The one port in OPENING for a line goes to CLOSING (R86, R93). -/
theorem State.closeOpenings_one {c : ChanNo} {p : Nat} {y : Port} {cause : Cause} (hy : s.port? c p = some y)
    (ho : y.state = .opening) (hl : y.line = some l)
    (hu : ∀ d q z, s.port? d q = some z → z.state = .opening → z.line = some l → d = c ∧ q = p) :
    s.closeOpenings l cause = s.portClosing c p cause := by
  obtain ⟨hone, hnone⟩ := State.portsFor_one hy ho hl hu
  have hmem : ∀ d : ChanNo, d ∈ allChans := by decide
  have hnd : allChans.Nodup := by decide
  obtain ⟨a, b, hab⟩ := List.append_of_mem (hmem c)
  rw [hab, List.nodup_append, List.nodup_cons] at hnd
  obtain ⟨-, ⟨hcb, -⟩, hdis⟩ := hnd
  have hafter : ∀ d ∈ b, (s.portClosing c p cause).portsFor d .opening l = [] := by
    intro d hd
    have hne : d ≠ c := fun h => hcb (h ▸ hd)
    have hchan : (s.portClosing c p cause).chan d = s.chan d := by
      simp only [State.portClosing, hy, State.queueNotice]
      rw [State.chan_modChan_ne _ _ hne, State.chan_modPort_ne hne]
    rw [← hnone d hne, State.portsFor, State.portsFor]
    simp only [State.port?, hchan]
  rw [State.closeOpenings, hab, List.foldl_append, List.foldl_cons,
    State.foldl_openings_nil a fun d hd => hnone d fun h => hdis d hd c List.mem_cons_self h, hone]
  exact State.foldl_openings_nil b hafter

end

/-- Settles O33: the ends of a wait, by its timer and by the caller's characters. -/
theorem waitsEndByTimeOrByTheCaller : Obligations.WaitsEndByTimeOrByTheCaller := by
  intro s l hp hs
  refine ⟨fun c w hw hl ht => exec_on hp rfl ?_, fun x bit hear hpar => ⟨fun hx => ?_, fun hx => ⟨fun hnone => ?_, ?_⟩⟩⟩
  · have hany : ((s.chan c).queue.any fun w => w.line = l && w.timer) = true :=
      List.any_eq_true.2 ⟨w, hw, by simp [hl, ht]⟩
    rw [if_pos hany, State.waitExpired, State.returnToCommand_waiting]
    rw [State.unit_modChan]
    exact hs
  · rw [hear.receives (.inr (.inr (.inl hs))) hpar, State.takeChar_waiting hs hx]
  · refine ⟨s.abandon l, ?_, ?_⟩
    · subst hx
      rw [hear.receives (.inr (.inr (.inl hs))) hpar, State.takeChar_abandon hs]
    · obtain ⟨chans, heq, hchan⟩ := State.leaveQueues_eq s l
      have hports : ∀ c p, (s.leaveQueues l).port? c p = s.port? c p := fun c p =>
        State.port_of_ports (by rw [hchan])
      have hline : (s.leaveQueues l).lines = s.lines := by rw [heq]
      have habandon : s.abandon l = (s.leaveQueues l).returned l (text "CONNECT ABANDONED") := by
        rw [State.abandon, State.closeOpenings_self fun c p z hz => hnone c p z ((hports c p).symm.trans hz)]
        refine State.returnToCommand_waiting ?_ _
        rw [State.unit, State.line_of_lines hline]
        exact hs
      rw [habandon]
      refine ⟨State.line_returned _ _ _ _ (State.line_of_lines hline l), fun k hk => ?_, fun c => ?_, ?_, ?_, ?_, ?_⟩
      · rw [State.line_returned_ne _ _ hk, State.line_of_lines hline]
      · rw [State.chan_returned, hchan]
      · rw [State.returned_frame, heq]
      · rw [State.returned_frame, heq]
      · rw [State.returned_frame, heq]
      · rw [State.returned_frame, heq]
  · intro c p y hy ho hl hone hqueue
    subst hx
    rw [hear.receives (.inr (.inr (.inl hs))) hpar, State.takeChar_abandon hs, State.abandon,
      State.leaveQueues_self hqueue, State.closeOpenings_one hy ho hl hone]
    simp only [State.portClosing, hy, State.queueNotice, noticeCircuitClosed, hl]
    rw [State.returnToCommand_waiting]
    · rfl
    · rw [State.unit_modChan, State.unit_modPort]
      exact hs

end Sys2Proof.Machine
end

section
/-! The clock source, and the orders that report (R107, R108, R125, R173). -/

namespace Sys2Proof.Machine

/-! ## Exceptions and changes of every channel -/

section
variable (s : State)

/-- A billing exception changes at most its channel (R123). -/
theorem State.raiseException_modChan (c : ChanNo) (k : ExceptionKind) (account : Nat) (port : Option Nat) :
    ∃ g, s.raiseException c k account port = s.modChan c g := by
  by_cases h : (s.chan c).state = .up ∨ (s.chan c).state = .quiescing
  · exact ⟨_, State.raiseException_live h k account port⟩
  · refine ⟨fun ch => ch, ?_⟩
    rw [State.modChan_id]
    unfold State.raiseException
    rcases hst : (s.chan c).state <;> simp_all

theorem State.raiseEstimated_modChan (c : ChanNo) (slot p : Nat) : ∃ g, s.raiseEstimated c slot p = s.modChan c g := by
  unfold State.raiseEstimated
  split
  · exact ⟨fun ch => ch, (State.modChan_id s c).symm⟩
  · obtain ⟨g, hg⟩ := s.raiseException_modChan c .estimated (s.accountOf slot) (some p)
    rw [hg, State.modChan_modChan]
    exact ⟨_, rfl⟩

/-- The first ESTIMATED of a spell on a channel in UP or QUIESCING (R107). -/
theorem State.raiseEstimated_new {c : ChanNo} (hlive : (s.chan c).state = .up ∨ (s.chan c).state = .quiescing)
    (hraised : (s.chan c).fallbackRaised = false) (slot p : Nat) : s.raiseEstimated c slot p = s.modChan c fun ch =>
      { ch.raised .estimated (s.accountOf slot) (some p) s.rating.calendar with fallbackRaised := true } := by
  rw [State.raiseEstimated, if_neg (by rw [hraised]; decide), State.raiseException_live hlive, State.modChan_modChan]

/-- Raising ESTIMATED for some meters changes at most the meters' channels (R107). -/
theorem State.foldl_raiseEstimated (ms : List Meter) : ∀ s : State,
    ∃ x, ms.foldl (fun u m => u.raiseEstimated m.channel m.slot m.port) s = { s with channels := x } ∧
      ∀ c, (∀ m ∈ ms, m.channel ≠ c) →
        (ms.foldl (fun u m => u.raiseEstimated m.channel m.slot m.port) s).chan c = s.chan c := by
  induction ms with
  | nil => exact fun s => ⟨_, rfl, fun _ _ => rfl⟩
  | cons m ms ih =>
    intro s
    obtain ⟨g, hg⟩ := s.raiseEstimated_modChan m.channel m.slot m.port
    obtain ⟨x, hx, hchan⟩ := ih (s.raiseEstimated m.channel m.slot m.port)
    refine ⟨x, ?_, fun c hc => ?_⟩
    · rw [List.foldl_cons, hx, hg]
      rfl
    · rw [List.foldl_cons, hchan c fun k hk => hc k (List.mem_cons_of_mem m hk), hg]
      exact State.chan_modChan_ne _ _ (hc m List.mem_cons_self).symm

/-- One change of every channel of a list. -/
theorem State.foldl_modChan (g : Channel → Channel) (cs : List ChanNo) : ∀ s : State, cs.Nodup →
    ∃ x, cs.foldl (fun u c => u.modChan c g) s = { s with channels := x } ∧
      ∀ c, (cs.foldl (fun u c => u.modChan c g) s).chan c = if c ∈ cs then g (s.chan c) else s.chan c := by
  induction cs with
  | nil => exact fun s _ => ⟨_, rfl, fun _ => rfl⟩
  | cons d cs ih =>
    intro s hnd
    rw [List.nodup_cons] at hnd
    obtain ⟨x, hx, hchan⟩ := ih (s.modChan d g) hnd.2
    refine ⟨x, hx, fun c => ?_⟩
    rw [List.foldl_cons, hchan]
    by_cases hcd : c = d
    · subst hcd
      rw [if_neg hnd.1, State.chan_modChan_self, if_pos List.mem_cons_self]
    · simp only [State.chan_modChan_ne _ _ hcd, List.mem_cons, hcd, false_or]

end

/-- Settles O37: the clock source, by the frames of raising ESTIMATED and of the notice. -/
theorem clockSourceFollowsTheReference : Obligations.ClockSourceFollowsTheReference := by
  intro s hp told
  refine ⟨fun hclock => ⟨exec_on hp rfl (by rw [hclock]), s.enterFallback, exec_on hp rfl (by rw [hclock]), ?_⟩,
    fun hclock => ⟨exec_on hp rfl (by rw [hclock]), s.leaveFallback, exec_on hp rfl (by rw [hclock]), ?_⟩⟩
  · let t := s.modRating fun r =>
      { r with clock := .fallback, steady := 0, meters := r.meters.map fun m => { m with estimated := true } }
    obtain ⟨x, hx, hchan⟩ := State.foldl_raiseEstimated t.rating.meters t
    obtain ⟨y, hy⟩ := State.noticeToUp_eq (t.rating.meters.foldl (fun u m => u.raiseEstimated m.channel m.slot m.port) t)
      (noticeClockState .fallback s.rating.calendar)
    have henter : s.enterFallback = { t with channels := y } := by
      rw [State.enterFallback, hy, hx]
    have htold : ∀ c, s.enterFallback.chan c =
        told 1 ((t.rating.meters.foldl (fun u m => u.raiseEstimated m.channel m.slot m.port) t).chan c) := fun c =>
      State.chan_noticeToUp _ _ c
    refine ⟨by rw [henter]; rfl, fun l => by rw [henter]; rfl, by rw [henter]; rfl, by rw [henter]; rfl,
      fun c hc => ?_, fun m hm hup hraised => ?_⟩
    · rw [htold, hchan c]
      · rfl
      · intro m hm
        obtain ⟨k, hk, rfl⟩ := List.mem_map.1 hm
        exact hc k hk
    · have hone : t.rating.meters.foldl (fun u m => u.raiseEstimated m.channel m.slot m.port) t =
          (t.modChan m.channel fun ch =>
            { ch.raised .estimated (s.accountOf m.slot) (some m.port) s.rating.calendar with fallbackRaised := true }) := by
        have hmeters : t.rating.meters = [{ m with estimated := true }] := by
          show s.rating.meters.map _ = _
          rw [hm]
          rfl
        rw [hmeters]
        exact State.raiseEstimated_new t (.inl hup) hraised m.slot m.port
      rw [htold, hone, State.chan_modChan_self]
      refine ⟨fun hmask => ?_, fun hmask hfp hnil => ?_⟩
      · simp only [Channel.raised, show t.chan m.channel = s.chan m.channel from rfl, hmask, if_true]
      · simp only [Channel.raised, show t.chan m.channel = s.chan m.channel from rfl, hmask, hfp, hnil,
          Bool.false_eq_true, if_false, List.length_nil, List.nil_append, Nat.reduceLeDiff, decide_false, Bool.or_false]
        rfl
  · let t := s.modRating fun r => { r with clock := .reference, steady := 10 }
    obtain ⟨x, hx, hchan⟩ := State.foldl_modChan (fun ch => { ch with fallbackRaised := false }) allChans t (by decide)
    obtain ⟨y, hy⟩ := State.noticeToUp_eq
      (allChans.foldl (fun u c => u.modChan c fun ch => { ch with fallbackRaised := false }) t)
      (noticeClockState .reference s.rating.calendar)
    have hleave : s.leaveFallback = { t with channels := y } := by
      rw [State.leaveFallback, hy, hx]
    refine ⟨by rw [hleave]; rfl, fun l => by rw [hleave]; rfl, by rw [hleave]; rfl, by rw [hleave]; rfl, fun c => ?_⟩
    have hmem : c ∈ allChans := by revert c; decide
    refine (State.chan_noticeToUp _ _ c).trans ?_
    rw [hchan c, if_pos hmem]
    rfl

/-! ## Orders in any channel state -/

/-- An order that has arrived at an empty order queue (R170, R171). -/
def State.arrived (s : State) (c : ChanNo) (code : Byte) (f : OrderFrame) : State :=
  s.modChan c fun ch =>
    { ch with silence := ch.silence || decide (ch.state = .up ∨ ch.state = .quiescing), orders := [orderOf code f] }

section
variable {s : State} {c : ChanNo} {code : Byte} {f : OrderFrame}

theorem State.chan_arrived : (s.arrived c code f).chan c =
    { s.chan c with silence := (s.chan c).silence || decide ((s.chan c).state = .up ∨ (s.chan c).state = .quiescing),
                    orders := [orderOf code f] } := State.chan_modChan_self ..

/-- At a channel that attends, an order that has arrived is in execution. -/
theorem State.Attends.arrived (ha : s.Attends c) : s.arrived c code f = s.inExecution c code f := by
  refine State.modChan_congr ?_
  rw [decide_eq_true ha.live, Bool.or_true]

theorem State.answer_arrived (o : Outcome) (body : List Byte) :
    (s.arrived c code f).answer c o body = (s.arrived c code f).replied c f o body :=
  State.answer_replied (by rw [State.chan_arrived]) o body

/-- An order that nothing refuses is carried out, in any channel state (R172). -/
theorem State.arrive_run (hp : s.powered = true) (ho : (s.chan c).orders = []) (known : knownCode code.toNat = true)
    (fits : (orderOf code f).lengthFits = true) (allowed : (s.chan c).state.allows code.toNat = true)
    (clean : (s.chan c).faultPending = false ∨ passesFault code.toNat = true)
    (right : s.rightFor c (orderOf code f) = true) :
    s.whenOn (s.arrive c code f) = ((s.arrived c code f).runOrder c (orderOf code f)).started := by
  rw [State.arrive_any hp ho]
  refine congrArg State.started (State.executeHead_run (s := s.arrived c code f) (by rw [State.chan_arrived]) ?_)
  have hright : (s.arrived c code f).rightFor c (orderOf code f) = s.rightFor c (orderOf code f) := rfl
  have hcode : (orderOf code f).code = code := rfl
  unfold State.refusalOf
  rw [hright, State.chan_arrived]
  rcases clean with h | h <;> simp [hcode, known, fits, allowed, right, h]

end

/-- Settles O40: IDLE and SYNC, each carried out and answered at once. -/
theorem idleAndSyncReportAndClear : Obligations.IdleAndSyncReportAndClear := by
  intro s c f hp ho hf calendar
  constructor
  · have hrun : exec (.idle c f) s = .next ((s.arrived c 3 f).orderIdle c).started :=
      congrArg Host.Outcome.next (State.arrive_run hp ho rfl (orderOf_fits hf rfl (by decide)) rfl (.inr rfl) rfl)
    rw [hrun, State.orderIdle, State.answer_arrived, State.replied, State.arrived, State.modChan_modChan,
      State.modChan_modChan, State.chan_modChan_self]
    rfl
  · intro hlive
    have hrun : exec (.sync c f) s = .next ((s.arrived c 4 f).orderSync c).started :=
      congrArg Host.Outcome.next (State.arrive_run hp ho rfl (orderOf_fits hf rfl (by decide))
        (by rcases hlive with h | h <;> rw [h] <;> rfl) (.inr rfl) rfl)
    rw [hrun, State.orderSync, State.answer_arrived, State.replied, State.arrived, State.modChan_modChan,
      State.modChan_modChan, State.chan_modChan_self]
    refine congrArg (fun t : State => Host.Outcome.next t.started) (State.modChan_congr ?_)
    rw [decide_eq_true hlive, Bool.or_true]
    have hfaults : faultBytes = fun x : FaultRecord =>
        bytesBE 1 (match x.kind with | .unrated => 0 | .saturate => 1 | .estimated => 2) ++ bytesBE 2 x.account ++
          bytesBE 1 (x.port.getD 255) ++ calendar x.time := by
      funext x
      cases hk : x.kind <;> simp only [faultBytes, hk] <;> rfl
    simp only [syncBody, hfaults] <;> rfl

/-! ## The operator's settings -/

/-! ### Periods, rates and percentages -/

/-- The period of a minute (R111). -/
theorem periodAt_nil (minute : Nat) : periodAt [] minute = 0 := rfl

theorem periodAt_last {a b : List SwitchPoint} {q : SwitchPoint} {minute : Nat} (hq : q.minute ≤ minute)
    (hb : ∀ x ∈ b, minute < x.minute) : periodAt (a ++ q :: b) minute = q.period := by
  have hnone : b.filter (fun p => decide (p.minute ≤ minute)) = [] :=
    List.filter_eq_nil_iff.2 fun x hx => by simpa using hb x hx
  have hfilter : (a ++ q :: b).filter (fun p => decide (p.minute ≤ minute)) =
      a.filter (fun p => decide (p.minute ≤ minute)) ++ [q] := by
    rw [List.filter_append, List.filter_cons_of_pos (by simpa using hq), hnone]
  rw [periodAt, hfilter, List.getLast?_append]
  rfl

theorem periodAt_early {a : List SwitchPoint} {q : SwitchPoint} {minute : Nat}
    (h : ∀ x ∈ a ++ [q], minute < x.minute) : periodAt (a ++ [q]) minute = q.period := by
  have hfilter : (a ++ [q]).filter (fun p => decide (p.minute ≤ minute)) = [] :=
    List.filter_eq_nil_iff.2 fun x hx => by simpa using h x hx
  rw [periodAt, hfilter, List.getLast?_append]
  rfl

theorem Rating.period_eq (r : Rating) : r.period =
    periodAt (if r.calendar.weekday < 5 then r.active.workday else r.active.restday) (r.calendar.time / 60) := by
  by_cases h : r.calendar.weekday < 5 <;> simp only [Rating.period, Calendar.dayKind, Bank.switchList, h, if_true, if_false]

/-- A rate stands in its bank by channel, speed class and period (R113, R181). -/
theorem Bank.rate_of_index {b : Bank} {d : ChanNo} {k : SpeedClass} {p : Nat} {v : Option Nat}
    (h : b.rates[d.val * 12 + (match k with | .slow => 0 | .medium => 4 | .fast => 8) + p]? = some v) :
    b.rate d k p = v := by
  cases k <;> exact congrArg Option.join h

theorem textOk_iff (bs : List Byte) : textOk bs = true ↔ ∀ x ∈ bs, 32 ≤ x.toNat % 128 ∧ x.toNat % 128 ≤ 126 := by
  simp [textOk, codesOf]

/-! ### The orders -/

section
variable {s : State} {c : ChanNo} {f : OrderFrame}

/-- What leaves the channels as they were when the order came into execution is answered by its reply (R171). -/
theorem State.answer_of_channels {t : State} {code : Byte} (h : t.channels = (s.inExecution c code f).channels)
    (o : Outcome) (body : List Byte) : t.answer c o body = t.replied c f o body :=
  State.answer_replied (code := code) (by rw [State.chan_of_channels h, State.chan_inExecution]) o body

/-- An operator order of a fixed length, of a channel with the operator right, is carried out (R172, R175). -/
theorem State.Attends.run_operator {code : Byte} {n : Nat} (ha : s.Attends c) (hfp : (s.chan c).faultPending = false)
    (hop : s.operator c = true) (hf : f.fits n) (hb : bodyLength code.toNat = some n) (hn : n ≤ 512)
    (hcode : 17 ≤ code.toNat ∧ code.toNat ≤ 28) :
    s.whenOn (s.arrive c code f) = ((s.inExecution c code f).runOrder c (orderOf code f)).started :=
  ha.run_fixed hf hb hn (by simp [knownCode]; omega) (ChanState.allows_live ⟨by omega, hcode.2⟩) (.inl hfp)
    (State.rightFor_operator hop (by omega))

/-- SET TIME sets the calendar, and every meter loads the segment of the new period (R110, R112). -/
theorem State.orderSetTime_eq {d t2 t1 t0 : Byte} (hf : f.fits 4) (hb : f.body = [d, t2, t1, t0]) :
    (s.inExecution c 17 f).orderSetTime c (orderOf 17 f) =
      if 6 < d.toNat ∨ 86400 ≤ t2.toNat * 65536 + t1.toNat * 256 + t0.toNat then
        (s.inExecution c 17 f).replied c f .badValue []
      else (((s.inExecution c 17 f).modRating fun r => { r with calendar :=
        { weekday := d.toNat, time := t2.toNat * 65536 + t1.toNat * 256 + t0.toNat } }).loadSegments).answer c .done [] := by
  have hday : bodyField f.body 0 1 = d.toNat := bodyField_eq (by simp [hb, beNat])
  have htime : bodyField f.body 1 3 = t2.toNat * 65536 + t1.toNat * 256 + t0.toNat :=
    bodyField_eq (by simp [hb, beNat]; omega)
  simp only [State.orderSetTime, orderOf_body hf (by decide : 4 ≤ 512), hday, htime, State.answer_inExecution]

theorem State.loadSegments_answer {now : Calendar} (hd : s.metersDistinct)
    (hr : ∀ m ∈ s.rating.meters, (s.rating.active.rate m.channel m.speedClass
      ({ s.rating with calendar := now } : Rating).period).isSome = true) (code : Byte) :
    (((s.inExecution c code f).modRating fun r => { r with calendar := now }).loadSegments).answer c .done [] =
      ((s.inExecution c code f).modRating fun r =>
        { r with
          calendar := now,
          meters := r.meters.map fun m =>
            { m with period := ({ s.rating with calendar := now } : Rating).period,
                     percent := s.rating.active.classPercent m.effClass,
                     rate := (s.rating.active.rate m.channel m.speedClass
                       ({ s.rating with calendar := now } : Rating).period).getD 0 } }).replied c f .done [] := by
  rw [State.loadSegments_rated ((s.inExecution c code f).modRating fun r => { r with calendar := now }) hd hr]
  rw [State.answer_of_channels (s := s) (code := code) (f := f)]
  · rfl
  · rfl

end

/-- Settles O41: the settings of the operator, and the figures a time of day gives. -/
theorem operatorSettingsAreTaken : Obligations.OperatorSettingsAreTaken := by
  refine ⟨fun r => ?_, fun s c f ha hfp => ?_⟩
  · intro points minute
    have hperiod : r.period = periodAt points minute := r.period_eq
    refine ⟨fun h => ?_, fun a q b h hq hb => ?_, fun a q h hall => ?_, fun d k p v _ h => Bank.rate_of_index h,
      fun k v h => ?_⟩
    · rw [hperiod, h, periodAt_nil]
    · rw [hperiod, h, periodAt_last hq hb]
    · rw [hperiod, h, periodAt_early (h ▸ hall)]
    · rw [Bank.classPercent, h]
      rfl
  · intro answered
    refine ⟨fun hop => ⟨?_, ?_, fun hf => ?_⟩, ?_⟩
    · intro d t2 t1 t0 hf hb time now period bank
      have hrun : exec (.setTime c f) s = .next ((s.inExecution c 17 f).orderSetTime c (orderOf 17 f)).started :=
        congrArg Host.Outcome.next (ha.run_operator hfp hop hf rfl (by decide) (by decide))
      rw [hrun, State.orderSetTime_eq hf hb]
      refine ⟨fun hd ht hdist hr => ?_, fun hbad => ?_⟩
      · rw [if_neg (by omega), State.loadSegments_answer hdist hr]
      · rw [if_pos hbad]
    · intro n hn hf
      have hfits : (orderOf 18 f).lengthFits = true := lengthFits_open hf hn rfl (by decide)
      have hrun : exec (.setBanner c f) s = .next ((s.inExecution c 18 f).orderSetBanner c (orderOf 18 f)).started :=
        congrArg Host.Outcome.next (ha.run rfl hfits (ha.allows 18 (by decide)) (.inl hfp)
          (State.rightFor_operator hop (by decide)))
      rw [hrun, State.orderSetBanner, orderOf_body hf hn]
      refine ⟨fun hok => ?_, fun ⟨x, hx, hbad⟩ => ?_⟩
      · rw [if_pos ((textOk_iff _).2 hok)]
        exact congrArg (fun t : State => Host.Outcome.next t.started)
          (State.answer_of_channels (s := s) (code := 18) (by rfl) _ _)
      · rw [if_neg fun h => hbad ((textOk_iff _).1 h x hx), State.answer_inExecution]
    · have hrun : exec (.armTariff c f) s = .next ((s.inExecution c 20 f).orderArmTariff c).started :=
        congrArg Host.Outcome.next (ha.run_operator hfp hop hf rfl (by decide) (by decide))
      rw [hrun, State.orderArmTariff]
      exact congrArg (fun t : State => Host.Outcome.next t.started)
        (State.answer_of_channels (s := s) (code := 20) (by rfl) _ _)
    · intro b hf hb points r report
      have hrun : exec (.readTariff c f) s = .next ((s.inExecution c 28 f).orderReadTariff c (orderOf 28 f)).started :=
        congrArg Host.Outcome.next (ha.run_fixed hf rfl (by decide) rfl (ChanState.allows_live (by decide)) (.inl hfp) rfl)
      have hfield : bodyField (orderOf 28 f).body 0 1 = b.toNat := by
        rw [orderOf_body hf (by decide), bodyField_single hb]
      have hreport : ∀ x : Bank, readTariffBody x r = report x := by
        intro x
        have hday : dayKindNumber r.calendar.dayKind = if r.calendar.weekday < 5 then 0 else 1 := by
          unfold Calendar.dayKind
          split <;> rfl
        have hround : roundingNumber x.rounding = match x.rounding with | .up => 0 | .nearest => 1 | .down => 2 := by
          cases x.rounding <;> rfl
        simp only [readTariffBody, report, hday, hround]
        simp only [switchListBytes, flagByte, calendarBytes, dayKindNumber, points, List.append_assoc] <;> rfl
      rw [hrun, State.orderReadTariff, hfield]
      refine ⟨fun h => ?_, fun h => ?_, fun h => ?_⟩
      · subst h
        exact congrArg (fun t : State => Host.Outcome.next t.started)
          ((State.answer_inExecution _ _).trans (by rw [← hreport]; rfl))
      · subst h
        exact congrArg (fun t : State => Host.Outcome.next t.started)
          ((State.answer_inExecution _ _).trans (by rw [← hreport]; rfl))
      · split
        · omega
        · omega
        · exact congrArg (fun t : State => Host.Outcome.next t.started) (State.answer_inExecution _ _)

end Sys2Proof.Machine
end

section
/-! The close of a period, and the orders about lines (R21, R22, R24, R25, R144 to R146). -/

namespace Sys2Proof.Machine

/-! ## The close of a period -/

section
variable {s : State} {slot : Nat} {r : Record}

theorem State.rollVisit_busy (h : s.store.periodState = .closing) (hd : s.store.nextDue = some slot)
    (hb : s.arbiter.current.isSome = true) : s.rollVisit =
      (s.modStore fun st => { st with rollIndex := slot }).modArbiter fun a => { a with roll := some slot } := by
  obtain ⟨a, ha⟩ := Option.isSome_iff_exists.1 hb
  simp only [State.rollVisit, h, hd, State.modStore_arbiter, ha]

theorem State.pendingOf_none (h : s.entryOf slot = none) : s.pendingOf slot = 0 := by
  rw [State.pendingOf, h]

theorem State.lookAccount_none (h : s.entryOf slot = none) : s.lookAccount slot = s := by
  rw [State.lookAccount, h]

/-- The roll of an account that has no entry and no budget (R146). -/
theorem State.serveRoll_plain (hr : s.recordAt slot = some r) (hs : r.stamp ≠ s.store.periodNumber)
    (hb : r.budget = none) (hw : s.cache.waiting = []) (he : s.entryOf slot = none)
    (hp : (s.presenceOf slot).budget = some .normal) :
    s.serveRoll slot = s.modArbiter fun a =>
      { a with current := some { who := .roll, write := .put slot { r with previous := r.used, used := 0,
                                                                            stamp := s.store.periodNumber },
                                 result := .roll slot } } := by
  have hzero := State.pendingOf_none he
  simp only [State.serveRoll, hr, if_neg hs, hzero, he]
  generalize ht : s.serve .roll (.put slot (r.rolled 0 s.store.periodNumber)) (.roll slot) = t
  have hbudget : t.budget slot = none := by
    rw [← ht, State.budget]
    simp [State.budgetRecord, State.serve, State.modArbiter, Record.rolled, hb]
  have hpres : (t.presenceOf slot).budget = some .normal := by rw [← ht]; exact hp
  have hent : t.entryOf slot = none := by rw [← ht]; exact he
  have hwait : t.cache.waiting = [] := by rw [← ht]; exact hw
  rw [State.recompute_unlimited hbudget hpres, State.lookAccount_none hent, State.settle_empty hwait, ← ht]
  rfl

end

/-- Settles O43: CLOSE_PERIOD, by what the roll's first visit finds. -/
theorem closePeriodBeginsTheRoll : Obligations.ClosePeriodBeginsTheRoll := by
  intro s c f ha hfp hop hf n begun
  have hrun : exec (.closePeriod c f) s = .next ((s.inExecution c 21 f).orderClosePeriod c).started :=
    congrArg Host.Outcome.next (ha.run_operator hfp hop hf rfl (by decide) (by decide))
  have hstore : (s.inExecution c 21 f).store = s.store := rfl
  refine ⟨fun hclosing => ?_, fun hopen => ?_⟩
  · rw [hrun, State.orderClosePeriod, hstore, hclosing]
    exact congrArg (fun t : State => Host.Outcome.next t.started) (State.answer_inExecution _ _)
  · generalize hv : ({ (s.inExecution c 21 f).replied c f .done (bytesBE 2 n) with store := begun 0 } : State) = v
    have hvisit : exec (.closePeriod c f) s = .next v.rollVisit.started := by
      rw [hrun, State.orderClosePeriod, hstore, hopen, ← hv]
      exact congrArg (fun t : State => Host.Outcome.next t.rollVisit.started)
        (State.answer_of_channels (s := s) (code := 21) (by rfl) _ _)
    have hclosing : v.store.periodState = .closing := by rw [← hv]
    refine ⟨fun hall => ⟨_, hvisit, ?_⟩, fun a b k r hrec ha' hr => ⟨fun hbusy => ?_, fun hidle hget hb hw he hp => ?_⟩⟩
    · have hnone : v.store.nextDue = none := Store.nextDue_none fun e he _ => by
        rw [← hv] at he ⊢
        exact hall e he
      rw [State.rollVisit_ends hclosing hnone]
      generalize hu : (v.modStore fun st => { st with rollIndex := 4096, periodState := .opened }) = u
      obtain ⟨x, hx⟩ := State.noticeToUp_eq u (noticePeriodClosed v.store.periodNumber v.rating.calendar)
      refine ⟨by rw [hx, ← hu, ← hv]; rfl, fun d => ?_, fun l => (State.line_noticeToUp _ _ l).trans ?_, by rw [hx, ← hu, ← hv]; rfl,
        by rw [hx, ← hu, ← hv]; rfl, by rw [hx, ← hu, ← hv]; rfl⟩
      · rw [State.chan_noticeToUp, ← hu, ← hv]
        rfl
      · rw [← hu, ← hv]
        exact State.line_of_lines rfl l
    all_goals
      have hdue : v.store.nextDue = some k := by
        rw [← hv]
        exact Store.nextDue_first (st := begun 0) hrec (fun i hi _ => ha' i hi) (Nat.zero_le k) hr
    · rw [hvisit, State.rollVisit_busy hclosing hdue (by rw [← hv]; exact hbusy), ← hv]
      rfl
    · rw [hvisit, State.rollVisit_idle hclosing hdue (by rw [← hv]; exact hidle), ← hv]
      refine congrArg (fun t : State => Host.Outcome.next t.started) ?_
      refine (State.serveRoll_plain (r := r) ?_ ?_ hb ?_ ?_ ?_).trans ?_
      · exact hget
      · exact hr
      · exact hw
      · exact he
      · exact hp
      · rfl

/-! ## The orders about one line -/

section
variable {s : State} {l : LineNo}

/-! ### Health GOOD again -/

theorem State.setHealth_same (n : Nat) : s.setHealth l n (s.unit l).health = s.modUnit l fun u => { u with score := n } := by
  rw [State.setHealth, if_pos rfl]
  rfl

/-- The line unit after RESTORE LINE (R20, R21). -/
def LineUnit.restored (u : LineUnit) : LineUnit :=
  if u.state ≠ .barred then { u with score := 0, health := .good }
  else if u.enabled then { u with score := 0, health := .good, quietTimer := false, state := .idle, ringCount := 0 }
  else { u with score := 0, health := .good, quietTimer := false, state := .off }

/-- RESTORE LINE sets the health and releases a BARRED line (R20, R21). -/
theorem State.restoreLine_eq : s.restoreLine l = (s.setHealth l 0 .good).modUnit l fun u =>
    if u.state ≠ .barred then u
    else if u.enabled then { u with quietTimer := false, state := .idle, ringCount := 0 }
    else { u with quietTimer := false, state := .off } := by
  rw [State.restoreLine, State.releaseLine]
  split
  · next h =>
    refine State.modUnit_congr ?_
    rw [if_neg (not_not.2 h)]
    simp only [LineUnit.rest]
  · next h => exact (State.modUnit_self (by exact if_pos h)).symm

theorem State.unit_restoreLine : (s.restoreLine l).unit l = (s.unit l).restored := by
  rw [State.restoreLine_eq, State.unit_modUnit, State.unit_setHealth, LineUnit.restored]

theorem State.line_restoreLine : (s.restoreLine l).line l = { s.line l with unit := (s.unit l).restored } := by
  have hdialog : (s.restoreLine l).dialog l = s.dialog l := by
    rw [State.restoreLine_eq, State.dialog_modUnit, State.dialog_setHealth]
  have hctx : (s.restoreLine l).ctx l = s.ctx l := by
    rw [State.restoreLine_eq, State.ctx_modUnit, State.ctx_setHealth]
  rw [← State.unit_restoreLine]
  show _ = ({ unit := _, dialog := s.dialog l, ctx := s.ctx l } : Line)
  rw [← hdialog, ← hctx]
  rfl

theorem State.line_restoreLine_ne {k : LineNo} (h : k ≠ l) : (s.restoreLine l).line k = s.line k := by
  rw [State.restoreLine_eq, State.line_modUnit, if_neg (Ne.symm h), State.line_setHealth_ne s l 0 .good h]

theorem State.chan_restoreLine (d : ChanNo) : (s.restoreLine l).chan d =
    if .good = (s.unit l).health ∨ (s.chan d).state ≠ .up then s.chan d
    else (s.chan d).noted (noticeHealth (healthNotice (s.unit l).health .good) l .good 0) := by
  rw [State.restoreLine_eq, State.chan_modUnit, State.chan_setHealth]

theorem State.restoreLine_frame : ∃ x y, s.restoreLine l = { s with lines := x, channels := y } := by
  obtain ⟨y, hy⟩ := s.setHealth_eq l 0 .good
  rw [State.restoreLine_eq, hy]
  exact ⟨_, _, rfl⟩

/-! ### The clear of a line without sessions, seen from elsewhere -/

/-- `Sessionless` looks at the line's dialog and session stack, the ports, and the budget states. -/
theorem State.Sessionless.of_eq {t : State} (h : s.Sessionless l) (hd : t.dialog l = s.dialog l) (hx : t.ctx l = s.ctx l)
    (hp : ∀ c, (t.chan c).ports = (s.chan c).ports)
    (hb : ∀ slot, (t.presenceOf slot).budget = (s.presenceOf slot).budget) : t.Sessionless l where
  check := by rw [hd]; exact h.check
  stack := by rw [hx]; exact h.stack
  openings c p x hx := h.openings c p x ((State.port_of_ports (hp c)).symm.trans hx)
  grace slot hs := by rw [hb]; exact h.grace slot (hd ▸ hs)

theorem State.uncounted_frame (s : State) (l : LineNo) : ∃ p, s.uncounted l = { s with presence := p } := by
  unfold State.uncounted
  split
  · exact ⟨_, rfl⟩
  · exact ⟨_, rfl⟩

theorem State.chan_cleared (cause : Cause) (c : ChanNo) : (s.cleared l cause).chan c =
    { s.chan c with queue := (s.chan c).queue.filter fun w => w.line != l } := by
  obtain ⟨p, hp⟩ := s.uncounted_frame l
  rw [State.cleared, State.chan_setLine, State.chan_unqueued, hp]
  rfl

end

section
variable {s : State} {c : ChanNo} {f : OrderFrame} {b : Byte} {l : LineNo}

theorem Channel.noted_reply (ch : Channel) (n : Notice) (r : Option Reply) :
    ({ ch with reply := r } : Channel).noted n = { ch.noted n with reply := r } := by
  unfold Channel.noted
  cases hst : ch.state <;> by_cases hl : ch.notices.length < Config.noticeCap <;> simp [hl]

theorem State.withLine_bad {code : Byte} {act : LineNo → State} (hf : f.fits 1) (hb : f.body = [b]) (h : 63 < b.toNat) :
    (s.inExecution c code f).withLine c (orderOf code f) act = (s.inExecution c code f).replied c f .badValue [] := by
  rw [State.withLine, orderOf_body hf (by decide), bodyField_single hb, lineOf, dif_neg (by omega)]
  exact State.answer_inExecution _ _

theorem State.withLine_at {code : Byte} {act : LineNo → State} (hf : f.fits 1) (hb : f.body = [b]) (h : l.val = b.toNat) :
    (s.inExecution c code f).withLine c (orderOf code f) act = act l := by
  have hline : lineOf b.toNat = some l := by
    rw [lineOf, dif_pos (h ▸ l.isLt)]
    exact congrArg some (Fin.ext h.symm)
  rw [State.withLine, orderOf_body hf (by decide), bodyField_single hb, hline]

theorem State.unit_inExecution (code : Byte) : (s.inExecution c code f).unit l = s.unit l := State.unit_modChan ..

/-- An order about a line is answered after it has changed the line unit. -/
theorem State.answer_modUnit (code : Byte) (g : LineUnit → LineUnit) (o : Outcome) (body : List Byte) :
    ((s.inExecution c code f).modUnit l g).answer c o body = ((s.inExecution c code f).modUnit l g).replied c f o body :=
  State.answer_of_channels (by rw [State.modUnit_channels]) o body

end

/-- Settles O44: the orders about one line, by the line state they find. -/
theorem lineOrdersActOnTheLine : Obligations.LineOrdersActOnTheLine := by
  intro s c f b ha hfp hf hb answered
  refine ⟨fun h => ?_, fun l hl => ?_, fun hop => ?_⟩
  · have hrun : exec (.readLine c f) s = .next ((s.inExecution c 27 f).orderReadLine c (orderOf 27 f)).started :=
      congrArg Host.Outcome.next (ha.run_fixed hf rfl (by decide) rfl (ChanState.allows_live (by decide)) (.inl hfp) rfl)
    rw [hrun, State.orderReadLine, State.withLine_bad hf hb h]
  · have hrun : exec (.readLine c f) s = .next ((s.inExecution c 27 f).orderReadLine c (orderOf 27 f)).started :=
      congrArg Host.Outcome.next (ha.run_fixed hf rfl (by decide) rfl (ChanState.allows_live (by decide)) (.inl hfp) rfl)
    rw [hrun, State.orderReadLine, State.withLine_at hf hb hl, State.unit_inExecution, State.answer_inExecution]
    rfl
  · have enable {t : State} (h : (s.inExecution c 22 f).orderEnableLine c (orderOf 22 f) = t) :
        exec (.enableLine c f) s = .next t.started :=
      h ▸ congrArg Host.Outcome.next (ha.run_operator hfp hop hf rfl (by decide) (by decide))
    have disable {t : State} (h : (s.inExecution c 23 f).orderDisableLine c (orderOf 23 f) = t) :
        exec (.disableLine c f) s = .next t.started :=
      h ▸ congrArg Host.Outcome.next (ha.run_operator hfp hop hf rfl (by decide) (by decide))
    have restore {t : State} (h : (s.inExecution c 24 f).orderRestoreLine c (orderOf 24 f) = t) :
        exec (.restoreLine c f) s = .next t.started :=
      h ▸ congrArg Host.Outcome.next (ha.run_operator hfp hop hf rfl (by decide) (by decide))
    have hsetup : ∀ code, (s.inExecution c code f).setup = s.setup := fun _ => rfl
    refine ⟨fun hset => ⟨enable ?_, disable ?_⟩, fun h => ⟨restore ?_, fun hset => ⟨enable ?_, disable ?_⟩⟩, ?_⟩
    · rw [State.orderEnableLine, hsetup, hset, if_pos rfl, State.answer_inExecution]
    · rw [State.orderDisableLine, hsetup, hset, if_pos rfl, State.answer_inExecution]
    · exact State.withLine_bad hf hb h
    · rw [State.orderEnableLine, hsetup, hset, if_neg (by decide), State.withLine_bad hf hb h]
    · rw [State.orderDisableLine, hsetup, hset, if_neg (by decide), State.withLine_bad hf hb h]
    · intro l hl done
      have enabled {t : State} (hset : s.setup = false)
          (h : ((s.inExecution c 22 f).enableLine l).answer c .done [] = t) : exec (.enableLine c f) s = .next t.started :=
        enable (by rw [State.orderEnableLine, hsetup, hset, if_neg (by decide), State.withLine_at hf hb hl]; exact h)
      have disabled {t : State} (hset : s.setup = false)
          (h : ((s.inExecution c 23 f).disableLine l).answer c .done [] = t) : exec (.disableLine c f) s = .next t.started :=
        disable (by rw [State.orderDisableLine, hsetup, hset, if_neg (by decide), State.withLine_at hf hb hl]; exact h)
      refine ⟨fun hset => ⟨fun hoff => ⟨fun hbar => enabled hset ?_, fun hbar => enabled hset ?_⟩, fun hoff => enabled hset ?_,
        fun hidle => disabled hset ?_, fun hrest => disabled hset ?_, fun hact hless => disabled hset ?_⟩,
        fun hgood hbar => restore ?_, fun hbad => ?_⟩
      · simp only [State.enableLine, State.unit_inExecution, hoff, hbar, if_true, State.modUnit_modUnit,
          State.answer_modUnit]
      · simp only [State.enableLine, State.unit_inExecution, hoff, hbar, if_false, State.modUnit_modUnit,
          State.answer_modUnit, LineUnit.rest, if_true]
      · have hkeep : (s.inExecution c 22 f).enableLine l = (s.inExecution c 22 f).modUnit l fun u => { u with enabled := true } := by
          rw [State.enableLine, State.unit_inExecution]
          split
          · next h => exact absurd h hoff
          · rfl
        rw [hkeep, State.answer_modUnit]
      · simp only [State.disableLine, State.unit_inExecution, hidle, State.modUnit_modUnit, State.answer_modUnit]
      · have hkeep : (s.inExecution c 23 f).disableLine l =
            (s.inExecution c 23 f).modUnit l fun u => { u with enabled := false } := by
          have hnot : ¬ (((s.inExecution c 23 f).modUnit l fun u => { u with enabled := false }).unit l).state.active =
              true := by
            rw [State.unit_modUnit, State.unit_inExecution]
            rcases hrest with h | h | h <;> simp [h, LineState.active]
          rw [State.disableLine, State.unit_inExecution]
          rcases hrest with h | h | h <;> rw [h] <;> exact if_neg hnot
        rw [hkeep, State.answer_modUnit]
      · generalize ht : (s.inExecution c 23 f).modUnit l (fun u => { u with enabled := false }) = t
        have hunit : (t.unit l).state = (s.unit l).state := by
          rw [← ht, State.unit_modUnit, State.unit_inExecution]
        have hclear : (s.inExecution c 23 f).disableLine l = t.clearLine l .lineDisabled := by
          rw [State.disableLine, State.unit_inExecution, ht]
          split
          · next h => rw [h] at hact; cases hact
          · rfl
        have hless' : t.Sessionless l := by
          refine hless.of_eq ?_ ?_ (fun d => ?_) fun slot => ?_
          · rw [← ht, State.dialog_modUnit]; exact State.dialog_modChan ..
          · rw [← ht, State.ctx_modUnit]; exact State.ctx_modChan ..
          · rw [← ht, State.chan_modUnit, State.inExecution, State.chan_modChan]
            split <;> rfl
          · rw [← ht]; rfl
        rw [hclear, State.clearLine_cleared _ (hunit ▸ hact) hless']
        refine State.answer_replied (code := 23) ?_ _ _
        rw [State.chan_cleared, ← ht, State.chan_modUnit, State.chan_inExecution]
      · rw [State.orderRestoreLine, State.withLine_at hf hb hl]
        have hu : (s.inExecution c 24 f).restoreLine l = (s.inExecution c 24 f).modUnit l fun u => { u with score := 0 } := by
          have hsame : (s.inExecution c 24 f).setHealth l 0 .good =
              (s.inExecution c 24 f).modUnit l fun u => { u with score := 0 } := by
            rw [← State.setHealth_same, State.unit_inExecution, hgood]
          rw [State.restoreLine, hsame, State.releaseLine, if_neg]
          rw [State.unit_modUnit, State.unit_inExecution]
          exact hbar
        rw [hu, State.answer_modUnit]
      · have horders : (((s.inExecution c 24 f).restoreLine l).chan c).orders = [orderOf 24 f] := by
          rw [State.chan_restoreLine]
          split
          · rw [State.chan_inExecution]
          · rw [Channel.noted_orders, State.chan_inExecution]
        refine ⟨_, restore ((State.withLine_at hf hb hl).trans (State.answer_replied horders _ _)), ?_, fun k hk => ?_, fun d => ?_⟩
        · rw [State.replied, State.unit_modChan, State.unit_restoreLine, State.unit_inExecution]
          rfl
        · rw [State.replied, State.line_modChan, State.line_restoreLine_ne hk, State.inExecution, State.line_modChan]
        · have hnotice : noticeHealth (healthNotice (s.unit l).health .good) l .good 0 =
              { kind := if (s.unit l).health = .barred then .lineRestored else .lineGood, line := some l,
                body := bytesBE 1 l.val ++ [0, 0] } := by
            cases hh : (s.unit l).health
            · exact absurd hh hbad
            · rfl
            · rfl
          have hchan : ∀ d, ((s.inExecution c 24 f).restoreLine l).chan d =
              if ((s.inExecution c 24 f).chan d).state = .up then ((s.inExecution c 24 f).chan d).noted
                { kind := if (s.unit l).health = .barred then .lineRestored else .lineGood, line := some l,
                  body := bytesBE 1 l.val ++ [0, 0] }
              else (s.inExecution c 24 f).chan d := by
            intro d
            rw [State.chan_restoreLine, State.unit_inExecution, hnotice]
            by_cases hup : ((s.inExecution c 24 f).chan d).state = .up
            · rw [if_neg fun h => h.elim (fun k => hbad k.symm) fun k => k hup, if_pos hup]
            · rw [if_pos (.inr hup), if_neg hup]
          rw [State.replied, State.replied, State.chan_modChan, State.chan_modChan, hchan]
          by_cases hdc : c = d
          · subst hdc
            simp only [if_true]
            split
            · exact (Channel.noted_reply _ _ _).symm
            · rfl
          · simp only [hdc, if_false]

/-! ## RESET GROUP -/

/-- A line after RESET GROUP (R24). -/
def Line.reset (x : Line) : Line :=
  if x.unit.state.active = true then
    { x.afterClear .groupReset with unit := { (x.afterClear .groupReset).unit with score := 0, health := .good } }
  else if x.unit.state = .idle then { x with unit := { x.unit with score := 0, health := .good, ringCount := 0 } }
  else { x with unit := x.unit.restored }

theorem LineUnit.restored_of_ne {u : LineUnit} (h : u.state ≠ .barred) :
    u.restored = { u with score := 0, health := .good } := if_pos h

theorem Line.reset_active {x : Line} (h : x.unit.state.active = true) : x.reset =
    { x.afterClear .groupReset with unit := { (x.afterClear .groupReset).unit with score := 0, health := .good } } :=
  if_pos h

/-- A line that was not active is restored, and the ring counter of an IDLE one is 0 (R24). -/
theorem Line.reset_inactive {x : Line} (h : ¬ x.unit.state.active = true) : x.reset = { x with unit :=
    if x.unit.restored.state = .idle then { x.unit.restored with ringCount := 0 } else x.unit.restored } := by
  rw [Line.reset, if_neg h]
  by_cases hidle : x.unit.state = .idle
  · have hne : x.unit.state ≠ .barred := by rw [hidle]; decide
    rw [if_pos hidle, LineUnit.restored_of_ne hne, if_pos hidle]
  · rw [if_neg hidle]
    by_cases hbar : x.unit.state = .barred
    · cases he : x.unit.enabled <;> simp [LineUnit.restored, hbar, he]
    · rw [LineUnit.restored_of_ne hbar, if_neg hidle]

section
variable {s : State} {l : LineNo}

theorem State.uncounted_budget (slot : Nat) : ((s.uncounted l).presenceOf slot).budget = (s.presenceOf slot).budget := by
  unfold State.uncounted
  split
  · next k _ =>
    by_cases h : slot = k
    · rw [h, State.presenceOf_setPresence]
    · rw [State.presenceOf_setPresence_ne _ _ h]
  · rfl

/-- From `s` to `t` the lines of `done` have been reset (R24): they stand in no wait queue if they were active, and nothing
that `Sessionless` looks at has changed for another line. -/
structure State.GroupReset (s t : State) (done : List LineNo) : Prop where
  lines  : ∀ l, t.line l = if l ∈ done then (s.line l).reset else s.line l
  ports  : ∀ c, (t.chan c).ports = (s.chan c).ports
  orders : ∀ c, (t.chan c).orders = (s.chan c).orders
  queues : ∀ c, ∀ w ∈ (t.chan c).queue, w ∈ (s.chan c).queue ∧ (w.line ∈ done → (s.unit w.line).state.active = false)
  budget : ∀ slot, (t.presenceOf slot).budget = (s.presenceOf slot).budget

/-- What RESET GROUP does at a line after the clear (R24). -/
def State.reset1 (s : State) (l : LineNo) : State :=
  if ((s.restoreLine l).unit l).state = .idle then (s.restoreLine l).modUnit l fun u => { u with ringCount := 0 }
  else s.restoreLine l

theorem State.reset1_line : (s.reset1 l).line l = { s.line l with unit :=
    if (s.unit l).restored.state = .idle then { (s.unit l).restored with ringCount := 0 } else (s.unit l).restored } := by
  rw [State.reset1, State.unit_restoreLine]
  split
  · rw [State.line_modUnit, if_pos rfl, State.line_restoreLine, State.unit_restoreLine]
  · exact State.line_restoreLine

theorem State.reset1_line_ne {k : LineNo} (h : k ≠ l) : (s.reset1 l).line k = s.line k := by
  rw [State.reset1]
  split
  · rw [State.line_modUnit, if_neg (Ne.symm h), State.line_restoreLine_ne h]
  · exact State.line_restoreLine_ne h

theorem State.reset1_presence : (s.reset1 l).presence = s.presence := by
  obtain ⟨x, y, h⟩ := State.restoreLine_frame (s := s) (l := l)
  rw [State.reset1, h]
  split <;> rfl

theorem State.reset1_chan (d : ChanNo) : ((s.reset1 l).chan d).ports = (s.chan d).ports ∧
    ((s.reset1 l).chan d).orders = (s.chan d).orders ∧ ((s.reset1 l).chan d).queue = (s.chan d).queue := by
  have hchan : (s.reset1 l).chan d = (s.restoreLine l).chan d := by
    rw [State.reset1]
    split
    · exact State.chan_modUnit ..
    · rfl
  rw [hchan, State.chan_restoreLine]
  split
  · exact ⟨rfl, rfl, rfl⟩
  · exact ⟨Channel.noted_ports _ _, Channel.noted_orders _ _, Channel.noted_queue _ _⟩

theorem LineUnit.afterClear_state (u : LineUnit) (cause : Cause) : (u.afterClear cause).state = .clearing := by
  unfold LineUnit.afterClear
  split <;> rfl

/-- A line without sessions is reset alone (R24). -/
theorem State.resetLine_groupReset (h : (s.unit l).state.active = true → s.Sessionless l) :
    s.GroupReset (s.resetLine l) [l] := by
  have hreset : s.resetLine l = (s.clearLine l .groupReset).reset1 l := rfl
  by_cases hact : (s.unit l).state.active = true
  · rw [hreset, State.clearLine_cleared _ hact (h hact)]
    obtain ⟨p, hp⟩ := s.uncounted_frame l
    have hline : ∀ k, k ≠ l → (s.cleared l .groupReset).line k = s.line k := fun k hk => by
      rw [State.cleared, State.line_setLine_ne _ _ hk, hp]
      rfl
    have hself : (s.cleared l .groupReset).line l = (s.line l).afterClear .groupReset := State.line_setLine_self ..
    refine ⟨fun k => ?_, fun d => ?_, fun d => ?_, fun d w hw => ?_, fun slot => ?_⟩
    · by_cases hk : k = l
      · subst hk
        have hstate : ((s.cleared k .groupReset).unit k).state = .clearing := by
          rw [State.unit, hself]; exact LineUnit.afterClear_state _ _
        rw [State.reset1_line, LineUnit.restored_of_ne (by rw [hstate]; decide), if_neg (by rw [hstate]; decide),
          if_pos (List.mem_singleton.2 rfl), Line.reset_active hact, State.unit, hself]
      · rw [State.reset1_line_ne hk, hline k hk, if_neg (by simpa using hk)]
    · rw [(State.reset1_chan d).1, State.chan_cleared]
    · rw [(State.reset1_chan d).2.1, State.chan_cleared]
    · rw [(State.reset1_chan d).2.2, State.chan_cleared, List.mem_filter, bne_iff_ne] at hw
      exact ⟨hw.1, fun hmem => absurd (List.mem_singleton.1 hmem) hw.2⟩
    · rw [State.presenceOf, State.reset1_presence]
      exact State.uncounted_budget slot
  · have hkeep : s.clearLine l .groupReset = s := if_neg hact
    rw [hreset, hkeep]
    refine ⟨fun k => ?_, fun d => (State.reset1_chan d).1, fun d => (State.reset1_chan d).2.1, fun d w hw => ?_, fun slot => ?_⟩
    · by_cases hk : k = l
      · subst hk
        rw [State.reset1_line, if_pos (List.mem_singleton.2 rfl), Line.reset_inactive hact]
        rfl
      · rw [State.reset1_line_ne hk, if_neg (by simpa using hk)]
    · rw [(State.reset1_chan d).2.2] at hw
      exact ⟨hw, fun hmem => by rw [List.mem_singleton.1 hmem]; simpa using hact⟩
    · rw [State.presenceOf, State.reset1_presence]
      rfl

theorem State.GroupReset.trans {t u : State} {done : List LineNo} (h : s.GroupReset t done) (k : t.GroupReset u [l])
    (hl : l ∉ done) : s.GroupReset u (done ++ [l]) where
  lines j := by
    rw [k.lines, h.lines]
    by_cases hj : j = l
    · subst hj
      simp [hl]
    · simp [hj]
  ports c := (k.ports c).trans (h.ports c)
  orders c := (k.orders c).trans (h.orders c)
  queues c w hw := by
    obtain ⟨ht, hlast⟩ := k.queues c w hw
    obtain ⟨hs, hdone⟩ := h.queues c w ht
    refine ⟨hs, fun hmem => ?_⟩
    rcases List.mem_append.1 hmem with hm | hm
    · exact hdone hm
    · have hsame : t.line w.line = s.line w.line := by
        rw [h.lines, if_neg (List.mem_singleton.1 hm ▸ hl)]
      have := hlast hm
      rwa [State.unit, hsame] at this
  budget slot := (k.budget slot).trans (h.budget slot)

/-- Resetting lines one after another resets them all (R24). -/
theorem State.foldl_resetLine (todo : List LineNo) : ∀ (t : State) (done : List LineNo), (done ++ todo).Nodup →
    (∀ l ∈ todo, (s.unit l).state.active = true → s.Sessionless l) → s.GroupReset t done →
    s.GroupReset (todo.foldl (fun u l => u.resetLine l) t) (done ++ todo) := by
  induction todo with
  | nil => exact fun t done _ _ h => by rwa [List.append_nil]
  | cons l todo ih =>
    intro t done hnd hless h
    have hl : l ∉ done := fun hmem => (List.nodup_append.1 hnd).2.2 l hmem l List.mem_cons_self rfl
    have hsame : t.line l = s.line l := by rw [h.lines, if_neg hl]
    have hone : t.GroupReset (t.resetLine l) [l] := by
      refine State.resetLine_groupReset fun hact => ?_
      rw [State.unit, hsame] at hact
      refine (hless l List.mem_cons_self hact).of_eq ?_ ?_ h.ports h.budget
      · rw [State.dialog, hsame]; rfl
      · rw [State.ctx, hsame]; rfl
    have hnd' : ((done ++ [l]) ++ todo).Nodup := by rwa [List.append_assoc, List.singleton_append]
    have hrest := ih (t.resetLine l) (done ++ [l]) hnd' (fun k hk => hless k (List.mem_cons_of_mem l hk)) (h.trans hone hl)
    rw [List.append_assoc, List.singleton_append] at hrest
    rw [List.foldl_cons]
    exact hrest

end

/-- Settles O45: RESET_GROUP, by induction on the lines of the group. -/
theorem resetGroupReachesItsEightLines : Obligations.ResetGroupReachesItsEightLines := by
  intro s c f b ha hfp hop hf hb
  have hrun : exec (.resetGroup c f) s = .next ((s.inExecution c 25 f).orderResetGroup c (orderOf 25 f)).started :=
    congrArg Host.Outcome.next (ha.run_operator hfp hop hf rfl (by decide) (by decide))
  have hfield : bodyField (orderOf 25 f).body 0 1 = b.toNat := by
    rw [orderOf_body hf (by decide), bodyField_single hb]
  refine ⟨fun h => ?_, fun h hless => ?_⟩
  · rw [hrun, State.orderResetGroup, hfield]
    exact congrArg (fun t : State => Host.Outcome.next t.started) ((if_pos (by omega)).trans (State.answer_inExecution _ _))
  · generalize hu : s.inExecution c 25 f = u at hrun
    have hmem : ∀ l : LineNo, l ∈ groupLines b.toNat ↔ l.val / 8 = b.toNat := by
      intro l
      simp [groupLines, allLines]
    have hnd : (groupLines b.toNat).Nodup := (List.nodup_finRange 64).filter _
    have hline : ∀ l, u.line l = s.line l := fun l => by rw [← hu]; exact State.line_modChan ..
    have hstart : u.GroupReset u [] := ⟨fun _ => rfl, fun _ => rfl, fun _ => rfl,
      fun _ _ hw => ⟨hw, fun hn => absurd hn List.not_mem_nil⟩, fun _ => rfl⟩
    have hall := State.foldl_resetLine (groupLines b.toNat) u [] hnd (fun l hl hact => by
      rw [State.unit, hline] at hact
      refine (hless l ((hmem l).1 hl) hact).of_eq ?_ ?_ (fun d => ?_) fun slot => ?_
      · rw [State.dialog, hline]; rfl
      · rw [State.ctx, hline]; rfl
      · rw [← hu, State.inExecution, State.chan_modChan]
        split <;> rfl
      · rw [← hu]; rfl) hstart
    rw [List.nil_append] at hall
    have horders : (((groupLines b.toNat).foldl (fun t l => t.resetLine l) u).chan c).orders = [orderOf 25 f] := by
      rw [hall.orders, ← hu, State.chan_inExecution]
    have hend : u.orderResetGroup c (orderOf 25 f) =
        ((groupLines b.toNat).foldl (fun t l => t.resetLine l) u).replied c f .done [] := by
      rw [State.orderResetGroup, hfield]
      exact (if_neg (by omega)).trans (State.answer_replied horders _ _)
    rw [hend] at hrun
    clear horders hend
    generalize (groupLines b.toNat).foldl (fun t l => t.resetLine l) u = v at hrun hall
    refine ⟨v.replied c f .done [], hrun, ?_, fun l => ⟨fun hout => ?_, fun hin => ⟨fun d w hw hact => ?_, ?_⟩⟩⟩
    · rw [State.replied, State.chan_modChan_self]
    · rw [State.replied, State.line_modChan, hall.lines, if_neg (fun k => hout ((hmem l).1 k)), hline]
    · have hqueue : ((v.replied c f .done []).chan d).queue = (v.chan d).queue := by
        rw [State.replied, State.chan_modChan]
        split <;> rfl
      rw [hqueue] at hw
      rintro rfl
      have hno := (hall.queues d w hw).2 ((hmem w.line).2 hin)
      rw [State.unit, hline] at hno
      exact absurd (hact.symm.trans hno) (by decide)
    · rw [State.replied, State.line_modChan, hall.lines, if_pos ((hmem l).2 hin), hline, Line.reset]
      dsimp only
      refine ite_congr rfl (fun _ => rfl) fun _ => ite_congr rfl (fun _ => rfl) fun _ => ?_
      by_cases hbar : (s.line l).unit.state = .barred
      · simp only [LineUnit.restored, hbar, ne_eq, not_true_eq_false, if_false, if_true]
      · simp only [LineUnit.restored, hbar, ne_eq, not_false_eq_true, if_false, if_true]

end Sys2Proof.Machine
end

section
/-! LOAD TARIFF and the configuration items (R41, R42, R111, R114, R177, R180). -/

namespace Sys2Proof.Machine

/-! ## Tariff items -/

theorem beNat_two (hi lo : Byte) : beNat [hi, lo] = hi.toNat * 256 + lo.toNat := by simp [beNat]

theorem ascending_iff (ps : List SwitchPoint) : ascending ps = true ↔ ps.IsChain fun a b => a.minute < b.minute := by
  induction ps with
  | nil => simp [ascending]
  | cons a t ih =>
    cases t with
    | nil => simp [ascending]
    | cons b t => rw [ascending, Bool.and_eq_true, decide_eq_true_eq, ih, List.isChain_cons_cons]

theorem pointsOk_iff (ps : List SwitchPoint) : pointsOk ps = true ↔ switchListRight ps := by
  simp [pointsOk, switchListRight, ascending_iff, and_assoc]

/-- A switch point reads back from its three bytes (R180). -/
theorem parsePoints_switchBytes (rest : List Byte) (ps : List SwitchPoint)
    (h : ∀ p ∈ ps, p.minute ≤ 65535 ∧ p.period ≤ 255) :
    parsePoints ps.length (switchBytes ps ++ rest) = some (ps, rest) := by
  induction ps with
  | nil => rfl
  | cons p ps ih =>
    obtain ⟨hm, hp⟩ := h p List.mem_cons_self
    have hbytes : switchBytes (p :: ps) ++ rest = BitVec.ofNat 8 (p.minute / 256) :: BitVec.ofNat 8 p.minute ::
        BitVec.ofNat 8 p.period :: (switchBytes ps ++ rest) := by
      simp [switchBytes, bytesBE]
    have hmin : beNat [BitVec.ofNat 8 (p.minute / 256), BitVec.ofNat 8 p.minute] = p.minute := by
      rw [beNat_two, BitVec.toNat_ofNat, BitVec.toNat_ofNat]
      omega
    have hper : (BitVec.ofNat 8 p.period).toNat = p.period := by
      rw [BitVec.toNat_ofNat]
      omega
    rw [hbytes, List.length_cons, parsePoints, ih fun q hq => h q (List.mem_cons_of_mem p hq), Option.map_some, hmin, hper]

theorem parsePoints_short : ∀ (n : Nat) (bs : List Byte), bs.length < 3 * n → parsePoints n bs = none
  | 0, _, h => by omega
  | n + 1, hi :: lo :: p :: bs, h => by
    rw [parsePoints, parsePoints_short n bs (by simp only [List.length_cons] at h; omega)]
    rfl
  | _ + 1, [], _ => rfl
  | _ + 1, [_], _ => rfl
  | _ + 1, [_, _], _ => rfl

theorem switchListRight.fields {ps : List SwitchPoint} (h : switchListRight ps) :
    ∀ p ∈ ps, p.minute ≤ 65535 ∧ p.period ≤ 255 := fun p hp => by
  obtain ⟨hm, hq⟩ := h.2.1 p hp
  omega

theorem toNat_count {ps : List SwitchPoint} (h : ps.length ≤ 255) : (BitVec.ofNat 8 ps.length).toNat = ps.length := by
  rw [BitVec.toNat_ofNat]
  omega

theorem Vector.set_eq_setIfInBounds' {α : Type} {n : Nat} (v : Vector α n) (i : Fin n) (a : α) :
    v.set i.val a i.isLt = v.setIfInBounds i.val a := by
  ext j hj
  simp [Vector.getElem_set, Vector.getElem_setIfInBounds]

/-- Items of a switch list: the day kind, the count and the points (R114, R180). -/
theorem parseItem_switchList (d : Byte) (ps : List SwitchPoint) (rest : List Byte) (hn : ps.length ≤ 255)
    (hf : ∀ p ∈ ps, p.minute ≤ 65535 ∧ p.period ≤ 255) :
    parseItem ([5, d, BitVec.ofNat 8 ps.length] ++ switchBytes ps ++ rest) =
      match dayKindOf d.toNat with
      | some k => if pointsOk ps then some (.switchList k ps, rest) else none
      | none => none := by
  have hparse := parsePoints_switchBytes rest ps hf
  simp only [List.cons_append, List.nil_append, parseItem, toNat_count hn, hparse]
  cases dayKindOf d.toNat <;> rfl

/-- An item that may be written reads as one that writes the same (R114). -/
theorem TariffItemIs.parse {bs : List Byte} {g : Bank → Bank} (h : TariffItemIs bs g) (rest : List Byte) :
    bs ≠ [] ∧ ∃ item, parseItem (bs ++ rest) = some (item, rest) ∧ ∀ b : Bank, b.write item = g b := by
  cases h with
  | rate d k p hi lo channel speed period =>
    have hd : chanOf d.toNat = some ⟨d.toNat, by omega⟩ := dif_pos (by omega)
    have hk : ∃ c : SpeedClass, speedClassOf k.toNat = some c ∧
        ∀ (e : ChanNo) (q : Nat), rateIndex e c q = e.val * 12 + k.toNat * 4 + q := by
      have : k.toNat = 0 ∨ k.toNat = 1 ∨ k.toNat = 2 := by omega
      rcases this with h | h | h <;> rw [h]
      · exact ⟨.slow, rfl, fun _ _ => rfl⟩
      · exact ⟨.medium, rfl, fun _ _ => rfl⟩
      · exact ⟨.fast, rfl, fun _ _ => rfl⟩
    obtain ⟨c, hc, hcls⟩ := hk
    refine ⟨List.cons_ne_nil _ _, .rate ⟨d.toNat, by omega⟩ c p.toNat (rateOf (beNat [hi, lo])), ?_, fun b => ?_⟩
    · simp only [List.cons_append, List.nil_append, parseItem, hd, hc, if_pos period]
      rfl
    · rw [Bank.write, hcls, rateOf, beNat_two]
  | minimum d hi lo channel =>
    have hd : chanOf d.toNat = some ⟨d.toNat, by omega⟩ := dif_pos (by omega)
    refine ⟨List.cons_ne_nil _ _, .minimum ⟨d.toNat, by omega⟩ (min (beNat [hi, lo]) 255), ?_, fun b => ?_⟩
    · simp only [List.cons_append, List.nil_append, parseItem, hd, Option.map_some]
      rfl
    · rw [Bank.write, Vector.set_eq_setIfInBounds', beNat_two]
  | percent k v cls =>
    refine ⟨List.cons_ne_nil _ _, .percent k.toNat (min v.toNat 250), ?_, fun b => rfl⟩
    simp only [List.cons_append, List.nil_append, parseItem, if_pos cls]
    rfl
  | up => exact ⟨List.cons_ne_nil _ _, .rounding .up, rfl, fun _ => rfl⟩
  | nearest => exact ⟨List.cons_ne_nil _ _, .rounding .nearest, rfl, fun _ => rfl⟩
  | down => exact ⟨List.cons_ne_nil _ _, .rounding .down, rfl, fun _ => rfl⟩
  | workday ps right =>
    refine ⟨List.cons_ne_nil _ _, .switchList .workday ps, ?_, fun _ => rfl⟩
    rw [parseItem_switchList _ _ _ (by have := right.1; omega) right.fields, (pointsOk_iff ps).2 right]
    rfl
  | restday ps right =>
    refine ⟨List.cons_ne_nil _ _, .switchList .restday ps, ?_, fun _ => rfl⟩
    rw [parseItem_switchList _ _ _ (by have := right.1; omega) right.fields, (pointsOk_iff ps).2 right]
    rfl

/-- What may not stand where an item should does not read as one (R114). -/
theorem TariffRefused.parse {bs : List Byte} (h : TariffRefused bs) : bs ≠ [] ∧ parseItem bs = none := by
  cases h with
  | tag x rest unknown =>
    refine ⟨List.cons_ne_nil _ _, ?_⟩
    have hne : x ≠ 1#8 ∧ x ≠ 2#8 ∧ x ≠ 3#8 ∧ x ≠ 4#8 ∧ x ≠ 5#8 := by
      rcases unknown with rfl | h
      · decide
      · refine ⟨?_, ?_, ?_, ?_, ?_⟩ <;> rintro rfl <;> exact absurd h (by decide)
    simp only [parseItem, hne, if_false]
  | rate d k p hi lo rest wrong =>
    refine ⟨List.cons_ne_nil _ _, ?_⟩
    have hd : 3 < d.toNat → chanOf d.toNat = none := fun h => dif_neg (by omega)
    have hk : 2 < k.toNat → speedClassOf k.toNat = none := fun h => by
      rw [speedClassOf, if_neg (by omega), if_neg (by omega), if_neg (by omega)]
    simp only [List.cons_append, List.nil_append, parseItem]
    rcases wrong with h | h | h
    · rw [hd h]
      rfl
    · rw [hk h]
      cases chanOf d.toNat <;> rfl
    · cases chanOf d.toNat <;> cases speedClassOf k.toNat <;> simp [Nat.not_le.2 h]
  | minimum d hi lo rest wrong =>
    refine ⟨List.cons_ne_nil _ _, ?_⟩
    have hd : chanOf d.toNat = none := dif_neg (by omega)
    simp only [List.cons_append, List.nil_append, parseItem, hd]
    rfl
  | percent k v rest wrong =>
    refine ⟨List.cons_ne_nil _ _, ?_⟩
    simp only [List.cons_append, List.nil_append, parseItem, if_neg (Nat.not_le.2 wrong)]
    rfl
  | rounding m rest wrong =>
    refine ⟨List.cons_ne_nil _ _, ?_⟩
    have hm : roundingOf m.toNat = none := by
      rw [roundingOf, if_neg (by omega), if_neg (by omega), if_neg (by omega)]
    simp only [List.cons_append, List.nil_append, parseItem, hm]
    rfl
  | switchList d ps rest count fields wrong =>
    refine ⟨List.cons_ne_nil _ _, ?_⟩
    rw [parseItem_switchList d ps rest count fields]
    rcases wrong with h | h
    · have hd : dayKindOf d.toNat = none := by rw [dayKindOf, if_neg (by omega), if_neg (by omega)]
      rw [hd]
    · cases dayKindOf d.toNat with
      | none => rfl
      | some k => exact if_neg fun k => h ((pointsOk_iff ps).1 k)
  | short x rest ends =>
    refine ⟨List.cons_ne_nil _ _, ?_⟩
    rcases ends with ⟨rfl, h⟩ | ⟨rfl, h⟩ | ⟨rfl, h⟩ | ⟨rfl, h⟩ | ⟨rfl, h⟩
    · match rest, h with
      | [], _ | [_], _ | [_, _], _ | [_, _, _], _ | [_, _, _, _], _ => rfl
    · match rest, h with
      | [], _ | [_], _ | [_, _], _ => rfl
    · match rest, h with
      | [], _ | [_], _ => rfl
    · match rest, h with
      | [], _ => rfl
    · match rest, h with
      | [], _ | [_], _ => rfl
  | shortList d n rest ends =>
    refine ⟨List.cons_ne_nil _ _, ?_⟩
    simp only [List.cons_append, List.nil_append, parseItem, parsePoints_short n.toNat rest ends]
    cases dayKindOf d.toNat <;> rfl

/-- The items of a LOAD TARIFF read one after another (R114). -/
theorem parseItems_of_items (items : List (List Byte × (Bank → Bank))) : ∀ (fuel : Nat),
    (∀ i ∈ items, TariffItemIs i.1 i.2) → (items.flatMap (·.1)).length ≤ fuel →
    ∃ its, parseItems fuel (items.flatMap (·.1)) = some its ∧
      ∀ b : Bank, its.foldl Bank.write b = items.foldl (fun b i => i.2 b) b := by
  induction items with
  | nil => exact fun fuel _ _ => ⟨[], by cases fuel <;> rfl, fun _ => rfl⟩
  | cons i items ih =>
    intro fuel his hlen
    obtain ⟨hne, item, hitem, hwrite⟩ := (his i List.mem_cons_self).parse (items.flatMap (·.1))
    obtain ⟨x, bs, hbs⟩ := List.exists_cons_of_ne_nil hne
    rw [List.flatMap_cons, hbs, List.cons_append] at hlen ⊢
    rw [hbs, List.cons_append] at hitem
    cases fuel with
    | zero => exact absurd hlen (by simp)
    | succ fuel =>
      have hrest : (items.flatMap (·.1)).length ≤ fuel := by
        rw [List.length_cons, List.length_append] at hlen
        omega
      obtain ⟨its, hits, hfold⟩ := ih fuel (fun k hk => his k (List.mem_cons_of_mem i hk)) hrest
      refine ⟨item :: its, ?_, fun b => ?_⟩
      · simp only [parseItems, hitem, hits, Option.map_some]
      · rw [List.foldl_cons, List.foldl_cons, hwrite, hfold]

/-- One item that may not be written has the whole order refused (R114). -/
theorem parseItems_refused {rest : List Byte} (hr : TariffRefused rest) (items : List (List Byte × (Bank → Bank))) :
    ∀ (fuel : Nat), (∀ i ∈ items, TariffItemIs i.1 i.2) → parseItems fuel (items.flatMap (·.1) ++ rest) = none := by
  obtain ⟨hne, hnone⟩ := hr.parse
  obtain ⟨x, bs, rfl⟩ := List.exists_cons_of_ne_nil hne
  induction items with
  | nil =>
    intro fuel _
    cases fuel with
    | zero => rfl
    | succ fuel =>
      rw [List.flatMap_nil, List.nil_append]
      simp only [parseItems, hnone]
  | cons i items ih =>
    intro fuel his
    obtain ⟨hi, item, hitem, -⟩ := (his i List.mem_cons_self).parse (items.flatMap (·.1) ++ x :: bs)
    obtain ⟨y, cs, hcs⟩ := List.exists_cons_of_ne_nil hi
    rw [List.flatMap_cons, List.append_assoc, hcs, List.cons_append]
    rw [hcs, List.cons_append] at hitem
    cases fuel with
    | zero => rfl
    | succ fuel =>
      simp only [parseItems, hitem, ih fuel fun k hk => his k (List.mem_cons_of_mem i hk), Option.map_none]

/-- Settles O42: LOAD_TARIFF, by induction on the items. -/
theorem loadTariffWritesThePendingBank : Obligations.LoadTariffWritesThePendingBank := by
  intro s c f items ha hfp hop hlen hf his
  have hfits : (orderOf 19 f).lengthFits = true := lengthFits_open hf hlen rfl (by decide)
  have hrun : exec (.loadTariff c f) s = .next ((s.inExecution c 19 f).orderLoadTariff c (orderOf 19 f)).started :=
    congrArg Host.Outcome.next (ha.run rfl hfits (ha.allows 19 (by decide)) (.inl hfp)
      (State.rightFor_operator hop (by decide)))
  rw [hrun, State.orderLoadTariff, orderOf_body hf hlen, parseTariff]
  refine ⟨fun hb => ?_, fun rest hr hb => ?_⟩
  · obtain ⟨its, hits, hfold⟩ := parseItems_of_items items f.body.length his (le_of_eq (by rw [hb]))
    rw [← hb] at hits
    simp only [hits, hfold]
    exact congrArg (fun t : State => Host.Outcome.next t.started)
      (State.answer_of_channels (s := s) (code := 19) (by rfl) _ _)
  · have hnone : parseItems f.body.length f.body = none := by
      rw [hb]
      exact parseItems_refused hr items _ his
    simp only [hnone, State.answer_inExecution]

end Sys2Proof.Machine
end

section
/-! READ CONFIG and WRITE CONFIG (R41, R42, R177). -/

namespace Sys2Proof.Machine

/-! ## Configuration items -/

/-- What is stored for a value in field `r` of a channel's configuration (R42). -/
def chanStored (r v : Nat) : Option Nat :=
  if 12 < r then (if r = 13 ∧ v ≤ 1 then some v else none)
  else if r = 12 ∨ r % 3 = 2 then (if v ≤ 3 then some v else none)
  else if r % 3 = 1 then some (max 8 (min v 16))
  else some v

/-- What is stored for a value in field `r` of a line group's configuration (R42). -/
def groupStored (r v : Nat) : Option Nat :=
  if r = 0 ∧ v ≤ 255 ∨ r = 1 ∧ v ≤ 3 ∨ r = 2 ∧ v ≤ 2 ∨ r = 3 ∧ 1 ≤ v ∧ v ≤ 31 ∨ r = 4 ∧ 1 ≤ v ∧ v ≤ 4 then some v
  else none

theorem rightOfNumber_le {v : Nat} (h : v ≤ 3) : ∃ x, rightOfNumber v = some x ∧ rightNumber x = v := by
  have : v = 0 ∨ v = 1 ∨ v = 2 ∨ v = 3 := by omega
  rcases this with rfl | rfl | rfl | rfl
  · exact ⟨.none, rfl, rfl⟩
  · exact ⟨.charge, rfl, rfl⟩
  · exact ⟨.edit, rfl, rfl⟩
  · exact ⟨.both, rfl, rfl⟩

theorem rightOfNumber_gt {v : Nat} (h : ¬ v ≤ 3) : rightOfNumber v = none := by
  rw [rightOfNumber, if_neg (by omega), if_neg (by omega), if_neg (by omega), if_neg (by omega)]

theorem parityOfNumber_le {v : Nat} (h : v ≤ 2) : ∃ x, parityOfNumber v = some x ∧ parityNumber x = v := by
  have : v = 0 ∨ v = 1 ∨ v = 2 := by omega
  rcases this with rfl | rfl | rfl
  · exact ⟨.even, rfl, rfl⟩
  · exact ⟨.odd, rfl, rfl⟩
  · exact ⟨.none, rfl, rfl⟩

theorem parityOfNumber_gt {v : Nat} (h : ¬ v ≤ 2) : parityOfNumber v = none := by
  rw [parityOfNumber, if_neg (by omega), if_neg (by omega), if_neg (by omega)]

/-- A window's three fields (R41). -/
def Window.read (w : Window) (k : Nat) : Nat := if k = 0 then w.base else if k = 1 then w.exp else rightNumber w.right

theorem ChanConfig.read_window (g : ChanConfig) {r : Nat} (h : r < 12) :
    g.read r = (g.windows.get ⟨r / 3, by omega⟩).read (r % 3) := dif_pos h

/-- Changing one window changes what is read of that window (R41). -/
theorem ChanConfig.read_setWindow (g : ChanConfig) (i : Fin 4) (w : Window) (j : Nat) :
    ({ g with windows := g.windows.set i.val w i.isLt } : ChanConfig).read j =
      if j < 12 ∧ j / 3 = i.val then w.read (j % 3) else g.read j := by
  by_cases hj : j < 12
  · rw [ChanConfig.read_window _ hj, ChanConfig.read_window _ hj, vector_get_set]
    by_cases hi : j / 3 = i.val
    · rw [if_pos (Fin.ext hi), if_pos ⟨hj, hi⟩]
    · rw [if_neg fun h => hi (congrArg Fin.val h), if_neg fun h => hi h.2]
  · rw [if_neg fun h => hj h.1]
    simp only [ChanConfig.read, hj, dif_neg, not_false_eq_true]

/-- A write of item `r` is refused, with nothing stored, or what is stored is read back and every other item is as it was
(R42). -/
def ItemWritten {α : Type} (read : α → Nat → Nat) (g : α) (r : Nat) (out : Option α) (stored : Option Nat) : Prop :=
  (out = none ∧ stored = none) ∨
    ∃ g', out = some g' ∧ stored = some (read g' r) ∧ ∀ j, j ≠ r → read g' j = read g j

/-- One field of a window is written (R42). -/
theorem ChanConfig.window_written (g : ChanConfig) {r : Nat} (hr : r < 12) (x : Window)
    (hx : ∀ k, k < 3 → k ≠ r % 3 → x.read k = (g.windows.get ⟨r / 3, by omega⟩).read k) :
    ItemWritten ChanConfig.read g r (some { g with windows := g.windows.set (r / 3) x (by omega) })
      (some (x.read (r % 3))) := by
  have hread := g.read_setWindow ⟨r / 3, by omega⟩ x
  refine .inr ⟨_, rfl, congrArg some ((hread r).trans (if_pos ⟨hr, rfl⟩)).symm, fun j hj => (hread j).trans ?_⟩
  split
  · next h =>
    have hij : j / 3 = r / 3 := h.2
    rw [hx _ (by omega) (by omega), ChanConfig.read_window _ h.1]
    exact congrArg (fun k => (g.windows.get k).read (j % 3)) (Fin.ext hij.symm)
  · rfl

/-- A field behind the windows is written (R42). -/
theorem ChanConfig.read_of_windows {g g' : ChanConfig} (h : g'.windows = g.windows) {j : Nat} (hj : j < 12) :
    g'.read j = g.read j := by
  rw [ChanConfig.read_window _ hj, ChanConfig.read_window _ hj, h]

theorem ChanConfig.write_written (g : ChanConfig) (r v : Nat) :
    ItemWritten ChanConfig.read g r (g.write r v) (chanStored r v) := by
  by_cases hr : r < 12
  · have hwrite : g.write r v = if r % 3 = 0 then
          some { g with windows := g.windows.set (r / 3) { g.windows.get ⟨r / 3, by omega⟩ with base := v } }
        else if r % 3 = 1 then
          some { g with windows := g.windows.set (r / 3) { g.windows.get ⟨r / 3, by omega⟩ with exp := max 8 (min v 16) } }
        else (rightOfNumber v).map fun x =>
          { g with windows := g.windows.set (r / 3) { g.windows.get ⟨r / 3, by omega⟩ with right := x } } := dif_pos hr
    have hstored : chanStored r v = if r % 3 = 2 then (if v ≤ 3 then some v else none)
        else if r % 3 = 1 then some (max 8 (min v 16)) else some v := by
      have h12 : r = 12 ∨ r % 3 = 2 ↔ r % 3 = 2 := ⟨fun h => h.resolve_left (by omega), .inr⟩
      rw [chanStored, if_neg (by omega)]
      simp only [h12]
    have hmod : r % 3 = 0 ∨ r % 3 = 1 ∨ r % 3 = 2 := by omega
    rcases hmod with h0 | h1 | h2
    · have hw := g.window_written hr { g.windows.get ⟨r / 3, by omega⟩ with base := v } fun k _ hk => by
        rw [h0] at hk
        simp only [Window.read, hk, if_false]
      rw [hwrite, if_pos h0, hstored, if_neg (by omega), if_neg (by omega)]
      rwa [h0] at hw
    · have hw := g.window_written hr { g.windows.get ⟨r / 3, by omega⟩ with exp := max 8 (min v 16) } fun k _ hk => by
        rw [h1] at hk
        simp only [Window.read, hk, if_false]
      rw [hwrite, if_neg (by omega), if_pos h1, hstored, if_neg (by omega), if_pos h1]
      rwa [h1] at hw
    · rw [hwrite, if_neg (by omega), if_neg (by omega), hstored, if_pos h2]
      by_cases hv : v ≤ 3
      · obtain ⟨x, hx, hnum⟩ := rightOfNumber_le hv
        have hw := g.window_written hr { g.windows.get ⟨r / 3, by omega⟩ with right := x } fun k hk3 hk => by
          have hk' : k = 0 ∨ k = 1 := by omega
          rcases hk' with rfl | rfl <;> rfl
        have hread : ({ g.windows.get ⟨r / 3, by omega⟩ with right := x } : Window).read (r % 3) = v := by
          rw [h2]; exact hnum
        rw [hx, if_pos hv]
        rwa [hread] at hw
      · rw [rightOfNumber_gt hv, if_neg hv]
        exact .inl ⟨rfl, rfl⟩
  · by_cases h12 : r = 12
    · subst h12
      by_cases hv : v ≤ 3
      · obtain ⟨x, hx, hnum⟩ := rightOfNumber_le hv
        refine .inr ⟨{ g with default := x }, ?_, ?_, fun j hj => ?_⟩
        · exact congrArg (Option.map _) hx
        · exact (if_pos hv).trans (congrArg some hnum.symm)
        · by_cases hlt : j < 12
          · exact ChanConfig.read_of_windows (g := g) (by rfl) hlt
          · simp only [ChanConfig.read, hlt, hj, dif_neg, not_false_eq_true, if_false]
      · exact .inl ⟨congrArg (Option.map _) (rightOfNumber_gt hv), if_neg hv⟩
    · by_cases h13 : r = 13
      · subst h13
        by_cases hv : v ≤ 1
        · refine .inr ⟨{ g with operator := v = 1 }, if_pos hv, ?_, fun j hj => ?_⟩
          · have hbit : v = 0 ∨ v = 1 := by omega
            rcases hbit with rfl | rfl <;> rfl
          · by_cases hlt : j < 12
            · exact ChanConfig.read_of_windows (g := g) (by rfl) hlt
            · simp only [ChanConfig.read, hlt, hj, dif_neg, not_false_eq_true, if_false]
        · exact .inl ⟨if_neg hv, (if_pos (by decide)).trans (if_neg fun h => hv h.2)⟩
      · refine .inl ⟨?_, ?_⟩
        · simp only [ChanConfig.write, hr, h12, h13, dif_neg, not_false_eq_true, if_false]
        · rw [chanStored, if_pos (by omega), if_neg fun h => h13 h.1]

theorem GroupConfig.write_written (g : GroupConfig) (r v : Nat) :
    ItemWritten GroupConfig.read g r (g.write r v) (groupStored r v) := by
  by_cases hs : groupStored r v = some v
  · have hok : r = 0 ∧ v ≤ 255 ∨ r = 1 ∧ v ≤ 3 ∨ r = 2 ∧ v ≤ 2 ∨ r = 3 ∧ 1 ≤ v ∧ v ≤ 31 ∨ r = 4 ∧ 1 ≤ v ∧ v ≤ 4 := by
      by_contra h
      rw [groupStored, if_neg h] at hs
      exact absurd hs (by simp)
    rw [hs]
    rcases hok with ⟨rfl, h⟩ | ⟨rfl, h⟩ | ⟨rfl, h⟩ | ⟨rfl, h⟩ | ⟨rfl, h⟩
    · refine .inr ⟨{ g with enables := BitVec.ofNat 8 v }, if_pos h, ?_, fun j hj => ?_⟩
      · show some v = some (BitVec.ofNat 8 v).toNat
        rw [BitVec.toNat_ofNat, Nat.mod_eq_of_lt (by omega)]
      · simp only [GroupConfig.read, hj, if_false]
    · refine .inr ⟨{ g with classCap := v }, if_pos h, rfl, fun j hj => ?_⟩
      simp only [GroupConfig.read, hj, if_false]
    · obtain ⟨x, hx, hnum⟩ := parityOfNumber_le h
      refine .inr ⟨{ g with parity := x }, congrArg (Option.map _) hx, congrArg some hnum.symm, fun j hj => ?_⟩
      simp only [GroupConfig.read, hj, if_false]
    · refine .inr ⟨{ g with attention := charCode v }, if_pos h, ?_, fun j hj => ?_⟩
      · show some v = some (charCode v).toNat
        rw [charCode, BitVec.toNat_ofNat, Nat.mod_eq_of_lt (by omega)]
      · simp only [GroupConfig.read, hj, if_false]
    · refine .inr ⟨{ g with ringCount := v }, if_pos h, rfl, fun j hj => ?_⟩
      simp only [GroupConfig.read, hj, if_false]
  · have hnot : ¬ (r = 0 ∧ v ≤ 255 ∨ r = 1 ∧ v ≤ 3 ∨ r = 2 ∧ v ≤ 2 ∨ r = 3 ∧ 1 ≤ v ∧ v ≤ 31 ∨ r = 4 ∧ 1 ≤ v ∧ v ≤ 4) :=
      fun h => hs (if_pos h)
    refine .inl ⟨?_, if_neg hnot⟩
    have hr : r = 0 ∨ r = 1 ∨ r = 2 ∨ r = 3 ∨ r = 4 ∨ 4 < r := by omega
    rcases hr with rfl | rfl | rfl | rfl | rfl | h
    · exact if_neg (show ¬ v ≤ 255 by omega)
    · exact if_neg (show ¬ v ≤ 3 by omega)
    · exact congrArg (Option.map _) (parityOfNumber_gt (by omega))
    · exact if_neg (show ¬ (1 ≤ v ∧ v ≤ 31) by omega)
    · exact if_neg (show ¬ (1 ≤ v ∧ v ≤ 4) by omega)
    · rw [GroupConfig.write, if_neg (by omega), if_neg (by omega), if_neg (by omega), if_neg (by omega), if_neg (by omega)]

/-! ### The items of the store -/

theorem Store.readItem_chan (st : Store) (d : ChanNo) {r : Nat} (h : r < 16) :
    st.readItem (16 * d.val + r) = (st.chanConfig.get d).read r := by
  have hd := d.isLt
  have hi : (⟨(16 * d.val + r) / 16, by omega⟩ : ChanNo) = d := Fin.ext (by show (16 * d.val + r) / 16 = d.val; omega)
  rw [Store.readItem, dif_pos (by omega), hi, show (16 * d.val + r) % 16 = r by omega]

theorem Store.readItem_group (st : Store) (i : Fin 8) {r : Nat} (h : r < 8) :
    st.readItem (64 + 8 * i.val + r) = (st.groupConfig.get i).read r := by
  have hd := i.isLt
  have hi : (⟨(64 + 8 * i.val + r - 64) / 8, by omega⟩ : Fin 8) = i :=
    Fin.ext (by show (64 + 8 * i.val + r - 64) / 8 = i.val; omega)
  rw [Store.readItem, dif_neg (by omega), dif_pos (by omega), hi, show (64 + 8 * i.val + r - 64) % 8 = r by omega]

/-- What is stored for a value in a configuration item (R42). -/
def itemStored (n v : Nat) : Option Nat :=
  if n < 64 then chanStored (n % 16) v else if n < 128 then groupStored (n % 8) v else none

theorem Store.readItem_lt (st : Store) {n : Nat} (h : n < 64) :
    st.readItem n = (st.chanConfig.get ⟨n / 16, by omega⟩).read (n % 16) := dif_pos h

theorem Store.readItem_ge (st : Store) {n : Nat} (h : ¬ n < 64) (h' : n < 128) :
    st.readItem n = (st.groupConfig.get ⟨(n - 64) / 8, by omega⟩).read ((n - 64) % 8) := by
  rw [Store.readItem, dif_neg h, dif_pos h']

/-- A configuration item is written, and nothing else of the store changes (R42). -/
theorem Store.writeItem_written (st : Store) (n v : Nat) :
    (st.writeItem n v = none ∧ itemStored n v = none) ∨
      ∃ st', st.writeItem n v = some st' ∧ itemStored n v = some (st'.readItem n) ∧
        (∀ j, j < 128 → j ≠ n → st'.readItem j = st.readItem j) ∧
        { st' with chanConfig := st.chanConfig, groupConfig := st.groupConfig } = st := by
  by_cases h64 : n < 64
  · let i : ChanNo := ⟨n / 16, by omega⟩
    have hwrite : st.writeItem n v =
        ((st.chanConfig.get i).write (n % 16) v).map fun g => { st with chanConfig := st.chanConfig.set i g } := dif_pos h64
    rw [hwrite, itemStored, if_pos h64]
    rcases (st.chanConfig.get i).write_written (n % 16) v with ⟨hnone, hs⟩ | ⟨g, hg, hs, hother⟩
    · exact .inl ⟨by rw [hnone]; rfl, hs⟩
    · refine .inr ⟨{ st with chanConfig := st.chanConfig.set i g }, by rw [hg]; rfl, ?_, fun j hj hne => ?_, rfl⟩
      · rw [Store.readItem_lt _ h64, vector_get_set, if_pos rfl, hs]
      · by_cases hj64 : j < 64
        · rw [Store.readItem_lt _ hj64, Store.readItem_lt _ hj64, vector_get_set]
          split
          · next hij =>
            have hdiv : j / 16 = n / 16 := congrArg Fin.val hij
            rw [hother _ (by omega), hij]
          · rfl
        · rw [Store.readItem_ge _ hj64 hj, Store.readItem_ge _ hj64 hj]
  · by_cases h128 : n < 128
    · let i : Fin 8 := ⟨(n - 64) / 8, by omega⟩
      have hmod : (n - 64) % 8 = n % 8 := by omega
      have hwrite : st.writeItem n v =
          ((st.groupConfig.get i).write (n % 8) v).map fun g => { st with groupConfig := st.groupConfig.set i g } := by
        rw [Store.writeItem, dif_neg h64, dif_pos h128, hmod]
      rw [hwrite, itemStored, if_neg h64, if_pos h128]
      rcases (st.groupConfig.get i).write_written (n % 8) v with ⟨hnone, hs⟩ | ⟨g, hg, hs, hother⟩
      · exact .inl ⟨by rw [hnone]; rfl, hs⟩
      · refine .inr ⟨{ st with groupConfig := st.groupConfig.set i g }, by rw [hg]; rfl, ?_, fun j hj hne => ?_, rfl⟩
        · rw [Store.readItem_ge _ h64 h128, vector_get_set, if_pos rfl, hs, hmod]
        · by_cases hj64 : j < 64
          · rw [Store.readItem_lt _ hj64, Store.readItem_lt _ hj64]
          · rw [Store.readItem_ge _ hj64 hj, Store.readItem_ge _ hj64 hj, vector_get_set]
            split
            · next hij =>
              have hdiv : (j - 64) / 8 = (n - 64) / 8 := congrArg Fin.val hij
              rw [hother _ (by omega), hij]
            · rfl
    · refine .inl ⟨?_, ?_⟩
      · rw [Store.writeItem, dif_neg h64, dif_neg h128]
      · rw [itemStored, if_neg h64, if_neg h128]

/-- Settles O47: READ_CONFIG and WRITE_CONFIG, by the layout of the items. -/
theorem configurationIsWrittenInSetup : Obligations.ConfigurationIsWrittenInSetup := by
  intro s c f hp ho hfp answered
  refine ⟨fun hf => ?_, fun d i => ?_, fun i => ?_, fun item hi lo hf hb => ?_⟩
  · have hrun : exec (.readConfig c f) s = .next ((s.arrived c 29 f).orderReadConfig c).started :=
      congrArg Host.Outcome.next (State.arrive_run hp ho rfl (orderOf_fits hf rfl (by decide)) rfl (.inl hfp) rfl)
    rw [hrun, State.orderReadConfig, State.answer_arrived, State.replied, State.arrived, State.modChan_modChan]
    rfl
  · intro g
    have hlt := i.isLt
    have hwin : ∀ k, k < 3 → s.store.readItem (16 * d.val + (3 * i.val + k)) = (g.windows.get i).read k := by
      intro k hk
      have hidx : (⟨(3 * i.val + k) / 3, by omega⟩ : Fin 4) = i := Fin.ext (by show (3 * i.val + k) / 3 = i.val; omega)
      rw [s.store.readItem_chan d (by omega), ChanConfig.read_window _ (by omega), hidx,
        show (3 * i.val + k) % 3 = k by omega]
    exact ⟨hwin 0 (by decide), hwin 1 (by decide), hwin 2 (by decide), s.store.readItem_chan d (by decide),
      s.store.readItem_chan d (by decide)⟩
  · intro g
    have hpar : parityNumber g.parity = match g.parity with | .even => 0 | .odd => 1 | .none => 2 := by
      cases g.parity <;> rfl
    refine ⟨s.store.readItem_group i (r := 0) (by decide), s.store.readItem_group i (r := 1) (by decide), ?_,
      s.store.readItem_group i (r := 3) (by decide), s.store.readItem_group i (r := 4) (by decide)⟩
    exact (s.store.readItem_group i (r := 2) (by decide)).trans hpar
  · intro n v stored
    have hrun : exec (.writeConfig c f) s = .next ((s.arrived c 30 f).orderWriteConfig c (orderOf 30 f)).started :=
      congrArg Host.Outcome.next (State.arrive_run hp ho rfl (orderOf_fits hf rfl (by decide)) rfl (.inl hfp) rfl)
    have hitem : bodyField (orderOf 30 f).body 0 1 = n := by
      rw [orderOf_body hf (by decide)]
      exact bodyField_eq (by simp [hb, beNat, n])
    have hvalue : bodyField (orderOf 30 f).body 1 2 = v := by
      rw [orderOf_body hf (by decide)]
      exact bodyField_eq (by simp [hb, beNat, v])
    have hstored : stored = itemStored n v := rfl
    clear_value stored
    subst hstored
    have hreplied : ∀ (t : State) (o : Outcome), t.channels = (s.arrived c 30 f).channels →
        t.answer c o [] = t.replied c f o [] := fun t o h =>
      State.answer_replied (by rw [State.chan_of_channels h, State.chan_arrived]) o []
    have hanswered : ∀ (t : State) (o : Outcome), (t.arrived c 30 f).replied c f o [] = answered t 30 o [] := by
      intro t o
      rw [State.replied, State.arrived, State.modChan_modChan]
    have hset_arrived : (s.arrived c 30 f).setup = s.setup := rfl
    have hstore : (s.arrived c 30 f).store = s.store := rfl
    rw [hrun, State.orderWriteConfig, hitem, hvalue, hstore]
    refine ⟨fun hset => ?_, fun hset hnone => ?_, fun hset w hw => ?_⟩
    · rw [if_pos (by rw [hset_arrived, hset]; rfl), hreplied _ _ rfl, hanswered]
    · rw [if_neg (by rw [hset_arrived, hset]; decide)]
      rcases s.store.writeItem_written n v with ⟨hout, -⟩ | ⟨st, -, hs, -⟩
      · rw [hout]
        exact congrArg (fun t : State => Host.Outcome.next t.started) ((hreplied _ _ rfl).trans (hanswered s .badValue))
      · rw [hnone] at hs
        cases hs
    · rw [if_neg (by rw [hset_arrived, hset]; decide)]
      rcases s.store.writeItem_written n v with ⟨-, hs⟩ | ⟨st, hout, hs, hother, hframe⟩
      · rw [hs] at hw
        cases hw
      · refine ⟨{ st with initialised := false }, ?_, ?_, hother, rfl, ?_⟩
        · rw [hout]
          refine congrArg (fun t : State => Host.Outcome.next t.started) ((hreplied _ _ ?_).trans ?_)
          · rfl
          · exact hanswered { s with store := { st with initialised := false } } .done
        · exact Option.some.inj (hs.symm.trans hw)
        · rw [← hframe]

end Sys2Proof.Machine
end

section
/-! RESTART and FLUSH, and the completion of a write-back (R36, R131, R132, R134, R164). -/

namespace Sys2Proof.Machine

/-! ## The completion of a write-back -/

@[simp] theorem State.entry_modArbiter (s : State) (f : Arbiter → Arbiter) (e : Fin 32) :
    (s.modArbiter f).entry e = s.entry e := rfl

theorem State.chan_answered {s : State} {c : ChanNo} {a : Order} {rest : List Order} {o : Outcome} {body : List Byte}
    (h : (s.chan c).orders = a :: rest) :
    (s.answer c o body).chan c = { s.chan c with reply := some { outcome := o, seq := a.seq, body := body } } := by
  rw [State.answer, State.chan_modChan_self]
  split
  · next ord tail hord =>
    obtain ⟨rfl, -⟩ := List.cons.inj (h.symm.trans hord)
    rfl
  · next hord => exact absurd (h.symm.trans hord) (List.cons_ne_nil a rest)

/-- A write-back access that has been completed and not yet left the arbiter. -/
def takenWriteBack : Access := { who := .writeBack, write := .nothing, result := .taken }

section
variable {s : State} {e : Fin 32} {slot : Nat} {r : Record}

/-- The state in which the result of a completed write-back is taken (R36). -/
def State.writtenBack (s : State) : State := { s with store := s.storeCompleted, arbiter := { current := some takenWriteBack } }

theorem State.completeAccess_writeBack {w : StoreWrite}
    (ha : s.arbiter = { current := some { who := .writeBack, write := w, result := .writeBack e } }) :
    s.completeAccess = (s.writtenBack.writeBackDone e).serveNext .writeBack := by
  have hdone : ((s.modStore fun st => st.apply w).modArbiter fun b =>
      { b with current := some { who := .writeBack, write := .nothing, result := .taken } }) = s.writtenBack := by
    simp only [State.modStore, State.modArbiter, State.writtenBack, State.storeCompleted, Arbiter.write, ha]
    rfl
  simp only [State.completeAccess, ha]
  rw [hdone]
  rfl

/-- With nothing waiting the arbiter becomes idle (R38). -/
theorem State.serveNext_idle {last : Requester} (h : ∀ q, { s.arbiter with current := none }.waits q = false) :
    s.serveNext last = s.modArbiter fun a => { a with current := none } := by
  have hnone : (roundAfter last).find? (s.modArbiter fun a => { a with current := none }).arbiter.waits = none :=
    List.find?_eq_none.2 fun q _ => by rw [show (s.modArbiter fun a => { a with current := none }).arbiter =
      { s.arbiter with current := none } from rfl, h]; decide
  rw [State.serveNext, hnone]

theorem State.offerWriteBack_nil (h : s.cache.queue = []) : s.offerWriteBack = s := by
  rw [State.offerWriteBack, h]

/-- The account of a completed write-back keeps its budget state where it has no budget (R136). -/
theorem State.recompute_taken (ha : s.arbiter.current = some takenWriteBack) (hr : s.recordAt slot = some r)
    (hb : r.budget = none) (hp : (s.presenceOf slot).budget = some .normal) : s.recompute slot = s := by
  refine State.recompute_unlimited ?_ hp
  rw [State.budget, State.budgetRecord, ha]
  simp only [takenWriteBack, hr, Option.bind_some, hb]

/-- A write-back after which the entry is not due ends with the arbiter idle (R131). -/
theorem State.writeBackDone_idle (hq : s.cache.queue = []) (hw : s.cache.waiting = [])
    (ha : s.arbiter = { current := some takenWriteBack }) (hr : s.recordAt slot = some r) (hb : r.budget = none)
    (hp : (s.presenceOf slot).budget = some .normal) :
    ((s.recompute slot).offerWriteBack.settle).serveNext .writeBack = s.modArbiter fun _ => {} := by
  rw [State.recompute_taken (by rw [ha]) hr hb hp, State.offerWriteBack_nil hq, State.settle_empty hw, State.serveNext_idle]
  · simp only [State.modArbiter, ha]
  · intro q
    rw [ha]
    cases q with
    | chan c => simp [Arbiter.waits]
    | _ => rfl

/-- An entry due again as its write-back completes waits at the arbiter for the next one (R131). -/
theorem State.enqueueEntry_taken (hq : s.cache.queue = []) (ha : s.arbiter = { current := some takenWriteBack })
    (he : (s.entry e).slot = some slot) : s.enqueueEntry e =
      (s.modCache fun k => { k with queue := [e] }).modArbiter fun a => { a with writeBack := some (e, some slot) } := by
  have hqueue : (s.modCache fun k => { k with queue := k.queue ++ [e] }) = s.modCache fun k => { k with queue := [e] } := by
    simp only [State.modCache, hq, List.nil_append]
  rw [State.enqueueEntry, hqueue, State.offerWriteBack]
  have harb : (s.modCache fun k => { k with queue := [e] }).arbiter = { current := some takenWriteBack } := ha
  have hslot : ((s.modCache fun k => { k with queue := [e] }).entry e).slot = some slot := he
  simp only [State.modCache_cache]
  rw [harb, hslot]
  rfl

/-- The state in which an entry is in its write-back again (R131). -/
def State.writingAgain (s : State) (e : Fin 32) (slot : Nat) (r : Record) : State :=
  (s.modEntry e fun x => { x with state := .writing, snapshot := x.pending }).modArbiter fun _ =>
    { current := some { who := .writeBack, write := .put slot { r with used := r.used + (s.entry e).pending },
                        result := .writeBack e } }

/-- A write-back is served for the account that its entry still holds (R131). -/
theorem State.serveWriteBack_at (hq : s.cache.queue.contains e = true) (he : (s.entry e).slot = some slot)
    (hr : s.recordAt slot = some r) : s.serveWriteBack e (some slot) =
      ((s.modCache fun k => { k with queue := k.queue.erase e }).modEntry e fun x =>
        { x with state := .writing, snapshot := (s.entry e).pending }).modArbiter fun a =>
      { a with current := some { who := .writeBack, write := .put slot { r with used := r.used + (s.entry e).pending },
                                 result := .writeBack e } } := by
  rw [State.serveWriteBack, if_pos ⟨hq, he⟩, hr]

/-- An entry that is due again as its write-back completes is served in the same round (R38, R131). -/
theorem State.writeBackDone_again (hq : s.cache.queue = []) (hw : s.cache.waiting = [])
    (ha : s.arbiter = { current := some takenWriteBack }) (he : (s.entry e).slot = some slot)
    (hr : s.recordAt slot = some r) (hb : r.budget = none) (hp : (s.presenceOf slot).budget = some .normal) :
    (((s.enqueueEntry e).recompute slot).offerWriteBack.settle).serveNext .writeBack = s.writingAgain e slot r := by
  rw [State.enqueueEntry_taken hq ha he]
  generalize ht : ((s.modCache fun k => { k with queue := [e] }).modArbiter fun a =>
    { a with writeBack := some (e, some slot) }) = t
  have harb : t.arbiter = { current := some takenWriteBack, writeBack := some (e, some slot) } := by
    rw [← ht]
    simp only [State.modArbiter_arbiter, State.modCache_arbiter, ha]
  have hrec : t.recordAt slot = some r := by rw [← ht]; exact hr
  have hpres : (t.presenceOf slot).budget = some .normal := by rw [← ht]; exact hp
  have hoffer : t.offerWriteBack = t := by
    rw [State.offerWriteBack]
    split
    · rfl
    · exact if_pos (by rw [harb]; rfl)
  have hwait : t.cache.waiting = [] := by rw [← ht]; exact hw
  rw [State.recompute_taken (by rw [harb]) hrec hb hpres, hoffer, State.settle_empty hwait, State.serveNext]
  have hfind : (roundAfter .writeBack).find? (t.modArbiter fun a => { a with current := none }).arbiter.waits =
      some .writeBack := by
    rw [State.modArbiter_arbiter, harb]
    rfl
  have hqueue : t.cache.queue = [e] := by rw [← ht]; rfl
  have hslot : (t.entry e).slot = some slot := by rw [← ht]; exact he
  rw [hfind]
  simp only [State.serveWaiting, State.modArbiter_arbiter, harb]
  refine (State.serveWriteBack_at ?_ (by exact hslot) (by exact hrec)).trans ?_
  · rw [State.modArbiter_cache, State.modArbiter_cache, hqueue]
    simp
  rw [← ht]
  simp only [State.writingAgain, State.modArbiter, State.modCache, State.modEntry, State.entry, hq, ha, List.erase_cons_head]

end

/-! ## RESTART and FLUSH -/

section
variable {s : State} {c : ChanNo} {f : OrderFrame}

theorem Cache.flushNames_set {k : Cache} {set : List FlushMember} {e : Fin 32} {m : FlushMember} (hm : m ∈ set)
    (he : m.entry = e) : ({ k with flush := k.flush.set c (some set) } : Cache).flushNames e = true := by
  rw [Cache.flushNames, List.any_eq_true]
  refine ⟨some set, ?_, ?_⟩
  · exact Vector.mem_toList_iff.2 (Vector.mem_set c.isLt)
  · rw [Option.getD_some, List.any_eq_true]
    exact ⟨m, hm, decide_eq_true he⟩

theorem Cache.flushNames_none {k : Cache} {e : Fin 32} (h : ∀ d : ChanNo, k.flush.get d = none) :
    k.flushNames e = false := by
  rw [Cache.flushNames, List.any_eq_false]
  intro x hx
  obtain ⟨i, hi, rfl⟩ := Vector.getElem_of_mem (Vector.mem_toList_iff.1 hx)
  have hnone : k.flush[i] = none := h ⟨i, hi⟩
  rw [hnone]
  exact Bool.false_ne_true

/-- The members of the set of a FLUSH taken in a state (R132). -/
def State.flushMembers (s : State) : List FlushMember :=
  ((List.finRange 32).filter fun e => 0 < (s.entry e).pending).map fun e =>
    { entry := e, again := (s.entry e).state = .writing }

theorem State.mem_flushMembers {m : FlushMember} : m ∈ s.flushMembers ↔
    0 < (s.entry m.entry).pending ∧ m.again = decide ((s.entry m.entry).state = .writing) := by
  simp only [State.flushMembers, List.mem_map, List.mem_filter, List.mem_finRange, true_and, decide_eq_true_eq]
  constructor
  · rintro ⟨e, he, rfl⟩
    exact ⟨he, rfl⟩
  · rintro ⟨he, ha⟩
    exact ⟨m.entry, he, by rw [← ha]⟩

theorem State.orderFlush_empty (h : ∀ e, (s.entry e).pending = 0) : s.orderFlush c = s.answer c .done [] := by
  have hnil : ((List.finRange 32).filter fun e => 0 < (s.entry e).pending) = [] :=
    List.filter_eq_nil_iff.2 fun e _ => by rw [h e]; decide
  rw [State.orderFlush, hnil]
  rfl

theorem State.orderFlush_pending (h : ∃ e, 0 < (s.entry e).pending) : s.orderFlush c =
    ((List.finRange 32).filter fun e => 0 < (s.entry e).pending).foldl (fun t e => t.lookDue e)
      (s.modCache fun k => { k with flush := k.flush.set c (some s.flushMembers) }) := by
  obtain ⟨e, he⟩ := h
  have hmem : e ∈ (List.finRange 32).filter fun e => 0 < (s.entry e).pending :=
    List.mem_filter.2 ⟨List.mem_finRange e, decide_eq_true he⟩
  rw [State.orderFlush, if_neg]
  · rfl
  · rw [List.isEmpty_iff]
    exact List.ne_nil_of_mem hmem

/-- Looking at entries leaves what the obligation's `kept` lists as it was (R132, R134). -/
theorem State.lookAll_keeps {t : State} (g : Cache → Cache) (hp : ∀ e, (t.entry e).pending = (s.entry e).pending)
    (hst : ∀ e, (t.entry e).state = (s.entry e).state) (he : ∀ k, (g k).entries = k.entries) (L : List (Fin 32))
    (hL : ∀ e, 0 < (s.entry e).pending → e ∈ L)
    (hdue : ∀ e, 0 < (s.entry e).pending → (g t.cache).restarting = true ∨ (g t.cache).flushNames e = true) :
    let u := L.foldl (fun v e => v.lookDue e) (t.modCache g)
    (∀ d, u.chan d = t.chan d) ∧ (∀ l, u.line l = t.line l) ∧ u.store = t.store ∧ u.rating = t.rating ∧
      (∀ e, (u.entry e).pending = (s.entry e).pending) ∧
      ∀ e, (s.entry e).state = .gathering → 0 < (s.entry e).pending → e ∈ u.cache.queue ∨ (u.entry e).state = .writing := by
  intro u
  have hentry : ∀ e, (t.modCache g).entry e = t.entry e := fun e => by
    rw [State.entry, State.modCache_cache, he]; rfl
  obtain ⟨hkeep, hwrite⟩ := keepsCharges_lookAll L (t.modCache g)
  refine ⟨hkeep.chans, hkeep.lines, hkeep.store, hkeep.rating, fun e => ?_, fun e hg hpos => ?_⟩
  · rw [hkeep.pend e, hentry, hp]
  · refine hwrite e (hL e hpos) ?_ ?_ (hdue e hpos)
    · rw [hentry, hst, hg]
    · rw [hentry, hp]
      exact hpos

end

section
variable {s : State} {c : ChanNo} {e : Fin 32}

theorem State.flushWrittenOf_none {frees : Bool} (h : s.cache.flush.get c = none) : s.flushWrittenOf c e frees = s := by
  rw [State.flushWrittenOf, h]
  rfl

theorem State.flushWritten_nil {frees : Bool} : ∀ L : List ChanNo, (∀ d ∈ L, s.cache.flush.get d = none) →
    L.foldl (fun t d => t.flushWrittenOf d e frees) s = s
  | [], _ => rfl
  | d :: L, h => by
    rw [List.foldl_cons, State.flushWrittenOf_none (h d List.mem_cons_self)]
    exact State.flushWritten_nil L fun k hk => h k (List.mem_cons_of_mem _ hk)

/-- Only the channels with a FLUSH in execution are told of a completed write-back (R132). -/
theorem State.flushWritten_one {frees : Bool} {t : State} (hs : ∀ d, d ≠ c → s.cache.flush.get d = none)
    (ht : s.flushWrittenOf c e frees = t) (hd : ∀ d, d ≠ c → t.cache.flush.get d = none) :
    allChans.foldl (fun u d => u.flushWrittenOf d e frees) s = t := by
  have hmem : ∀ d : ChanNo, d ∈ allChans := by decide
  have hnd : allChans.Nodup := by decide
  obtain ⟨a, b, hab⟩ := List.append_of_mem (hmem c)
  rw [hab, List.nodup_append, List.nodup_cons] at hnd
  obtain ⟨-, ⟨hcb, -⟩, hdis⟩ := hnd
  rw [hab, List.foldl_append, List.foldl_cons,
    State.flushWritten_nil a fun d hm => hs d fun h => hdis d hm c List.mem_cons_self h, ht]
  exact State.flushWritten_nil b fun d hm => hd d fun h => hcb (h ▸ hm)

theorem State.flushWrittenOf_again (h : s.cache.flush.get c = some [{ entry := e, again := true }]) :
    s.flushWrittenOf c e false =
      s.modCache fun k => { k with flush := k.flush.set c (some [{ entry := e, again := false }]) } := by
  rw [State.flushWrittenOf, h]
  simp

theorem State.flushWrittenOf_last {frees : Bool} (h : s.cache.flush.get c = some [{ entry := e, again := false }]) :
    s.flushWrittenOf c e frees = (s.modCache fun k => { k with flush := k.flush.set c none }).answer c .done [] := by
  rw [State.flushWrittenOf, h]
  simp [State.leaveFlushOf, h]

end

section
variable {s : State} {c : ChanNo} {e : Fin 32} {slot : Nat} {r : Record}

/-- An entry as its write-back completes, with the units that came meanwhile still pending (R131). -/
def Entry.afterWrite (x : Entry) : Entry :=
  { x with pending := x.pending - x.snapshot, snapshot := 0, state := .gathering }

/-- A completed write-back of an entry that does not become FREE: a meter of its account is open (R131). -/
theorem State.writeBackDone_kept (he : (s.entry e).slot = some slot) (hev : (s.entry e).evicted = false)
    (hm : s.meterOpen slot = true) : s.writeBackDone e =
      ((((allChans.foldl (fun t c => t.flushWrittenOf c e false) (s.modEntry e Entry.afterWrite)).lookDue e).recompute
        slot).offerWriteBack).settle := by
  have hfrees : (decide ((s.entry e).pending - (s.entry e).snapshot = 0) &&
      ((s.entry e).evicted || !((s.entry e).slot.any fun k => s.meterOpen k))) = false := by
    rw [he, hev, Option.any_some, hm]
    simp
  simp only [State.writeBackDone]
  rw [hfrees, he]
  rfl

end

/-- What a write-back in progress that is the last of the set of a FLUSH finds, here of an account without a budget and
with a meter open, and with nothing waiting behind it. -/
structure State.WritesLast (s : State) (c : ChanNo) (e : Fin 32) (slot : Nat) (r : Record) (again : Bool) : Prop where
  busy    : s.arbiter = { current := some { who := .writeBack, write := .put slot r, result := .writeBack e } }
  holder  : (s.entry e).slot = some slot
  state   : (s.entry e).state = .writing
  kept    : (s.entry e).evicted = false
  snap    : (s.entry e).pending = (s.entry e).snapshot
  running : s.meterOpen slot = true
  queue   : s.cache.queue = []
  waiting : s.cache.waiting = []
  budget  : r.budget = none
  normal  : (s.presenceOf slot).budget = some .normal
  flush   : ∀ d, s.cache.flush.get d = if d = c then some [{ entry := e, again := again }] else none

section
variable {s : State} {c : ChanNo} {e : Fin 32} {slot : Nat} {r : Record} {again : Bool}

theorem State.WritesLast.entry (h : s.WritesLast c e slot r again) :
    ((s.writtenBack.modEntry e Entry.afterWrite).entry e) =
      { slot := some slot, pending := 0, state := .gathering, snapshot := 0, evicted := false } := by
  rw [State.entry_modEntry, if_pos rfl]
  show (s.entry e).afterWrite = _
  simp only [Entry.afterWrite, h.snap, Nat.sub_self, h.holder, h.kept]

theorem State.WritesLast.completed (h : s.WritesLast c e slot r again) : s.completeAccess =
    (((((allChans.foldl (fun t c => t.flushWrittenOf c e false) (s.writtenBack.modEntry e Entry.afterWrite)).lookDue
      e).recompute slot).offerWriteBack).settle).serveNext .writeBack := by
  rw [State.completeAccess_writeBack h.busy, State.writeBackDone_kept (s := s.writtenBack) h.holder h.kept h.running]

theorem State.WritesLast.record (h : s.WritesLast c e slot r again) :
    tabGet slot s.storeCompleted.records = some r := by
  rw [State.storeCompleted, Arbiter.write, h.busy]
  exact tabGet_tabPut_self slot r _

/-- The members of the flush sets as the write-back begins to be taken. -/
theorem State.WritesLast.sets (h : s.WritesLast c e slot r again) (d : ChanNo) :
    (s.writtenBack.modEntry e Entry.afterWrite).cache.flush.get d =
      if d = c then some [{ entry := e, again := again }] else none := h.flush d

/-- The write-back was served before the FLUSH was taken: the entry is written back again (R132). -/
theorem State.WritesLast.completed_again (h : s.WritesLast c e slot r true) : s.completeAccess =
    ((s.writtenBack.modEntry e Entry.afterWrite).modCache fun k =>
      { k with flush := k.flush.set c (some [{ entry := e, again := false }]) }).writingAgain e slot r := by
  have hset : allChans.foldl (fun t c => t.flushWrittenOf c e false) (s.writtenBack.modEntry e Entry.afterWrite) =
      (s.writtenBack.modEntry e Entry.afterWrite).modCache fun k =>
        { k with flush := k.flush.set c (some [{ entry := e, again := false }]) } := by
    refine State.flushWritten_one (c := c) (fun d hd => ?_) (State.flushWrittenOf_again ?_) (fun d hd => ?_)
    · rw [h.sets, if_neg hd]
    · rw [h.sets, if_pos rfl]
    · rw [State.modCache_cache, vector_get_set, if_neg hd, h.sets, if_neg hd]
  rw [h.completed, hset]
  generalize hu : ((s.writtenBack.modEntry e Entry.afterWrite).modCache fun k =>
    { k with flush := k.flush.set c (some [{ entry := e, again := false }]) }) = u
  have hentry : u.entry e = { slot := some slot, pending := 0, state := .gathering, snapshot := 0, evicted := false } := by
    rw [← hu]
    exact h.entry
  have hqueue : u.cache.queue = [] := by rw [← hu]; exact h.queue
  have hnames : u.cache.flushNames e = true := by
    rw [← hu]
    exact Cache.flushNames_set List.mem_cons_self rfl
  have hdue : u.isDue e = true := by
    simp only [State.isDue, hentry, hqueue, hnames]
    rfl
  rw [State.lookDue, if_pos hdue]
  refine State.writeBackDone_again hqueue ?_ ?_ (by rw [hentry]) ?_ h.budget ?_
  · rw [← hu]; exact h.waiting
  · rw [← hu]; rfl
  · rw [← hu]; exact h.record
  · rw [← hu]; exact h.normal

/-- The last member leaves the set: the FLUSH is answered, and the arbiter becomes idle (R132). -/
theorem State.WritesLast.completed_last (h : s.WritesLast c e slot r false) : s.completeAccess =
    (((s.writtenBack.modEntry e Entry.afterWrite).modCache fun k => { k with flush := k.flush.set c none }).answer c
      .done []).modArbiter fun _ => {} := by
  have hset : allChans.foldl (fun t c => t.flushWrittenOf c e false) (s.writtenBack.modEntry e Entry.afterWrite) =
      ((s.writtenBack.modEntry e Entry.afterWrite).modCache fun k => { k with flush := k.flush.set c none }).answer c
        .done [] := by
    refine State.flushWritten_one (c := c) (fun d hd => ?_) (State.flushWrittenOf_last ?_) (fun d hd => ?_)
    · rw [h.sets, if_neg hd]
    · rw [h.sets, if_pos rfl]
    · rw [State.answer, State.modChan_cache, State.modCache_cache, vector_get_set, if_neg hd, h.sets, if_neg hd]
  rw [h.completed, hset]
  generalize hu : (((s.writtenBack.modEntry e Entry.afterWrite).modCache fun k =>
    { k with flush := k.flush.set c none }).answer c .done []) = u
  have hentry : u.entry e = { slot := some slot, pending := 0, state := .gathering, snapshot := 0, evicted := false } := by
    rw [← hu]
    exact h.entry
  have hqueue : u.cache.queue = [] := by rw [← hu]; exact h.queue
  have hnames : u.cache.flushNames e = false := by
    rw [← hu]
    refine Cache.flushNames_none fun d => ?_
    rw [State.answer, State.modChan_cache, State.modCache_cache, vector_get_set, h.sets]
    split <;> rfl
  have hdue : u.isDue e = false := by
    simp only [State.isDue, hentry, hqueue, hnames]
    rfl
  rw [State.lookDue, if_neg (by rw [hdue]; decide)]
  refine State.writeBackDone_idle hqueue ?_ ?_ ?_ h.budget ?_
  · rw [← hu]; exact h.waiting
  · rw [← hu]; rfl
  · rw [← hu]; exact h.record
  · rw [← hu]; exact h.normal

end

/-- What a RESTART begins (R134). -/
theorem State.orderRestart_begins {s : State} :
    let u := s.orderRestart
    u.cache.restarting = true ∧ (∀ d, u.chan d = s.chan d) ∧ (∀ l, u.line l = s.line l) ∧
      u.store = s.store ∧ u.rating = s.rating ∧ (∀ e, (u.entry e).pending = (s.entry e).pending) ∧
      ∀ e, (s.entry e).state = .gathering → 0 < (s.entry e).pending → e ∈ u.cache.queue ∨ (u.entry e).state = .writing := by
  intro u
  have hu : u = s.orderRestart := rfl
  rw [hu, State.orderRestart]
  refine ⟨?_, State.lookAll_keeps (s := s) (t := s) (fun k => { k with restarting := true }) (fun _ => rfl)
    (fun _ => rfl) (fun _ => rfl) (List.finRange 32) ?_ ?_⟩
  · rw [(keepsCharges_lookAll _ _).1.re, State.modCache_cache]
  · exact fun e _ => List.mem_finRange e
  · exact fun _ _ => .inl rfl

/-- What a FLUSH that finds units pending begins (R132). -/
theorem State.orderFlush_begins {s : State} {c : ChanNo} (h : ∃ e, 0 < (s.entry e).pending) :
    let u := s.orderFlush c
    u.cache.flush.get c = some s.flushMembers ∧ (∀ d, u.chan d = s.chan d) ∧ (∀ l, u.line l = s.line l) ∧
      u.store = s.store ∧ u.rating = s.rating ∧ (∀ e, (u.entry e).pending = (s.entry e).pending) ∧
      ∀ e, (s.entry e).state = .gathering → 0 < (s.entry e).pending → e ∈ u.cache.queue ∨ (u.entry e).state = .writing := by
  intro u
  have hu : u = _ := State.orderFlush_pending h
  rw [hu]
  refine ⟨?_, State.lookAll_keeps (s := s) (t := s)
    (fun k => { k with flush := k.flush.set c (some s.flushMembers) }) (fun _ => rfl) (fun _ => rfl) (fun _ => rfl) _ ?_ ?_⟩
  · rw [(keepsCharges_lookAll _ _).1.fl, State.modCache_cache, vector_get_set, if_pos rfl]
  · exact fun e he => List.mem_filter.2 ⟨List.mem_finRange e, decide_eq_true he⟩
  · exact fun e he => .inr (Cache.flushNames_set
      (m := { entry := e, again := decide ((s.entry e).state = .writing) }) (State.mem_flushMembers.2 ⟨he, rfl⟩) rfl)

/-- Settles O46: an orderly restart and a FLUSH bring every entry with units pending to its write-back, and the write-back
of the last entry of a set ends the FLUSH or is followed by a second one. -/
theorem restartAndFlushWriteTheCache : Obligations.RestartAndFlushWriteTheCache := by
  unfold Obligations.RestartAndFlushWriteTheCache
  refine ⟨?_, ?_⟩
  · intro s c f ha hfp hf kept
    refine ⟨fun hop => ⟨(s.inExecution c 26 f).orderRestart, ?_, ?_, ?_⟩, fun hnone => ?_, fun hsome => ?_⟩
    · exact congrArg Host.Outcome.next (ha.run_operator hfp hop hf rfl (by decide) (by decide))
    · exact (State.orderRestart_begins (s := s.inExecution c 26 f)).1
    · exact (State.orderRestart_begins (s := s.inExecution c 26 f)).2
    · have hrun : exec (.flush c f) s = .next ((s.inExecution c 16 f).orderFlush c).started := congrArg Host.Outcome.next
        (ha.run_fixed hf rfl (by decide) rfl (ChanState.allows_live (by decide)) (.inl hfp) rfl)
      rw [hrun, State.orderFlush_empty (s := s.inExecution c 16 f) hnone, State.answer_inExecution]
    · have hrun : exec (.flush c f) s = .next ((s.inExecution c 16 f).orderFlush c).started := congrArg Host.Outcome.next
        (ha.run_fixed hf rfl (by decide) rfl (ChanState.allows_live (by decide)) (.inl hfp) rfl)
      have hentry : ∀ e, (s.inExecution c 16 f).entry e = s.entry e := fun _ => rfl
      obtain ⟨hset, hkept⟩ := State.orderFlush_begins (s := s.inExecution c 16 f) (c := c) hsome
      refine ⟨_, _, hrun, hset, ?_, fun e => ⟨?_, fun he => ?_⟩, fun m hm => ?_⟩
      · exact hkept
      · rintro ⟨m, hm, rfl⟩
        rw [← hentry]
        exact (State.mem_flushMembers.1 hm).1
      · exact ⟨{ entry := e, again := decide ((s.entry e).state = .writing) }, State.mem_flushMembers.2 ⟨he, rfl⟩, rfl⟩
      · rw [(State.mem_flushMembers.1 hm).2, decide_eq_true_eq, hentry]
  · intro s c e slot r a rest again access hp ho harb hslot hst hev hpend hopen hq hw hre hb hpres hfl
    have h : s.WritesLast c e slot r again := ⟨harb, hslot, hst, hev, hpend, hopen, hq, hw, hb, hpres, hfl⟩
    have hrun : exec .accessComplete s = .next s.completeAccess.started := exec_on hp rfl rfl
    have hentry := h.entry
    cases again with
    | true =>
      refine ⟨s.completeAccess, hrun, ?_⟩
      rw [h.completed_again]
      refine ⟨rfl, ?_, fun _ => rfl, fun _ _ => rfl, fun h => (Bool.false_ne_true h.symm).elim, fun _ => ⟨?_, ?_, ?_, rfl⟩⟩
      · rw [State.writingAgain, State.entry_modArbiter, State.entry_modEntry, if_pos rfl]
        show ((s.writtenBack.modEntry e Entry.afterWrite).entry e).pending = 0
        rw [hentry]
      · exact (vector_get_set _ _ _ _).trans (if_pos rfl)
      · rw [State.writingAgain, State.entry_modArbiter, State.entry_modEntry, if_pos rfl]
      · show ({ current := some { who := .writeBack, write := .put slot { r with used := r.used +
          ((s.writtenBack.modEntry e Entry.afterWrite).entry e).pending }, result := .writeBack e } } : Arbiter) = _
        rw [hentry]
        rfl
    | false =>
      refine ⟨s.completeAccess, hrun, ?_⟩
      rw [h.completed_last]
      refine ⟨rfl, ?_, fun _ => rfl, fun d hd => ?_, fun _ => ⟨?_, ?_, rfl, ?_⟩, fun h => (Bool.false_ne_true h).elim⟩
      · exact congrArg Entry.pending hentry
      · exact (State.chan_of_channels (State.modArbiter_channels _ _) d).trans (State.chan_modChan_ne _ _ hd)
      · exact (vector_get_set _ _ _ _).trans (if_pos rfl)
      · exact congrArg Entry.state hentry
      · exact (State.chan_of_channels (State.modArbiter_channels _ _) c).trans (State.chan_answered ho)

end Sys2Proof.Machine
end

section
/-! The rights windows, the judgement of an order, and the records that leave on the link (R43 to R45, R81, R166, R171 to
R173, R179, R180). -/

namespace Sys2Proof.Machine

/-! ## Rights windows -/

section
variable {g : ChanConfig} {n : Nat}

theorem Window.covers_iff {w : Window} : w.covers n = true ↔ n / 2 ^ w.exp = w.base / 2 ^ w.exp := decide_eq_true_iff

/-- A window covers the block of `2 ^ exp` numbers that its base lies in (R43). -/
theorem Window.covers_iff_range {w : Window} : w.covers n = true ↔
    w.base - w.base % 2 ^ w.exp ≤ n ∧ n < w.base - w.base % 2 ^ w.exp + 2 ^ w.exp := by
  have hpos : 0 < 2 ^ w.exp := Nat.two_pow_pos _
  have hbase : w.base / 2 ^ w.exp * 2 ^ w.exp = w.base - w.base % 2 ^ w.exp := by
    have := Nat.div_add_mod' w.base (2 ^ w.exp)
    omega
  rw [Window.covers_iff, Nat.div_eq_iff hpos, hbase]
  omega

/-- The first window that covers a number gives the right on it (R44). -/
theorem ChanConfig.right_first {i : Fin 4} (hi : (g.windows.get i).covers n = true)
    (hfirst : ∀ j, j < i → (g.windows.get j).covers n = false) : g.right n = (g.windows.get i).right := by
  have hfind : g.windows.toList.find? (fun w => w.covers n) = some (g.windows.get i) := by
    refine List.find?_eq_some_iff_getElem.2 ⟨hi, i.val, by simp, by simp [Vector.get], fun j hj => ?_⟩
    have hnot := hfirst ⟨j, by omega⟩ hj
    simpa [Vector.get] using hnot
  rw [ChanConfig.right, hfind]

theorem ChanConfig.right_default (h : ∀ i, (g.windows.get i).covers n = false) : g.right n = g.default := by
  have hfind : g.windows.toList.find? (fun w => w.covers n) = none := by
    refine List.find?_eq_none.2 fun w hw => ?_
    obtain ⟨i, hi, rfl⟩ := Vector.getElem_of_mem (Vector.mem_toList_iff.1 hw)
    have hnot : g.windows[i].covers n = false := h ⟨i, hi⟩
    rw [hnot]
    exact Bool.false_ne_true
  rw [ChanConfig.right, hfind]

end

/-- Settles O57: the first window that covers a number decides, and a window is a block of `2 ^ exp` numbers. -/
theorem rightsFollowTheWindows : Obligations.RightsFollowTheWindows := by
  unfold Obligations.RightsFollowTheWindows
  intro s c n g covers
  have hcovers : ∀ i, ¬ covers i ↔ (g.windows.get i).covers n = false := fun i => by
    rw [← Bool.not_eq_true, Window.covers_iff]
  refine ⟨fun hs => ⟨?_, ?_⟩, fun hs => ⟨?_, fun i hi hfirst => ?_, fun hnone => ?_⟩, fun w =>
    ⟨Window.covers_iff_range, fun he hb hn => ?_⟩⟩
  · rw [State.right, if_pos hs]
  · rw [State.operator, hs, Bool.true_or]
  · rw [State.operator, hs, Bool.false_or]
  · rw [State.right, if_neg (by rw [hs]; decide)]
    exact ChanConfig.right_first (Window.covers_iff.2 hi) fun j hj => (hcovers j).1 (hfirst j hj)
  · rw [State.right, if_neg (by rw [hs]; decide)]
    exact ChanConfig.right_default fun i => (hcovers i).1 (hnone i)
  · rw [Window.covers_iff, he, Nat.div_eq_of_lt (by omega), Nat.div_eq_of_lt (by omega)]

/-! ## The judgement of an order -/

section
variable {s : State} {c : ChanNo} {f : OrderFrame} {code : Byte}

/-- The state in which an order has joined the queue of its channel (R171, R179). -/
def State.queued (s : State) (c : ChanNo) (code : Byte) (f : OrderFrame) : State :=
  (s.afterFrame c).modChan c fun ch => { ch with orders := ch.orders ++ [orderOf code f] }

theorem State.arrive_full (h : 8 ≤ (s.chan c).orders.length) : s.arrive c code f =
    (s.afterFrame c).modChan c fun ch => { ch with busy := ch.busy ++ [{ outcome := .busy, seq := f.seq, body := [] }] } := by
  rw [State.arrive, if_pos h, State.heard_eq]

theorem State.arrive_waits (h : 1 ≤ (s.chan c).orders.length) (h7 : (s.chan c).orders.length ≤ 7) :
    s.arrive c code f = s.queued c code f := by
  have hne : (s.chan c).orders ≠ [] := List.ne_nil_of_length_pos h
  have hlt : ¬ Config.orderCap ≤ (s.chan c).orders.length := by
    show ¬ 8 ≤ _
    omega
  rw [State.arrive, if_neg hlt, if_neg hne, State.heard_eq]
  rfl

theorem State.arrive_head (h : (s.chan c).orders = []) : s.arrive c code f = (s.queued c code f).executeHead c := by
  have hlt : ¬ Config.orderCap ≤ (s.chan c).orders.length := by
    rw [h]
    decide
  rw [State.arrive, if_neg hlt, if_pos h, State.heard_eq]
  rfl

theorem State.refusalOf_queued (o : Order) : (s.queued c code f).refusalOf c o = s.refusalOf c o := by
  have hstate : ((s.queued c code f).chan c).state = (s.chan c).state := by
    rw [State.queued, State.chan_modChan_self, State.afterFrame, State.chan_modChan_self]
  have hfault : ((s.queued c code f).chan c).faultPending = (s.chan c).faultPending := by
    rw [State.queued, State.chan_modChan_self, State.afterFrame, State.chan_modChan_self]
  rw [State.refusalOf, hstate, hfault]
  rfl

/-- An order that one of the steps refuses, at the head of its queue, is answered with that outcome (R172). -/
theorem State.arrive_refused {o : Outcome} (h : (s.chan c).orders = []) (hr : s.refusalOf c (orderOf code f) = some o) :
    s.arrive c code f = (s.queued c code f).replied c f o [] := by
  have horders : ((s.queued c code f).chan c).orders = [orderOf code f] := by
    rw [State.queued, State.chan_modChan_self, State.afterFrame, State.chan_modChan_self]
    show (s.chan c).orders ++ _ = _
    rw [h, List.nil_append]
  rw [State.arrive_head h, State.executeHead_refuse horders (by rw [State.refusalOf_queued, hr])]
  exact State.answer_replied (code := code) horders _ _

theorem ChanState.allows_iff {st : ChanState} {n : Nat} : st.allows n = true ↔
    match st with
    | .up => True
    | .quiescing => n ≠ 1 ∧ n ≠ 2
    | .down | .failed => n = 1 ∨ n = 3 ∨ n = 29 ∨ n = 30 := by
  unfold ChanState.allows
  split
  case h_6 => cases st <;> simp_all
  all_goals cases st <;> simp

theorem passesFault_false {n : Nat} (h : n = 1 ∨ 9 ≤ n) : passesFault n = false := by
  rw [passesFault, Bool.and_eq_false_iff, decide_eq_false_iff_not, decide_eq_false_iff_not]
  omega

theorem knownCode_iff {n : Nat} : knownCode n = true ↔ 1 ≤ n ∧ n ≤ 30 := by
  rw [knownCode, Bool.and_eq_true, decide_eq_true_iff, decide_eq_true_iff]

theorem knownCode_false {n : Nat} (h : n = 0 ∨ 30 < n) : knownCode n = false := by
  rw [← Bool.not_eq_true, knownCode_iff]
  omega

/-! ### The five steps, each with the ones before it passed (R172) -/

theorem State.refusalOf_code {o : Order} (h : knownCode o.code.toNat = false) : s.refusalOf c o = some .badOrder :=
  if_pos (by rw [h]; rfl)

theorem State.refusalOf_length (hk : knownCode code.toNat = true) (h : (orderOf code f).lengthFits = false) :
    s.refusalOf c (orderOf code f) = some .badValue := by
  rw [State.refusalOf, show (orderOf code f).code = code from rfl, hk, h]
  rfl

theorem State.refusalOf_state (hk : knownCode code.toNat = true) (hl : (orderOf code f).lengthFits = true)
    (h : (s.chan c).state.allows code.toNat = false) : s.refusalOf c (orderOf code f) = some .wrongState := by
  rw [State.refusalOf, show (orderOf code f).code = code from rfl, hk, hl, h]
  rfl

theorem State.refusalOf_fault (hk : knownCode code.toNat = true) (hl : (orderOf code f).lengthFits = true)
    (hs : (s.chan c).state.allows code.toNat = true) (hf : (s.chan c).faultPending = true)
    (h : passesFault code.toNat = false) : s.refusalOf c (orderOf code f) = some .faultPending := by
  rw [State.refusalOf, show (orderOf code f).code = code from rfl, hk, hl, hs, hf, h]
  rfl

theorem State.refusalOf_right (hk : knownCode code.toNat = true) (hl : (orderOf code f).lengthFits = true)
    (hs : (s.chan c).state.allows code.toNat = true) (hf : (s.chan c).faultPending = false)
    (h : s.rightFor c (orderOf code f) = false) : s.refusalOf c (orderOf code f) = some .noRight := by
  rw [State.refusalOf, show (orderOf code f).code = code from rfl, hk, hl, hs, hf, h]
  rfl

theorem State.rightFor_notOperator (h : s.operator c = false) (h17 : 17 ≤ code.toNat) (h26 : code.toNat ≤ 26) :
    s.rightFor c (orderOf code f) = false := by
  have hop : isOperatorOrder code.toNat = true := by
    rw [isOperatorOrder, Bool.and_eq_true, decide_eq_true_iff, decide_eq_true_iff]
    exact ⟨h17, h26⟩
  rw [State.rightFor, show (orderOf code f).code = code from rfl]
  split
  case h_7 => rw [hop, h]; rfl
  all_goals omega

/-- The right of an account order is judged on the number its body begins with (R152). -/
theorem State.rightFor_number {n1 n0 : Byte} {rest : List Byte} (hb : f.body = n1 :: n0 :: rest)
    (hlen : f.body.length ≤ 512) : s.rightFor c (orderOf code f) =
      match code.toNat with
      | 9 | 10 | 11 => (s.right c (n1.toNat * 256 + n0.toNat)).edits
      | 12 | 14 => s.right c (n1.toNat * 256 + n0.toNat) != .none
      | 15 => (s.right c (n1.toNat * 256 + n0.toNat)).charges
      | n => !isOperatorOrder n || s.operator c := by
  have hbody : (orderOf code f).body = n1 :: n0 :: rest := by
    rw [← hb]
    exact if_pos hlen
  have hnum : bodyField (orderOf code f).body 0 2 = n1.toNat * 256 + n0.toNat := by
    rw [hbody]
    exact bodyField_eq (beNat_two n1 n0)
  rw [State.rightFor, hnum]
  rfl

end

/-- Settles O58: arrival at a full queue, behind others, and at the head, where the first step to refuse decides. -/
theorem ordersAreJudgedInOrder : Obligations.OrdersAreJudgedInOrder := by
  unfold Obligations.OrdersAreJudgedInOrder
  intro s c f code hp r queued n size fits allowed refused
  have hrun : ∀ u, s.arrive c code f = u → r = .next u.started := fun u hu =>
    (orderCommand_exec c f code s).trans (by rw [State.whenOn, if_pos hp, hu])
  refine ⟨fun h8 => hrun _ (State.arrive_full h8), fun h1 h7 => hrun _ (State.arrive_waits h1 h7), fun ho => ?_⟩
  have href : ∀ o, s.refusalOf c (orderOf code f) = some o → refused o := fun o h => hrun _ (State.arrive_refused ho h)
  clear_value refused
  refine ⟨fun hn => href _ (State.refusalOf_code (knownCode_false hn)), fun h1 h30 => ?_⟩
  have hk : knownCode code.toNat = true := knownCode_iff.2 ⟨h1, h30⟩
  have hfits : (orderOf code f).lengthFits = true ↔ fits := lengthFits_iff code f h1 h30
  have hallows : (s.chan c).state.allows code.toNat = true ↔ allowed := ChanState.allows_iff
  have hlen : fits → f.body.length ≤ 512 := fun h => by rw [h.1]; exact h.2.1
  clear_value allowed fits
  refine ⟨fun h => href _ (State.refusalOf_length hk ?_), fun hf h => href _ (State.refusalOf_state hk (hfits.2 hf) ?_),
    fun hf hal hfp hn => href _ (State.refusalOf_fault hk (hfits.2 hf) (hallows.2 hal) hfp (passesFault_false hn)),
    fun hf hal hfp => ?_⟩
  · rw [← Bool.not_eq_true, hfits]
    exact h
  · rw [← Bool.not_eq_true, hallows]
    exact h
  have hright : s.rightFor c (orderOf code f) = false → refused .noRight := fun h =>
    href _ (State.refusalOf_right hk (hfits.2 hf) (hallows.2 hal) hfp h)
  refine ⟨fun h17 h26 hop => hright (State.rightFor_notOperator hop h17 h26), ?_⟩
  intro n1 n0 rest hb right
  have hfor := State.rightFor_number (s := s) (c := c) (code := code) hb (hlen hf)
  refine ⟨fun hn he => hright ?_, fun hn he => hright ?_, fun hn he => hright ?_⟩
  · rcases hn with hn | hn | hn <;> exact hfor.trans (by rw [show code.toNat = _ from hn]; exact he)
  · rcases hn with hn | hn <;> exact hfor.trans (by rw [show code.toNat = _ from hn]; simp [show s.right c _ = _ from he])
  · exact hfor.trans (by rw [show code.toNat = _ from hn]; exact he)

/-! ## Records on the link -/

section
variable {s : State} {c : ChanNo}

theorem State.sendReply_busy {r : Reply} {rest : List Reply} (h : (s.chan c).busy = r :: rest) : s.sendReply c =
    s.modChan c fun x => { x with busy := rest, linkOut := some (.reply r) } := by
  rw [State.sendReply, h]

theorem State.sendReply_none (hb : (s.chan c).busy = []) (h : (s.chan c).reply = none) : s.sendReply c = s := by
  rw [State.sendReply, hb, h]

theorem State.sendReply_reply {r : Reply} (hb : (s.chan c).busy = []) (h : (s.chan c).reply = some r) : s.sendReply c =
    (s.modChan c fun x => { x with orders := x.orders.tail, reply := none, linkOut := some (.reply r) }).executeHead c := by
  rw [State.sendReply, hb, h]

theorem State.sendNotice_none (h : (s.chan c).notices = []) : s.sendNotice c = s := by
  refine State.modChan_self ?_
  rw [h]

theorem State.sendNotice_oldest {m : Notice} {rest : List Notice} (h : (s.chan c).notices = m :: rest) :
    s.sendNotice c = s.modChan c fun x => { x with notices := rest, linkOut := some (.notice m) } := by
  refine State.modChan_congr ?_
  rw [h]

theorem State.sendBlock_none (h : (s.chan c).dataOut = []) : s.sendBlock c = s := by
  rw [State.sendBlock, h]

theorem State.sendBlock_oldest {b : DataBlock} {rest : List DataBlock} (h : (s.chan c).dataOut = b :: rest) :
    s.sendBlock c =
      (let t := s.modChan c fun x => { x with dataOut := rest, linkOut := some (.data b) }
      if b.overrun then t.modFlow c b.port fun g => { g with overrun := false } else t) := by
  rw [State.sendBlock, h]

theorem State.answer_at {a : Order} {rest : List Order} {o : Outcome} {body : List Byte}
    (h : (s.chan c).orders = a :: rest) :
    s.answer c o body = s.modChan c fun x => { x with reply := some { outcome := o, seq := a.seq, body := body } } := by
  refine State.modChan_congr ?_
  have hanswered := State.chan_answered (o := o) (body := body) h
  rwa [State.answer, State.chan_modChan_self] at hanswered

theorem State.executeHead_none (h : (s.chan c).orders = []) : s.executeHead c = s := by
  rw [State.executeHead, h]

end

/-- Settles O59: what each of the three sendings takes, and that the next order then comes into execution. -/
theorem recordsLeaveOnTheLink : Obligations.RecordsLeaveOnTheLink := by
  unfold Obligations.RecordsLeaveOnTheLink
  intro s c hp ch
  refine ⟨fun r rest hb => exec_on hp rfl (State.sendReply_busy hb), fun hb => ⟨fun hr =>
    exec_on hp rfl (State.sendReply_none hb hr), fun r hr => ⟨fun a ho => ?_, fun a b rest ho hcode => ?_⟩⟩, fun hn =>
    exec_on hp rfl (State.sendNotice_none hn), fun m rest hn => exec_on hp rfl (State.sendNotice_oldest hn), fun hd =>
    exec_on hp rfl (State.sendBlock_none hd), ?_⟩
  · refine exec_on hp rfl ((State.sendReply_reply hb hr).trans ((State.executeHead_none ?_).trans (State.modChan_congr ?_)))
    · rw [State.chan_modChan_self]
      show (s.chan c).orders.tail = []
      rw [show (s.chan c).orders = [a] from ho]
      rfl
    · rw [show (s.chan c).orders = [a] from ho]
      rfl
  · refine exec_on hp rfl ((State.sendReply_reply hb hr).trans ?_)
    have horders : ((s.modChan c fun x =>
        { x with orders := x.orders.tail, reply := none, linkOut := some (.reply r) }).chan c).orders = b :: rest := by
      rw [State.chan_modChan_self]
      show (s.chan c).orders.tail = _
      rw [show (s.chan c).orders = _ from ho]
      rfl
    rw [State.executeHead_refuse horders (State.refusalOf_code (knownCode_false hcode)), State.answer_at horders,
      State.modChan_modChan]
    refine State.modChan_congr ?_
    rw [show (s.chan c).orders = _ from ho]
    rfl
  · intro b rest hd t
    have hblock := State.sendBlock_oldest (s := s) (c := c) hd
    refine ⟨fun hov => exec_on hp rfl (hblock.trans ?_), fun hov => exec_on hp rfl (hblock.trans ?_)⟩
    · rw [if_neg (by rw [hov]; decide)]
    · rw [if_pos hov]
      rfl

end Sys2Proof.Machine
end

section
/-! The end of a grace, and LOGOFF with a session (R64, R78, R140). -/

namespace Sys2Proof.Machine

section
variable {s : State} {l : LineNo} {slot : Nat}

/-! ## Notices to the computers with the EDIT right -/

/-- An account is moved to a budget state, and BUDGET STATE is queued (R139): the presence entry and the channels. -/
theorem State.budgetNotice_told (b : BudgetState) : ∃ x table,
    (s.setBudgetState slot b).budgetNotice slot b = { s with presence := table, channels := x } ∧
    ((s.setBudgetState slot b).budgetNotice slot b).presenceOf slot =
      { s.presenceOf slot with budget := some b, graceTimer := b = .grace } ∧
    ∀ d, ((s.setBudgetState slot b).budgetNotice slot b).chan d = s.budgetTold slot b (s.total slot) d := by
  obtain ⟨x, hx⟩ := State.noticeWhere_eq (s.setBudgetState slot b)
    (fun t c => (t.chan c).state = .up ∧ (t.right c ((s.setBudgetState slot b).accountOf slot)).edits)
    (noticeBudget ((s.setBudgetState slot b).accountOf slot) b ((s.setBudgetState slot b).total slot)
      ((s.setBudgetState slot b).budget slot))
  refine ⟨x, _, hx, ?_, fun d => (State.chan_noticeEdit _ _ _ _).trans ?_⟩
  · refine (congrArg (fun t => State.presenceOf t slot) hx).trans ?_
    exact State.presenceOf_setPresence s slot { s.presenceOf slot with budget := some b, graceTimer := b = .grace }
  · cases b <;> rfl

/-! ## A clear with text left to send -/

/-- A line that a clear ends while characters wait to be sent (R15, R64, R86). -/
def State.endedLine (s : State) (l : LineNo) (cause : Cause) : State :=
  ((s.modUnit l fun u => u.clearing cause).modDialog l fun d => { d.ended with counted := none }).modCtx l fun _ => {}

theorem State.line_endedLine (cause : Cause) : (s.endedLine l cause).line l =
    { unit := (s.unit l).clearing cause, dialog := { (s.dialog l).ended with counted := none }, ctx := {} } := by
  simp only [State.endedLine, State.modUnit, State.modDialog, State.modCtx, State.setLine_setLine,
    State.line_setLine_self, State.dialog, State.unit]

theorem State.line_cleared (cause : Cause) : (s.cleared l cause).line l = (s.line l).afterClear cause :=
  State.line_setLine_self ..

/-- A clear of a counted line that does not wait, beside the line itself (R15, R64). -/
theorem State.cleared_counted {cause : Cause} (hc : (s.dialog l).counted = some slot) (h : s.NotWaiting l) :
    s.cleared l cause = (s.setPresence slot { s.presenceOf slot with count := (s.presenceOf slot).count - 1 }).setLine l
      ((s.line l).afterClear cause) := by
  rw [State.cleared, State.unqueued_self, State.uncounted, hc]
  intro c w hw
  refine h.queues c w ?_
  rw [State.uncounted, hc] at hw
  exact hw

theorem Line.afterClear_clearing {x : Line} {cause : Cause} (hh : x.unit.lineHit = false) (hm : x.unit.partMsg ≠ []) :
    x.afterClear cause =
      { unit := x.unit.clearing cause, dialog := { x.dialog.ended with counted := none }, ctx := {} } := by
  rw [Line.afterClear, LineUnit.afterClear, if_neg]
  rintro (h | h)
  · rw [hh] at h
    exact Bool.false_ne_true h
  · exact hm h

theorem State.partMsg_place_ne {cs : List Code} (hc : cs ≠ []) : ((s.place l cs).unit l).partMsg ≠ [] := by
  rw [State.place, State.unit_modUnit]
  intro h
  obtain ⟨hm, ht⟩ := List.append_eq_nil_iff.1 h
  rw [hm] at ht
  rcases List.take_eq_nil_iff.1 ht with h0 | h0
  · exact absurd h0 (by decide)
  · exact hc h0

theorem State.partMsg_shown_ne (cs : List Code) : ((s.shown l cs).unit l).partMsg ≠ [] := by
  have hplaced : ∀ (t : State) xs, (t.unit l).partMsg ≠ [] → ((t.place l xs).unit l).partMsg ≠ [] := fun t xs ht => by
    rw [State.place, State.unit_modUnit]
    exact fun h => ht (List.append_eq_nil_iff.1 h).1
  have hfirst : ((s.place l ([13, 10] ++ cs)).unit l).partMsg ≠ [] := State.partMsg_place_ne (List.cons_ne_nil _ _)
  unfold State.shown
  split
  · exact hplaced _ _ (hplaced _ _ hfirst)
  · exact hfirst

/-- What `shown` changes is the unit of the line, and there only what waits to be sent. -/
theorem State.shown_eq (cs : List Code) : ∃ m, s.shown l cs = s.modUnit l fun u => { u with partMsg := m } := by
  unfold State.shown
  split
  · refine ⟨((((s.place l ([13, 10] ++ cs)).place l [13, 10, 62]).place l (s.ctx l).field).unit l).partMsg, ?_⟩
    simp only [State.place, State.modUnit_modUnit, State.unit_modUnit]
    exact State.modUnit_congr rfl
  · exact ⟨_, rfl⟩

theorem State.showText_command (h : (s.unit l).state = .command) (cs : List Code) : s.showText l cs = s.shown l cs := by
  rw [State.showText, h, State.shown, if_pos h]
  rfl

end

section
variable {s t : State} {l : LineNo} {slot : Nat}

theorem State.shown_congr (h : t.line l = s.line l) (cs : List Code) : (t.shown l cs).line l = (s.shown l cs).line l := by
  have hplace : ∀ (a b : State) xs, a.line l = b.line l → (a.place l xs).line l = (b.place l xs).line l := fun a b xs hab => by
    rw [State.place, State.place, State.line_modUnit, State.line_modUnit, if_pos rfl, if_pos rfl, State.unit, State.unit, hab]
  have hunit : t.unit l = s.unit l := congrArg Line.unit h
  have hctx : t.ctx l = s.ctx l := congrArg Line.ctx h
  unfold State.shown
  rw [hunit, hctx]
  split
  · exact hplace _ _ _ (hplace _ _ _ (hplace _ _ _ h))
  · exact hplace _ _ _ h

theorem State.NotWaiting.of_queues_ports (h : s.NotWaiting l) (hq : ∀ c, (t.chan c).queue = (s.chan c).queue)
    (hp : ∀ c, (t.chan c).ports = (s.chan c).ports) : t.NotWaiting l where
  queues c w hw := h.queues c w (by rw [← hq]; exact hw)
  openings c p x hx := h.openings c p x (by rw [State.port?, ← hp]; exact hx)

theorem State.budgetTold_queue_ports (b : BudgetState) (total : Nat) (d : ChanNo) :
    (s.budgetTold slot b total d).queue = (s.chan d).queue ∧ (s.budgetTold slot b total d).ports = (s.chan d).ports := by
  unfold State.budgetTold
  split
  · exact ⟨Channel.noted_queue .., Channel.noted_ports ..⟩
  · exact ⟨rfl, rfl⟩

theorem State.signedOn_of_lines (h : t.lines = s.lines) : t.signedOn slot = s.signedOn slot := by
  unfold State.signedOn State.dialog State.line
  rw [h]

theorem State.mem_signedOn : l ∈ s.signedOn slot ↔ (s.dialog l).counted = some slot := by
  rw [State.signedOn, List.mem_filter, decide_eq_true_iff]
  exact and_iff_right (List.mem_finRange l)

end

/-- Settles O54: the account is SPENT and told, and its one line is shown a text and cleared. -/
theorem graceEndsInSpent : Obligations.GraceEndsInSpent := by
  unfold Obligations.GraceEndsInSpent
  intro s slot hp p told
  obtain ⟨x, table, hx, hpres, htold⟩ := State.budgetNotice_told (s := s) (slot := slot) .spent
  refine ⟨fun hg => exec_on hp rfl (if_neg (by rw [show (s.presenceOf slot).graceTimer = _ from hg]; decide)),
    fun hg hsigned => ?_, fun l hg hsigned hc hh hph hst hw => ?_⟩
  · refine ⟨_, exec_on hp rfl (if_pos hg), ?_⟩
    have hexp : s.graceExpired slot = (s.setBudgetState slot .spent).budgetNotice slot .spent := by
      have hnone : ((s.setBudgetState slot .spent).budgetNotice slot .spent).signedOn slot = s.signedOn slot :=
        State.signedOn_of_lines (by rw [hx])
      rw [State.graceExpired, hnone, hsigned, List.foldl_nil]
    rw [hexp]
    refine ⟨hpres, htold, ?_⟩
    rw [hx]
    exact ⟨fun _ => rfl, rfl, rfl, rfl⟩
  · refine ⟨_, exec_on hp rfl (if_pos hg), ?_⟩
    have hone : s.graceExpired slot = ((((s.setBudgetState slot .spent).budgetNotice slot .spent).shown l
        (text "BUDGET SPENT")).clearLine l .budget) := by
      have hone : ((s.setBudgetState slot .spent).budgetNotice slot .spent).signedOn slot = s.signedOn slot :=
        State.signedOn_of_lines (by rw [hx])
      rw [State.graceExpired, hone, hsigned, List.foldl_cons, List.foldl_nil, State.showText_command (by rw [hx]; exact hc)]
    rw [hone]
    generalize (s.setBudgetState slot .spent).budgetNotice slot .spent = t at hx hpres htold
    have hline : ∀ k, t.line k = s.line k := fun k => by rw [hx]; rfl
    have hwait : t.NotWaiting l := hw.of_queues_ports
      (fun d => by rw [htold]; exact (State.budgetTold_queue_ports _ _ d).1)
      (fun d => by rw [htold]; exact (State.budgetTold_queue_ports _ _ d).2)
    obtain ⟨m, hm⟩ := State.shown_eq (s := t) (l := l) (text "BUDGET SPENT")
    have hcounted : (s.dialog l).counted = some slot := State.mem_signedOn.1 (by rw [hsigned]; exact List.mem_singleton_self l)
    have hun : (t.shown l (text "BUDGET SPENT")).unit l = { t.unit l with partMsg := m } := by rw [hm, State.unit_modUnit]
    have hdialog : (t.shown l (text "BUDGET SPENT")).dialog l = s.dialog l := by
      rw [hm, State.dialog_modUnit, State.dialog, hline]
      rfl
    have hmpres : ∀ f, (t.modUnit l f).presenceOf slot = t.presenceOf slot := fun _ => rfl
    have hactive : ((t.shown l (text "BUDGET SPENT")).unit l).state.active = true := by
      rw [hun, State.unit, hline]
      exact congrArg LineState.active hc
    have hless : (t.shown l (text "BUDGET SPENT")).Sessionless l := by
      refine ⟨by rw [hdialog, hph]; decide, ?_, ?_, ?_⟩
      · rw [hm, State.ctx_modUnit, State.ctx, hline]
        exact hst
      · intro d q y hy
        exact hwait.openings d q y (by rw [← hy, hm]; rfl)
      · intro k hk
        rw [hdialog, hcounted] at hk
        cases hk
        rw [hm, hmpres, hpres]
        exact fun h => nomatch h
    rw [State.clearLine_cleared _ hactive hless]
    have hself : (t.shown l (text "BUDGET SPENT")).line l = (s.shown l (text "BUDGET SPENT")).line l :=
      State.shown_congr (hline l) _
    have hhit : ((t.shown l (text "BUDGET SPENT")).line l).unit.lineHit = false := by
      refine (congrArg LineUnit.lineHit hun).trans ?_
      rw [State.unit, hline]
      exact hh
    rw [State.cleared_counted (hdialog ▸ hcounted) (by rw [hm]; exact ⟨hwait.queues, hwait.openings⟩),
      Line.afterClear_clearing hhit (State.partMsg_shown_ne _), hself]
    refine ⟨?_, fun d => ?_, (State.line_setLine_self _ _ _).trans (State.line_endedLine _).symm, fun k hk => ?_, ?_⟩
    · rw [hm, hmpres, hpres]
      exact State.presenceOf_setPresence ..
    · refine Eq.trans ?_ (htold d)
      rw [hm]
      rfl
    · rw [State.line_setLine_ne _ _ hk, hm]
      refine (State.line_of_lines (State.setPresence_lines _ _ _) k).trans ?_
      rw [State.line_modUnit, if_neg (Ne.symm hk), hline]
    · rw [hm, hx]
      exact ⟨rfl, rfl, rfl⟩

/-! ## LOGOFF with a session, at a cache that holds two entries of one account -/

namespace TwoEntries

/-- A caller in COMMAND with one HELD session at port 0 of channel 0. -/
def caller : Line :=
  { unit := { state := .command, account := 1 }, dialog := { counted := some 0 },
    ctx := { signOn := some { account := 1, slot := 0, effClass := 3 }, stack := [⟨0, 0, .held⟩] } }

/-- The caller's port. -/
def port : Port := { state := .bound, line := some 0, slot := some 0 }

/-- The session's meter: it has made nothing. -/
def meter : Meter := { channel := 0, port := 0, line := 0, slot := 0, speedClass := .slow, effClass := 3 }

/-- The account has two cache entries: the first holds nothing, the second five units. The close of the meter posts
nothing, and frees the first entry, so that the account's total is then what the second one holds. -/
def state : State :=
  { lines := (Vector.replicate 64 {}).set 0 caller
    channels := (Vector.replicate 4 {}).set 0 { state := .up, ports := [port] }
    rating := { meters := [meter] }
    presence := [(0, { count := 1, budget := some .normal })]
    cache := { entries := ((Vector.replicate 32 {}).set 0 { slot := some 0, state := .gathering }).set 1
                 { slot := some 0, pending := 5, state := .gathering } }
    powered := true }

theorem notWaiting : state.NotWaiting 0 where
  queues c w hw := by
    have hnone : ∀ c, (state.chan c).queue = [] := by decide
    rw [hnone c] at hw
    exact absurd hw List.not_mem_nil
  openings c p x hx ho := by
    have hmem : x ∈ (state.chan c).ports := List.mem_of_getElem? hx
    have hbound : ∀ c, ∀ y ∈ (state.chan c).ports, y.state ≠ .opening := by decide
    exact absurd ho (hbound c x hmem)

theorem running : state.Running 0 ⟨0, 0, .held⟩ port meter 0 where
  port := rfl
  line := rfl
  meter := rfl
  takes := {
    entry := by decide
    waiting := rfl
    room := by decide
    budget := rfl
    normal := rfl }

/-- The summary shows the five units of the second entry. -/
theorem summary : ((state.typed 0 .logoff).unit 0).partMsg =
    [13, 10] ++ text "UNITS THIS SIGN-ON 0" ++ [13, 10] ++ text "USED 5, NO BUDGET" ++ [13, 10] ++ text "SIGNED OFF" := by
  decide

end TwoEntries

/-- Refutes O28: where the cache holds two entries of the account, the close of the session frees the first, and the summary
shows the total of the second, which is not the total before the close with the units that it posted. -/
theorem not_logoffPlacesTheSummaryAndClears : ¬ Obligations.LogoffPlacesTheSummaryAndClears := by
  unfold Obligations.LogoffPlacesTheSummaryAndClears
  intro h
  obtain ⟨-, hone⟩ := h TwoEntries.state 0 { account := 1, slot := 0, effClass := 3 } rfl rfl rfl TwoEntries.notWaiting rfl
    rfl rfl
  obtain ⟨⟨u, hrun, -, hline, -⟩, -⟩ := hone ⟨0, 0, .held⟩ _ _ 0 rfl TwoEntries.running rfl
  have hexec : exec (.logoff 0) TwoEntries.state = .next (TwoEntries.state.typed 0 .logoff).started := exec_on rfl rfl rfl
  have hstarted : (TwoEntries.state.typed 0 .logoff).started = (u.lowerScore 0 16).started :=
    Host.Outcome.next.inj (hexec.symm.trans hrun)
  have hspeed : (u.unit 0).speed = none := (congrArg (fun x => x.unit.speed) hline).trans (by decide)
  have hrest : (u.lowerScore 0 16).Rests 0 := .inr (.inl (by
    rw [State.lowerScore, State.changeScore, State.unit_setHealth]
    exact hspeed))
  have hsent : ((TwoEntries.state.typed 0 .logoff).unit 0).partMsg = (u.unit 0).partMsg := by
    have hunits := congrArg (fun t => (State.unit t 0).partMsg) hstarted
    rw [State.unit_started_rests hrest, State.unit_started_rests (.inr (.inl (by decide))), State.lowerScore,
      State.changeScore, State.unit_setHealth] at hunits
    exact hunits
  have hshown := congrArg (fun x => x.unit.partMsg) hline
  rw [TwoEntries.summary] at hsent
  exact absurd (hsent.trans hshown) (by decide)

end Sys2Proof.Machine
end

section
/-! The close of a session from the part's side (R77, R86, R98, R121). -/

namespace Sys2Proof.Machine

theorem Channel.noted_with (ch : Channel) (ports : List Port) (data : List DataBlock) (n : Notice) :
    { ch with ports := ports, dataOut := data }.noted n = { ch.noted n with ports := ports, dataOut := data } := by
  by_cases hn : ch.notices.length < Config.noticeCap
  all_goals
    unfold Channel.noted
    cases hs : ch.state
  all_goals simp only [hn, if_true, if_false]

/-! ## States that agree on what a close of a session reads -/

/-- Two states with the same meters, tariffs, cache, store, arbiter, ports and budget states. -/
structure State.Agrees (s t : State) : Prop where
  rating  : t.rating = s.rating
  cache   : t.cache = s.cache
  store   : t.store = s.store
  arbiter : t.arbiter = s.arbiter
  ports   : ∀ c, (t.chan c).ports = (s.chan c).ports
  budget  : ∀ slot, (t.presenceOf slot).budget = (s.presenceOf slot).budget

section
variable {s t u : State} {l : LineNo} {k : Session} {x : Port} {m : Meter} {e : Fin 32} {slot n : Nat}

theorem State.Agrees.refl (s : State) : s.Agrees s := ⟨rfl, rfl, rfl, rfl, fun _ => rfl, fun _ => rfl⟩

theorem State.Agrees.trans (h : s.Agrees t) (g : t.Agrees u) : s.Agrees u where
  rating := g.rating.trans h.rating
  cache := g.cache.trans h.cache
  store := g.store.trans h.store
  arbiter := g.arbiter.trans h.arbiter
  ports c := (g.ports c).trans (h.ports c)
  budget slot := (g.budget slot).trans (h.budget slot)

theorem State.lines_ext (h : ∀ j, t.line j = s.line j) : t.lines = s.lines :=
  Vector.ext fun i hi => h ⟨i, hi⟩

theorem State.presenceOf_of_presence (h : t.presence = s.presence) (slot : Nat) : t.presenceOf slot = s.presenceOf slot := by
  rw [State.presenceOf, State.presenceOf, h]

/-- A change of what is held for lines leaves all that a close of a session reads. -/
theorem State.Agrees.setLine (l : LineNo) (y : Line) : s.Agrees (s.setLine l y) :=
  ⟨rfl, rfl, rfl, rfl, fun _ => rfl, fun _ => rfl⟩

theorem State.Agrees.setHealth (l : LineNo) (n : Nat) (h : Health) : s.Agrees (s.setHealth l n h) := by
  obtain ⟨x, hx⟩ := s.setHealth_eq l n h
  exact ⟨by rw [hx]; rfl, by rw [hx]; rfl, by rw [hx]; rfl, by rw [hx]; rfl, fun c => (State.queue_ports_setHealth _ _ _ _ c).2,
    fun _ => by rw [hx]; rfl⟩

theorem State.Agrees.raiseScore (l : LineNo) (n : Nat) : s.Agrees (s.raiseScore l n) := State.Agrees.setHealth ..

theorem State.Agrees.port (h : s.Agrees t) (c : ChanNo) (p : Nat) : t.port? c p = s.port? c p := by
  rw [State.port?, State.port?, h.ports]

theorem State.Agrees.entry (h : s.Agrees t) (e : Fin 32) : t.entry e = s.entry e := by
  rw [State.entry, State.entry, h.cache]

theorem State.Agrees.entryOf (h : s.Agrees t) (slot : Nat) : t.entryOf slot = s.entryOf slot := by
  simp only [State.entryOf, h.entry]

theorem State.Agrees.pendingOf (h : s.Agrees t) (slot : Nat) : t.pendingOf slot = s.pendingOf slot := by
  simp only [State.pendingOf, h.entryOf, h.entry]

theorem State.Agrees.recordAt (h : s.Agrees t) (slot : Nat) : t.recordAt slot = s.recordAt slot := by
  rw [State.recordAt, State.recordAt, h.store]

theorem State.Agrees.takes (h : s.Agrees t) (k : s.Takes e slot n) : t.Takes e slot n where
  entry := (h.entryOf slot).trans k.entry
  waiting := by rw [h.cache]; exact k.waiting
  room := by
    rw [State.room, h.recordAt, h.pendingOf]
    exact k.room
  budget := by
    rw [State.budget, State.budgetRecord, h.arbiter, h.recordAt]
    exact k.budget
  normal := (h.budget slot).trans k.normal

theorem State.Agrees.extraUnits (h : s.Agrees t) (m : Meter) : t.extraUnits m = s.extraUnits m := by
  unfold State.extraUnits
  rw [h.rating]

theorem State.Agrees.finalUnits (h : s.Agrees t) (m : Meter) : t.finalUnits m = s.finalUnits m := by
  rw [State.finalUnits, State.finalUnits, h.extraUnits, h.rating]

theorem State.Agrees.sessionEnd (h : s.Agrees t) (m : Meter) (circuit : Nat) (cause : Cause) :
    t.sessionEnd m circuit cause = s.sessionEnd m circuit cause := by
  have haccount : t.accountOf m.slot = s.accountOf m.slot := by rw [State.accountOf, h.recordAt]; rfl
  rw [State.sessionEnd, State.sessionEnd, State.sessionEndOf, State.sessionEndOf, h.finalUnits, h.extraUnits, haccount,
    h.rating]

theorem State.Agrees.running (h : s.Agrees t) (r : s.Running l k x m e) : t.Running l k x m e where
  port := (h.port _ _).trans r.port
  line := r.line
  meter := by
    rw [State.meter?, h.rating]
    exact r.meter
  takes := by
    rw [h.finalUnits]
    exact h.takes r.takes

/-! ## The close itself -/

theorem State.Running.circuit (h : s.Running l k x m e) : s.circuit k.channel k.port = x.circuit := by
  rw [State.circuit, h.port]
  rfl

/-- The port of a session that the part closes (R98). -/
def Port.closed (x : Port) (cause : Cause) : Port :=
  { x with state := .closing, cause := some cause, timer := true, flow := none }

/-- The flow of a port is discarded and the port is CLOSING, told to its computer (R69, R98). -/
theorem State.portClosed_eq {c : ChanNo} {p : Nat} (hx : s.port? c p = some x) (cause : Cause) :
    (s.discardFlow c p).portClosing c p cause = s.modChan c fun ch =>
      { ch.noted (noticeCircuitClosed p x.circuit x.line cause) with
        ports := ch.ports.set p (x.closed cause), dataOut := dropIndications p ch.dataOut } := by
  have hport : (s.discardFlow c p).port? c p = some { x with flow := none } := by
    rw [State.discardFlow, State.port?, State.chan_modChan_self]
    exact State.port_modPort hx _
  rw [State.portClosing, hport]
  dsimp only
  rw [State.modPort_some hport, State.queueNotice, State.discardFlow, State.modPort_some hx]
  simp only [State.modChan_modChan, List.set_set]
  exact State.modChan_congr (Channel.noted_with _ _ _ _)

/-- What the close of a session by the part does (R98, R121). -/
theorem State.Running.partClose (h : s.Running l k x m e) (cause : Cause) :
    (s.partClose k.channel k.port cause).2 = s.finalUnits m ∧
    (let t := (s.partClose k.channel k.port cause).1
     s.Closes t l k x m e cause ∧ t.lines = (s.modCtx l fun y => y.without k (s.finalUnits m)).lines ∧
       t.presence = s.presence ∧ t.cache.waiting = []) := by
  obtain ⟨hfinal, hlines, hchan, hrating, hstore, hpresence, hwaiting, -, -, hentry⟩ :=
    State.Takes.close (cause := cause) h.meter h.takes
  refine ⟨hfinal, ?_⟩
  have hpart : (s.partClose k.channel k.port cause).1 =
      (((s.closeMeter k.channel k.port cause).1.sessionGone l k.channel k.port (s.finalUnits m)).discardFlow k.channel
        k.port).portClosing k.channel k.port cause := by
    simp only [State.partClose, h.port, Option.bind_some, h.line, hfinal]
  generalize (s.closeMeter k.channel k.port cause).1 = u at *
  have hport : (u.sessionGone l k.channel k.port (s.finalUnits m)).port? k.channel k.port = some x := by
    rw [State.sessionGone, State.port?, State.chan_modCtx, hchan, if_pos rfl, Channel.noted_ports]
    exact h.port
  intro t
  have ht : t = _ := hpart.trans (State.portClosed_eq hport cause)
  refine ⟨⟨⟨?_, ?_, ?_⟩, ?_, fun c hc => ?_⟩, ?_, ?_, ?_⟩
  · rw [ht]
    exact hrating
  · rw [ht]
    exact hentry
  · rw [ht]
    exact hstore
  · have hself : t.chan k.channel =
        { ((s.chan k.channel).noted (s.sessionEnd m x.circuit cause)).noted (circuitClosedOf k.port x.circuit l cause) with
          ports := (s.chan k.channel).ports.set k.port (x.closed cause),
          dataOut := dropIndications k.port ((s.chan k.channel).noted (s.sessionEnd m x.circuit cause)).dataOut } := by
      rw [ht, State.chan_modChan_self, State.sessionGone, State.chan_modCtx, hchan, if_pos rfl, h.circuit, h.line,
        Channel.noted_ports]
      rfl
    rw [hself]
    rfl
  · rw [ht, State.chan_modChan_ne _ _ hc, State.sessionGone, State.chan_modCtx, hchan, if_neg hc]
  · rw [ht]
    simp only [State.modChan_lines, State.sessionGone, State.modCtx, State.setLine, State.ctx, State.line, hlines]
    rfl
  · rw [ht]
    exact hpresence
  · rw [ht]
    exact hwaiting

theorem State.Running.closeSession (h : s.Running l k x m e) (cause : Cause) :
    s.closeSession k.channel k.port cause = ((s.partClose k.channel k.port cause).1, s.finalUnits m) := by
  obtain ⟨hfinal, -, -, -, hwaiting⟩ := h.partClose cause
  rw [State.closeSession, State.settle_empty hwaiting, hfinal]

theorem State.Agrees.closes {cause : Cause} (h : s.Agrees t) (hchan : ∀ c, t.chan c = s.chan c)
    (k' : t.Closes u l k x m e cause) : s.Closes u l k x m e cause where
  rating := by rw [k'.rating, h.rating]
  entry := by rw [k'.entry, h.entry, h.finalUnits]
  store := k'.store.trans h.store
  chan := by
    have hk := k'.chan
    rwa [hchan, h.sessionEnd] at hk
  others c hc := (k'.others c hc).trans (hchan c)

theorem State.Closes.setLine {cause : Cause} (h : s.Closes t l k x m e cause) (j : LineNo) (y : Line) :
    s.Closes (t.setLine j y) l k x m e cause := ⟨⟨h.rating, h.entry, h.store⟩, h.chan, h.others⟩

theorem State.Closes.queue {cause : Cause} (h : s.Closes t l k x m e cause) (c : ChanNo) :
    (t.chan c).queue = (s.chan c).queue := by
  by_cases hc : c = k.channel
  · rw [hc, h.chan]
    exact (Channel.noted_queue _ _).trans (Channel.noted_queue _ _)
  · rw [h.others c hc]

/-- The port that the part has closed is CLOSING, and every other is as it was. -/
theorem State.Closes.opening {cause : Cause} {c : ChanNo} {p : Nat} {y : Port} (h : s.Closes t l k x m e cause)
    (hy : t.port? c p = some y) (ho : y.state = .opening) : s.port? c p = some y := by
  by_cases hc : c = k.channel
  · subst hc
    rw [State.port?, h.chan] at hy
    by_cases hp : k.port = p
    · obtain ⟨hlt, rfl⟩ := List.getElem?_eq_some_iff.1 hy
      simp [hp] at ho
    · rwa [List.getElem?_set_ne hp] at hy
  · rwa [State.port?, h.others c hc] at hy

theorem State.Closes.notWaiting {cause : Cause} (h : s.Closes t l k x m e cause) (hw : s.NotWaiting l) : t.NotWaiting l where
  queues c w hwait := hw.queues c w (by rw [← h.queue]; exact hwait)
  openings c p y hy ho := hw.openings c p y (h.opening hy ho) ho

/-! ## The clear of a line with one session -/

theorem LineContext.without_only {y : LineContext} (h : y.stack = [k]) (n : Nat) : (y.without k n).stack = [] := by
  simp [LineContext.without, h]

/-- The sign-on of a counted line ends, where its account is not in GRACE (R50, R64). -/
theorem State.signOnClear_counted (hph : (s.dialog l).phase = .none) (hc : (s.dialog l).counted = some slot)
    (hg : (s.presenceOf slot).budget ≠ some .grace) :
    s.signOnClear l = (s.modDialog l fun d => { d.ended with counted := none }).setPresence slot
      { s.presenceOf slot with count := (s.presenceOf slot).count - 1 } := by
  have hno : ¬ (s.dialog l).phase = .checking := by rw [hph]; decide
  rw [State.signOnClear, if_neg (fun h => hno h.1), if_neg hno, State.uncount, State.dialog_modDialog]
  have hcounted : (s.dialog l).ended.counted = some slot := hc
  rw [hcounted]
  dsimp only
  rw [State.modDialog_modDialog, State.presenceDown, if_neg (fun h => hg h.2)]
  rfl

/-- The context of a line as a clear begins: its timers are stopped, and nothing is typed (R86). -/
def LineContext.stilled (y : LineContext) : LineContext :=
  { y with idleTimer := false, attentionTimer := false, forwardTimer := false, attention := .none, field := [] }

/-- A line with one session in its switch: the session is closed, and the line's sign-on ends there (R86). -/
theorem State.Running.switchClear {v : State} (h : v.Running l k x m e) (hst : (v.ctx l).stack = [k]) (hw : v.NotWaiting l)
    (cause : Cause) : v.Closes (v.switchClear l cause) l k x m e cause ∧
      (v.switchClear l cause).lines = (v.modCtx l fun _ => {}).lines ∧ (v.switchClear l cause).presence = v.presence := by
  generalize hs1 : v.modCtx l LineContext.stilled = s1
  have hagrees : v.Agrees s1 := by rw [← hs1]; exact State.Agrees.setLine ..
  obtain ⟨-, hcloses, hlines, hpresence, -⟩ := (hagrees.running h).partClose cause
  have hclosed := (hagrees.running h).closeSession cause
  have hstack : (s1.ctx l).stack = [k] := by rw [← hs1, State.ctx_modCtx]; exact hst
  have hsessions : s1.closeSessions l cause = (s1.partClose k.channel k.port cause).1.modCtx l fun y =>
      { y with stack := y.stack.filter fun j => !(j.channel = k.channel && j.port = k.port) } := by
    rw [State.closeSessions, hstack]
    show State.closeStack 1 s1 l cause = _
    simp only [State.closeStack, hstack, List.getLast?_singleton, hclosed]
  generalize (s1.partClose k.channel k.port cause).1 = t at *
  have hcloses' : ∀ f, v.Closes (t.modCtx l f) l k x m e cause := fun f =>
    (hagrees.closes (fun _ => by rw [← hs1]; rfl) hcloses).setLine l _
  have hwait : ∀ f, (t.modCtx l f).NotWaiting l := fun f => (hcloses' f).notWaiting hw
  have hswitch : v.switchClear l cause = (t.modCtx l fun y =>
      { y with stack := y.stack.filter fun j => !(j.channel = k.channel && j.port = k.port) }).modCtx l fun y =>
        { y with signOn := none, units := 0 } := by
    have hquiet : v.modCtx l (fun y => { y with
        idleTimer := false, attentionTimer := false, forwardTimer := false, attention := .none, field := [] }) = s1 := hs1
    rw [State.switchClear, hquiet, hsessions, State.leaveQueues_self (hwait _).queues,
      State.closeOpenings_self (hwait _).openings]
  have hctx : t.ctx l = (v.ctx l).stilled.without k (s1.finalUnits m) := by
    rw [State.ctx, State.line_of_lines hlines, ← State.ctx, State.ctx_modCtx, ← hs1, State.ctx_modCtx]
  rw [hswitch, State.modCtx_modCtx]
  refine ⟨hcloses' _, State.lines_ext fun j => ?_, hpresence.trans (by rw [← hs1]; rfl)⟩
  rw [State.line_modCtx, State.line_modCtx]
  split
  · next hj =>
    subst hj
    rw [State.line_of_lines hlines, State.line_modCtx, if_pos rfl, ← hs1, State.line_modCtx, if_pos rfl, hctx]
    have hnil := (v.ctx l).stilled.without_only hst (s1.finalUnits m)
    rw [hnil]
    rfl
  · next hj => rw [State.line_of_lines hlines, State.line_modCtx, if_neg hj, ← hs1, State.line_modCtx, if_neg hj]

/-- A clear of a line with one session (R14, R15, R64, R86): the session is closed, the account is not counted for the line
any more, and the line is as a clear leaves it. -/
theorem State.Running.clearLine (h : s.Running l k x m e) (ha : (s.unit l).state.active = true)
    (hst : (s.ctx l).stack = [k]) (hw : s.NotWaiting l) (hph : (s.dialog l).phase = .none)
    (hc : (s.dialog l).counted = some m.slot) (cause : Cause) :
    s.Closes (s.clearLine l cause) l k x m e cause ∧ (s.clearLine l cause).line l = (s.line l).afterClear cause ∧
      (∀ j, j ≠ l → (s.clearLine l cause).line j = s.line j) ∧
      (s.clearLine l cause).presenceOf m.slot =
        { s.presenceOf m.slot with count := (s.presenceOf m.slot).count - 1 } := by
  have hg : (s.presenceOf m.slot).budget ≠ some .grace := by rw [h.takes.normal]; decide
  have hclear := State.signOnClear_counted (s := s.modUnit l (LineUnit.entersClear cause)) (l := l) (slot := m.slot)
    (by rw [State.dialog_modUnit, hph]) (by rw [State.dialog_modUnit, hc]) hg
  generalize hv : (s.modUnit l (LineUnit.entersClear cause)).signOnClear l = v at hclear
  have hvp : v.presenceOf m.slot = { s.presenceOf m.slot with count := (s.presenceOf m.slot).count - 1 } := by
    rw [hclear, State.presenceOf_setPresence]
    rfl
  have hagrees : s.Agrees v := by
    refine ⟨by rw [hclear]; rfl, by rw [hclear]; rfl, by rw [hclear]; rfl, by rw [hclear]; rfl,
      fun c => by rw [hclear]; rfl, fun slot => ?_⟩
    by_cases hslot : slot = m.slot
    · rw [hslot, hvp]
    · rw [hclear, State.presenceOf_setPresence_ne _ _ hslot]
      rfl
  have hchan : ∀ c, v.chan c = s.chan c := fun c => by rw [hclear]; rfl
  have hline : ∀ j, v.line j = if l = j then
      { unit := (s.unit j).entersClear cause, dialog := { (s.dialog j).ended with counted := none }, ctx := s.ctx j }
      else s.line j := fun j => by
    rw [hclear, State.line_of_lines (State.setPresence_lines _ _ _), State.line_modDialog, State.line_modUnit,
      State.dialog, State.line_modUnit]
    split
    · rfl
    · rfl
  have hvline : v.line l =
      { unit := (s.unit l).entersClear cause, dialog := { (s.dialog l).ended with counted := none }, ctx := s.ctx l } :=
    (hline l).trans (if_pos rfl)
  obtain ⟨hcloses, hlines, hpresence⟩ := (hagrees.running h).switchClear ((congrArg (fun y => y.ctx.stack) hvline).trans hst)
    (hw.of_queues_ports (fun c => by rw [hchan]) fun c => by rw [hchan]) cause
  have hfinal : s.clearLine l cause = (v.switchClear l cause).modUnit l fun _ => (s.unit l).afterClear cause := by
    have hunit : (v.switchClear l cause).unit l = (s.unit l).entersClear cause := by
      rw [State.unit, State.line_of_lines hlines, State.line_modCtx, if_pos rfl]
      exact congrArg Line.unit hvline
    have hmsg : (((v.switchClear l cause).modUnit l fun u => { u with account := 0 }).unit l).partMsg = (s.unit l).partMsg := by
      rw [State.unit_modUnit, hunit]
      rfl
    rw [State.clearLine_active ha, hv]
    simp only [hmsg, State.startGuard, State.modUnit_modUnit]
    split
    next hguard => exact State.modUnit_congr (by rw [hunit, LineUnit.afterClear_eq, if_pos hguard])
    next hguard => exact State.modUnit_congr (by rw [hunit, LineUnit.afterClear_eq, if_neg hguard])
  rw [hfinal]
  refine ⟨(hagrees.closes hchan hcloses).setLine l _, ?_, fun j hj => ?_, ?_⟩
  · rw [State.line_modUnit, if_pos rfl, State.line_of_lines hlines, State.line_modCtx, if_pos rfl, hvline]
    rfl
  · rw [State.line_modUnit, if_neg (Ne.symm hj), State.line_of_lines hlines, State.line_modCtx, if_neg (Ne.symm hj), hline,
      if_neg (Ne.symm hj)]
  · exact (State.presenceOf_of_presence ((State.modUnit_presence _ _ _).trans hpresence) _).trans hvp

end

end Sys2Proof.Machine
end

section
/-! Line hits, and sessions that end from either side (R12, R77, R80, R98, R100, R121). -/

namespace Sys2Proof.Machine

/-! ## Line hits -/

/-- From `s` to `t` the score and the health state of a line may have changed, and channels may have been told; nothing
else has (R17, R18). -/
structure State.Rescored (s t : State) (l : LineNo) : Prop where
  agrees   : s.Agrees t
  queues   : ∀ c, (t.chan c).queue = (s.chan c).queue
  unit     : ∃ n h, t.unit l = { s.unit l with score := n, health := h }
  dialog   : t.dialog l = s.dialog l
  ctx      : t.ctx l = s.ctx l
  others   : ∀ j, j ≠ l → t.line j = s.line j
  presence : t.presence = s.presence

section
variable {s t u : State} {l : LineNo}

theorem State.Rescored.refl (s : State) (l : LineNo) : s.Rescored s l :=
  ⟨State.Agrees.refl s, fun _ => rfl, ⟨_, _, rfl⟩, rfl, rfl, fun _ _ => rfl, rfl⟩

/-- A further change of the score. -/
theorem State.Rescored.raiseScore (h : s.Rescored t l) (n : Nat) : s.Rescored (t.raiseScore l n) l := by
  obtain ⟨score, health, hunit⟩ := h.unit
  obtain ⟨x, hx⟩ := t.setHealth_eq l (min ((t.unit l).score + n) 255)
    (healthAfter (t.unit l).health (min ((t.unit l).score + n) 255))
  refine ⟨h.agrees.trans (State.Agrees.raiseScore l n), fun c => ?_, ?_, ?_, ?_, fun j hj => ?_, ?_⟩
  · exact (State.queue_ports_setHealth _ _ _ _ c).1.trans (h.queues c)
  · rw [State.raiseScore_eq, State.unit_setHealth, hunit]
    exact ⟨_, _, rfl⟩
  · exact (State.dialog_setHealth _ _ _ _).trans h.dialog
  · exact (State.ctx_setHealth _ _ _ _).trans h.ctx
  · exact (State.line_setHealth_ne _ _ _ _ hj).trans (h.others j hj)
  · rw [State.raiseScore_eq, hx]
    exact h.presence

theorem State.Rescored.notWaiting (h : s.Rescored t l) (hw : s.NotWaiting l) : t.NotWaiting l :=
  hw.of_queues_ports h.queues h.agrees.ports

theorem State.Rescored.state (h : s.Rescored t l) : (t.unit l).state = (s.unit l).state := by
  obtain ⟨n, health, hunit⟩ := h.unit
  rw [hunit]

theorem State.Rescored.sessionless (h : s.Rescored t l) (k : s.Sessionless l) : t.Sessionless l where
  check := by rw [h.dialog]; exact k.check
  stack := by rw [h.ctx]; exact k.stack
  openings c p x hx := k.openings c p x (by rw [← h.agrees.port]; exact hx)
  grace slot hs := by
    rw [h.agrees.budget]
    exact k.grace slot (by rw [← h.dialog]; exact hs)

/-- The score of a line whose hit has run out (R12). -/
def State.hitScored (s : State) (l : LineNo) : State :=
  if (s.unit l).state = .speed ∨ (s.unit l).state = .signOn then (s.raiseScore l 2).raiseScore l 4 else s.raiseScore l 2

theorem State.rescored_hitScored : s.Rescored (s.hitScored l) l := by
  unfold State.hitScored
  split
  · exact ((State.Rescored.refl s l).raiseScore 2).raiseScore 4
  · exact (State.Rescored.refl s l).raiseScore 2

theorem State.hitExpired_eq : s.hitExpired l = (s.hitScored l).clearLine l .carrierLost := by
  rw [State.hitExpired, State.hitScored]

theorem State.carrierDown_hit (h : (s.unit l).state = .speed ∨ (s.unit l).state = .signOn ∨ (s.unit l).state = .command ∨
    (s.unit l).state = .waiting ∨ (s.unit l).state = .connected) :
    s.carrierDown l = s.modUnit l fun u => { u with lineHit := true } := by
  rcases h with h | h | h | h | h <;> rw [State.carrierDown, h]

theorem State.carrierUp_hit (hs : (s.unit l).state ≠ .answer) (hh : (s.unit l).lineHit = true) :
    s.carrierUp l = (s.modUnit l fun u => { u with lineHit := false }).faultScore l 2 := by
  rw [State.carrierUp, if_neg hs, if_pos hh]

end

/-- Settles O11: the begin and the end of a line hit, and the clear at its expiry, without a session and with one. -/
theorem lineHitsPauseOrClearTheLine : Obligations.LineHitsPauseOrClearTheLine := by
  unfold Obligations.LineHitsPauseOrClearTheLine
  intro s l hp
  refine ⟨fun hs => ?_, fun hs hg => ?_, fun hs hg => ?_⟩
  · intro scored
    have hscored : scored = s.hitScored l := rfl
    have hactive : (s.unit l).state.active = true := by rcases hs with h | h | h | h | h <;> rw [h] <;> rfl
    have hre := State.rescored_hitScored (s := s) (l := l)
    rw [← hscored] at hre
    have hrun : ∀ hh : (s.unit l).lineHit = true, exec (.lineHitTimerExpiry l) s =
        .next (scored.clearLine l .carrierLost).started := fun hh => exec_on hp rfl ((if_pos hh).trans State.hitExpired_eq)
    refine ⟨exec_on hp rfl (State.carrierDown_hit hs), fun hh hbar => exec_on hp rfl ?_, fun hh hless => ?_,
      fun k x m e hh hst hr hw hph hc => ⟨_, hrun hh, ?_⟩⟩
    · rw [State.carrierUp_hit (fun h => by rw [h] at hs; simp at hs) hh, State.faultScore_scores]
      rw [State.unit_modUnit]
      exact hbar.imp id .inl
    · rw [hrun hh, State.clearLine_cleared _ (hre.state ▸ hactive) (hre.sessionless hless)]
    · obtain ⟨hcloses, hline, hothers, hpresence⟩ := (hre.agrees.running hr).clearLine (hre.state ▸ hactive)
        (by rw [hre.ctx, hst]) (hre.notWaiting hw) (by rw [hre.dialog, hph]) (by rw [hre.dialog, hc]) .carrierLost
      refine ⟨hcloses, hline.trans (State.line_cleared _).symm, fun j hj => (hothers j hj).trans (hre.others j hj), ?_⟩
      rw [hpresence, State.presenceOf_of_presence hre.presence]
  · refine exec_on hp rfl ?_
    rw [State.carrierDown, hs]
    exact if_neg (by rw [hg]; decide)
  · refine exec_on hp rfl ?_
    rw [State.carrierDown, hs]
    exact if_pos hg

end Sys2Proof.Machine
end

section
/-! A session that is closed from elsewhere (R80, R100, R103, R104). -/

namespace Sys2Proof.Machine

/-- Noting a notice changes the notice queue and the flag of lost notices only (R173). -/
theorem Channel.noted_eq (ch : Channel) (n : Notice) : ch.noted n =
    let room := (ch.state = .up ∨ ch.state = .quiescing) ∧ ch.notices.length < 32
    { ch with notices := if room then ch.notices ++ [n] else ch.notices, lost := ch.lost || !decide room } := by
  by_cases hn : ch.notices.length < 32
  all_goals
    unfold Channel.noted
    cases hs : ch.state
  all_goals simp [hn, Config.noticeCap]

section
variable {s t u : State} {l : LineNo} {k : Session} {x : Port} {m : Meter} {e : Fin 32}

theorem State.isLive_iff (hm : k ∈ (s.ctx l).stack)
    (hone : ∀ j ∈ (s.ctx l).stack, j.channel = k.channel → j.port = k.port → j = k) :
    s.isLive l k.channel k.port = true ↔ k.state = .live := by
  rw [State.isLive, List.any_eq_true]
  constructor
  · rintro ⟨j, hj, hlive⟩
    simp only [Bool.and_eq_true, decide_eq_true_eq] at hlive
    obtain ⟨⟨hc, hp⟩, hstate⟩ := hlive
    rwa [← hone j hj hc hp]
  · intro hlive
    exact ⟨k, hm, by simp [hlive]⟩

/-- The line of a LIVE session that has been removed from elsewhere returns to COMMAND (R80). -/
theorem State.liveRemoved_connected (h : (s.unit l).state = .connected) (cs : List Code) : s.liveRemoved l cs =
    ((s.modCtx l fun y => { y with forwardTimer := false, attention := .none, attentionTimer := false }).modUnit l fun u =>
      { u with input := [] }).returned l cs := by
  generalize hv : ((s.modCtx l fun y =>
    { y with forwardTimer := false, attention := .none, attentionTimer := false }).modUnit l fun u =>
      { u with input := [] }) = v
  have hvs : (v.unit l).state = .connected := by
    rw [← hv, State.unit_modUnit, State.unit_modCtx]
    exact h
  have hremoved : s.liveRemoved l cs = (v.showText l cs).toCommand l := by rw [← hv]; rfl
  have hshown : v.showText l cs = v.place l ([13, 10] ++ cs) := by
    rw [State.showText, hvs]
    rfl
  have hplaced : ((v.place l ([13, 10] ++ cs)).unit l).state = .connected := by
    rw [State.place, State.unit_modUnit]
    exact hvs
  rw [hremoved, hshown, State.toCommand, hplaced]
  rfl

/-- What is done to a line whose session is removed from elsewhere depends on what is held for the line alone. -/
theorem State.parted_lines (h : t.lines = s.lines) (n : Nat) (cs : List Code) :
    (t.parted l k n cs).lines = (s.parted l k n cs).lines := by
  unfold State.parted
  split
  all_goals simp only [State.returned, State.place, State.modUnit, State.modCtx, State.setLine, State.unit, State.ctx,
    State.line, h]

theorem State.parted_frame (n : Nat) (cs : List Code) : ∃ x, s.parted l k n cs = { s with lines := x } := by
  unfold State.parted
  split
  · exact ⟨_, rfl⟩
  · exact ⟨_, rfl⟩

/-- A session with its port and meter, on the stack of its line once, where the line is CONNECTED if it is LIVE. -/
structure State.HasSession (s : State) (l : LineNo) (k : Session) (x : Port) (m : Meter) (e : Fin 32) : Prop
    extends s.Running l k x m e where
  listed    : k ∈ (s.ctx l).stack
  alone     : ∀ j ∈ (s.ctx l).stack, j.channel = k.channel → j.port = k.port → j = k
  connected : k.state = .live → (s.unit l).state = .connected

/-- From `s` to `t` a session has been removed from elsewhere (R80): its meter is billed, SESSION END is queued, and its
line has lost it. -/
structure State.Removes (s t : State) (l : LineNo) (k : Session) (x : Port) (m : Meter) (e : Fin 32)
    (cause : Cause) (cs : List Code) : Prop extends s.Billed t k m e where
  lines    : t.lines = (s.parted l k (s.finalUnits m) cs).lines
  chan     : t.chan k.channel = { (s.chan k.channel).noted (s.sessionEnd m x.circuit cause) with
    ports := (s.chan k.channel).ports.set k.port { x with flow := none },
    dataOut := dropIndications k.port ((s.chan k.channel).noted (s.sessionEnd m x.circuit cause)).dataOut }
  others   : ∀ c, c ≠ k.channel → t.chan c = s.chan c
  presence : t.presence = s.presence

theorem State.flowless_eq {c : ChanNo} {p : Nat} (hx : s.port? c p = some x) : s.discardFlow c p = s.modChan c fun ch =>
    { ch with ports := ch.ports.set p { x with flow := none }, dataOut := dropIndications p ch.dataOut } := by
  rw [State.discardFlow, State.modPort_some hx, State.modChan_modChan]

/-- The removal of a session from elsewhere (R80). -/
theorem State.HasSession.removes (h : s.HasSession l k x m e) (cause : Cause) (cs : List Code) :
    s.Removes (s.removeSession k.channel k.port cause cs) l k x m e cause cs := by
  obtain ⟨hfinal, hlines, hchan, hrating, hstore, hpresence, hwaiting, -, -, hentry⟩ :=
    State.Takes.close (cause := cause) h.meter h.takes
  have hremove : s.removeSession k.channel k.port cause cs =
      (let v := (((s.closeMeter k.channel k.port cause).1.sessionGone l k.channel k.port (s.finalUnits m)).discardFlow
          k.channel k.port)
       if s.isLive l k.channel k.port then v.liveRemoved l cs else v).settle := by
    simp only [State.removeSession, h.port, Option.bind_some, h.line, hfinal]
  generalize (s.closeMeter k.channel k.port cause).1 = u at *
  have hport : u.port? k.channel k.port = some x := by
    rw [State.port?, hchan, if_pos rfl, Channel.noted_ports]
    exact h.port
  have hgone : (u.sessionGone l k.channel k.port (s.finalUnits m)).discardFlow k.channel k.port =
      (u.discardFlow k.channel k.port).modCtx l fun y => y.without k (s.finalUnits m) := by
    have hport' : (u.sessionGone l k.channel k.port (s.finalUnits m)).port? k.channel k.port = some x := by
      rw [State.sessionGone, State.port?, State.chan_modCtx]
      exact hport
    rw [State.flowless_eq hport', State.flowless_eq hport]
    rfl
  have hparted : (let v := (u.sessionGone l k.channel k.port (s.finalUnits m)).discardFlow k.channel k.port
      if s.isLive l k.channel k.port then v.liveRemoved l cs else v) =
      (u.discardFlow k.channel k.port).parted l k (s.finalUnits m) cs := by
    have hflow : (u.discardFlow k.channel k.port).lines = s.lines := by
      rw [State.flowless_eq hport]
      exact hlines
    simp only [hgone, State.isLive_iff h.listed h.alone, State.parted]
    cases hk : k.state with
    | live =>
      have hconnected : (((u.discardFlow k.channel k.port).modCtx l fun y => y.without k (s.finalUnits m)).unit l).state =
          .connected := by
        rw [State.unit_modCtx, State.unit, State.line_of_lines hflow]
        exact h.connected hk
      rw [if_pos rfl, if_neg (by decide), State.liveRemoved_connected hconnected, State.modCtx_modCtx]
    | held => rw [if_neg (by decide), if_pos rfl]
  rw [hparted] at hremove
  have hself : (u.discardFlow k.channel k.port).chan k.channel =
      { (s.chan k.channel).noted (s.sessionEnd m x.circuit cause) with
        ports := (s.chan k.channel).ports.set k.port { x with flow := none },
        dataOut := dropIndications k.port ((s.chan k.channel).noted (s.sessionEnd m x.circuit cause)).dataOut } := by
    rw [State.flowless_eq hport, State.chan_modChan_self, hchan, if_pos rfl, h.circuit, Channel.noted_ports]
  have hother : ∀ c, c ≠ k.channel → (u.discardFlow k.channel k.port).chan c = s.chan c := fun c hc => by
    rw [State.flowless_eq hport, State.chan_modChan_ne _ _ hc, hchan, if_neg hc]
  have hkeeps : (u.discardFlow k.channel k.port).lines = u.lines ∧ (u.discardFlow k.channel k.port).rating = u.rating ∧
      (u.discardFlow k.channel k.port).store = u.store ∧ (u.discardFlow k.channel k.port).presence = u.presence ∧
      (u.discardFlow k.channel k.port).cache = u.cache := by
    rw [State.flowless_eq hport]
    exact ⟨rfl, rfl, rfl, rfl, rfl⟩
  generalize u.discardFlow k.channel k.port = v at *
  obtain ⟨klines, krating, kstore, kpresence, kcache⟩ := hkeeps
  obtain ⟨lines, hframe⟩ := State.parted_frame (s := v) (l := l) (k := k) (s.finalUnits m) cs
  have hchannels : (v.parted l k (s.finalUnits m) cs).channels = v.channels := by rw [hframe]
  rw [hremove, State.settle_empty (by rw [hframe]; exact (congrArg Cache.waiting kcache).trans hwaiting)]
  refine ⟨⟨?_, ?_, ?_⟩, State.parted_lines (klines.trans hlines) _ _, ?_, fun c hc => ?_, ?_⟩
  · rw [hframe]
    exact krating.trans hrating
  · rw [State.entry, hframe]
    exact (congrArg (fun y => (Cache.entries y).get e |>.pending) kcache).trans hentry
  · rw [hframe]
    exact kstore.trans hstore
  · exact (State.chan_of_channels hchannels _).trans hself
  · exact (State.chan_of_channels hchannels _).trans (hother c hc)
  · rw [hframe]
    exact kpresence.trans hpresence

end

end Sys2Proof.Machine
end

section
/-! END and CLOSE PORT, and the channel's own events: failure, attachment, detachment (R77, R100, R102 to R104, R167 to R170). -/

namespace Sys2Proof.Machine

section
variable {s t u : State} {l : LineNo} {k : Session} {x : Port} {m : Meter} {e : Fin 32} {c : ChanNo} {f : OrderFrame}

theorem State.Agrees.billed (h : s.Agrees t) (b : t.Billed u k m e) : s.Billed u k m e where
  rating := by rw [b.rating, h.rating]
  entry := by rw [b.entry, h.entry, h.finalUnits]
  store := b.store.trans h.store

theorem State.Agrees.hasSession (h : s.Agrees t) (hl : t.line l = s.line l) (a : s.HasSession l k x m e) :
    t.HasSession l k x m e where
  toRunning := h.running a.toRunning
  listed := by rw [State.ctx, hl]; exact a.listed
  alone := by rw [State.ctx, hl]; exact a.alone
  connected := by rw [State.unit, hl]; exact a.connected

theorem State.Agrees.modChan {g : Channel → Channel} (hg : (g (s.chan c)).ports = (s.chan c).ports) :
    s.Agrees (s.modChan c g) := by
  refine ⟨rfl, rfl, rfl, rfl, fun d => ?_, fun _ => rfl⟩
  rw [State.chan_modChan]
  split
  · next h => rw [← h]; exact hg
  · rfl

theorem State.Billed.of_eq (h : s.Billed t k m e) (hr : u.rating = t.rating) (hc : u.cache = t.cache)
    (hs : u.store = t.store) : s.Billed u k m e where
  rating := hr.trans h.rating
  entry := (congrArg (fun y => (y.entries.get e).pending) hc).trans h.entry
  store := hs.trans h.store

theorem State.line_parted_ne {j : LineNo} (h : j ≠ l) (n : Nat) (cs : List Code) : (s.parted l k n cs).line j = s.line j := by
  have hne := Ne.symm h
  unfold State.parted
  split
  · rw [State.line_modCtx, if_neg hne]
  · simp only [State.returned, State.place, State.line_modUnit, State.line_modCtx, if_neg hne]

/-! ## END -/

theorem LineContext.without_top {y : LineContext} {st : List Session} (hst : y.stack = st ++ [k])
    (hone : ∀ j ∈ st, ¬ (j.channel = k.channel ∧ j.port = k.port)) (n : Nat) :
    y.without k n = { y with stack := st, units := min (y.units + n) 16777215 } := by
  have hfilter : y.stack.filter (fun j => !(j.channel = k.channel && j.port = k.port)) = st := by
    rw [hst, List.filter_append, List.filter_eq_self.2 fun j hj => by
      have hne := hone j hj
      rw [not_and_or] at hne
      simpa using hne]
    simp
  rw [LineContext.without, hfilter]

end

/-- Text placed for a line is its line's alone. -/
theorem State.line_answeredLine {s t : State} {l : LineNo} (h : t.line l = s.line l) (cs : List Code) :
    (t.answeredLine l cs).line l = (s.answeredLine l cs).line l := by
  have hplace : ∀ (a b : State) xs, a.line l = b.line l → (a.place l xs).line l = (b.place l xs).line l := fun a b xs hab => by
    rw [State.place, State.place, State.line_modUnit, State.line_modUnit, if_pos rfl, if_pos rfl, State.unit, State.unit, hab]
  exact hplace _ _ _ (hplace _ _ _ h)

theorem State.line_answeredLine_ne {s : State} {l j : LineNo} (h : j ≠ l) (cs : List Code) :
    (s.answeredLine l cs).line j = s.line j := by
  rw [State.answeredLine, State.place, State.line_modUnit, if_neg (Ne.symm h), State.place, State.line_modUnit,
    if_neg (Ne.symm h)]

/-- Settles O35: END closes the top session; CLOSE PORT removes the session of a BOUND port and frees the port. -/
theorem sessionsEndFromEitherSide : Obligations.SessionsEndFromEitherSide := by
  unfold Obligations.SessionsEndFromEitherSide
  refine ⟨fun s l hp hs hh => ⟨fun hst => ?_, fun st k x m e hst hone hr => ?_⟩, ?_⟩
  · refine exec_typed (k := .endSession) hp hs hh rfl ?_
    have hnone : (s.emptyField l).liveSession l = none := by
      rw [State.liveSession, State.emptyField, State.ctx_modCtx]
      show (s.ctx l).stack.getLast? = none
      rw [hst]
      rfl
    show (s.emptyField l).runEnd l = _
    rw [State.runEnd, hnone]
    rfl
  · have hagrees : s.Agrees (s.emptyField l) := State.Agrees.setLine ..
    have hlive : (s.emptyField l).liveSession l = some k := by
      rw [State.liveSession, State.emptyField, State.ctx_modCtx]
      show (s.ctx l).stack.getLast? = some k
      rw [hst, List.getLast?_append, List.getLast?_singleton]
      rfl
    obtain ⟨-, hcloses, hlines, hpresence, -⟩ := (hagrees.running hr).partClose .userEnd
    have hclosed := (hagrees.running hr).closeSession .userEnd
    have hend : (s.emptyField l).runEnd l = ((s.emptyField l).partClose k.channel k.port .userEnd).1.answeredLine l
        (text "HOST " ++ [hostLetter k.channel] ++ text " ENDED, " ++ decimal (s.finalUnits m) ++ text " UNITS") := by
      rw [State.runEnd, hlive]
      dsimp only
      rw [hclosed, hagrees.finalUnits]
      rfl
    refine ⟨_, exec_typed (k := .endSession) hp hs hh rfl hend, ?_⟩
    generalize ((s.emptyField l).partClose k.channel k.port .userEnd).1 = t at *
    refine ⟨(hagrees.closes (fun _ => rfl) hcloses).setLine l _ |>.setLine l _, State.line_answeredLine ?_ _,
      fun j hj => (State.line_answeredLine_ne hj _).trans ?_, hpresence⟩
    · rw [State.line_of_lines hlines, hagrees.finalUnits, State.emptyField, State.modCtx_modCtx, State.line_modCtx,
        State.line_modCtx, if_pos rfl, if_pos rfl]
      rw [LineContext.without_top (y := { s.ctx l with field := [] }) hst hone]
    · rw [State.line_of_lines hlines, State.emptyField, State.modCtx_modCtx, State.line_modCtx, if_neg (Ne.symm hj)]
  · intro s c f p l k x m e ha hup hq hf hb hc hkp hr hbound hone hmem hconn
    subst hc
    have hagrees : s.Agrees (s.inExecution k.channel 7 f) := State.Agrees.modChan rfl
    have hsession : s.HasSession l k x m e := ⟨hr, hmem, hone, hconn⟩
    have hremoves := (hagrees.hasSession (State.line_modChan _ _ _ _) hsession).removes .hostClose
      (text "SESSION ENDED BY HOST " ++ [hostLetter k.channel])
    have htext : text "SESSION ENDED BY " ++ hostText k.channel "" = text "SESSION ENDED BY HOST " ++ [hostLetter k.channel] := by
      have hwords : text "SESSION ENDED BY HOST " = text "SESSION ENDED BY " ++ text "HOST " := by decide
      rw [hwords, hostText, show text "" = [] from rfl, List.append_nil, List.append_assoc]
    have hport : s.port? k.channel p.toNat = some x := by rw [← hkp]; exact hr.port
    have horder : (s.inExecution k.channel 7 f).orderClosePort k.channel (orderOf 7 f) =
        (((s.inExecution k.channel 7 f).removeSession k.channel k.port .hostClose
          (text "SESSION ENDED BY HOST " ++ [hostLetter k.channel])).portFree k.channel k.port).answer k.channel .done [] := by
      rw [State.orderClosePort, State.withPort_at hf hb hport, hbound, htext, hkp]
    rw [exec_closePort ha hf, horder]
    generalize (s.inExecution k.channel 7 f).removeSession k.channel k.port .hostClose
      (text "SESSION ENDED BY HOST " ++ [hostLetter k.channel]) = t at *
    have hchan : t.chan k.channel = _ := hremoves.chan
    have hstate : (t.chan k.channel).state = .up := by
      rw [hchan]
      exact (Channel.noted_state _ _).trans (by rw [State.chan_inExecution]; exact hup)
    have hqueue : (t.chan k.channel).queue = [] := by
      rw [hchan]
      exact (Channel.noted_queue _ _).trans (by rw [State.chan_inExecution]; exact hq)
    have horders : (t.chan k.channel).orders = [orderOf 7 f] := by
      rw [hchan]
      exact (Channel.noted_orders _ _).trans (by rw [State.chan_inExecution])
    have hlt : k.port < (s.chan k.channel).ports.length := State.port_lt hr.port
    have hports : t.port? k.channel k.port = some { x with flow := none } := by
      rw [State.port?, hchan]
      refine (List.getElem?_set_self ?_).trans rfl
      rw [State.chan_inExecution]
      exact hlt
    rw [State.portFree_empty hstate hqueue, State.answer_replied (code := 7) (by
      rw [State.freed, State.orders_modPort]
      exact horders)]
    have hfreed : ((t.freed k.channel k.port).chan k.channel).notices = (t.chan k.channel).notices := by
      rw [State.freed, State.modPort_some hports, State.chan_modChan_self]
    have hagain : ((t.freed k.channel k.port).replied k.channel f .done []).rating = t.rating ∧
        ((t.freed k.channel k.port).replied k.channel f .done []).cache = t.cache ∧
        ((t.freed k.channel k.port).replied k.channel f .done []).store = t.store ∧
        ((t.freed k.channel k.port).replied k.channel f .done []).presence = t.presence := by
      rw [State.freed, State.modPort_some hports]
      exact ⟨rfl, rfl, rfl, rfl⟩
    obtain ⟨hrating, hcache, hstore, hpresence⟩ := hagain
    have hline : ∀ j, ((t.freed k.channel k.port).replied k.channel f .done []).line j =
        (s.parted l k (s.finalUnits m) (text "SESSION ENDED BY HOST " ++ [hostLetter k.channel])).line j := fun j => by
      rw [State.replied, State.line_modChan, State.freed, State.line_modPort, State.line_of_lines hremoves.lines,
        hagrees.finalUnits]
      exact State.line_of_lines (State.parted_lines (by rfl) _ _) j
    refine ⟨_, rfl, hline l, fun j hj => (hline j).trans (State.line_parted_ne hj _ _), ?_, ?_, ?_, fun d hd => ?_, ?_, ?_⟩
    · rw [← hkp, State.replied, State.port?, State.chan_modChan_self]
      exact State.port_freed (x := { x with flow := none }) hports
    · rw [State.replied, State.chan_modChan_self]
      refine hfreed.trans ?_
      rw [hchan, hagrees.sessionEnd]
      simp only [Channel.noted_eq, State.chan_inExecution]
    · rw [State.replied, State.chan_modChan_self]
    · rw [State.replied, State.chan_modChan_ne _ _ hd, State.freed, State.chan_modPort_ne hd, hremoves.others d hd,
        State.inExecution, State.chan_modChan_ne _ _ hd]
    · exact hagrees.billed (hremoves.toBilled.of_eq hrating hcache hstore)
    · exact hpresence.trans hremoves.presence

end Sys2Proof.Machine
end

section
/-! What ends with a channel: its sessions, its openings and its wait queue; silence and a restart (R103, R104, R167, R168,
R170). -/

namespace Sys2Proof.Machine

section
variable {s t u : State} {c : ChanNo} {p : Nat} {x : Port} {st : PortState} {cs : List Code}

/-! ## The ports in a state -/

theorem filter_range_eq {n p : Nat} (h : p < n) : (List.range n).filter (fun q => q = p) = [p] := by
  rw [List.filter_eq, List.count_eq_one_of_mem List.nodup_range (List.mem_range.2 h)]
  rfl

theorem State.portsIn_one (hx : s.port? c p = some x) (hst : x.state = st)
    (h : ∀ q y, q ≠ p → s.port? c q = some y → y.state ≠ st) : s.portsIn c st = [p] := by
  rw [State.portsIn, ← filter_range_eq (State.port_lt hx)]
  refine List.filter_congr fun q _ => ?_
  by_cases hq : q = p
  · subst hq
    simp [hx, hst]
  · cases hy : s.port? c q with
    | none => simp [hq]
    | some y => simpa [hq] using h q y hq hy

/-! ## The end of everything of a channel -/

/-- A channel without ports, waiters and data (R103, R104). -/
def State.emptied (s : State) (c : ChanNo) : State := s.modChan c fun ch => { ch with ports := [], queue := [], dataOut := [] }

/-- The line that waited, if there was one, returns to COMMAND with a text. -/
def State.returnedFrom (s : State) (waiter : Option LineNo) (cs : List Code) : State :=
  match waiter with
  | some l => s.returned l cs
  | none => s

/-- At most one line waits at a channel without circuits: in its queue, or with a port in OPENING. -/
def State.OneWaiter (s : State) (c : ChanNo) (waiter : Option LineNo) : Prop :=
  (waiter = none ∧ (∀ p x, s.port? c p = some x → x.state = .free) ∧ (s.chan c).queue = []) ∨
  (∃ w : WaitEntry, waiter = some w.line ∧ (∀ p x, s.port? c p = some x → x.state = .free) ∧ (s.chan c).queue = [w]) ∨
  ∃ p x, s.port? c p = some x ∧ x.state = .opening ∧ x.line = waiter ∧ waiter.isSome = true ∧
    (∀ q y, q ≠ p → s.port? c q = some y → y.state = .free) ∧ (s.chan c).queue = []

theorem State.dropQueue_nil (h : (s.chan c).queue = []) : s.dropQueue c cs = s.modChan c fun ch => { ch with queue := [] } := by
  rw [State.dropQueue, h, List.foldl_nil]

theorem State.dropQueue_one {w : WaitEntry} (h : (s.chan c).queue = [w]) (hw : (s.unit w.line).state = .waiting) :
    s.dropQueue c cs = (s.modChan c fun ch => { ch with queue := [] }).returned w.line cs := by
  rw [State.dropQueue, h, List.foldl_cons, List.foldl_nil, State.returnToCommand_waiting (by rw [State.unit_modChan, hw])]

theorem State.dropOpening_waiting {l : LineNo} (hx : s.port? c p = some x) (hl : x.line = some l)
    (hw : (s.unit l).state = .waiting) : s.dropOpening c cs p = (s.freed c p).returned l cs := by
  rw [State.dropOpening, hx, Option.bind_some, hl]
  exact State.returnToCommand_waiting (by rw [State.unit_modPort, hw]) cs

/-- The end of a channel without circuits (R103, R104). -/
theorem State.OneWaiter.endPorts {waiter : Option LineNo} (h : s.OneWaiter c waiter)
    (hw : ∀ l, waiter = some l → (s.unit l).state = .waiting) (cause : Cause) :
    s.endPorts c cause cs = (s.emptied c).returnedFrom waiter cs := by
  rcases h with ⟨rfl, hfree, hq⟩ | ⟨w, rfl, hfree, hq⟩ | ⟨p, x, hx, ho, hl, hsome, hothers, hq⟩
  · have hnone : ∀ st, st ≠ .free → s.portsIn c st = [] := fun st hst =>
      State.portsIn_nil fun p x hx h => hst (h.symm.trans (hfree p x hx))
    rw [State.endPorts, hnone _ (by decide), List.foldl_nil]
    rw [hnone _ (by decide), List.foldl_nil, State.dropQueue_nil hq, State.modChan_modChan]
    rfl
  · have hnone : ∀ st, st ≠ .free → s.portsIn c st = [] := fun st hst =>
      State.portsIn_nil fun p x hx h => hst (h.symm.trans (hfree p x hx))
    rw [State.endPorts, hnone _ (by decide), List.foldl_nil]
    rw [hnone _ (by decide), List.foldl_nil, State.dropQueue_one hq (hw _ rfl), State.modChan_returned, State.modChan_modChan]
    rfl
  · obtain ⟨l, rfl⟩ := Option.isSome_iff_exists.1 hsome
    have hbound : s.portsIn c .bound = [] := State.portsIn_nil fun q y hy h => by
      by_cases hq : q = p
      · subst hq
        rw [hx] at hy
        cases hy
        rw [ho] at h
        exact absurd h (by decide)
      · rw [hothers q y hq hy] at h
        exact absurd h (by decide)
    have hopening : s.portsIn c .opening = [p] := State.portsIn_one hx ho fun q y hq hy h => by
      rw [hothers q y hq hy] at h
      exact absurd h (by decide)
    rw [State.endPorts, hbound, List.foldl_nil]
    rw [hopening, List.foldl_cons, List.foldl_nil, State.dropOpening_waiting hx hl (hw l rfl), State.dropQueue_nil (by
      rw [State.chan_returned, State.freed, State.queue_modPort, hq]), State.modChan_returned, State.modChan_returned,
      State.freed, State.modPort_some hx, State.modChan_modChan, State.modChan_modChan]
    rfl

/-- The end of a channel with one circuit (R103, R104): the session is removed, and then nothing is left. -/
theorem State.HasSession.endPorts {l : LineNo} {k : Session} {m : Meter} {e : Fin 32} (h : s.HasSession l k x m e)
    (hb : x.state = .bound) (hq : (s.chan k.channel).queue = [])
    (hothers : ∀ q y, q ≠ k.port → s.port? k.channel q = some y → y.state = .free) (cause : Cause) :
    s.endPorts k.channel cause cs = (s.removeSession k.channel k.port cause cs).emptied k.channel := by
  have hremoves := h.removes cause cs
  have hbound : s.portsIn k.channel .bound = [k.port] := State.portsIn_one h.port hb fun q y hq hy h => by
    rw [hothers q y hq hy] at h
    exact absurd h (by decide)
  rw [State.endPorts, hbound, List.foldl_cons, List.foldl_nil]
  generalize s.removeSession k.channel k.port cause cs = t at *
  have hport : t.port? k.channel k.port = some { x with flow := none } := by
    rw [State.port?, hremoves.chan]
    exact List.getElem?_set_self (State.port_lt h.port)
  have hports : ∀ q, q ≠ k.port → t.port? k.channel q = s.port? k.channel q := fun q hne => by
    rw [State.port?, hremoves.chan]
    exact List.getElem?_set_ne (Ne.symm hne)
  have hopening : (t.modPort k.channel k.port Port.freed).portsIn k.channel .opening = [] := State.portsIn_nil fun q y hy h => by
    by_cases hne : q = k.port
    · subst hne
      rw [State.port_modPort hport] at hy
      cases hy
      exact nomatch (h : PortState.free = .opening)
    · rw [State.port_modPort_ne hne, hports q hne] at hy
      rw [hothers q y hne hy] at h
      exact absurd h (by decide)
  have hqueue : ((t.modPort k.channel k.port Port.freed).chan k.channel).queue = [] := by
    rw [State.queue_modPort, hremoves.chan]
    exact (Channel.noted_queue _ _).trans hq
  rw [hopening, List.foldl_nil, State.dropQueue_nil hqueue, State.modPort_some hport, State.modChan_modChan,
    State.modChan_modChan]
  rfl

end

/-! ## Silence -/

section
variable {s t u : State} {c : ChanNo} {l : LineNo} {waiter : Option LineNo} {cs : List Code}

theorem State.line_returnedFrom (h : t.lines = s.lines) (j : LineNo) : (t.returnedFrom waiter cs).line j =
    if waiter = some j then (s.returned j cs).line j else s.line j := by
  cases waiter with
  | none => rw [if_neg (by simp)]; exact State.line_of_lines h j
  | some l =>
    show (t.returned l cs).line j = _
    by_cases hj : j = l
    · subst hj
      rw [if_pos rfl]
      exact State.line_returned _ _ _ _ (State.line_of_lines h j)
    · rw [if_neg (by simpa using Ne.symm hj), State.line_returned_ne _ _ hj]
      exact State.line_of_lines h j

theorem State.returnedFrom_frame : ∃ x, s.returnedFrom waiter cs = { s with lines := x } := by
  cases waiter with
  | none => exact ⟨_, rfl⟩
  | some l => exact ⟨_, State.returned_frame s l cs⟩

theorem State.OneWaiter.of_chan {g : Channel → Channel} (h : s.OneWaiter c waiter) (hp : (g (s.chan c)).ports = (s.chan c).ports)
    (hq : (g (s.chan c)).queue = (s.chan c).queue) : (s.modChan c g).OneWaiter c waiter := by
  have hport : ∀ p, (s.modChan c g).port? c p = s.port? c p := fun p => by
    rw [State.port?, State.chan_modChan_self, hp]
    rfl
  rw [State.OneWaiter, State.chan_modChan_self, hq]
  simp only [hport]
  exact h

/-- A channel as its silence begins (R170). -/
def State.fallen (s : State) (c : ChanNo) : State := s.modChan c fun ch => { ch with state := .failed, silence := false }

/-- A channel that has failed (R170). -/
def Channel.failed (ch : Channel) : Channel :=
  { ch.clearFaults with masks := {}, notices := [], lost := ch.lost || !ch.notices.isEmpty, name := none, params := none }

/-- The arbiter and the cache once the orders of a channel are dropped (R39, R129, R132). -/
def State.withdrawn (s : State) (c : ChanNo) : State :=
  (s.modArbiter fun a =>
    { a with chans := a.chans.set c false,
             current := a.current.map fun x => if x.who = .chan c ∧ x.result ≠ .taken then { x with result := .discarded c } else x }
    ).modCache fun k =>
      { k with flush := k.flush.set c none,
               waiting := k.waiting.map fun i => { i with charges := i.charges.filter fun w => w.channel != c } }

/-- A channel whose failure ends (R170). -/
def Channel.lastly (ch : Channel) : Channel := { ch with orders := [], reply := none }.failed

theorem State.chan_withdrawn (d : ChanNo) : (s.withdrawn c).chan d = s.chan d := rfl

theorem State.dropOrders_eq : s.dropOrders c = (s.withdrawn c).modChan c fun ch => { ch with orders := [], reply := none } := rfl

theorem State.channelFail_eq : s.channelFail c =
    (((s.fallen c).endPorts c .hostFailed (text "HOST " ++ [hostLetter c] ++ text " NOT RESPONDING")).withdrawn c).modChan c
      Channel.lastly := by
  have hfail : s.channelFail c = (((s.fallen c).endPorts c .hostFailed
    (text "HOST " ++ [hostLetter c] ++ text " NOT RESPONDING")).dropOrders c).modChan c Channel.failed := rfl
  rw [hfail, State.dropOrders_eq, State.modChan_modChan]
  rfl

end

/-- Settles O34: the failure of a channel without circuits, with at most one line waiting, and with one circuit. -/
theorem silenceEndsTheAttachment : Obligations.SilenceEndsTheAttachment := by
  unfold Obligations.SilenceEndsTheAttachment
  intro s c hp cs failed
  refine ⟨fun hq => exec_on hp rfl (if_neg (by rw [hq]; decide)), fun hsil => ?_⟩
  have hrun : exec (.silenceTimerExpiry c) s = .next (s.channelFail c).started := exec_on hp rfl (if_pos hsil)
  refine ⟨fun waiter hone hw => ⟨_, hrun, ?_⟩, ?_⟩
  · have hends : (s.fallen c).endPorts c .hostFailed cs = ((s.fallen c).emptied c).returnedFrom waiter cs :=
      State.OneWaiter.endPorts (State.OneWaiter.of_chan (s := s) hone rfl rfl) (by exact hw) _
    rw [State.channelFail_eq, hends]
    have hline : ∀ j, (((s.fallen c).emptied c).returnedFrom waiter cs).line j =
      if waiter = some j then (s.returned j cs).line j else s.line j := State.line_returnedFrom (by rfl)
    obtain ⟨lines, hframe⟩ := State.returnedFrom_frame (s := (s.fallen c).emptied c) (waiter := waiter) (cs := cs)
    have hchannels : ((((s.fallen c).emptied c).returnedFrom waiter cs).withdrawn c).channels =
        ((s.fallen c).emptied c).channels := by rw [hframe]; rfl
    refine ⟨?_, fun d hd => ?_, hline, ?_, ?_, ?_, ?_, ?_, ?_⟩
    · rw [State.chan_modChan_self, State.chan_of_channels hchannels, State.emptied, State.chan_modChan_self, State.fallen,
        State.chan_modChan_self]
      rfl
    · rw [State.chan_modChan_ne _ _ hd, State.chan_of_channels hchannels, State.emptied, State.chan_modChan_ne _ _ hd,
        State.fallen, State.chan_modChan_ne _ _ hd]
    all_goals (rw [hframe]; rfl)
  · intro l k x m e hr hc hb hothers hq hone hmem hconn
    subst hc
    have hagrees : s.Agrees (s.fallen k.channel) := State.Agrees.modChan rfl
    have hsession : s.HasSession l k x m e := ⟨hr, hmem, hone, hconn⟩
    have hhas := hagrees.hasSession (l := l) rfl hsession
    have hends := hhas.endPorts (cs := cs) hb (by rw [State.fallen, State.chan_modChan_self]; exact hq)
      (fun q y hne hy => hothers q y hne ((hagrees.port _ _).symm.trans hy)) .hostFailed
    have hremoves := hhas.removes .hostFailed cs
    refine ⟨_, hrun, ?_⟩
    rw [State.channelFail_eq, hends]
    generalize (s.fallen k.channel).removeSession k.channel k.port .hostFailed cs = t at *
    have hline : ∀ j, t.line j = (s.parted l k (s.finalUnits m) cs).line j := fun j => by
      rw [State.line_of_lines hremoves.lines, hagrees.finalUnits]
      exact State.line_of_lines (State.parted_lines (by rfl) _ _) j
    refine ⟨?_, fun d hd => ?_, hline l, fun j hj => (hline j).trans (State.line_parted_ne hj _ _),
      hagrees.billed ⟨hremoves.rating, hremoves.entry, hremoves.store⟩, hremoves.presence⟩
    · have hlast : (((t.emptied k.channel).withdrawn k.channel).modChan k.channel Channel.lastly).chan k.channel =
          Channel.lastly { t.chan k.channel with ports := [], queue := [], dataOut := [] } := by
        rw [State.chan_modChan_self, State.chan_withdrawn, State.emptied, State.chan_modChan_self]
      rw [hlast, hremoves.chan, State.fallen, State.chan_modChan_self]
      simp [Channel.lastly, Channel.failed, Channel.clearFaults, Channel.noted_eq, failed]
    · rw [State.chan_modChan_ne _ _ hd, State.chan_withdrawn, State.emptied, State.chan_modChan_ne _ _ hd,
        hremoves.others d hd, State.fallen, State.chan_modChan_ne _ _ hd]

end Sys2Proof.Machine
end

section
/-! ATTACH, and the restart it makes of an UP channel (R104, R167, R168). -/

namespace Sys2Proof.Machine

section
variable {s t u : State} {c : ChanNo} {f : OrderFrame} {l : LineNo} {waiter : Option LineNo} {cs : List Code} {a : AttachFields}

theorem State.modChan_returnedFrom (g : Channel → Channel) :
    (s.returnedFrom waiter cs).modChan c g = (s.modChan c g).returnedFrom waiter cs := by
  cases waiter with
  | none => rfl
  | some l => exact State.modChan_returned ..

theorem State.chan_returnedFrom (d : ChanNo) : (s.returnedFrom waiter cs).chan d = s.chan d := by
  cases waiter with
  | none => rfl
  | some l => exact State.chan_returned ..

theorem attachBody_congr (hs : t.store = s.store) (hr : t.rating.calendar = s.rating.calendar)
    (hk : t.rating.clock = s.rating.clock) (hc : t.resetCause = s.resetCause) (hu : t.setup = s.setup) :
    attachBody t = attachBody s := by
  rw [attachBody, attachBody, hs, hr, hk, hc, hu]

/-- A channel that an ATTACH sets up (R167, R168). -/
def Channel.attached (a : AttachFields) (ch : Channel) : Channel :=
  { ch with state := .up, name := some a.name, params := some a.params, masks := a.masks, silence := true,
            ports := newPorts a.params, queue := [] }

theorem State.attached_answer (ho : (u.chan c).orders = [orderOf 1 f]) :
    (u.modChan c (Channel.attached a)).answer c .done (attachBody (u.modChan c (Channel.attached a))) =
      u.modChan c fun ch => { ch.attached a with reply := some { outcome := .done, seq := f.seq, body := attachBody u } } := by
  rw [State.answer_replied (code := 1) (f := f) (by rw [State.chan_modChan_self]; exact ho), State.replied,
    State.modChan_modChan]
  rfl

theorem State.orderAttach_none (h : parseAttach f.body = none) (hb : (orderOf 1 f).body = f.body) :
    (s.arrived c 1 f).orderAttach c (orderOf 1 f) = (s.arrived c 1 f).replied c f .badValue [] := by
  rw [State.orderAttach, hb, h]
  exact State.answer_arrived _ _

theorem State.orderAttach_some (h : parseAttach f.body = some a) (hb : (orderOf 1 f).body = f.body)
    (hu : u = if (s.chan c).state = .up then
      ((s.arrived c 1 f).endPorts c .hostRestart (text "HOST " ++ [hostLetter c] ++ text " RESTARTED")).modChan c
        Channel.clearFaults else s.arrived c 1 f)
    (ho : (u.chan c).orders = [orderOf 1 f]) :
    (s.arrived c 1 f).orderAttach c (orderOf 1 f) =
      u.modChan c fun ch => { ch.attached a with reply := some { outcome := .done, seq := f.seq, body := attachBody u } } := by
  have hstate : ((s.arrived c 1 f).chan c).state = (s.chan c).state := by rw [State.chan_arrived]
  rw [State.orderAttach, hb, h]
  dsimp only
  rw [hstate]
  have hend : (s.arrived c 1 f).endPorts c .hostRestart (hostText c " RESTARTED") =
      (s.arrived c 1 f).endPorts c .hostRestart (text "HOST " ++ [hostLetter c] ++ text " RESTARTED") := rfl
  rw [hend, ← hu]
  exact State.attached_answer ho

end

/-- Settles O38: an ATTACH of a channel in DOWN or FAILED, and a restart in UP. -/
theorem attachSetsUpTheChannel : Obligations.AttachSetsUpTheChannel := by
  unfold Obligations.AttachSetsUpTheChannel
  intro s c f count least hi lo masks name hp ho hfp hn hf hb base calendar flags body attached restarted cs valid
  obtain ⟨hfits, hbody, hparse⟩ := attach_parse hn hf hb
  have hrun : (s.chan c).state.allows 1 = true →
      exec (.attach c f) s = .next ((s.arrived c 1 f).orderAttach c (orderOf 1 f)).started := fun hal =>
    congrArg Host.Outcome.next (State.arrive_run hp ho rfl hfits hal (.inl hfp) rfl)
  have hreply : attachBody s = body := by
    simp only [attachBody, calendarBytes, body, calendar, flags]
  clear_value body
  have hgood : valid → parseAttach f.body = some {
      params := { portCount := min count.toNat 48, minClass := least.toNat, base := hi.toNat * 256 + lo.toNat },
      masks := { unrated := masks.getLsbD 0, saturate := masks.getLsbD 1, estimated := masks.getLsbD 2 },
      name := (name.take 8).map (·.setWidth 7) } := fun h => hparse.trans (if_pos h)
  refine ⟨fun hst => ?_, fun hup hv => ?_⟩
  · have hno : ¬ (s.chan c).state = .up := by rcases hst with h | h <;> rw [h] <;> decide
    rw [hrun (by rcases hst with h | h <;> rw [h] <;> rfl)]
    refine ⟨fun hv => ?_, fun hv => ?_⟩
    · rw [State.orderAttach_some (hgood hv) hbody (if_neg hno).symm (by rw [State.chan_arrived]),
        attachBody_congr (s := s) (t := s.arrived c 1 f) rfl rfl rfl rfl rfl, hreply, State.arrived, State.modChan_modChan]
      exact congrArg (fun t : State => Host.Outcome.next t.started) (State.modChan_congr rfl)
    · rw [State.orderAttach_none (hparse.trans (if_neg hv)) hbody, State.replied, State.arrived, State.modChan_modChan]
      refine congrArg (fun t : State => Host.Outcome.next t.started) (State.modChan_congr ?_)
      rcases hst with h | h <;> simp [h]
  · have hrun := hrun (by rw [hup]; rfl)
    have hwaiter : ∀ waiter, s.OneWaiter c waiter → (∀ l, waiter = some l → (s.unit l).state = .waiting) →
        exec (.attach c f) s = .next ((s.modChan c restarted).returnedFrom waiter cs).started := fun waiter hone hw => by
      have hends : (s.arrived c 1 f).endPorts c .hostRestart cs = ((s.arrived c 1 f).emptied c).returnedFrom waiter cs :=
        State.OneWaiter.endPorts (State.OneWaiter.of_chan (s := s) hone rfl rfl) (by exact hw) _
      rw [hrun, State.orderAttach_some (hgood hv) hbody (if_pos hup).symm (by
        rw [hends, State.modChan_returnedFrom, State.chan_returnedFrom, State.chan_modChan_self, State.emptied,
          State.chan_modChan_self, State.chan_arrived]
        rfl), hends]
      obtain ⟨lines, hframe⟩ := State.returnedFrom_frame (s := (s.arrived c 1 f).emptied c) (waiter := waiter) (cs := cs)
      rw [attachBody_congr (s := s) (by rw [hframe]; rfl) (by rw [hframe]; rfl) (by rw [hframe]; rfl) (by rw [hframe]; rfl)
        (by rw [hframe]; rfl), hreply, State.modChan_returnedFrom, State.modChan_returnedFrom, State.emptied, State.arrived, State.modChan_modChan,
        State.modChan_modChan, State.modChan_modChan]
      exact congrArg (fun t : State => Host.Outcome.next (t.returnedFrom waiter cs).started) (State.modChan_congr rfl)
    refine ⟨fun hfree => ⟨fun hq => hwaiter none (.inl ⟨rfl, hfree, hq⟩) nofun, fun w hq hw =>
      hwaiter (some w.line) (.inr (.inl ⟨w, rfl, hfree, hq⟩)) fun l hl => ?_⟩, fun p x l hx ho hl hw hothers hq =>
        hwaiter (some l) (.inr (.inr ⟨p, x, hx, ho, hl, rfl, hothers, hq⟩)) fun j hj => ?_, ?_⟩
    · rw [← Option.some.inj hl]
      exact hw
    · rw [← Option.some.inj hj]
      exact hw
    · intro l k x m e hr hc hbound hothers hq hone hmem hconn
      subst hc
      have hagrees : s.Agrees (s.arrived k.channel 1 f) := State.Agrees.modChan rfl
      have hsession : s.HasSession l k x m e := ⟨hr, hmem, hone, hconn⟩
      have hhas := hagrees.hasSession (l := l) rfl hsession
      have hends := hhas.endPorts (cs := cs) hbound (by rw [State.chan_arrived]; exact hq)
        (fun q y hne hy => hothers q y hne ((hagrees.port _ _).symm.trans hy)) .hostRestart
      have hremoves := hhas.removes .hostRestart cs
      have hsteady : (s.arrived k.channel 1 f).Steady
          ((s.arrived k.channel 1 f).removeSession k.channel k.port .hostRestart cs) := (State.Steady.refl _).removeSession
      refine ⟨_, hrun, ?_⟩
      have horders : (((s.arrived k.channel 1 f).endPorts k.channel .hostRestart cs).modChan k.channel
          Channel.clearFaults |>.chan k.channel).orders = [orderOf 1 f] := by
        rw [State.chan_modChan_self, hends, State.emptied, State.chan_modChan_self, hremoves.chan]
        exact (Channel.noted_orders _ _).trans (by rw [State.chan_arrived])
      rw [State.orderAttach_some (hgood hv) hbody (if_pos hup).symm horders, hends]
      generalize (s.arrived k.channel 1 f).removeSession k.channel k.port .hostRestart cs = t at *
      have hline : ∀ j, t.line j = (s.parted l k (s.finalUnits m) cs).line j := fun j => by
        rw [State.line_of_lines hremoves.lines, hagrees.finalUnits]
        exact State.line_of_lines (State.parted_lines (by rfl) _ _) j
      have hbilled := hagrees.billed hremoves.toBilled
      have hcalendar : t.rating.calendar = s.rating.calendar := by rw [hbilled.rating]
      have hclock : t.rating.clock = s.rating.clock := by rw [hbilled.rating]
      refine ⟨?_, fun d hd => ?_, hline l, fun j hj => (hline j).trans (State.line_parted_ne hj _ _),
        ⟨hbilled.rating, hbilled.entry, hbilled.store⟩, hremoves.presence⟩
      · rw [State.chan_modChan_self, attachBody_congr (s := s) (t := (t.emptied k.channel).modChan _ _) hbilled.store
          hcalendar hclock hsteady.cause hsteady.setup,
          hreply, State.chan_modChan_self, State.emptied, State.chan_modChan_self, hremoves.chan, hagrees.sessionEnd,
          State.chan_arrived]
        simp [Channel.attached, Channel.clearFaults, Channel.noted_eq, restarted, attached, newPorts, base]
      · rw [State.chan_modChan_ne _ _ hd, State.chan_modChan_ne _ _ hd, State.emptied, State.chan_modChan_ne _ _ hd,
          hremoves.others d hd, State.arrived, State.chan_modChan_ne _ _ hd]

end Sys2Proof.Machine
end

section
/-! DETACH, and the end of an attachment once every port is FREE (R102, R169). -/

namespace Sys2Proof.Machine

section
variable {s t : State} {c : ChanNo} {f : OrderFrame} {l : LineNo} {p : Nat} {x : Port} {cs : List Code}

/-- A channel whose attachment has ended (R169). -/
def Channel.downed (ch : Channel) : Channel :=
  let gone := { ch.clearFaults with state := .down, silence := false, masks := {}, name := none, params := none,
                                    ports := [], queue := [], dataOut := [] }
  if ch.notices.length < 32 then { gone with notices := ch.notices ++ [noticeDetached] } else { gone with lost := true }

theorem State.channelDown_eq : s.channelDown c = s.modChan c Channel.downed := rfl

theorem State.quiesceIfDone_free (hq : (s.chan c).state = .quiescing)
    (h : ∀ p x, s.port? c p = some x → x.state = .free) : s.quiesceIfDone c = s.modChan c Channel.downed := by
  refine (if_pos ⟨hq, List.all_eq_true.2 fun x hx => ?_⟩).trans State.channelDown_eq
  obtain ⟨p, hp⟩ := List.getElem?_of_mem hx
  exact decide_eq_true (h p x hp)

theorem State.quiesceIfDone_used (hx : s.port? c p = some x) (h : x.state ≠ .free) : s.quiesceIfDone c = s :=
  if_neg fun hall => h (of_decide_eq_true (List.all_eq_true.1 hall.2 x (List.mem_of_getElem? hx)))

/-- A channel as its DETACH has been answered. -/
def State.detaching (s : State) (c : ChanNo) (f : OrderFrame) : State :=
  ((s.inExecution c 2 f).modChan c fun ch => { ch with state := .quiescing, queue := [] }).replied c f .done []

theorem State.chan_detaching : (s.detaching c f).chan c = { s.chan c with
    silence := true, orders := [orderOf 2 f], state := .quiescing, queue := [],
    reply := some { outcome := .done, seq := f.seq, body := [] } } := by
  rw [State.detaching, State.replied, State.chan_modChan_self, State.chan_modChan_self, State.chan_inExecution]

theorem State.port_detaching (p : Nat) : (s.detaching c f).port? c p = s.port? c p := by
  rw [State.port?, State.chan_detaching]
  rfl

/-- What DETACH does once its queue is emptied. -/
def State.quiesced (s : State) (c : ChanNo) (cs : List Code) : State :=
  ((s.portsIn c .opening).foldl (fun u p => u.dropOpening c cs p) s).quiesceIfDone c

theorem State.detach_answer : ((s.inExecution c 2 f).modChan c fun ch => { ch with state := .quiescing }).answer c .done [] =
    ((s.inExecution c 2 f).modChan c fun ch => { ch with state := .quiescing }).replied c f .done [] :=
  State.answer_replied (code := 2) (by rw [State.chan_modChan_self, State.chan_inExecution]) _ _

theorem State.orderDetach_nil (hq : (s.chan c).queue = []) : (s.inExecution c 2 f).orderDetach c =
    (s.detaching c f).quiesced c (text "HOST " ++ [hostLetter c] ++ text " CLOSING") := by
  refine congrArg (fun u : State => u.quiesced c _) ?_
  rw [State.detach_answer, State.dropQueue_nil (by
    rw [State.replied, State.chan_modChan_self, State.chan_modChan_self, State.chan_inExecution]
    exact hq), State.detaching, State.replied, State.replied]
  simp only [State.modChan_modChan]

theorem State.orderDetach_one {w : WaitEntry} (hq : (s.chan c).queue = [w]) (hw : (s.unit w.line).state = .waiting) :
    (s.inExecution c 2 f).orderDetach c =
      ((s.detaching c f).returned w.line (text "HOST " ++ [hostLetter c] ++ text " CLOSING")).quiesced c
        (text "HOST " ++ [hostLetter c] ++ text " CLOSING") := by
  refine congrArg (fun u : State => u.quiesced c _) ?_
  rw [State.detach_answer, State.dropQueue_one (w := w) (by
    rw [State.replied, State.chan_modChan_self, State.chan_modChan_self, State.chan_inExecution]
    exact hq) (by exact hw), State.detaching, State.replied, State.replied]
  simp only [State.modChan_modChan]
  rfl

end

/-- Settles O39: what DETACH withdraws, and when the channel is DOWN. -/
theorem detachLeavesWhenThePortsAreFree : Obligations.DetachLeavesWhenThePortsAreFree := by
  unfold Obligations.DetachLeavesWhenThePortsAreFree
  intro s c downed
  have hdowned : downed = Channel.downed := rfl
  clear_value downed
  subst hdowned
  refine ⟨?_, fun p x hp hst hx hc ht hothers => ?_⟩
  · intro f ha hup hf quiescing cs
    have hrun : exec (.detach c f) s = .next ((s.inExecution c 2 f).orderDetach c).started :=
      congrArg Host.Outcome.next (ha.run rfl (orderOf_fits hf rfl (by decide)) (by rw [hup]; rfl) (.inr rfl) rfl)
    have hquiescing : quiescing = s.detaching c f := rfl
    clear_value quiescing
    subst hquiescing
    have hstate : ((s.detaching c f).chan c).state = .quiescing := by rw [State.chan_detaching]
    refine ⟨fun hq hfree => ?_, fun ⟨p, x, hx, hused⟩ hnone => ⟨fun hq => ?_, fun w hq hw => ?_⟩, ?_⟩
    · rw [hrun, State.orderDetach_nil hq, State.quiesced, State.portsIn_nil (by
        intro p x hx h
        rw [hfree p x ((State.port_detaching p).symm.trans hx)] at h
        exact absurd h (by decide)), List.foldl_nil, State.quiesceIfDone_free hstate (by simpa only [State.port_detaching])]
    · rw [hrun, State.orderDetach_nil hq, State.quiesced, State.portsIn_nil (by simpa only [State.port_detaching]),
        List.foldl_nil, State.quiesceIfDone_used ((State.port_detaching p).trans hx) hused]
    · rw [hrun, State.orderDetach_one hq hw, State.quiesced, State.portsIn_nil (by
        simpa only [State.port_returned, State.port_detaching]),
        List.foldl_nil, State.quiesceIfDone_used (((State.port_returned ..).trans (State.port_detaching p)).trans hx) hused]
    · intro p x l hq hx ho hl hw hothers withdrawn
      have hx' := (State.port_detaching (f := f) p).trans hx
      have horder : (s.inExecution c 2 f).orderDetach c = withdrawn.quiesceIfDone c := by
        rw [State.orderDetach_nil hq, State.quiesced, State.portsIn_one hx' ho (by simpa only [State.port_detaching]),
          List.foldl_cons, List.foldl_nil, State.dropOpening_waiting hx' hl hw]
      have hport : ∀ q, q ≠ p → withdrawn.port? c q = s.port? c q := fun q hne =>
        ((State.port_returned ..).trans (State.port_modPort_ne hne _)).trans (State.port_detaching q)
      have hself : withdrawn.port? c p = some x.freed := (State.port_returned ..).trans (State.port_modPort hx' _)
      have hwithdrawn : (withdrawn.chan c).state = .quiescing := by
        rw [State.chan_returned, State.freed, State.state_modPort, hstate]
      rw [hrun, horder]
      clear_value withdrawn
      refine ⟨fun ⟨q, y, hne, hy, hused⟩ => ?_, fun hfree => ?_⟩
      · rw [State.quiesceIfDone_used ((hport q hne).trans hy) hused]
      · rw [State.quiesceIfDone_free hwithdrawn fun q y hy => ?_]
        by_cases hne : q = p
        · subst hne
          rw [hself] at hy
          cases hy
          rfl
        · exact hfree q y hne ((hport q hne).symm.trans hy)
  · have hexec : exec (.closeTimerExpiry c p) s = .next (s.portFree c p).started := exec_on hp rfl (by
      simp only [hx, hc, ht, and_self, if_true])
    have hfreed : ((s.freed c p).chan c).state = .quiescing := (State.state_modPort ..).trans hst
    have hfree : s.portFree c p = (s.freed c p).quiesceIfDone c := if_neg (by rw [State.state_modPort, hst]; decide)
    rw [hexec, hfree, State.quiesceIfDone_free hfreed fun q y hy => ?_, State.freed, State.modPort_some hx,
      State.modChan_modChan]
    · rfl
    · by_cases hne : q = p
      · subst hne
        rw [State.freed, State.port_modPort hx] at hy
        cases hy
        rfl
      · exact hothers q y hne ((State.port_modPort_ne hne _).symm.trans hy)

end Sys2Proof.Machine
end

section
/-! The billing second (R106, R112, R119, R120). -/

namespace Sys2Proof.Machine

section
variable {s t u : State} {l : LineNo} {k : Session} {x : Port} {m : Meter} {e : Fin 32} {c : ChanNo} {p n slot : Nat}

/-! ## Every meter counts the second -/

/-- Meters that make no unit only count the second (R119). -/
theorem State.rateMeters_unmade (hd : s.metersDistinct) (h : ∀ m ∈ s.rating.meters, m.acc + m.rate * m.percent < 6000000) :
    s.rateMeters = { s with rating := { s.rating with meters := s.rating.meters.map Meter.second } } := by
  refine fold_meters (fun t c p => t.rateMeter c p) Meter.second (fun _ => ⟨rfl, rfl⟩) (fun _ => True) s.rating.meters
    (fun _ _ _ => trivial) (fun t m _ hm hf _ => ?_) s.rating.meters [] s rfl trivial rfl hd
  have hmade : ¬ 0 < m.made := by
    rw [Meter.made, Config.unitMeasure, Nat.div_eq_of_lt (h m hm)]
    decide
  rw [State.rateMeter, hf]
  exact if_neg hmade

/-- A tariff boundary (R112), where the bank that then holds has every meter's rate. -/
theorem State.takeBoundary_rated (hd : t.metersDistinct)
    (hr : ∀ m ∈ t.rating.meters, ((if t.rating.armed then t.rating.standby else t.rating.active).rate m.channel m.speedClass
      ({ t.rating with active := if t.rating.armed then t.rating.standby else t.rating.active } : Rating).period).isSome =
        true) :
    let bank := if t.rating.armed then t.rating.standby else t.rating.active
    let period := ({ t.rating with active := bank } : Rating).period
    t.takeBoundary.rating = { t.rating with
      active := bank, armed := false,
      meters := t.rating.meters.map fun m =>
        { m with period := period, rate := (bank.rate m.channel m.speedClass period).getD 0,
                 percent := bank.classPercent m.effClass } } ∧
      t.takeBoundary.lines = t.lines ∧ t.takeBoundary.cache = t.cache ∧ t.takeBoundary.store = t.store ∧
      ∀ c, t.takeBoundary.chan c = if t.rating.armed = true ∧ (t.chan c).state = .up then
        (t.chan c).noted (noticeTariffApplied t.rating.calendar) else t.chan c := by
  intro bank period
  cases ha : t.rating.armed with
  | true =>
    have hbank : bank = t.rating.standby := if_pos ha
    clear_value bank
    subst hbank
    simp only [ha, if_true] at hr
    have hchan := State.chan_noticeToUp (t.modRating fun r => { r with active := r.standby, armed := false })
      (noticeTariffApplied t.rating.calendar)
    obtain ⟨y, hy⟩ := State.noticeToUp_eq (t.modRating fun r => { r with active := r.standby, armed := false })
      (noticeTariffApplied t.rating.calendar)
    have htake : t.takeBoundary = State.loadSegments
        ((t.modRating fun r => { r with active := r.standby, armed := false }).noticeToUp
          (noticeTariffApplied t.rating.calendar)) := by
      rw [State.takeBoundary, if_pos ha]
    rw [hy] at htake hchan
    rw [htake, State.loadSegments_rated _ (by exact hd) (by exact hr)]
    refine ⟨rfl, rfl, rfl, rfl, fun c => (hchan c).trans ?_⟩
    simp only [true_and]
    rfl
  | false =>
    have hbank : bank = t.rating.active := if_neg (by rw [ha]; decide)
    clear_value bank
    subst hbank
    simp only [ha, Bool.false_eq_true, if_false] at hr
    rw [State.takeBoundary, if_neg (by rw [ha]; decide), State.loadSegments_rated _ hd hr]
    exact ⟨by simp only [← ha]; rfl, rfl, rfl, rfl, fun c => (if_neg (by simp)).symm⟩

theorem State.second_within (h : ¬ s.rateMeters.rating.active.boundaryAt s.rateMeters.rating.calendar.tick) :
    s.second = s.rateMeters.modRating fun r => { r with calendar := r.calendar.tick } :=
  if_neg fun hb => h ((Rating.atBoundary_iff _).1 hb)

theorem State.second_boundary (h : s.rateMeters.rating.active.boundaryAt s.rateMeters.rating.calendar.tick) :
    s.second = (s.rateMeters.modRating fun r => { r with calendar := r.calendar.tick }).takeBoundary :=
  if_pos ((Rating.atBoundary_iff _).2 h)

/-! ## One meter -/

theorem State.modMeter_one (h : s.rating.meters = [m]) (f : Meter → Meter) :
    s.modMeter m.channel m.port f = s.modRating fun r => { r with meters := [f m] } := by
  simp only [State.modMeter, State.modRating, h, List.map_cons, List.map_nil, and_self, if_true]

theorem State.meter_one (h : s.rating.meters = [m]) : s.meter? m.channel m.port = some m := by
  simp [State.meter?, h]

theorem State.rateMeters_one (h : s.rating.meters = [m]) : s.rateMeters =
    (let t := s.modRating fun r => { r with meters := [m.second] }
     if 0 < m.made then t.offerMeter m.channel m.port m.made else t) := by
  rw [State.rateMeters, State.meterKeys, h, List.map_cons, List.map_nil, List.foldl_cons, List.foldl_nil, State.rateMeter,
    State.meter_one h]
  dsimp only
  rw [State.modMeter_one h]

/-- An offer of a meter whose account has an entry (R120, R127). -/
theorem State.offerMeter_entry (hm : s.meter? c p = some m) (hu : m.unposted = 0) (he : s.entryOf m.slot = some e) :
    s.offerMeter c p n =
      (let r := s.postEntry e n
       if r.2 < n then r.1.meterDiscard c p (n - r.2) else r.1).settle := by
  rw [State.offerMeter, hm]
  dsimp only
  rw [hu, if_neg (Nat.lt_irrefl 0), State.entryFor, he]

/-! ## A posting beyond the room -/

theorem State.postEntry_capped (h : (s.entry e).slot = some slot) (hn : s.room slot ≤ n) :
    s.postEntry e n = s.postEntry e (s.room slot) := by
  rw [State.postEntry_slot h, State.postEntry_slot h, Nat.min_eq_right hn, Nat.min_self]

theorem State.slot_serveWriteBack (s : State) (e : Fin 32) (o : Option Nat) (j : Fin 32) :
    ((s.serveWriteBack e o).entry j).slot = (s.entry j).slot := by
  unfold State.serveWriteBack
  split
  · rfl
  · split
    · dsimp only
      have hslot : (((s.modCache fun c => { c with queue := c.queue.erase e }).modEntry e fun x =>
          { x with state := .writing, snapshot := (s.entry e).pending }).entry j).slot = (s.entry j).slot := by
        rw [State.entry_modEntry]
        split <;> rfl
      exact hslot
    · rfl

theorem State.slot_lookDue (s : State) (e j : Fin 32) : ((s.lookDue e).entry j).slot = (s.entry j).slot := by
  unfold State.lookDue State.enqueueEntry State.offerWriteBack
  split
  · split
    · rfl
    · split
      · rfl
      · split
        · rfl
        · split
          · exact State.slot_serveWriteBack ..
          · rfl
  · rfl

theorem State.entryOf_of_slots (h : ∀ j, (t.entry j).slot = (s.entry j).slot) (slot : Nat) :
    t.entryOf slot = s.entryOf slot := by
  simp only [State.entryOf, h]

/-- A posting leaves every entry with its account. -/
theorem State.Takes.entryOf_post (h : s.Takes e slot n) (other : Nat) :
    (s.postEntry e n).1.entryOf other = s.entryOf other := by
  refine State.entryOf_of_slots (fun j => ?_) other
  rw [State.postEntry_slot (State.entryOf_slot h.entry)]
  dsimp only
  have hsame : ∀ t : State, t = ((s.modEntry e fun x => { x with pending := x.pending + min n (s.room slot) }).modCache
      fun c => { c with recency := c.recency.erase e ++ [e] }) → (if 0 < min n (s.room slot) then t.recompute slot else t) =
        t := fun t ht => by
    split
    · exact State.recompute_unlimited (by rw [ht]; exact h.budget) (by rw [ht]; exact h.normal)
    · rfl
  rw [hsame _ rfl, State.slot_lookDue]
  have hentry : ((s.modEntry e fun x => { x with pending := x.pending + min n (s.room slot) }).entry j).slot =
      (s.entry j).slot := by
    rw [State.entry_modEntry]
    split <;> rfl
  exact hentry

/-- An account that has just taken all it had room for has none left. -/
theorem State.Takes.room_post (h : s.Takes e slot (s.room slot)) : (s.postEntry e (s.room slot)).1.room slot = 0 := by
  obtain ⟨-, -, -, -, hstore, -, -, -, -, hpending⟩ := h.post
  have hentry := (h.entryOf_post slot).trans h.entry
  generalize hr : s.room slot = r at *
  rw [State.room, State.recordAt, hstore, State.pendingOf, hentry]
  dsimp only
  rw [hpending]
  rw [State.room, State.pendingOf, h.entry, State.recordAt] at hr
  dsimp only at hr
  omega

theorem State.postEntry_noRoom (he : s.entryOf slot = some e) (hr : s.room slot = 0) (n : Nat) :
    (s.postEntry e n).2 = 0 ∧ Quiet s (s.postEntry e n).1 := by
  rw [State.postEntry_slot (State.entryOf_slot he), hr, Nat.min_zero]
  dsimp only
  rw [if_neg (Nat.lt_irrefl 0)]
  refine ⟨rfl, Quiet.trans (t := (s.modEntry e fun x => { x with pending := x.pending + 0 }).modCache fun c =>
    { c with recency := c.recency.erase e ++ [e] })
    ⟨rfl, rfl, rfl, rfl, rfl, rfl, rfl, rfl, rfl, fun j => ?_⟩ (quiet_lookDue _ _)⟩
  have hentry : ((s.modEntry e fun x => { x with pending := x.pending + 0 }).entry j).pending = (s.entry j).pending := by
    rw [State.entry_modEntry]
    split <;> rfl
  exact hentry

/-! ## The close of a saturated session -/

/-- Line `l` has a session at port `p` whose meter has saturated, and whose account has no room left (R120). -/
structure State.Overrun (s : State) (c : ChanNo) (p : Nat) (l : LineNo) (x : Port) (m : Meter) (e : Fin 32) : Prop where
  port      : s.port? c p = some x
  line      : x.line = some l
  meter     : s.meter? c p = some m
  unposted  : m.unposted = 0
  saturated : m.saturated = true
  entry     : s.entryOf m.slot = some e
  room      : s.room m.slot = 0
  waiting   : s.cache.waiting = []

/-- The close of such a meter posts nothing, and its final units are those it has. -/
theorem State.Overrun.closeMeter (h : s.Overrun c p l x m e) (cause : Cause) :
    (s.closeMeter c p cause).2 = m.units ∧
    (let t := (s.closeMeter c p cause).1
     t.lines = s.lines ∧ (∀ d, t.chan d = if d = c then (s.chan d).noted (s.sessionEndOf m x.circuit cause m.units) else
        s.chan d) ∧
     t.rating = { s.rating with meters := s.rating.meters.filter fun j => !decide (j.channel = c ∧ j.port = p) } ∧
     t.store = s.store ∧ t.cache.waiting = [] ∧ ∀ j, (t.entry j).pending = (s.entry j).pending) := by
  have hc : m.channel = c ∧ m.port = p := by simpa using List.find?_some h.meter
  obtain ⟨rfl, rfl⟩ := hc
  obtain ⟨htaken, hquiet⟩ := State.postEntry_noRoom (s := s.removeMeter m.channel m.port) h.entry h.room
    (s.finalUnits m - m.units + m.unposted)
  have hoffer : (s.removeMeter m.channel m.port).offerClosed m.slot m.channel (s.finalUnits m - m.units + m.unposted) =
      (((s.removeMeter m.channel m.port).postEntry e (s.finalUnits m - m.units + m.unposted)).1, some 0) := by
    have hentry : (s.removeMeter m.channel m.port).entryFor m.slot = some (e, s.removeMeter m.channel m.port) := by
      rw [State.entryFor, show (s.removeMeter m.channel m.port).entryOf m.slot = some e from h.entry]
    rw [State.offerClosed, hentry]
    dsimp only
    rw [htaken]
  have hle : m.units ≤ s.finalUnits m := le_max_of_le_left (Nat.le_add_right ..)
  have hfinal : s.finalUnits m - (s.finalUnits m - m.units + m.unposted - 0) = m.units := by
    rw [h.unposted]
    omega
  have hmax : max (m.units + s.extraUnits m) (s.rating.active.minimum.get m.channel) = s.finalUnits m := rfl
  have hcircuit : s.circuit m.channel m.port = x.circuit := by
    rw [State.circuit, h.port]
    rfl
  rw [State.closeMeter, h.meter]
  dsimp only
  rw [roundResidue_extra, hmax, hoffer]
  dsimp only
  rw [hfinal, h.saturated]
  generalize ((s.removeMeter m.channel m.port).postEntry e (s.finalUnits m - m.units + m.unposted)).1 = u at *
  simp only [Bool.not_true, Bool.false_eq_true, and_false, if_false, Bool.true_or, hcircuit]
  have hnotice : noticeSessionEnd (s.accountOf m.slot) m.line m.channel m.port x.circuit m.seconds m.units
      (sessionEndFlags (roundResidue s.rating.active.rounding m.acc).2
        (decide (m.units + s.extraUnits m < s.rating.active.minimum.get m.channel)) m.estimated true) cause =
      s.sessionEndOf m x.circuit cause m.units := by
    unfold noticeSessionEnd State.sessionEndOf sessionEndFlags
    rw [indicator_extra, h.saturated]
    simp
  rw [hnotice]
  have hlook := quiet_lookAccount (u.queueNotice m.channel (s.sessionEndOf m x.circuit cause m.units)) m.slot
  refine ⟨trivial, hlook.lines.trans hquiet.lines, fun d => ?_, hlook.rating.trans hquiet.rating,
    hlook.store.trans hquiet.store, hlook.waiting.trans (hquiet.waiting.trans h.waiting), fun j =>
      (hlook.entries j).trans (hquiet.entries j)⟩
  rw [State.chan_of_channels hlook.channels, State.queueNotice, State.chan_modChan, State.chan_of_channels hquiet.channels]
  by_cases hd : d = m.channel
  · rw [if_pos hd.symm, if_pos hd]
    rfl
  · rw [if_neg (Ne.symm hd), if_neg hd]
    rfl

/-- The session of a saturated meter is closed, and its line returns to COMMAND (R80, R98, R120). -/
theorem State.Overrun.faultClose (h : s.Overrun k.channel k.port l x m e) (hk : k.state = .live)
    (hst : (s.ctx l).stack = [k]) (hconn : (s.unit l).state = .connected) :
    let t := s.faultClose k.channel k.port
    t.lines = (s.parted l k m.units (text "HOST " ++ [hostLetter k.channel] ++ text " BILLING FAULT")).lines ∧
    t.chan k.channel =
      { ((s.chan k.channel).noted (s.sessionEndOf m x.circuit .billingFault m.units)).noted
          (circuitClosedOf k.port x.circuit l .billingFault) with
        ports := (s.chan k.channel).ports.set k.port (x.closed .billingFault),
        dataOut := (t.chan k.channel).dataOut } ∧
    (∀ d, d ≠ k.channel → t.chan d = s.chan d) ∧
    t.rating = { s.rating with
      meters := s.rating.meters.filter fun j => !decide (j.channel = k.channel ∧ j.port = k.port) } ∧
    t.store = s.store ∧ t.cache.waiting = [] ∧ ∀ j, (t.entry j).pending = (s.entry j).pending := by
  obtain ⟨hfinal, hlines, hchan, hrating, hstore, hwaiting, hentries⟩ := h.closeMeter .billingFault
  have hlive : s.isLive l k.channel k.port = true :=
    (State.isLive_iff (by rw [hst]; exact List.mem_singleton_self k) (by rw [hst]; simp)).2 hk
  have hpart : (s.partClose k.channel k.port .billingFault).1 =
      ((((s.closeMeter k.channel k.port .billingFault).1.sessionGone l k.channel k.port m.units).discardFlow k.channel
        k.port).portClosing k.channel k.port .billingFault) := by
    simp only [State.partClose, h.port, Option.bind_some, h.line, hfinal]
  have hclose : s.faultClose k.channel k.port = (s.partClose k.channel k.port .billingFault).1.liveRemoved l
      (text "HOST " ++ [hostLetter k.channel] ++ text " BILLING FAULT") := by
    rw [State.faultClose, h.port, Option.bind_some, h.line]
    dsimp only
    rw [if_pos hlive]
    rfl
  rw [hpart] at hclose
  generalize (s.closeMeter k.channel k.port .billingFault).1 = u at *
  have hport : (u.sessionGone l k.channel k.port m.units).port? k.channel k.port = some x := by
    rw [State.sessionGone, State.port?, State.chan_modCtx, hchan, if_pos rfl, Channel.noted_ports]
    exact h.port
  rw [State.portClosed_eq hport] at hclose
  generalize hv : u.modChan k.channel (fun ch =>
      { ch.noted (noticeCircuitClosed k.port x.circuit x.line .billingFault) with
        ports := ch.ports.set k.port (x.closed .billingFault), dataOut := dropIndications k.port ch.dataOut }) = v
  have hswap : (u.sessionGone l k.channel k.port m.units).modChan k.channel (fun ch =>
      { ch.noted (noticeCircuitClosed k.port x.circuit x.line .billingFault) with
        ports := ch.ports.set k.port (x.closed .billingFault), dataOut := dropIndications k.port ch.dataOut }) =
      v.modCtx l fun y => y.without k m.units := by rw [← hv]; rfl
  have hlinesv : v.lines = s.lines := by rw [← hv]; exact hlines
  have hparted : (v.modCtx l fun y => y.without k m.units).liveRemoved l
      (text "HOST " ++ [hostLetter k.channel] ++ text " BILLING FAULT") =
      v.parted l k m.units (text "HOST " ++ [hostLetter k.channel] ++ text " BILLING FAULT") := by
    rw [State.liveRemoved_connected (by rw [State.unit_modCtx, State.unit, State.line_of_lines hlinesv]; exact hconn),
      State.modCtx_modCtx, State.parted, hk, if_neg (by decide)]
  rw [hswap, hparted] at hclose
  have hself : v.chan k.channel =
      { ((s.chan k.channel).noted (s.sessionEndOf m x.circuit .billingFault m.units)).noted
          (circuitClosedOf k.port x.circuit l .billingFault) with
        ports := (s.chan k.channel).ports.set k.port (x.closed .billingFault),
        dataOut := dropIndications k.port
          ((s.chan k.channel).noted (s.sessionEndOf m x.circuit .billingFault m.units)).dataOut } := by
    rw [← hv, State.chan_modChan_self, hchan, if_pos rfl, h.line, Channel.noted_ports]
    rfl
  have hothers : ∀ d, d ≠ k.channel → v.chan d = s.chan d := fun d hd => by
    rw [← hv, State.chan_modChan_ne _ _ hd, hchan, if_neg hd]
  obtain ⟨lines, hframe⟩ := State.parted_frame (s := v) (l := l) (k := k) m.units
    (text "HOST " ++ [hostLetter k.channel] ++ text " BILLING FAULT")
  have hchannels : (v.parted l k m.units (text "HOST " ++ [hostLetter k.channel] ++ text " BILLING FAULT")).channels =
      v.channels := by rw [hframe]
  intro t
  have ht : t = _ := hclose
  clear_value t
  subst ht
  refine ⟨State.parted_lines hlinesv _ _, ?_, fun d hd => (State.chan_of_channels hchannels d).trans (hothers d hd), ?_, ?_,
    ?_, fun j => ?_⟩
  · rw [State.chan_of_channels hchannels, hself]
  · rw [hframe, ← hv]
    exact hrating
  · rw [hframe, ← hv]
    exact hstore
  · rw [hframe, ← hv]
    exact hwaiting
  · rw [hframe, ← hv]
    exact hentries j

theorem Channel.raised_ports (ch : Channel) (kind : ExceptionKind) (account : Nat) (port : Option Nat) (now : Calendar) :
    (ch.raised kind account port now).ports = ch.ports := by
  simp only [Channel.raised, Channel.noted]
  cases kind <;> (repeat' split) <;> rfl

theorem State.offerMeter_takes (hm : s.meter? c p = some m) (hu : m.unposted = 0) (h : s.Takes e m.slot n) :
    s.offerMeter c p n = (s.postEntry e n).1 := by
  obtain ⟨htaken, -, -, -, -, -, hwaiting, -⟩ := h.post
  rw [State.offerMeter_entry hm hu h.entry]
  dsimp only
  rw [htaken, if_neg (Nat.lt_irrefl n), State.settle_empty hwaiting]

theorem State.offerMeter_discards (hm : s.meter? c p = some m) (hu : m.unposted = 0)
    (h : s.Takes e m.slot (s.room m.slot)) (hn : s.room m.slot < n) : s.offerMeter c p n =
      ((s.postEntry e (s.room m.slot)).1.meterDiscard c p (n - s.room m.slot)).settle := by
  rw [State.offerMeter_entry hm hu h.entry, State.postEntry_capped (State.entryOf_slot h.entry) hn.le]
  dsimp only
  rw [h.post.1, if_pos hn]

/-- The meter after a discard of units (R120). -/
def Meter.full (m : Meter) (lost : Nat) : Meter := { m with units := m.units - lost, saturated := true }

/-- A discard of the one open meter's units, on an UP channel (R120, R123). -/
theorem State.meterDiscard_one (h : s.rating.meters = [m]) (hup : (s.chan m.channel).state = .up) (lost : Nat) :
    s.meterDiscard m.channel m.port lost =
      (let v := s.modRating fun r => { r with meters := [m.full lost] }
       if m.saturated then v
       else
         let w := v.modChan m.channel fun ch => ch.raised .saturate (s.accountOf m.slot) (some m.port) s.rating.calendar
         if (s.chan m.channel).masks.saturate then w else w.faultClose m.channel m.port) := by
  rw [State.meterDiscard, State.meter_one h]
  dsimp only
  rw [State.modMeter_one h]
  have hraise := State.raiseException_live (s := s.modRating fun r => { r with meters := [m.full lost] }) (c := m.channel)
    (.inl hup) .saturate (s.accountOf m.slot) (some m.port)
  exact congrArg (fun w : State => if m.saturated then _ else if (s.chan m.channel).masks.saturate then w
    else w.faultClose m.channel m.port) hraise

end

/-- Settles O36: the billing second of meters that make nothing, of one whose account takes its units, and of one whose
account has no room for them. -/
theorem billingSecondRatesTheMeters : Obligations.BillingSecondRatesTheMeters := by
  unfold Obligations.BillingSecondRatesTheMeters
  intro s hp htimer now rated
  have hrated : rated = Meter.second := rfl
  clear_value rated
  subst hrated
  have hrun : exec .billingSecond s = .next s.second.started := exec_on hp rfl (if_pos htimer)
  refine ⟨fun hd hunmade => ?_, ?_⟩
  · have hall := State.rateMeters_unmade hd hunmade
    refine ⟨fun hnb => ?_, ?_⟩
    · rw [hrun, State.second_within (by rw [hall]; exact hnb), hall]
      rfl
    · intro hb bank period hr
      generalize ht : s.rateMeters.modRating (fun r => { r with calendar := r.calendar.tick }) = t
      rw [hall] at ht
      have hdist : t.metersDistinct := by
        rw [← ht]
        exact List.pairwise_map.2 hd
      obtain ⟨hrating, hlines, hcache, hstore, hchan⟩ := State.takeBoundary_rated hdist (by
        rw [← ht]
        intro y hy
        obtain ⟨m, hm, rfl⟩ := List.mem_map.1 hy
        exact hr m hm)
      rw [hrun, State.second_boundary (by rw [hall]; exact hb), hall, ht]
      refine ⟨_, rfl, ?_, State.line_of_lines (hlines.trans (by rw [← ht]; rfl)), hcache.trans (by rw [← ht]; rfl),
        hstore.trans (by rw [← ht]; rfl), fun c => ?_⟩
      · rw [hrating, ← ht]
        show ({ s.rating with
          calendar := now, active := bank, armed := false, meters := (s.rating.meters.map Meter.second).map _ } : Rating) = _
        rw [List.map_map]
        congr 1
      · rw [hchan, ← ht]
        rfl
  · intro m e hone hnb hu made
    have hrate := State.rateMeters_one hone
    generalize hs1 : s.modRating (fun r => { r with meters := [m.second] }) = s1 at hrate
    have hmeters : s1.rating.meters = [m.second] := by rw [← hs1]; rfl
    have hmeter : s1.meter? m.channel m.port = some m.second := State.meter_one hmeters
    have hroom : s1.room m.second.slot = s.room m.slot := by rw [← hs1]; rfl
    have htakes : ∀ n, s.Takes e m.slot n → s1.Takes e m.second.slot n := fun n h => by
      rw [← hs1]
      exact ⟨h.entry, h.waiting, h.room, h.budget, h.normal⟩
    have hsame : s1.lines = s.lines ∧ s1.channels = s.channels ∧ s1.store = s.store ∧ s1.entry e = s.entry e := by
      rw [← hs1]
      exact ⟨rfl, rfl, rfl, rfl⟩
    have hrating1 : s1.rating = { s.rating with meters := [m.second] } := by rw [← hs1]; rfl
    obtain ⟨klines, kchannels, kstore, kentry⟩ := hsame
    clear hs1
    have hends : ∀ u : State, s.rateMeters = u → u.rating.active = s.rating.active →
        u.rating.calendar = s.rating.calendar → s.second = u.modRating fun r => { r with calendar := r.calendar.tick } :=
      fun u hu hactive hcalendar => by
        subst hu
        exact State.second_within (by rw [hactive, hcalendar]; exact hnb)
    refine ⟨fun ht => ?_, ?_⟩
    · have hpost : ∃ u, s.rateMeters = u ∧ u.rating = s1.rating ∧ (u.entry e).pending = (s.entry e).pending + made ∧
          u.lines = s.lines ∧ u.channels = s.channels ∧ u.store = s.store := by
        obtain ⟨-, hlines, hchannels, hrating, hstore, -, -, -, -, hpending⟩ := (htakes _ ht).post
        by_cases hmade : 0 < m.made
        · refine ⟨_, hrate.trans ((if_pos hmade).trans (State.offerMeter_takes hmeter hu (htakes _ ht))), hrating, ?_,
            hlines.trans klines, hchannels.trans kchannels, hstore.trans kstore⟩
          rw [kentry] at hpending
          exact hpending
        · have hzero : made = 0 := Nat.eq_zero_of_not_pos hmade
          refine ⟨_, hrate.trans (if_neg hmade), rfl, ?_, klines, kchannels, kstore⟩
          rw [hzero, kentry]
          rfl
      obtain ⟨u, hu, hrating, hpending, hlines, hchannels, hstore⟩ := hpost
      rw [hrun, hends u hu (by rw [hrating, hrating1]) (by rw [hrating, hrating1])]
      refine ⟨_, rfl, ?_, hpending, State.line_of_lines hlines, State.chan_of_channels hchannels, hstore⟩
      rw [State.modRating, hrating, hrating1]
    · intro ht hover hup full raised
      have hmade : 0 < m.made := (Nat.zero_le _).trans_lt hover
      have htakes1 : s1.Takes e m.second.slot (s1.room m.second.slot) := by
        rw [hroom]
        exact htakes _ ht
      have hover1 : s1.room m.second.slot < m.made := by
        rw [hroom]
        exact hover
      have hoffer := State.offerMeter_discards hmeter hu htakes1 hover1
      obtain ⟨-, hlines, hchannels, hrating, hstore, -, hwaiting, -, -, hpending⟩ := htakes1.post
      have hentry := (htakes1.entryOf_post m.slot).trans htakes1.entry
      have hspent := htakes1.room_post
      have hfull : m.second.full (m.made - s1.room m.second.slot) = full := by
        have hunits : m.units + m.made - (m.made - s.room m.slot) = m.units + s.room m.slot := by omega
        rw [hroom]
        exact congrArg (fun n => ({ m.second with units := n, saturated := true } : Meter)) hunits
      clear_value full
      have hplace : full.channel = m.channel ∧ full.port = m.port ∧ full.slot = m.slot ∧ full.unposted = 0 ∧
          full.saturated = true := by
        rw [← hfull]
        exact ⟨rfl, rfl, rfl, hu, rfl⟩
      generalize (s1.postEntry e (s1.room m.second.slot)).1 = t at *
      have hchan := State.chan_of_channels (hchannels.trans kchannels)
      have haccount : t.accountOf m.slot = s.accountOf m.slot := by
        rw [State.accountOf, State.recordAt, hstore, kstore]
        rfl
      have hdiscard := State.meterDiscard_one (s := t) (m := m.second) (by rw [hrating]; exact hmeters)
        (by rw [hchan]; exact hup) (m.made - s1.room m.second.slot)
      rw [hfull] at hdiscard
      generalize hv : t.modRating (fun r => { r with meters := [full] }) = v at hdiscard
      have hvrating : v.rating = { s.rating with meters := [full] } := by
        rw [← hv, State.modRating, hrating, hrating1]
      have hvsame : v.lines = s.lines ∧ v.channels = s.channels ∧ v.store = s.store ∧ v.cache.waiting = [] ∧
          (v.entry e).pending = (s.entry e).pending + s.room m.slot ∧ v.entryOf full.slot = some e ∧
          v.room full.slot = 0 := by
        rw [← hv, hplace.2.2.1]
        refine ⟨hlines.trans klines, hchannels.trans kchannels, hstore.trans kstore, hwaiting, ?_, hentry, hspent⟩
        rw [kentry, hroom] at hpending
        exact hpending
      clear hv
      obtain ⟨vlines, vchannels, vstore, vwaiting, vpending, ventry, vroom⟩ := hvsame
      have hmasks : (t.chan m.channel).masks = (s.chan m.channel).masks := by rw [hchan]
      generalize hw : v.modChan m.channel (fun ch =>
        ch.raised .saturate (t.accountOf m.slot) (some m.port) t.rating.calendar) = w
      have hsettled : s.rateMeters = (if m.saturated then v
          else if (s.chan m.channel).masks.saturate then w else w.faultClose m.channel m.port).settle := by
        refine hrate.trans ((if_pos hmade).trans (hoffer.trans (congrArg State.settle ?_)))
        rw [← hw, ← hmasks]
        exact hdiscard
      have hraised : w.chan m.channel = raised := by
        rw [← hw, State.chan_modChan_self, State.chan_of_channels vchannels, haccount, hrating, hrating1]
      have hothers : ∀ c, c ≠ m.channel → w.chan c = s.chan c := fun c hc => by
        rw [← hw, State.chan_modChan_ne _ _ hc, State.chan_of_channels vchannels]
      have hwsame : w.lines = v.lines ∧ w.store = v.store ∧ w.rating = v.rating ∧ w.cache = v.cache ∧
          w.room full.slot = v.room full.slot := by
        rw [← hw]
        exact ⟨rfl, rfl, rfl, rfl, rfl⟩
      obtain ⟨wlines, wstore, wrating, wcache, wroom⟩ := hwsame
      clear hw
      refine ⟨fun hquiet => ?_, ?_⟩
      · have hpost : ∃ u, s.rateMeters = u ∧ u.rating = v.rating ∧ u.cache = v.cache ∧ u.lines = v.lines ∧
            u.store = v.store ∧ u.chan m.channel = (if m.saturated then s.chan m.channel else raised) ∧
            ∀ c, c ≠ m.channel → u.chan c = s.chan c := by
          cases hsat : m.saturated with
          | true =>
            rw [hsat, if_pos rfl, State.settle_empty vwaiting] at hsettled
            exact ⟨v, hsettled, rfl, rfl, rfl, rfl, State.chan_of_channels vchannels _, fun c _ =>
              State.chan_of_channels vchannels c⟩
          | false =>
            have hmask : (s.chan m.channel).masks.saturate = true := hquiet.resolve_left (by rw [hsat]; decide)
            rw [hsat, hmask, if_neg (by decide), if_pos rfl, State.settle_empty (by rw [wcache]; exact vwaiting)] at hsettled
            exact ⟨w, hsettled, wrating, wcache, wlines, wstore, hraised, hothers⟩
        obtain ⟨u, hu, urating, ucache, ulines, ustore, uchan, uothers⟩ := hpost
        rw [hrun, hends u hu (by rw [urating, hvrating]) (by rw [urating, hvrating])]
        refine ⟨_, rfl, ?_, ?_, State.line_of_lines (ulines.trans vlines), uchan, uothers, ustore.trans vstore⟩
        · rw [State.modRating, urating, hvrating]
        · rw [← vpending]
          exact congrArg (fun y : Cache => (y.entries.get e).pending) ucache
      · intro hsat hmask l k x hkc hkp hx hl hk hst hconn
        obtain ⟨hfc, hfp, hfs, hfu, hfsat⟩ := hplace
        have hlines' : w.lines = s.lines := wlines.trans vlines
        have hmeter' : w.meter? m.channel m.port = some full := by
          rw [← hfc, ← hfp]
          exact State.meter_one (by rw [wrating, hvrating])
        have hover : w.Overrun k.channel k.port l x full e := {
          port := by
            rw [State.port?, hkc, hraised, Channel.raised_ports, ← hkc]
            exact hx
          line := hl
          meter := by rw [hkc, hkp]; exact hmeter'
          unposted := hfu
          saturated := hfsat
          entry := by
            have hentries : w.entryOf full.slot = v.entryOf full.slot :=
              State.entryOf_of_slots (fun j => congrArg (fun y : Cache => (y.entries.get j).slot) wcache) _
            rw [hentries, ventry]
          room := wroom.trans vroom
          waiting := by rw [wcache]; exact vwaiting }
        obtain ⟨flines, fchan, fothers, frating, fstore, fwaiting, fentries⟩ := hover.faultClose hk
          (by rw [State.ctx, State.line_of_lines hlines']; exact hst)
          (by rw [State.unit, State.line_of_lines hlines']; exact hconn)
        rw [hsat, hmask, if_neg (by decide), if_neg (by decide)] at hsettled
        rw [hkc, hkp] at flines fchan fothers frating fstore fwaiting fentries
        rw [State.settle_empty fwaiting] at hsettled
        have hend : w.sessionEndOf full x.circuit .billingFault full.units =
            s.sessionEndOf full x.circuit .billingFault full.units := by
          have hnumber : w.accountOf full.slot = s.accountOf full.slot := by
            rw [State.accountOf, State.recordAt, wstore, vstore]
            rfl
          have hextra : w.extraUnits full = s.extraUnits full := by
            rw [State.extraUnits, State.extraUnits, wrating, hvrating]
          rw [State.sessionEndOf, State.sessionEndOf, hnumber, hextra, wrating, hvrating]
        have hgone : (w.faultClose m.channel m.port).rating = { s.rating with meters := [] } := by
          rw [frating, wrating, hvrating]
          simp [hfc, hfp]
        rw [hend] at fchan
        generalize w.faultClose m.channel m.port = u at *
        rw [hrun, hends u hsettled (by rw [hgone]) (by rw [hgone])]
        have huline : ∀ j, u.line j = (s.parted l k full.units
            (text "HOST " ++ [hostLetter m.channel] ++ text " BILLING FAULT")).line j := fun j =>
          (State.line_of_lines flines j).trans (State.line_of_lines (State.parted_lines hlines' _ _) j)
        refine ⟨_, rfl, ?_, ?_, huline l, fun j hj => (huline j).trans (State.line_parted_ne hj _ _), ?_, ?_, ?_⟩
        · rw [State.modRating, hgone]
        · exact (fentries e).trans ((congrArg (fun y : Cache => (y.entries.get e).pending) wcache).trans vpending)
        · have hports : (w.chan m.channel).ports = (s.chan m.channel).ports := by rw [hraised, Channel.raised_ports]
          rw [hports, hraised] at fchan
          exact fchan
        · exact fun c hc => (fothers c hc).trans (hothers c hc)
        · exact fstore.trans (wstore.trans vstore)

end Sys2Proof.Machine
end

section
/-! The sign-on check as the store serves it (R56 to R59). -/

namespace Sys2Proof.Machine

section
variable {s t : State} {l : LineNo} {n slot : Nat} {r : Record} {p q : Presence}

theorem State.checks_same {cs : List Check} (h : t.checks = cs) : ({ t with checks := cs } : State) = t := by
  subst h
  rfl

theorem State.setPresence_setPresence (hp : p ≠ {}) (hq : q ≠ {}) :
    (s.setPresence slot p).setPresence slot q = s.setPresence slot q := by
  simp only [State.setPresence, if_neg hp, if_neg hq, tabPut_tabPut]

/-- A line whose check has been taken from the list, its fields emptied (R57). -/
def State.checked (s : State) (l : LineNo) : State :=
  (s.modDialog l fun d => { d with phase := .checking, field := [], identifier := none, fold := none }).place l [13, 10]

/-- An idle store serves the one check on the list at once (R37, R58). -/
theorem State.offerCheck_only {k : Check} (hc : t.arbiter.current = none) (hw : t.arbiter.signOn = false) :
    ({ t with checks := t.checks ++ [k] } : State).offerCheck =
      ({ t with checks := t.checks ++ [k] } : State).serveCheck := by
  have hserving : t.arbiter.serving .signOn = false := by rw [Arbiter.serving, hc]
  rw [State.offerCheck, if_neg (by simp [hw, hserving])]
  dsimp only
  rw [hc]

/-- The carriage return that ends the field, where an idle store serves the check. -/
theorem State.endPass_served (hid : (s.dialog l).identifier = some n) (hn : 1 ≤ n ∧ n ≤ 65535)
    (hc : s.arbiter.current = none) (hw : s.arbiter.signOn = false) :
    ∃ t : State, s.endPass l = ({ t with
        checks := t.checks ++ [{ line := l, identifier := n, fold := foldPass (s.dialog l).field }] } : State).serveCheck ∧
      t.checks = s.checks ∧
      t.modDialog l (fun d => { d with identifier := none, fold := none }) = s.checked l := by
  refine ⟨(s.modDialog l fun d =>
    { d with phase := .checking, field := [], fold := some (foldPass (s.dialog l).field) }).place l newLine, ?_, rfl, ?_⟩
  · simp only [State.endPass, hid, Option.getD_some, if_pos hn]
    exact State.offerCheck_only (by exact hc) (by exact hw)
  · simp only [State.place, State.modUnit_modDialog, State.modDialog_modDialog, State.checked]
    rfl

/-! ## The tests -/

theorem State.endPass_unknown (hid : (s.dialog l).identifier = some n) (hn : 1 ≤ n ∧ n ≤ 65535)
    (hc : s.arbiter.current = none) (hw : s.arbiter.signOn = false) (hl : s.checks = []) (h : s.lookup n = none) :
    s.endPass l = (s.checked l).checking l .nothing .refused none := by
  obtain ⟨t, hend, hchecks, hchecked⟩ := State.endPass_served hid hn hc hw
  have hsame : ({ t with checks := [] } : State) = t := State.checks_same (hchecks.trans hl)
  have hlook : (s.checked l).lookup n = none := h
  rw [hend, State.serveCheck, hchecks, hl, List.nil_append]
  dsimp only
  rw [hsame, hchecked, hlook]
  exact rfl

/-- The state on which the tests of an account are made: its budget state is set (R50, R137). -/
def State.examined (s : State) (l : LineNo) (slot : Nat) (r : Record) : State :=
  if (s.presenceOf slot).budget.isSome then s.checked l
  else (s.checked l).setPresence slot { s.presenceOf slot with
    budget := some ((s.presenceOf slot).budget.getD (budgetStateOf (r.used + s.pendingOf slot) r.budget)), graceTimer := false }

theorem State.endPass_known (hid : (s.dialog l).identifier = some n) (hn : 1 ≤ n ∧ n ≤ 65535)
    (hc : s.arbiter.current = none) (hw : s.arbiter.signOn = false) (hl : s.checks = []) (h : s.lookup n = some slot)
    (hr : s.recordAt slot = some r) (hp : (s.presenceOf slot).budget.isSome = true ∨ (s.presenceOf slot).count = 0) :
    s.endPass l = (s.examined l slot r).checkRecord
      { line := l, identifier := n, fold := foldPass (s.dialog l).field } slot r := by
  obtain ⟨t, hend, hchecks, hchecked⟩ := State.endPass_served hid hn hc hw
  have hsame : ({ t with checks := [] } : State) = t := State.checks_same (hchecks.trans hl)
  have hlook : (s.checked l).lookup n = some slot := h
  have hrecord : (s.checked l).recordAt slot = some r := hr
  have hexamined : (s.checked l).recomputeUnset slot = s.examined l slot r :=
    State.recomputeUnset_eq (s := s.checked l) hc hrecord hp
  rw [hend, State.serveCheck, hchecks, hl, List.nil_append]
  dsimp only
  rw [hsame, hchecked, hlook]
  dsimp only
  rw [hrecord, hexamined]

end

/-- Settles O55: the check of a single caller, test by test. -/
theorem signOnCheckFollowsTheTests : Obligations.SignOnCheckFollowsTheTests := by
  unfold Obligations.SignOnCheckFollowsTheTests
  intro s l bit n h hs hph hpar hid h1 hmax hc hw hl fold t o served
  have hrow : o = .next (s.endPass l).started := by
    have hchar : exec (.characterReceived l 13 bit true) s = .next (s.passChar l 13).started := by
      rw [h.receives (.inl hs) hpar, State.takeChar, hs]
      simp only [State.dialogChar, hph]
    exact hchar
  refine ⟨fun hlook => ?_, ?_⟩
  · exact hrow.trans (congrArg (fun u : State => Host.Outcome.next u.started) (State.endPass_unknown hid ⟨h1, hmax⟩ hc hw hl hlook))
  · intro slot r hlook hr p total b seen hp
    have hseen : seen = s.examined l slot r := rfl
    have hjudge : ∀ u w out susp, seen.checkRecord { line := l, identifier := n, fold := fold } slot r =
        State.checking u l w out susp → served u w out susp := fun u w out susp heq => by
      have hserved := hrow.trans (congrArg (fun u : State => Host.Outcome.next u.started)
        (State.endPass_known hid ⟨h1, hmax⟩ hc hw hl hlook hr hp))
      rw [← hseen, heq] at hserved
      exact hserved
    clear_value served o
    have hcount : (seen.presenceOf slot).count = p.count := by
      rw [hseen, State.examined]
      split
      · rfl
      · rw [State.presenceOf_setPresence]
    have hpending : seen.pendingOf slot = s.pendingOf slot := by
      rw [hseen, State.examined]
      split <;> rfl
    refine ⟨fun hst => hjudge _ _ _ _ ?_, fun hst => ⟨fun hwrong => ⟨fun hf => hjudge _ _ _ _ ?_, fun hf => hjudge _ _ _ _ ?_⟩,
      fun hne heq => ⟨fun hlim => hjudge _ _ _ _ ?_, fun hlim => ⟨fun hex => hjudge _ _ _ _ ?_, fun hok => hjudge _ _ _ _ ?_⟩⟩⟩⟩
    · exact if_pos hst
    · have hfailed : r.failed.state = .active := by
        rw [Record.failed, if_neg (by simp only [Config.failureCap]; omega)]
        exact hst
      rw [State.checkRecord, if_neg (by rw [hst]; decide), if_pos hwrong, hfailed, Record.failed,
        if_neg (by simp only [Config.failureCap]; omega)]
      rfl
    · have hfailed : r.failed = { r with failures := 5, state := .suspended, revision := (r.revision + 2) % 65536 } := by
        rw [Record.failed, if_pos (by simp only [Config.failureCap]; omega), hf]
        rfl
      rw [State.checkRecord, if_neg (by rw [hst]; decide), if_pos hwrong, hfailed]
      rfl
    · rw [State.checkRecord, if_neg (by rw [hst]; decide), if_neg (by tauto), hcount, if_pos hlim]
      rfl
    · obtain ⟨m, hm, hle⟩ := hex
      rw [State.checkRecord, if_neg (by rw [hst]; decide), if_neg (by tauto), hcount, if_neg (by omega), hpending, hm,
        if_pos (by simp [budgetAllows]; omega)]
      rfl
    · have hallows : budgetAllows (r.used + s.pendingOf slot) r.budget = true := by
        cases hb : r.budget with
        | none => rfl
        | some m => simpa [budgetAllows] using hok m hb
      rw [State.checkRecord, if_neg (by rw [hst]; decide), if_neg (by tauto), hcount, if_neg (by omega), hpending, hallows,
        if_neg (by decide)]
      have hcalendar : seen.rating.calendar = s.rating.calendar := by
        rw [hseen, State.examined]
        split <;> rfl
      have hset : (seen.presenceOf slot).budget = some b ∧ seen.setPresence slot
          { seen.presenceOf slot with count := p.count + 1 } = t.setPresence slot
            { p with budget := some b, graceTimer := p.graceTimer && p.budget.isSome, count := p.count + 1 } := by
        cases hb : p.budget with
        | some v =>
          have hsame : seen = t := if_pos (by rw [hb]; rfl)
          have hv : b = v := by simp only [b, hb, Option.getD_some]
          have hpres : t.presenceOf slot = p := rfl
          rw [hsame, hpres, hv, ← hb]
          simp [hb]
        | none =>
          have hset : seen = t.setPresence slot { p with budget := some b, graceTimer := false } :=
            if_neg (by rw [hb]; decide)
          rw [hset, State.presenceOf_setPresence, State.setPresence_setPresence (by simp) (by simp)]
          simp
      rw [hset.2, hset.1, hcalendar]
      simp [State.serve, State.checking, Record.succeeded, bumpRevision]

end Sys2Proof.Machine
end

section
/-! The result of a sign-on check (R60 to R64). -/

namespace Sys2Proof.Machine

section
variable {s t v : State} {l : LineNo} {n : Nat} {c : ChanNo} {cs : List Code}

/-! ## A score that is lowered, beside other changes of its line -/

theorem State.lowerScore_modDialog (f : Dialog → Dialog) :
    (s.modDialog l f).lowerScore l n = (s.lowerScore l n).modDialog l f := by
  have hswap : ∀ g, (s.modDialog l f).modUnit l g = (s.modUnit l g).modDialog l f := fun g => (State.modUnit_modDialog ..).symm
  unfold State.lowerScore State.changeScore State.setHealth
  rw [State.unit_modDialog]
  dsimp only
  rw [hswap]
  split
  · rfl
  · exact (State.noticeToUp_swap _ _ _).2.1 f

theorem State.lowerScore_modCtx (f : LineContext → LineContext) :
    (s.modCtx l f).lowerScore l n = (s.lowerScore l n).modCtx l f := by
  have hswap : ∀ g, (s.modCtx l f).modUnit l g = (s.modUnit l g).modCtx l f := fun g => (State.modUnit_modCtx ..).symm
  unfold State.lowerScore State.changeScore State.setHealth
  rw [State.unit_modCtx]
  dsimp only
  rw [hswap]
  split
  · rfl
  · exact (State.noticeToUp_swap _ _ _).2.2 f

/-- Account and state of a line unit may be set before its score is lowered or after. -/
theorem State.lowerScore_signOn (account : Nat) (new : LineState) :
    (s.modUnit l fun u => { u with account := account, state := new }).lowerScore l n =
      ((s.modUnit l fun u => { u with account := account }).lowerScore l n).modUnit l fun u => { u with state := new } := by
  unfold State.lowerScore State.changeScore State.setHealth
  simp only [State.unit_modUnit]
  split
  · simp only [State.modUnit_modUnit]
  · rw [← (State.noticeToUp_swap _ _ _).1]
    simp only [State.modUnit_modUnit]

/-! ## The arbiter after the result -/

/-- The state with an idle arbiter. -/
def State.idled (s : State) : State := { s with arbiter := {} }

theorem State.noticeWhere_idled {test : State → ChanNo → Bool} (h : ∀ u c, test (State.idled u) c = test u c) (x : Notice) :
    s.idled.noticeWhere test x = (s.noticeWhere test x).idled := by
  refine List.foldl_hom State.idled fun u c => ?_
  rw [h]
  split <;> rfl

theorem State.noticeToUp_idled (x : Notice) : s.idled.noticeToUp x = (s.noticeToUp x).idled :=
  State.noticeWhere_idled (fun _ _ => rfl) x

theorem State.lowerScore_idled : s.idled.lowerScore l n = (s.lowerScore l n).idled := by
  have hunit : s.idled.unit l = s.unit l := rfl
  have hmod : ∀ f, s.idled.modUnit l f = (s.modUnit l f).idled := fun _ => rfl
  unfold State.lowerScore State.changeScore State.setHealth
  rw [hunit]
  dsimp only
  rw [hmod]
  split
  · rfl
  · exact State.noticeToUp_idled _

theorem State.lowerScore_keeps : (s.lowerScore l n).checks = s.checks ∧ (s.lowerScore l n).arbiter = s.arbiter := by
  obtain ⟨x, hx⟩ := s.setHealth_eq l ((s.unit l).score - n) (healthAfter (s.unit l).health ((s.unit l).score - n))
  rw [State.lowerScore, State.changeScore, hx]
  exact ⟨rfl, rfl⟩

/-- The arbiter while the result of a check is taken (R36). -/
def takenCheck : Access := { who := .signOn, write := .nothing, result := .taken }

/-- The state in which the result of a check is taken. -/
def State.judged (s : State) : State := { s with store := s.storeCompleted, arbiter := { current := some takenCheck } }

/-- A check completes, no other access being offered: its result is taken, and the arbiter is idle (R36, R38). -/
theorem State.completeAccess_check {w : StoreWrite} {o : CheckOutcome} {suspended : Option (Nat × Nat)} {cleared : Bool}
    (ha : s.arbiter = { current := some { who := .signOn, write := w, result := .check l o suspended cleared } })
    (hv : s.judged.checkResult l o suspended cleared = v) (hl : v.checks = []) (hb : v.arbiter = { current := some takenCheck }) :
    s.completeAccess = v.idled := by
  have hdone : ((s.modStore fun st => st.apply w).modArbiter fun b =>
      { b with current := some { who := .signOn, write := .nothing, result := .taken } }) = s.judged := by
    simp only [State.modStore, State.modArbiter, State.judged, State.storeCompleted, Arbiter.write, ha]
    rfl
  have hoffer : v.offerCheck = v := by
    rw [State.offerCheck, hl]
    rfl
  simp only [State.completeAccess, ha]
  have hidle : v.serveNext .signOn = v.modArbiter fun a => { a with current := none } := State.serveNext_idle fun q => by
    rw [hb]
    cases q with
    | chan c => simp [Arbiter.waits]
    | _ => rfl
  rw [hdone, State.takeResult, hv, hoffer, hidle, State.modArbiter, hb]
  rfl

/-! ## The notice of a suspension -/

/-- A channel after ACCOUNT SUSPENDED has been queued to those with the EDIT right on the account (R60). -/
def State.suspensionHeard (s : State) (l : LineNo) (account revision : Nat) (d : ChanNo) : Channel :=
  if (s.chan d).state = .up ∧ (s.right d account).edits = true then (s.chan d).noted (noticeSuspended account l revision)
  else s.chan d

/-- The state after a suspension, if there is one, has been told. -/
def State.suspensionTold (s : State) (l : LineNo) : Option (Nat × Nat) → State
  | none => s
  | some (account, revision) => { s with channels := Vector.ofFn (s.suspensionHeard l account revision) }

theorem State.noticeSuspended_told (account revision : Nat) :
    s.noticeWhere (fun u c => (u.chan c).state = .up ∧ (u.right c account).edits) (noticeSuspended account l revision) =
      s.suspensionTold l (some (account, revision)) := by
  have hchan := State.chan_noticeEdit s account (noticeSuspended account l revision)
  obtain ⟨x, hx⟩ := State.noticeWhere_eq s (fun u c => (u.chan c).state = .up ∧ (u.right c account).edits)
    (noticeSuspended account l revision)
  rw [hx] at hchan ⊢
  have hvec : x = Vector.ofFn (s.suspensionHeard l account revision) := by
    refine Vector.ext fun i hi => ?_
    rw [Vector.getElem_ofFn]
    exact hchan ⟨i, hi⟩
  rw [hvec]
  rfl

/-- The result of a check, but for the notice of a suspension. -/
theorem State.checkResult_told {o : CheckOutcome} {suspended : Option (Nat × Nat)} {cleared : Bool} :
    s.checkResult l o suspended cleared = (s.suspensionTold l suspended).checkResult l o none cleared := by
  cases suspended with
  | none => rfl
  | some a =>
    obtain ⟨account, revision⟩ := a
    have htold := State.noticeSuspended_told (s := s) (l := l) account revision
    cases o <;> simp only [State.checkResult, htold]

theorem State.suspensionTold_idled (suspended : Option (Nat × Nat)) :
    (s.suspensionTold l suspended).idled = s.idled.suspensionTold l suspended := by
  cases suspended <;> rfl

theorem State.suspensionTold_keeps (suspended : Option (Nat × Nat)) :
    (s.suspensionTold l suspended).checks = s.checks ∧ (s.suspensionTold l suspended).arbiter = s.arbiter ∧
      (s.suspensionTold l suspended).lines = s.lines := by
  cases suspended <;> exact ⟨rfl, rfl, rfl⟩

theorem State.suspensionTold_queues (suspended : Option (Nat × Nat)) (d : ChanNo) :
    ((s.suspensionTold l suspended).chan d).queue = (s.chan d).queue ∧
      ((s.suspensionTold l suspended).chan d).ports = (s.chan d).ports := by
  cases suspended with
  | none => exact ⟨rfl, rfl⟩
  | some a =>
    obtain ⟨account, revision⟩ := a
    have hchan : (s.suspensionTold l (some (account, revision))).chan d = s.suspensionHeard l account revision d :=
      Vector.getElem_ofFn ..
    rw [hchan, State.suspensionHeard]
    split
    · exact Channel.noted_queue_ports _ _
    · exact ⟨rfl, rfl⟩

/-! ## A refusal -/

/-- A refusal with an attempt to spare (R61). -/
theorem State.refuseAttempt_again {o : CheckOutcome} (h : 2 ≤ (s.dialog l).attempts) :
    s.refuseAttempt l o = ((s.place l ([13, 10] ++ o.text)).place l [13, 10, 73, 68, 58]).modDialog l fun d =>
      { d with phase := .ident, identifier := none, fold := none, attempts := d.attempts - 1 } := by
  have hspare : 0 < (s.dialog l).attempts - 1 := by omega
  simp only [State.refuseAttempt, if_pos hspare, State.placeLine, State.place, State.modUnit_modDialog,
    State.modDialog_modDialog, newLine]
  rfl

/-- With no check on the list there is none to withdraw (R64). -/
theorem State.withdrawCheck_taken (hl : s.checks = []) (hb : s.arbiter = { current := some takenCheck }) :
    s.withdrawCheck l = s := by
  have hkeep : s.withdrawCheck l = { s with
      checks := [], arbiter := { s.arbiter with signOn := s.arbiter.signOn && !([] : List Check).isEmpty } } := by
    rw [State.withdrawCheck, hl]
    rfl
  have hsame : ({ s.arbiter with signOn := s.arbiter.signOn && !([] : List Check).isEmpty } : Arbiter) = s.arbiter := by
    rw [hb]
    rfl
  rw [hkeep, hsame]
  exact State.checks_same hl

/-- The last refusal clears the line (R61, R64). -/
theorem State.refuseAttempt_last {o : CheckOutcome} (h : (s.dialog l).attempts ≤ 1) (hs : (s.unit l).state = .signOn)
    (hh : (s.unit l).lineHit = false) (hc : (s.dialog l).counted = none) (hx : s.ctx l = {}) (hw : s.NotWaiting l)
    (hl : s.checks = []) (hb : s.arbiter = { current := some takenCheck }) : s.refuseAttempt l o =
      ((s.place l ([13, 10] ++ o.text)).modDialog l fun d => { d.ended with attempts := 0 }).modUnit l fun u =>
        u.clearing .signOnFailed := by
  have hlast : (s.dialog l).attempts - 1 = 0 := by omega
  generalize ht : (s.placeLine l o.text).modDialog l (fun d => { d with attempts := 0, identifier := none, fold := none }) = t
  have hrefuse : s.refuseAttempt l o = t.clearLine l .signOnFailed := by
    rw [State.refuseAttempt, hlast, if_neg (Nat.lt_irrefl 0), ht]
  have hdialog : t.dialog l = { s.dialog l with attempts := 0, identifier := none, fold := none } := by
    rw [← ht, State.dialog_modDialog]
    exact congrArg (fun d : Dialog => { d with attempts := 0, identifier := none, fold := none }) (State.dialog_modUnit ..)
  have hstate : (t.unit l).state = .signOn ∧ (t.unit l).lineHit = false ∧ (t.unit l).partMsg ≠ [] := by
    rw [← ht, State.unit_modDialog]
    refine ⟨?_, ?_, State.partMsg_place_ne (by simp [newLine])⟩
    · rw [State.placeLine, State.place, State.unit_modUnit]
      exact hs
    · rw [State.placeLine, State.place, State.unit_modUnit]
      exact hh
  have hcounted : (t.dialog l).counted = none := by rw [hdialog]; exact hc
  have hctx : t.ctx l = {} := by
    rw [← ht, State.ctx_modDialog]
    exact (State.ctx_modUnit ..).trans hx
  have hwaits : t.NotWaiting l := hw.of_eq (by rw [← ht]; rfl)
  have hactive : (t.unit l).state.active = true := by rw [hstate.1]; rfl
  have hclear : t.clearLine l .signOnFailed = (t.modDialog l Dialog.ended).modUnit l fun u => u.afterClear .signOnFailed := by
    by_cases hph : (t.dialog l).phase = .checking
    · have hwithdrawn : t.withdrawCheck l = t :=
        State.withdrawCheck_taken (by rw [← ht]; exact hl) (by rw [← ht]; exact hb)
      have hserved : t.arbiter.servedCheck l = false := by
        rw [show t.arbiter = { current := some takenCheck } by rw [← ht]; exact hb]
        rfl
      exact State.clearLine_controller hactive (fun g => by
        rw [State.signOnClear_withdraws hph hcounted hserved, hwithdrawn])
        (by rw [State.ctx_modDialog, hctx]) (hwaits.of_eq rfl) (by rw [State.unit_modDialog])
    · exact State.clearLine_typing hactive hctx hwaits hph hcounted
  rw [hrefuse, hclear, State.modUnit_congr (g := fun u => u.clearing .signOnFailed) (by
    rw [State.unit_modDialog]
    exact if_neg (by simp [hstate.2.1, hstate.2.2])), ← ht, State.modDialog_modDialog]
  rfl

/-! ## A success -/

theorem State.signOnComplete_eq (hs : (s.unit l).state = .signOn) (account : Nat) (new : LineState) :
    s.signOnComplete l account new = (s.modUnit l fun u => { u with account := account, state := new }).lowerScore l 8 :=
  (if_pos hs).trans (State.lowerScore_signOn account new).symm

/-- What a caller is told as the sign-on succeeds (R62). -/
def State.greeted (s : State) (l : LineNo) (account : Nat) (warned : Bool) : State :=
  if warned then (s.place l ([13, 10] ++ (text "SIGNED ON " ++ decimal account))).place l ([13, 10] ++ text "BUDGET 90% USED")
  else s.place l ([13, 10] ++ (text "SIGNED ON " ++ decimal account))

theorem State.unit_place (cs : List Code) : ((s.place l cs).unit l).state = (s.unit l).state ∧
    ((s.place l cs).unit l).speed = (s.unit l).speed := by
  rw [State.place, State.unit_modUnit]
  exact ⟨rfl, rfl⟩

theorem State.greeted_unit (account : Nat) (warned : Bool) : ((s.greeted l account warned).unit l).state = (s.unit l).state ∧
    ((s.greeted l account warned).unit l).speed = (s.unit l).speed := by
  unfold State.greeted
  split
  · exact ⟨State.unit_place _ |>.1.trans (State.unit_place _).1, State.unit_place _ |>.2.trans (State.unit_place _).2⟩
  · exact State.unit_place _

theorem State.greeted_frame (account : Nat) (warned : Bool) :
    ∃ x, s.greeted l account warned = { s with lines := x } ∧ (s.greeted l account warned).ctx l = s.ctx l := by
  unfold State.greeted
  split
  · exact ⟨_, rfl, by simp only [State.place, State.ctx_modUnit]⟩
  · exact ⟨_, rfl, by simp only [State.place, State.ctx_modUnit]⟩

/-- A line whose sign-on is complete, as its switch first knows it (R62). -/
def State.known (s : State) (l : LineNo) (so : SignOnRecord) : State :=
  (s.modDialog l fun d => { d with timer := false }).modCtx l fun x => { x with signOn := some so, units := 0 }

/-- A line that enters COMMAND from its sign-on (R63, R72). -/
def State.enters (s : State) (l : LineNo) (account : Nat) (so : SignOnRecord) : State :=
  ((((s.modUnit l fun x => { x with account := account, state := .command }).modDialog l fun d =>
      { d with phase := .none, timer := false }).modCtx l fun y =>
    { y with signOn := some so, units := 0, field := [], idleTimer := true }).lowerScore l 8).place l [13, 10, 62]

/-- A line that enters WAITING from its sign-on (R63). -/
def State.seeks (s : State) (l : LineNo) (account : Nat) (so : SignOnRecord) : State :=
  (((s.modUnit l fun x => { x with account := account, state := .waiting }).modDialog l fun d =>
      { d with phase := .none, timer := false }).modCtx l fun y => { y with signOn := some so, units := 0 }).lowerScore l 8

theorem State.known_signOnToCommand {account : Nat} {so : SignOnRecord} (hs : (s.unit l).state = .signOn) :
    (s.known l so).signOnToCommand l account = s.enters l account so := by
  have hstate : (((s.known l so).modDialog l fun d => { d with phase := .none }).unit l).state = .signOn := by
    rw [State.unit_modDialog, State.known, State.unit_modCtx, State.unit_modDialog, hs]
  rw [State.signOnToCommand, State.signOnComplete_eq hstate, State.enterPrompt, State.prompt, ← State.lowerScore_modCtx,
    State.known, State.enters]
  simp only [State.modUnit_modDialog, State.modUnit_modCtx, State.modDialog_modCtx, State.modDialog_modDialog,
    State.modCtx_modCtx]
  rfl

theorem State.known_handover {account : Nat} {so : SignOnRecord} {cs : List Code} (hs : (s.unit l).state = .signOn) :
    ((((s.known l so).modDialog l fun d => { d with phase := .handover }).placeLine l cs).signOnToCommand l account) =
      (s.place l ([13, 10] ++ cs)).enters l account so := by
  rw [← State.known_signOnToCommand ((State.unit_place _).1.trans hs)]
  simp only [State.signOnToCommand, State.known, State.placeLine, State.place, State.modUnit_modDialog,
    State.modUnit_modCtx, State.modDialog_modCtx, State.modDialog_modDialog]
  rfl

theorem State.known_waits {account : Nat} {so : SignOnRecord} (hs : (s.unit l).state = .signOn) :
    ((((s.known l so).modDialog l fun d => { d with phase := .handover }).signOnComplete l account .waiting).modDialog l
      fun d => { d with phase := .none }) = s.seeks l account so := by
  have hstate : (((s.known l so).modDialog l fun d => { d with phase := .handover }).unit l).state = .signOn := by
    rw [State.unit_modDialog, State.known, State.unit_modCtx, State.unit_modDialog, hs]
  rw [State.signOnComplete_eq hstate, ← State.lowerScore_modDialog, State.known, State.seeks]
  simp only [State.modUnit_modDialog, State.modUnit_modCtx, State.modDialog_modCtx, State.modDialog_modDialog]

/-- The start of a success, whatever the account's home host (R62). -/
theorem State.greeted_known {account : Nat} {warned : Bool} {so : SignOnRecord} :
    (if warned then ((s.modDialog l fun d => { d with timer := false }).placeLine l (text "SIGNED ON " ++ decimal account)).placeLine
        l (text "BUDGET 90% USED")
      else (s.modDialog l fun d => { d with timer := false }).placeLine l (text "SIGNED ON " ++ decimal account)).modCtx l
      (fun x => { x with signOn := some so, units := 0 }) = (s.greeted l account warned).known l so := by
  cases warned with
  | true =>
    rw [if_pos rfl, State.greeted, if_pos rfl]
    simp only [State.placeLine, State.place, State.known, State.modUnit_modDialog]
    rfl
  | false =>
    rw [if_neg (by decide), State.greeted, if_neg (by decide)]
    simp only [State.placeLine, State.place, State.known, State.modUnit_modDialog]
    rfl

section
variable {account slot cls : Nat} {warned : Bool} {so : SignOnRecord}

theorem State.succeed_none (hs : (s.unit l).state = .signOn)
    (hso : so = { account := account, slot := slot, effClass := min cls (s.group l).classCap }) :
    s.succeed l account slot cls none warned = (s.greeted l account warned).enters l account so := by
  have hrun : s.succeed l account slot cls none warned =
      ((s.greeted l account warned).known l so).signOnToCommand l account := by
    rw [← State.greeted_known, hso]
    rfl
  rw [hrun, State.known_signOnToCommand ((State.greeted_unit ..).1.trans hs)]

/-- The connect checks read the session stack and the speed of a line, and nothing else of it (R89). -/
theorem State.connectChecks_lines {x : Vector Line 64} (hstack : (({ s with lines := x } : State).ctx l).stack = (s.ctx l).stack)
    (hspeed : (({ s with lines := x } : State).unit l).speed = (s.unit l).speed) :
    (s.ConnectRefused l c so cs → ({ s with lines := x } : State).ConnectRefused l c so cs) ∧
      (s.MayConnect l c so → ({ s with lines := x } : State).MayConnect l c so) := by
  constructor
  · intro h
    simp only [State.ConnectRefused, hstack, hspeed]
    exact h
  · intro h
    exact ⟨h.up, h.hosts, h.right, h.cls, h.budget, by rw [hstack]; exact h.stack, by rw [hspeed]; exact h.tariff⟩

/-- A caller who has been greeted, at the connect checks (R63). -/
theorem State.greeted_handover :
    ∃ x, (((s.greeted l account warned).known l so).modDialog l fun d => { d with phase := .handover }) =
        { s with lines := x } ∧
      (({ s with lines := x } : State).ctx l).stack = (s.ctx l).stack ∧
      (({ s with lines := x } : State).ctx l).signOn = some so ∧
      (({ s with lines := x } : State).unit l).speed = (s.unit l).speed := by
  obtain ⟨y, hy, hctx⟩ := s.greeted_frame (l := l) account warned
  have hunit := (s.greeted_unit (l := l) account warned).2
  have hframe : ∃ x, (((s.greeted l account warned).known l so).modDialog l fun d => { d with phase := .handover }) =
      { s with lines := x } := by
    rw [hy]
    exact ⟨_, rfl⟩
  obtain ⟨x, hx⟩ := hframe
  refine ⟨x, hx, ?_, ?_, ?_⟩
  · rw [← hx, State.ctx_modDialog, State.known, State.ctx_modCtx, State.ctx_modDialog, hctx]
  · rw [← hx, State.ctx_modDialog, State.known, State.ctx_modCtx]
  · rw [← hx, State.unit_modDialog, State.known, State.unit_modCtx, State.unit_modDialog, hunit]

theorem State.succeed_refused (hs : (s.unit l).state = .signOn)
    (hso : so = { account := account, slot := slot, effClass := min cls (s.group l).classCap })
    (hr : s.ConnectRefused l c so cs) :
    s.succeed l account slot cls (some c) warned = ((s.greeted l account warned).place l ([13, 10] ++ cs)).enters l account so := by
  obtain ⟨x, hx, hstack, hsign, hspeed⟩ := s.greeted_handover (l := l) (account := account) (warned := warned) (so := so)
  have hrefusal := State.connectRefusal_refused hsign ((State.connectChecks_lines hstack hspeed).1 hr)
  rw [← State.known_handover ((State.greeted_unit ..).1.trans hs)]
  have hknown := State.greeted_known (s := s) (l := l) (account := account) (warned := warned) (so := so)
  rw [← hx, ← hknown] at hrefusal
  rw [← hknown]
  unfold State.succeed
  rw [← hso]
  simp only [hrefusal]

theorem State.succeed_goes (hs : (s.unit l).state = .signOn)
    (hso : so = { account := account, slot := slot, effClass := min cls (s.group l).classCap })
    (hm : s.MayConnect l c so) :
    s.succeed l account slot cls (some c) warned = ((s.greeted l account warned).seeks l account so).wayTo l c := by
  obtain ⟨x, hx, hstack, hsign, hspeed⟩ := s.greeted_handover (l := l) (account := account) (warned := warned) (so := so)
  have haccepted := ((State.connectChecks_lines (cs := []) hstack hspeed).2 hm).accepted hsign
  rw [← State.known_waits ((State.greeted_unit ..).1.trans hs)]
  have hknown := State.greeted_known (s := s) (l := l) (account := account) (warned := warned) (so := so)
  rw [← hx, ← hknown] at haccepted
  rw [← hknown]
  unfold State.succeed
  rw [← hso]
  simp only [haccepted]

end

end

/-- No access writes the rights of the channels (R36, R43). -/
theorem Store.apply_chanConfig (st : Store) (w : StoreWrite) : (st.apply w).chanConfig = st.chanConfig := by
  cases w <;> rfl

theorem State.right_completed {s : State} (d : ChanNo) (account : Nat) : s.judged.idled.right d account = s.right d account := by
  have hconfig : s.storeCompleted.chanConfig = s.store.chanConfig := Store.apply_chanConfig ..
  show (if s.setup then Right.both else (s.storeCompleted.chanConfig.get d).right account) = _
  rw [hconfig]
  rfl

theorem State.group_completed {s : State} (l : LineNo) : s.judged.group l = s.group l := by
  have hconfig : ∀ w : StoreWrite, (s.store.apply w).groupConfig = s.store.groupConfig := fun w => by cases w <;> rfl
  have hstore : s.storeCompleted.groupConfig = s.store.groupConfig := hconfig _
  show s.storeCompleted.groupConfig.get _ = _
  rw [hstore]
  rfl

section
variable {s : State} {l : LineNo} {account : Nat} {so : SignOnRecord} {warned : Bool} {c : ChanNo} {p : Nat}

theorem State.greeted_idled : (s.greeted l account warned).idled = s.idled.greeted l account warned := by
  unfold State.greeted
  split <;> rfl

theorem State.enters_idled : (s.enters l account so).idled = s.idled.enters l account so := by
  rw [State.enters, State.enters]
  exact congrArg (fun u : State => u.place l [13, 10, 62]) State.lowerScore_idled.symm

theorem State.seeks_idled : (s.seeks l account so).idled = s.idled.seeks l account so :=
  State.lowerScore_idled.symm

theorem State.enters_keeps : (s.enters l account so).checks = s.checks ∧ (s.enters l account so).arbiter = s.arbiter :=
  ⟨State.lowerScore_keeps.1, State.lowerScore_keeps.2⟩

theorem State.greeted_keeps : (s.greeted l account warned).checks = s.checks ∧
    (s.greeted l account warned).arbiter = s.arbiter := by
  obtain ⟨x, hx, -⟩ := s.greeted_frame (l := l) account warned
  rw [hx]
  exact ⟨rfl, rfl⟩

theorem State.modPort_idled (g : Port → Port) : (s.modPort c p g).idled = s.idled.modPort c p g := by
  have hport : s.idled.port? c p = s.port? c p := rfl
  unfold State.modPort
  rw [hport]
  split <;> rfl

/-- A line that seeks a way to a channel (R63): what its way depends on. -/
theorem State.seeks_frame : (s.seeks l account so).checks = s.checks ∧ (s.seeks l account so).arbiter = s.arbiter ∧
    (s.seeks l account so).store = s.store ∧ (∀ d, ((s.seeks l account so).chan d).queue = (s.chan d).queue ∧
      ((s.seeks l account so).chan d).ports = (s.chan d).ports) ∧
    ((s.seeks l account so).ctx l).signOn = some so ∧ ((s.seeks l account so).unit l).state = .waiting ∧
    ((s.seeks l account so).unit l).speed = (s.unit l).speed := by
  obtain ⟨hchecks, harbiter⟩ := State.lowerScore_keeps (s := ((s.modUnit l fun x =>
    { x with account := account, state := .waiting }).modDialog l fun d => { d with phase := .none, timer := false }).modCtx l
      fun y => { y with signOn := some so, units := 0 }) (l := l) (n := 8)
  refine ⟨hchecks, harbiter, ?_, fun d => State.queue_ports_setHealth _ _ _ _ d, ?_, ?_, ?_⟩
  · obtain ⟨x, hx⟩ := State.setHealth_eq (((s.modUnit l fun x =>
      { x with account := account, state := .waiting }).modDialog l fun d => { d with phase := .none, timer := false }).modCtx
        l fun y => { y with signOn := some so, units := 0 }) l _ _
    exact (congrArg State.store hx).trans rfl
  · rw [State.seeks, State.lowerScore, State.changeScore, State.ctx_setHealth, State.ctx_modCtx]
  · rw [State.seeks, State.lowerScore, State.changeScore, State.unit_setHealth, State.unit_modCtx, State.unit_modDialog,
      State.unit_modUnit]
  · rw [State.seeks, State.lowerScore, State.changeScore, State.unit_setHealth, State.unit_modCtx, State.unit_modDialog,
      State.unit_modUnit]

end

/-- Settles O56: a refusal, a success, and the result for a line that has cleared. -/
theorem signOnResultsAreTaken : Obligations.SignOnResultsAreTaken := by
  unfold Obligations.SignOnResultsAreTaken
  intro s l w hp hl at_ t r hears told
  have hrun : r = .next s.completeAccess.started := exec_on hp rfl rfl
  have ht : t = s.judged.idled := rfl
  have htold : ∀ suspended, told suspended = (s.judged.suspensionTold l suspended).idled := fun suspended => by
    rw [State.suspensionTold_idled]
    cases suspended with
    | none => rfl
    | some a =>
      obtain ⟨account, revision⟩ := a
      have hheard : s.judged.idled.suspensionHeard l account revision = hears account revision := funext fun d => by
        have hright : s.judged.idled.right d account = s.right d account := State.right_completed d account
        rw [State.suspensionHeard, hright]
        rfl
      exact congrArg (fun x => ({ t with channels := Vector.ofFn x } : State)) hheard.symm
  have hdone : ∀ o suspended cleared v, at_ o suspended cleared →
      (s.judged.suspensionTold l suspended).checkResult l o none cleared = v → v.checks = s.judged.checks →
      v.arbiter = s.judged.arbiter → r = .next v.idled.started := fun o suspended cleared v ha hv hc hb => by
    rw [hrun, State.completeAccess_check (v := v) ha (State.checkResult_told.trans hv) (hc.trans hl) hb]
  clear_value r told
  refine ⟨?_, ?_, ?_⟩
  · intro o cs suspended hcs
    have htext : o.text = cs := by
      rcases hcs with ⟨rfl, rfl⟩ | ⟨rfl, rfl⟩ | ⟨rfl, rfl⟩ <;> rfl
    obtain ⟨hkc, hka, hkl⟩ := s.judged.suspensionTold_keeps (l := l) suspended
    have hresult : ∀ v : State, v.checkResult l o none false = v.refuseAttempt l o ∧ v.checkResult l o none true = v := by
      rcases hcs with ⟨rfl, rfl⟩ | ⟨rfl, rfl⟩ | ⟨rfl, rfl⟩ <;> exact fun _ => ⟨rfl, rfl⟩
    have hdialog : (s.judged.suspensionTold l suspended).dialog l = s.dialog l := by
      rw [State.dialog, State.line_of_lines hkl]
      rfl
    have hline : (s.judged.suspensionTold l suspended).line l = s.line l := State.line_of_lines hkl l
    have hwaits : s.NotWaiting l → (s.judged.suspensionTold l suspended).NotWaiting l := fun h =>
      State.NotWaiting.of_queues (s := s) h (State.suspensionTold_queues suspended)
    have hend := hdone o suspended
    rw [htold]
    generalize s.judged.suspensionTold l suspended = v at *
    refine ⟨fun ha => ⟨fun hmore => ?_, fun hlast hs hh hc hx hw => ?_⟩, fun ha => hend true v ha (hresult v).2 hkc hka⟩
    · rw [← htext, hend false _ ha ((hresult v).1.trans (State.refuseAttempt_again (by rw [hdialog]; exact hmore))) hkc hka]
      rfl
    · rw [← htext, hend false _ ha ((hresult v).1.trans (State.refuseAttempt_last (by rw [hdialog]; exact hlast)
        (by rw [State.unit, hline]; exact hs) (by rw [State.unit, hline]; exact hh) (by rw [hdialog]; exact hc)
        (by rw [State.ctx, hline]; exact hx) (hwaits hw) (hkc.trans hl) hka)) hkc hka]
      rfl
  · intro account slot cls home warned ha hs so shown told entered waits
    have hso : so = { account := account, slot := slot, effClass := min cls (s.judged.group l).classCap } := by
      rw [State.group_completed]
    have htold : told = (s.judged.greeted l account warned).idled := by
      rw [State.greeted_idled]
      rfl
    have hentered : ∀ u : State, entered u = u.enters l account so := fun _ => rfl
    have hwaits : waits = (s.judged.greeted l account warned |>.seeks l account so).idled := by
      rw [State.seeks_idled, ← htold]
      rfl
    have hend : ∀ v, s.judged.succeed l account slot cls home warned = v → v.checks = s.judged.checks →
        v.arbiter = s.judged.arbiter → r = .next v.idled.started := fun v hv =>
      hdone (.success account slot cls home warned) none false v ha hv
    obtain ⟨gchecks, garbiter⟩ := State.greeted_keeps (s := s.judged) (l := l) (account := account) (warned := warned)
    have hunit : ((s.judged.greeted l account warned).unit l).state = .signOn := (State.greeted_unit ..).1.trans hs
    clear_value so told entered waits
    refine ⟨fun hhome => ?_, fun c hhome => ⟨fun cs hr => ?_, fun hm => ?_⟩⟩
    · subst hhome
      obtain ⟨ec, ea⟩ := State.enters_keeps (s := s.judged.greeted l account warned) (l := l) (account := account) (so := so)
      rw [hend _ (State.succeed_none hs hso) (ec.trans gchecks) (ea.trans garbiter), hentered, htold, State.enters_idled]
    · subst hhome
      obtain ⟨ec, ea⟩ := State.enters_keeps (s := (s.judged.greeted l account warned).place l ([13, 10] ++ cs)) (l := l)
        (account := account) (so := so)
      rw [hend _ (State.succeed_refused hs hso (by exact hr)) (ec.trans gchecks) (ea.trans garbiter), hentered, htold,
        State.enters_idled]
      rfl
    · subst hhome
      have hgoes := State.succeed_goes (warned := warned) (s := s.judged) hs hso (c := c)
        ⟨hm.up, hm.hosts, hm.right, hm.cls, hm.budget, hm.stack, hm.tariff⟩
      obtain ⟨sc, sa, sstore, squeue, ssign, sstate, sspeed⟩ := State.seeks_frame
        (s := s.judged.greeted l account warned) (l := l) (account := account) (so := so)
      obtain ⟨x, hx, -⟩ := s.judged.greeted_frame (l := l) account warned
      have hqueue : ∀ d, (((s.judged.greeted l account warned).seeks l account so).chan d).queue = (s.chan d).queue ∧
          (((s.judged.greeted l account warned).seeks l account so).chan d).ports = (s.chan d).ports := fun d => by
        refine ⟨(squeue d).1.trans ?_, (squeue d).2.trans ?_⟩
        · rw [hx]
          rfl
        · rw [hx]
          rfl
      have hnumber : ((s.judged.greeted l account warned).seeks l account so).accountOf slot = t.accountOf slot := by
        have hstore : ((s.judged.greeted l account warned).seeks l account so).store = t.store := by
          rw [sstore, hx]
          rfl
        rw [State.accountOf, State.recordAt, hstore]
        rfl
      have hspeed : (((s.judged.greeted l account warned).seeks l account so).unit l).speed = (s.unit l).speed :=
        sspeed.trans (State.greeted_unit ..).2
      have hchecks := sc.trans gchecks
      have harbiter := sa.trans garbiter
      have hcls : so.slot = slot := by rw [hso]
      generalize (s.judged.greeted l account warned).seeks l account so = v at *
      have hport : ∀ q, v.port? c q = s.port? c q := fun q => by
        rw [State.port?, (hqueue c).2]
        rfl
      refine ⟨fun p y hy hf hlow => ?_, fun hbusy a b hq hca hcb => ?_⟩
      · have hy' := (hport p).trans hy
        have hway : v.wayTo l c = _ := (State.wayTo_port ssign (State.freePort_lowest hy' hf fun q z hq hz =>
          hlow q z hq ((hport q).symm.trans hz))).trans (State.openPort_eq hy' so.slot so.effClass)
        rw [hcls, hnumber, hspeed] at hway
        have hkeeps : (v.wayTo l c).checks = v.checks ∧ (v.wayTo l c).arbiter = v.arbiter := by
          rw [hway, State.modPort_some hy']
          exact ⟨rfl, rfl⟩
        rw [hend _ hgoes (hkeeps.1.trans hchecks) (hkeeps.2.trans harbiter), hway, hwaits, ← State.modPort_idled]
        rfl
      · have hway := State.wayTo_queue ssign (State.freePort_none fun p y hy => hbusy p y ((hport p).symm.trans hy)) sstate
          ((hqueue c).1.trans hq) hca hcb
        rw [hend _ (hgoes.trans hway) hchecks harbiter, hwaits, hcls]
        rfl
  · intro account slot cls home warned ha hc hg
    have hdown : s.judged.uncount l = (s.judged.modDialog l fun d => { d with counted := none }).setPresence slot
        { s.presenceOf slot with count := (s.presenceOf slot).count - 1 } := by
      have hcounted : (s.judged.dialog l).counted = some slot := hc
      rw [State.uncount, hcounted]
      dsimp only
      rw [State.presenceDown]
      exact if_neg fun h => hg h.2
    rw [hdone _ none true _ ha hdown rfl rfl]
    rfl

end Sys2Proof.Machine
end

section
/-! Data blocks from the computer, and the draining of a port's output (R81 to R84, R179). -/

namespace Sys2Proof.Machine

/-! ## An indication joins the waiting blocks -/

theorem DataBlock.not_ready {b : DataBlock} {p : Nat} (h : b.port = p → b.chars = []) : b.ready p = false := by
  unfold DataBlock.ready
  by_cases hp : b.port = p
  · simp [hp, h hp]
  · simp [hp]

/-- An indication passes the blocks that carry no characters for its port (R81, R82). -/
theorem withIndication_passes {p : Nat} {i : Indication} {rest : List DataBlock} : ∀ {a : List DataBlock},
    (∀ b ∈ a, b.port = p → b.chars = []) → withIndication p i (a ++ rest) = a ++ withIndication p i rest
  | [], _ => rfl
  | b :: a, h => by
    have hready : b.ready p = false := DataBlock.not_ready (h b (List.mem_cons_self ..))
    rw [List.cons_append, withIndication, if_neg (by simp [hready]),
      withIndication_passes fun k hk => h k (List.mem_cons_of_mem _ hk)]
    rfl

theorem withIndication_joins {p : Nat} {i : Indication} {before after : List DataBlock}
    (h : Joins p (fun b => b.mark i) (fun b => b.opposes i) before after) : withIndication p i before = after := by
  rcases h with ⟨hnone, rfl⟩ | ⟨a, b, d, rfl, hpass, hp, hc, hno, rfl⟩
  · have hpasses := withIndication_passes (i := i) (rest := []) hnone
    rwa [List.append_nil] at hpasses
  · have hready : b.ready p = true := by simp [DataBlock.ready, hp, hc]
    have hany : (b :: d).any (fun x => x.port = p && x.opposes i) = false := by
      rw [List.any_eq_false]
      intro k hk
      by_cases hkp : k.port = p
      · simp [hkp, hno k hk hkp]
      · simp [hkp]
    rw [withIndication_passes hpass, withIndication, if_pos (by rw [hready, hany]; rfl)]

/-! ## A data block for a BOUND port -/

section
variable {s : State} {c : ChanNo} {p : Nat} {x : Port} {g : Flow} {l : LineNo}

/-- The flow state of a BOUND port replaced. -/
def State.flowed (s : State) (c : ChanNo) (p : Nat) (g : Flow) : State := s.modPort c p fun y => { y with flow := some g }

theorem State.port_afterFrame (q : Nat) : (s.afterFrame c).port? c q = s.port? c q := by
  rw [State.port?, State.afterFrame, State.chan_modChan_self]
  rfl

theorem State.dataOut_flowed (hx : s.port? c p = some x) (k : Flow) : ((s.flowed c p k).chan c).dataOut = (s.chan c).dataOut := by
  rw [State.flowed, State.modPort_some hx, State.chan_modChan_self]

theorem State.modFlow_flowed (hx : s.port? c p = some x) (hg : x.flow = some g) (f : Flow → Flow) :
    s.modFlow c p f = s.flowed c p (f g) := State.modFlow_eq hx hg f

theorem State.receiveBlock_discarded {ind : Byte} {port len : BitVec 16} {chars : List Byte}
    (h : len.toNat ≠ chars.length ∨ 256 < chars.length ∨ ∀ x, s.port? c port.toNat = some x → x.state ≠ .bound) :
    s.receiveBlock c ind port len chars = s.afterFrame c := by
  rw [State.receiveBlock, State.heard_eq]
  refine if_neg fun hok => ?_
  obtain ⟨hfits, hbound⟩ := Bool.and_eq_true_iff.1 hok
  simp only [blockFits, Bool.and_eq_true, decide_eq_true_eq] at hfits
  rcases h with h | h | h
  · exact h hfits.1
  · omega
  · obtain ⟨x, hx, hst⟩ := (Option.any_eq_true _ _).1 hbound
    exact h x hx (of_decide_eq_true hst)

theorem State.receiveBlock_taken {ind : Byte} {port len : BitVec 16} {chars : List Byte} (hlen : len.toNat = chars.length)
    (hmax : chars.length ≤ 256) (hx : s.port? c port.toNat = some x) (hb : x.state = .bound) :
    s.receiveBlock c ind port len chars = (s.afterFrame c).takeBlock c port.toNat ind (codesOf chars) := by
  rw [State.receiveBlock, State.heard_eq, if_pos]
  simp [blockFits, hlen, hmax, hx, hb]

/-- A block that does not end a host stop, or at whose port nobody is LIVE, only sets the flow state and fills the output
buffer (R81). -/
theorem State.takeBlock_plain {ind : Byte} {cs : List Code} (hx : s.port? c p = some x) (hg : x.flow = some g)
    (h : hostStopAfter ind g.hostStop = true ∨ g.hostStop = false ∨ s.liveLine c p = none) :
    s.takeBlock c p ind cs =
      cs.foldl (fun v y => v.placeOutput c p y) (s.flowed c p { g with hostStop := hostStopAfter ind g.hostStop }) := by
  have hstop : s.hostStopped c p = g.hostStop := State.hostStopped_eq (State.flow_of_port hx hg)
  rw [State.takeBlock, State.modFlow_flowed hx hg, hstop]
  rcases h with h | h | h
  · rw [h, if_neg (by simp)]
  · rw [h, if_neg (by simp)]
  · rw [h]
    split <;> rfl

theorem chunks_one {cs : List Code} (hne : cs ≠ []) (hlen : cs.length ≤ 32) : chunks 32 cs.length cs = [cs] := by
  obtain ⟨y, ys, rfl⟩ := List.exists_cons_of_ne_nil hne
  rw [List.length_cons, chunks, List.take_of_length_le hlen, List.drop_of_length_le hlen]
  cases ys.length <;> rfl

/-- The end of a host stop sends what the LIVE line holds (R83). -/
theorem State.takeBlock_released {ind : Byte} {e : Session} (hx : s.port? c p = some x) (hg : x.flow = some g)
    (hstop : g.hostStop = true) (hind : hostStopAfter ind true = false) (hl : x.line = some l)
    (hs : (s.unit l).state = .connected) (he : s.liveSession l = some e) (hc : e.channel = c) (hp : e.port = p)
    (hne : (s.unit l).input ≠ []) (hlen : (s.unit l).input.length ≤ 32) :
    s.takeBlock c p ind [] =
      (((s.flowed c p { g with hostStop := false }).modUnit l fun u => { u with input := [] }).modCtx l fun y =>
        { y with forwardTimer := false }).modChan c fun ch =>
          { ch with dataOut := ch.dataOut ++ [{ port := p, chars := (s.unit l).input }] } := by
  have hstopped : s.hostStopped c p = true := (State.hostStopped_eq (State.flow_of_port hx hg)).trans hstop
  have hlive : s.liveLine c p = some l := by
    rw [State.liveLine, hx, Option.bind_some, hl]
    simp [hs, he, hc, hp]
  have hunit : (s.flowed c p { g with hostStop := false }).unit l = s.unit l := State.unit_modPort ..
  rw [State.takeBlock, State.modFlow_flowed hx hg, hstopped, hstop, hind, if_pos (by rfl), hlive]
  dsimp only
  rw [State.sendHeldInput, hunit, Config.forwardAt, chunks_one hne hlen]
  rfl

/-! ## Single characters -/

/-- The character that brings a buffer to 192 (R81). -/
theorem State.placeOutput_stop {y : Code} {bs : List DataBlock} (hx : s.port? c p = some x) (hg : x.flow = some g)
    (hlen : g.output.length = 191) (hno : g.stopSent = false)
    (hj : Joins p (fun b => { b with stop := true }) (·.start) (s.chan c).dataOut bs) :
    s.placeOutput c p y = (s.flowed c p { g with output := g.output ++ [y], stopSent := true }).modChan c fun ch =>
      { ch with dataOut := bs } := by
  have hx' : (s.flowed c p { g with output := g.output ++ [y] }).port? c p =
      some { x with flow := some { g with output := g.output ++ [y] } } := State.port_flowed hx _
  rw [State.placeOutput, State.flow_of_port hx hg]
  dsimp only
  rw [hlen, if_neg (by decide), hno, if_pos (by decide), State.modFlow_flowed hx hg, State.modFlow_flowed hx' rfl,
    State.flowed, State.flowed, State.flowed_flowed hx, State.indicate]
  refine State.modChan_congr ?_
  have hout := State.dataOut_flowed hx { g with output := g.output ++ [y], stopSent := true }
  rw [← withIndication_joins (i := .stop) hj, ← hout]
  rfl

/-- A character that finds the buffer full and OVERRUN not yet said (R81). -/
theorem State.placeOutput_overrun {y : Code} {bs : List DataBlock} (hx : s.port? c p = some x) (hg : x.flow = some g)
    (hfull : 256 ≤ g.output.length) (hno : g.overrun = false)
    (hj : Joins p (fun b => { b with overrun := true }) (fun _ => false) (s.chan c).dataOut bs) :
    s.placeOutput c p y = (s.flowed c p { g with overrun := true }).modChan c fun ch => { ch with dataOut := bs } := by
  rw [State.placeOutput, State.flow_of_port hx hg]
  dsimp only
  rw [if_pos hfull, hno, if_neg (by decide), State.modFlow_flowed hx hg, State.indicate]
  refine State.modChan_congr ?_
  have hout := State.dataOut_flowed hx { g with overrun := true }
  rw [← withIndication_joins (i := .overrun) hj, ← hout]

theorem State.placeOutput_lost {y : Code} (hx : s.port? c p = some x) (hg : x.flow = some g)
    (hfull : 256 ≤ g.output.length) (ho : g.overrun = true) : s.placeOutput c p y = s := by
  rw [State.placeOutput, State.flow_of_port hx hg]
  dsimp only
  rw [if_pos hfull, ho, if_pos rfl]

/-! ## Draining -/

/-- The turns of all lines, where only one has something to start (R11). -/
theorem State.started_only (h : ∀ k, k ≠ l → s.Rests k) : s.started = s.startNext l := by
  have hrest : ∀ (ls : List LineNo) (t : State), (∀ k ∈ ls, t.Rests k) → ls.foldl State.startNext t = t := fun ls t ht => by
    induction ls with
    | nil => rfl
    | cons k ls ih =>
      rw [List.foldl_cons, (ht k (List.mem_cons_self ..)).startNext]
      exact ih fun j hj => ht j (List.mem_cons_of_mem _ hj)
  obtain ⟨before, after, hsplit⟩ := List.append_of_mem (List.mem_finRange l : l ∈ allLines)
  have hnodup : (before ++ l :: after).Nodup := hsplit ▸ List.nodup_finRange 64
  have hb : l ∉ before := fun h => (List.nodup_append.1 hnodup).2.2 l h l (List.mem_cons_self ..) rfl
  have ha : l ∉ after := (List.nodup_cons.1 (List.nodup_append.1 hnodup).2.1).1
  rw [State.started, allLines, hsplit, List.foldl_append, List.foldl_cons,
    hrest before s fun k hk => h k fun e => hb (e ▸ hk)]
  exact hrest after _ fun k hk => (s.turn_startNext.awaits fun e : k = l => ha (e ▸ hk)).rests (h k fun e => ha (e ▸ hk))

/-- The oldest character of the LIVE port's output is started (R82). -/
theorem State.startOutput_eq {e : Session} {y : Code} {rest : List Code} (he : s.liveSession l = some e)
    (hx : s.port? e.channel e.port = some x) (hg : x.flow = some g) (ho : g.output = y :: rest) :
    s.startOutput l =
      (let t := (s.flowed e.channel e.port { g with
          output := rest, stopSent := g.stopSent && !(g.stopSent && rest.length = 64) }).modUnit l fun u =>
        { u with sending := some (s.framed l y) }
       if g.stopSent && rest.length = 64 then t.indicate e.channel e.port .start else t) := by
  rw [State.startOutput, he]
  dsimp only
  rw [State.flow_of_port hx hg]
  dsimp only
  rw [ho]
  dsimp only
  rw [State.modFlow_flowed hx hg]

end

/-- Settles O60: what a data block does, and how the LIVE line drains the port. -/
theorem dataBlocksReachTheTerminal : Obligations.DataBlocksReachTheTerminal := by
  unfold Obligations.DataBlocksReachTheTerminal
  intro s c hp heard sent flowed waiting
  refine ⟨fun bytes => exec_on hp rfl (State.heard_eq ..), fun ind port len chars => ?_, ?_⟩
  · intro r p
    have hrun : r = .next (s.receiveBlock c ind port len chars).started := exec_on hp rfl rfl
    clear_value r
    refine ⟨fun hbad => by rw [hrun, State.receiveBlock_discarded hbad], fun hlen hmax x g hx hb hg => ?_⟩
    have hhx : heard.port? c p = some x := (State.port_afterFrame p).trans hx
    have htaken : r = .next (heard.takeBlock c p ind (codesOf chars)).started := by
      rw [hrun, State.receiveBlock_taken hlen hmax hx hb]
    have hout : (heard.chan c).dataOut = (s.chan c).dataOut := by
      simp only [heard, State.afterFrame, State.chan_modChan_self]
    have hlines : heard.lines = s.lines := rfl
    clear_value heard
    refine ⟨fun hnil => ⟨fun h0 => ?_, fun h0 h1 => ?_, ?_⟩, fun h0 h1 => ?_⟩
    · have hafter : hostStopAfter ind g.hostStop = true := if_pos h0
      rw [htaken, State.takeBlock_plain hhx hg (.inl hafter), hafter, hnil]
      rfl
    · have hafter : hostStopAfter ind g.hostStop = g.hostStop := by rw [hostStopAfter, h0, h1]; rfl
      have hplain : hostStopAfter ind g.hostStop = true ∨ g.hostStop = false ∨ heard.liveLine c p = none := by
        rw [hafter]
        cases g.hostStop <;> simp
      rw [htaken, State.takeBlock_plain hhx hg hplain, hafter, hnil]
      rfl
    · intro h0 h1 released
      have hafter : ∀ b, hostStopAfter ind b = false := fun b => by rw [hostStopAfter, h0, h1]; rfl
      refine ⟨fun hno => ?_, fun l e hstop hl hs he hc hq hne hmax => ?_⟩
      · have hplain : hostStopAfter ind g.hostStop = true ∨ g.hostStop = false ∨ heard.liveLine c p = none :=
          .inr (hno.imp_right fun h => by rw [State.liveLine, hhx, Option.bind_some, h]; rfl)
        rw [htaken, State.takeBlock_plain hhx hg hplain, hafter, hnil]
        rfl
      · have hunit : heard.unit l = s.unit l := by rw [State.unit, State.line_of_lines hlines]; rfl
        have hlive : heard.liveSession l = some e := by
          rw [State.liveSession, State.ctx, State.line_of_lines hlines]
          exact he
        rw [htaken, hnil, show codesOf [] = [] from rfl, State.takeBlock_released hhx hg hstop (hafter _) hl
          (by rw [hunit]; exact hs) hlive hc hq (by rw [hunit]; exact hne) (by rw [hunit]; exact hmax), hunit]
        rfl
    · have hafter : hostStopAfter ind g.hostStop = g.hostStop := by rw [hostStopAfter, h0, h1]; rfl
      have hplain : hostStopAfter ind g.hostStop = true ∨ g.hostStop = false ∨ heard.liveLine c p = none := by
        rw [hafter]
        cases g.hostStop <;> simp
      have hsame : { g with hostStop := g.hostStop } = g := rfl
      have hfill : r = .next ((codesOf chars).foldl (fun v y => v.placeOutput c p y) (heard.flowed c p g)).started := by
        rw [htaken, State.takeBlock_plain hhx hg hplain, hafter]
      have hfx : (heard.flowed c p g).port? c p = some { x with flow := some g } := State.port_flowed hhx _
      have hfout : ((heard.flowed c p g).chan c).dataOut = (s.chan c).dataOut := (State.dataOut_flowed hhx g).trans hout
      have hagain : ∀ k, (heard.flowed c p g).flowed c p k = heard.flowed c p k := fun k => State.flowed_flowed hhx g k
      refine ⟨fun hroom hstop => ?_, fun a bs ha hlen hno hj => ?_, fun a ha hfull => ⟨fun ho => ?_, fun ho bs hj => ?_⟩⟩
      · rw [hfill, State.placeOutput_fits _ _ { x with flow := some g } g hfx rfl (by simpa [codesOf] using hroom)
          (by simpa [codesOf] using hstop)]
        exact congrArg (fun t : State => Host.Outcome.next t.started) (hagain _)
      · rw [hfill, ha, show codesOf [a] = [a.setWidth 7] from rfl, List.foldl_cons, List.foldl_nil,
          State.placeOutput_stop hfx rfl hlen hno (by rw [hfout]; exact hj), hagain]
        rfl
      · rw [hfill, ha, show codesOf [a] = [a.setWidth 7] from rfl, List.foldl_cons, List.foldl_nil,
          State.placeOutput_lost hfx rfl hfull ho]
        rfl
      · rw [hfill, ha, show codesOf [a] = [a.setWidth 7] from rfl, List.foldl_cons, List.foldl_nil,
          State.placeOutput_overrun hfx rfl hfull ho (by rw [hfout]; exact hj), hagain]
        rfl
  · intro l e g x rest hh hs hm he hc hg ho hrest
    subst hc
    obtain ⟨y, hy, hyg⟩ := Option.bind_eq_some_iff.1 hg
    have hsent : exec (.characterSent l) s = .next ((s.charSent l).startNext l) := by
      have hrests : ∀ k, k ≠ l → (s.charSent l).Rests k := fun k hk => by
        have haw : s.Awaits (s.charSent l) k := (State.Turn.refl s l).modUnit (fun u => { u with sending := none }) |>.awaits hk
        exact haw.rests (hrest k hk)
      rw [← State.started_only hrests]
      exact exec_on hp rfl rfl
    have hunit : (s.charSent l).unit l = { s.unit l with sending := none } := State.unit_modUnit ..
    have hfree : ((s.charSent l).unit l).free = true := by
      rw [hunit]
      exact (LineUnit.free_iff _).2 ⟨rfl, Option.isSome_iff_ne_none.1 hh.locked, hh.carrier, hh.guard⟩
    have hstart : (s.charSent l).startNext l = (s.charSent l).startOutput l := by
      rw [State.startNext, if_pos hfree, hunit]
      dsimp only
      rw [hm]
      dsimp only
      rw [if_pos hs]
    have hframed : (s.charSent l).framed l x = s.framed l x := by
      rw [State.framed, hunit]
      rfl
    have heq := State.startOutput_eq (s := s.charSent l) (l := l) (e := e) (x := y)
      (by rw [State.charSent, State.liveSession, State.ctx_modUnit]; exact he) hy hyg ho
    refine ⟨s.framed l x, State.framed_spec x, ?_⟩
    intro started
    have hdrained : ∀ k, ((s.charSent l).flowed e.channel e.port k).modUnit l (fun u => { u with sending := some (s.framed l x) }) =
        flowed started e.port k := fun k => by
      have hdrain : flowed started e.port k = started.flowed e.channel e.port k := rfl
      rw [hdrain, State.flowed, State.flowed, State.modPort_some (s := s.charSent l) hy, State.modPort_some (s := started) hy,
        ← State.modUnit_modChan, State.charSent, State.modUnit_modUnit]
    rw [hsent, hstart, heq, hframed]
    dsimp only
    rw [hdrained]
    refine ⟨fun hno => ?_, fun hlen hstop bs hj => ?_⟩
    · have hquiet : (g.stopSent && decide (rest.length = 64)) = false := by
        rcases hno with h | h <;> simp [h]
      rw [hquiet, if_neg (by decide)]
      simp
    · have hout : ((started.flowed e.channel e.port { g with output := rest, stopSent := false }).chan e.channel).dataOut =
          (s.chan e.channel).dataOut := State.dataOut_flowed (s := started) hy _
      rw [hstop, hlen, if_pos (by decide), State.indicate]
      refine congrArg Host.Outcome.next (State.modChan_congr ?_)
      rw [← withIndication_joins (i := .start) hj, ← hout]
      rfl

end Sys2Proof.Machine
end


section
/-! The account orders: how they come to their access, and ADD (R34, R37, R152, R153, R180). -/

namespace Sys2Proof.Machine

section

variable {s : State} {c : ChanNo} {f : OrderFrame} {code : Byte} {n : Nat}

/-! ## From the order to its access -/

/-- An account order of a channel with the right for it is carried out (R152, R172). -/
theorem State.Attends.run_account (ha : s.Attends c) (hfp : (s.chan c).faultPending = false) (hf : f.fits n)
    (hb : bodyLength code.toNat = some n) (hn : n ≤ 512) (hcode : 9 ≤ code.toNat ∧ code.toNat ≤ 15)
    (right : s.rightFor c (orderOf code f) = true) :
    s.whenOn (s.arrive c code f) = ((s.inExecution c code f).runOrder c (orderOf code f)).started :=
  ha.run_fixed hf hb hn (by simp [knownCode]; omega) (ChanState.allows_live ⟨hcode.1, by omega⟩) (.inl hfp) right

/-- An account order of a channel without the right for it is answered NO RIGHT (R152, R172). -/
theorem State.Attends.refuse_account (ha : s.Attends c) (hfp : (s.chan c).faultPending = false) (hf : f.fits n)
    (hb : bodyLength code.toNat = some n) (hn : n ≤ 512) (hcode : 9 ≤ code.toNat ∧ code.toNat ≤ 15)
    (right : s.rightFor c (orderOf code f) = false) :
    s.whenOn (s.arrive c code f) = ((s.inExecution c code f).replied c f .noRight []).started :=
  ha.refuse_right hfp hf hb hn (by simp [knownCode]; omega) (ha.allows code ⟨hcode.1, by omega⟩) right

/-- At a store busy with another requester the access waits (R37). -/
theorem State.storeBusy.offer (h : s.storeBusy c) : s.offerOrder c = s.accessWaits c := by
  obtain ⟨a, ha, hwho⟩ := h
  refine State.offerOrder_busy (by rw [ha]; rfl) (Bool.eq_false_iff.2 fun k => ?_)
  obtain ⟨x, hx, hxw, -⟩ := Arbiter.serving_eq.1 k
  exact hwho (Option.some.inj (ha.symm.trans hx) ▸ hxw)

/-- While an access of the channel is in progress its next one is not offered (R37). -/
theorem State.ownAccess.offer (h : s.ownAccess c) : s.offerOrder c = s := State.offerOrder_serving (Arbiter.serving_eq.2 h)

theorem State.orders_inExecution : ((s.inExecution c code f).chan c).orders = [orderOf code f] := by
  rw [State.chan_inExecution]

/-- The account access of an ADD in execution (R35, R153). -/
theorem State.serveOrder_add {a : AddFields} (h : parseAdd (orderOf 9 f).body = some a) :
    (s.inExecution c 9 f).serveOrder c = (s.inExecution c 9 f).serveAdd c a := by
  rw [State.serveOrder, State.orders_inExecution]
  dsimp only
  rw [h]
  rfl

/-- The account number is the first field of an account order (R180). -/
theorem bodyField_number {n1 n0 : Byte} {rest : List Byte} (hb : f.body = n1 :: n0 :: rest) :
    bodyField f.body 0 2 = n1.toNat * 256 + n0.toNat := bodyField_eq (by rw [hb]; exact beNat_two n1 n0)

/-! ## ADD -/

/-- The fields of an ADD whose values are ones it may take, clamped where R153 says. -/
def addFieldsOf (number pass : Nat) (k h hs : Byte) (units : Nat) (lim : Byte) : AddFields :=
  { number := number, passCheck := pass, cls := min k.toNat 3,
    home := if small : h.toNat < 4 then some ⟨h.toNat, small⟩ else none, hostSet := hs.setWidth 4,
    budget := if units = 4294967295 then none else some (min units 16777215), limit := max 1 (min lim.toNat 4) }

/-- The body of an ADD (R153, R180). -/
theorem parseAdd_body {n1 n0 p3 p2 p1 p0 k h hs b3 b2 b1 b0 lim : Byte} {number pass units : Nat}
    (hb : f.body = [n1, n0, p3, p2, p1, p0, k, h, hs, b3, b2, b1, b0, lim]) (hnum : number = n1.toNat * 256 + n0.toNat)
    (hpass : pass = p3.toNat * 16777216 + p2.toNat * 65536 + p1.toNat * 256 + p0.toNat)
    (hunits : units = b3.toNat * 16777216 + b2.toNat * 65536 + b1.toNat * 256 + b0.toNat) :
    parseAdd f.body =
      if number ≠ 0 ∧ pass ≤ 16777215 ∧ (h.toNat ≤ 3 ∨ h = 255) ∧ hs.toNat ≤ 15 then
        some (addFieldsOf number pass k h hs units lim)
      else none := by
  have g0 : bodyField f.body 0 2 = number := by rw [hnum]; exact bodyField_number hb
  have g2 : bodyField f.body 2 4 = pass := bodyField_eq (by simp [hb, beNat]; omega)
  have g6 : bodyField f.body 6 1 = k.toNat := bodyField_eq (by simp [hb, beNat])
  have g7 : bodyField f.body 7 1 = h.toNat := bodyField_eq (by simp [hb, beNat])
  have g8 : bodyField f.body 8 1 = hs.toNat := bodyField_eq (by simp [hb, beNat])
  have g9 : bodyField f.body 9 4 = units := bodyField_eq (by simp [hb, beNat]; omega)
  have g13 : bodyField f.body 13 1 = lim.toNat := bodyField_eq (by simp [hb, beNat])
  unfold parseAdd
  dsimp only
  rw [g0, g2, g6, g7, g8, g9, g13]
  by_cases h0 : number = 0
  · rw [if_pos h0, if_neg (fun v => v.1 h0)]
  rw [if_neg h0]
  by_cases h1 : pass ≤ 16777215
  · rw [passCheckOf_ok h1]
    by_cases h2 : h.toNat ≤ 3 ∨ h = 255
    · rw [homeHostOf_ok h2]
      by_cases h3 : hs.toNat ≤ 15
      · rw [hostSetOf_ok h3, if_pos ⟨h0, h1, h2, h3⟩]
        rfl
      · rw [hostSetOf_no h3, if_neg (fun v => h3 v.2.2.2)]
    · rw [homeHostOf_no h2, if_neg (fun v => h2 v.2.2.1)]
  · rw [passCheckOf_no h1, if_neg (fun v => h1 v.2.1)]

/-- The lowest free slot of the record table is the one below which no slot is free (R29). -/
theorem lowestFree_eq {slot : Nat} (hwf : tabWf s.store.records) (hfree : s.recordAt slot = none)
    (hbelow : ∀ j, j < slot → s.recordAt j ≠ none) : lowestFree 0 s.store.records = slot := by
  obtain ⟨hnone, -, hall⟩ := lowestFree_spec hwf 0 (fun _ _ => Nat.zero_le _)
  rcases Nat.lt_trichotomy (lowestFree 0 s.store.records) slot with hlt | heq | hgt
  · exact absurd hnone (hbelow _ hlt)
  · exact heq
  · exact absurd hfree (hall slot (Nat.zero_le _) hgt)

theorem State.serveAdd_exists {a : AddFields} {slot : Nat} (h : s.lookup a.number = some slot) :
    s.serveAdd c a = s.accessing c .nothing (.reply c .exists_ []) := by
  rw [State.serveAdd, h]
  rfl

theorem State.serveAdd_full {a : AddFields} (hwf : tabWf s.store.records) (h : s.lookup a.number = none)
    (hall : ∀ j, j < 4096 → s.recordAt j ≠ none) :
    s.serveAdd c a = s.accessing c .nothing (.reply c .full []) := by
  have hfree : ¬ lowestFree 0 s.store.records < Config.slotCount := fun k =>
    hall _ k (lowestFree_spec hwf 0 (fun _ _ => Nat.zero_le _)).1
  rw [State.serveAdd, h]
  dsimp only
  rw [if_neg hfree]
  rfl

theorem State.serveAdd_free {a : AddFields} {slot : Nat} (hwf : tabWf s.store.records) (h : s.lookup a.number = none)
    (hslot : slot < 4096) (hfree : s.recordAt slot = none) (hbelow : ∀ j, j < slot → s.recordAt j ≠ none) :
    s.serveAdd c a =
      (s.accessing c (.insert slot (a.record s.store.periodNumber))
        (.reply c .done (bytesBE 2 a.number ++ [0, 0]))).setPresence slot
          { budget := some (if a.budget = some 0 then .spent else .normal) } := by
  rw [State.serveAdd, h]
  dsimp only
  rw [lowestFree_eq hwf hfree hbelow, if_pos hslot, budgetStateFor_zero]
  rfl

end

/-- Settles O48: the right, the values, the offer, then the directory and the lowest free slot. -/
theorem addMakesAnAccount : Obligations.AddMakesAnAccount := by
  intro s c f n1 n0 p3 p2 p1 p0 k h hs b3 b2 b1 b0 lim hsound ha hfp hf hb number pass units budget record valid t r
  have hright : s.rightFor c (orderOf 9 f) = (s.right c number).edits :=
    State.rightFor_number hb (by rw [hf.2]; decide)
  let fields := addFieldsOf number pass k h hs units lim
  have hparse : parseAdd (orderOf 9 f).body = if valid then some fields else none := by
    rw [orderOf_body hf (by decide)]
    exact parseAdd_body hb rfl rfl rfl
  have hwf : tabWf s.store.records := hsound.store.1
  refine ⟨fun hno => congrArg Host.Outcome.next
    (ha.refuse_account hfp hf rfl (by decide) (by decide) (hright.trans hno)), fun hyes => ?_⟩
  have hrun : r = .next (t.orderAdd c (orderOf 9 f)).started := congrArg Host.Outcome.next
    (ha.run_account hfp hf rfl (by decide) (by decide) (hright.trans hyes))
  have hoffer : valid → r = .next (t.offerOrder c).started := fun hv => by
    rw [hrun, State.orderAdd, hparse, if_pos hv]
  have hidle : valid → s.arbiter.current = none →
      r = .next (t.serveAdd c fields).started := fun hv hi => by
    rw [hoffer hv, State.offerOrder_idle (s := t) hi, State.serveOrder_add (hparse.trans (if_pos hv))]
  refine ⟨fun hv => ?_, fun hv hbusy => ?_, fun hv hown => ?_, fun hv hi => ⟨fun slot hl => ?_, fun hl =>
    ⟨fun hall => ?_, fun slot hslot hfree hbelow => ?_⟩⟩⟩
  · rw [hrun, State.orderAdd, hparse, if_neg hv]
    exact congrArg (fun u : State => Host.Outcome.next u.started) (State.answer_inExecution (code := 9) _ _)
  · rw [hoffer hv, State.storeBusy.offer (s := t) hbusy]
  · rw [hoffer hv, State.ownAccess.offer (s := t) hown]
  · rw [hidle hv hi, State.serveAdd_exists (s := t) (a := fields) hl]
  · rw [hidle hv hi, State.serveAdd_full (s := t) (a := fields) hwf hl hall]
  · rw [hidle hv hi, State.serveAdd_free (s := t) (a := fields) hwf hl hslot hfree hbelow]
    rfl

end Sys2Proof.Machine
end


section
/-! READ, LIST and PROBE, each one account access (R159 to R161, R181). -/

namespace Sys2Proof.Machine

section

variable {s : State} {c : ChanNo} {f : OrderFrame} {number slot : Nat} {r : Record}

/-- The account's budget state is `b` from now on, where it was not set (R136). -/
def State.budgetSeen (s : State) (slot : Nat) (b : BudgetState) : State :=
  if (s.presenceOf slot).budget.isSome then s
  else s.setPresence slot { s.presenceOf slot with budget := some b, graceTimer := false }

theorem State.budgetSeen_pendingOf (b : BudgetState) : (s.budgetSeen slot b).pendingOf slot = s.pendingOf slot := by
  unfold State.budgetSeen
  split <;> rfl

theorem State.budgetSeen_count (b : BudgetState) :
    ((s.budgetSeen slot b).presenceOf slot).count = (s.presenceOf slot).count := by
  unfold State.budgetSeen
  split
  · rfl
  · rw [State.presenceOf_setPresence]

theorem State.budgetSeen_budget (b : BudgetState) : ((s.budgetSeen slot ((s.presenceOf slot).budget.getD b)).presenceOf
    slot).budget.getD .normal = (s.presenceOf slot).budget.getD b := by
  unfold State.budgetSeen
  split
  · next h => obtain ⟨x, hx⟩ := Option.isSome_iff_exists.1 h; rw [hx]; rfl
  · rw [State.presenceOf_setPresence]; rfl

/-- The budget state that a report finds unset is set first (R136, R159, R161). -/
theorem State.recomputeUnset_seen (hc : s.arbiter.current = none) (hr : s.recordAt slot = some r)
    (hp : (s.presenceOf slot).budget.isSome = true ∨ (s.presenceOf slot).count = 0) :
    s.recomputeUnset slot = s.budgetSeen slot
      ((s.presenceOf slot).budget.getD (budgetStateOf (r.used + s.pendingOf slot) r.budget)) :=
  State.recomputeUnset_eq hc hr hp

/-! ## The accesses -/

theorem State.serveRead_none (h : s.lookup number = none) :
    s.serveRead c number = s.accessing c .nothing (.reply c .notFound []) := by
  rw [State.serveRead, h]
  rfl

theorem State.serveProbe_none (h : s.lookup number = none) : s.serveProbe c number =
    s.accessing c .nothing (.reply c .notFound (bytesBE 1 (rightNumber (s.right c number)))) := by
  rw [State.serveProbe, h]
  rfl

theorem State.serveRead_found (hc : s.arbiter.current = none) (hl : s.lookup number = some slot)
    (hr : s.recordAt slot = some r)
    (hp : (s.presenceOf slot).budget.isSome = true ∨ (s.presenceOf slot).count = 0) :
    let b := (s.presenceOf slot).budget.getD (budgetStateOf (r.used + s.pendingOf slot) r.budget)
    s.serveRead c number = (s.budgetSeen slot b).accessing c .nothing
      (.reply c .done (readBody r (s.pendingOf slot) (s.presenceOf slot).count b)) := by
  intro b
  rw [State.serveRead, hl]
  dsimp only
  rw [hr]
  dsimp only
  rw [State.recomputeUnset_seen hc hr hp, State.budgetSeen_pendingOf, State.budgetSeen_count, State.budgetSeen_budget]
  rfl

theorem State.serveProbe_found (hc : s.arbiter.current = none) (hl : s.lookup number = some slot)
    (hr : s.recordAt slot = some r)
    (hp : (s.presenceOf slot).budget.isSome = true ∨ (s.presenceOf slot).count = 0) :
    let total := r.used + s.pendingOf slot
    s.serveProbe c number =
      (s.budgetSeen slot ((s.presenceOf slot).budget.getD (budgetStateOf total r.budget))).accessing c .nothing
        (.reply c .done (bytesBE 1 (rightNumber (s.right c number)) ++ flagByte (r.state = .active) ++
          flagByte ((s.presenceOf slot).count < r.limit) ++ flagByte (budgetAllows total r.budget) ++
          bytesBE 1 (budgetComparison total r.budget))) := by
  intro total
  rw [State.serveProbe, hl]
  dsimp only
  rw [hr]
  dsimp only
  rw [State.recomputeUnset_seen hc hr hp, State.budgetSeen_pendingOf, State.budgetSeen_count]
  rfl

theorem flagByte_eq (p : Prop) [Decidable p] : flagByte (decide p) = bytesBE 1 (if p then 1 else 0) := by
  by_cases h : p <;> simp [flagByte, h]

theorem flagByte_unlimited (total : Nat) : flagByte (budgetAllows total none) = bytesBE 1 1 := by
  rw [bytesBE_one]
  rfl

theorem flagByte_limited (total b : Nat) :
    flagByte (budgetAllows total (some b)) = bytesBE 1 (if total < b then 1 else 0) := flagByte_eq _

/-- LIST goes on behind the last number it took, where a full page leaves a higher number (R160). -/
theorem State.continuation_eq (taken : List (Nat × Nat)) :
    s.continuation taken =
      if taken.length = 16 ∧ ∃ e ∈ s.store.directory, (taken.getLast?.map (·.1)).getD 0 < e.1 then
        (taken.getLast?.map (·.1)).getD 0 + 1
      else 0 := by
  unfold State.continuation
  cases h : taken.getLast? with
  | none =>
    rw [List.getLast?_eq_none_iff.1 h]
    rfl
  | some e =>
    simp only [Option.map_some, Option.getD_some, Config.listPage, List.any_eq_true, decide_eq_true_iff]

end

/-- Settles O49: the right, the offer, then what each access reports. -/
theorem readListAndProbeReport : Obligations.ReadListAndProbeReport := by
  intro s c f n1 n0 ha hfp hf hb number right served
  have hlen : f.body.length ≤ 512 := by rw [hf.2]; decide
  have hrighted : ∀ code : Byte, code = 12 ∨ code = 14 →
      s.rightFor c (orderOf code f) = (right != .none) := by
    rintro code (rfl | rfl) <;> exact State.rightFor_number hb hlen
  have hnone : ∀ code : Byte, code = 12 ∨ code = 14 → right = .none → s.rightFor c (orderOf code f) = false :=
    fun code hcode hr => by rw [hrighted code hcode, hr]; rfl
  have hsome : ∀ code : Byte, code = 12 ∨ code = 14 → right ≠ .none → s.rightFor c (orderOf code f) = true :=
    fun code hcode hr => by rw [hrighted code hcode]; exact bne_iff_ne.2 hr
  have hread : right ≠ .none → exec (.read c f) s = .next ((s.inExecution c 12 f).offerOrder c).started := fun hr =>
    congrArg Host.Outcome.next (ha.run_account hfp hf rfl (by decide) (by decide) (hsome 12 (.inl rfl) hr))
  have hprobe : right ≠ .none → exec (.probe c f) s = .next ((s.inExecution c 14 f).offerOrder c).started := fun hr =>
    congrArg Host.Outcome.next (ha.run_account hfp hf rfl (by decide) (by decide) (hsome 14 (.inr rfl) hr))
  have hlist : exec (.list c f) s = .next ((s.inExecution c 13 f).offerOrder c).started :=
    congrArg Host.Outcome.next (ha.run_account hfp hf rfl (by decide) (by decide) (State.rightFor_number hb hlen))
  have hbody : ∀ code : Byte, bodyField (orderOf code f).body 0 2 = number := fun code => by
    rw [orderOf_body hf (by decide)]
    exact bodyField_number hb
  have hserveRead : (s.inExecution c 12 f).serveOrder c = (s.inExecution c 12 f).serveRead c number := by
    rw [State.serveOrder, State.orders_inExecution, ← hbody 12]
    rfl
  have hserveList : (s.inExecution c 13 f).serveOrder c = (s.inExecution c 13 f).serveList c number := by
    rw [State.serveOrder, State.orders_inExecution, ← hbody 13]
    rfl
  have hserveProbe : (s.inExecution c 14 f).serveOrder c = (s.inExecution c 14 f).serveProbe c number := by
    rw [State.serveOrder, State.orders_inExecution, ← hbody 14]
    rfl
  refine ⟨fun hr => ⟨?_, ?_⟩, fun hbusy => ⟨?_, fun hr => ⟨?_, ?_⟩⟩, fun hown => ⟨?_, fun hr => ⟨?_, ?_⟩⟩,
    fun hi => ⟨?_, fun hr => ⟨fun hl => ⟨?_, ?_⟩, ?_⟩⟩⟩
  · exact congrArg Host.Outcome.next (ha.refuse_account hfp hf rfl (by decide) (by decide) (hnone 12 (.inl rfl) hr))
  · exact congrArg Host.Outcome.next (ha.refuse_account hfp hf rfl (by decide) (by decide) (hnone 14 (.inr rfl) hr))
  · rw [hlist, State.storeBusy.offer (s := s.inExecution c 13 f) hbusy]
  · rw [hread hr, State.storeBusy.offer (s := s.inExecution c 12 f) hbusy]
  · rw [hprobe hr, State.storeBusy.offer (s := s.inExecution c 14 f) hbusy]
  · rw [hlist, State.ownAccess.offer (s := s.inExecution c 13 f) hown]
  · rw [hread hr, State.ownAccess.offer (s := s.inExecution c 12 f) hown]
  · rw [hprobe hr, State.ownAccess.offer (s := s.inExecution c 14 f) hown]
  · intro taken last onward
    rw [hlist, State.offerOrder_idle (s := s.inExecution c 13 f) hi, hserveList, State.serveList, State.continuation_eq]
    refine congrArg (fun x => Host.Outcome.next (State.accessing _ c .nothing (.reply c .done x)).started)
      (congrArg₂ (· ++ ·) (congrArg (bytesBE 1 taken.length ++ ·) (List.flatMap_congr fun e _ => ?_)) rfl)
    refine congrArg (bytesBE 2 e.1 ++ bytesBE 1 ·) ?_
    rw [show (s.inExecution c 13 f).recordAt e.2 = s.recordAt e.2 from rfl]
    cases s.recordAt e.2 <;> rfl
  · rw [hread hr, State.offerOrder_idle (s := s.inExecution c 12 f) hi, hserveRead,
      State.serveRead_none (s := s.inExecution c 12 f) hl]
  · rw [hprobe hr, State.offerOrder_idle (s := s.inExecution c 14 f) hi, hserveProbe,
      State.serveProbe_none (s := s.inExecution c 14 f) hl]
    rfl
  · intro slot r hl hrec p total b seen hp
    constructor
    · rw [hread hr, State.offerOrder_idle (s := s.inExecution c 12 f) hi, hserveRead,
        State.serveRead_found (s := s.inExecution c 12 f) hi hl hrec hp]
      rfl
    · rw [hprobe hr, State.offerOrder_idle (s := s.inExecution c 14 f) hi, hserveProbe,
        State.serveProbe_found (s := s.inExecution c 14 f) hi hl hrec hp, flagByte_eq, flagByte_eq]
      refine congrArg (fun x => Host.Outcome.next (State.accessing _ c .nothing (.reply c .done x)).started) ?_
      show _ = bytesBE 1 (rightNumber right) ++ _ ++ _ ++ _ ++ _
      cases r.budget with
      | none => rw [flagByte_unlimited]; rfl
      | some n => rw [flagByte_limited]; rfl

end Sys2Proof.Machine
end


section
/-! DELETE: what the account's entry, item and presence entry become, and the slot (R135, R157, R158). -/

namespace Sys2Proof.Machine

section

variable {s : State} {c : ChanNo} {f : OrderFrame} {number slot : Nat} {r : Record} {items : List Item}

/-- The units closed in the account's item, where the waiting list holds no other item (R128). -/
theorem State.closedUnits_only (hw : s.cache.waiting = items) (hlen : items.length ≤ 1)
    (hall : ∀ i ∈ items, i.slot = slot) : s.closedUnits slot = (items.map fun i => i.closed.toList.sum).sum := by
  unfold State.closedUnits
  rw [hw]
  match items, hlen, hall with
  | [], _, _ => rfl
  | [i], _, hall => simp [hall i (List.mem_singleton.2 rfl)]

theorem State.serveDelete_none (h : s.lookup number = none) :
    s.serveDelete c number = s.accessing c .nothing (.reply c .notFound []) := by
  rw [State.serveDelete, h]
  rfl

theorem State.serveDelete_inUse (hl : s.lookup number = some slot) (hr : s.recordAt slot = some r)
    (hu : 0 < (s.presenceOf slot).count ∨ s.meterOpen slot = true) :
    s.serveDelete c number = s.accessing c .nothing (.reply c .inUse []) := by
  rw [State.serveDelete, hl]
  dsimp only
  rw [hr]
  dsimp only
  rw [if_pos hu]
  rfl

/-- The removal of an account that nobody uses is in progress (R157). -/
def State.deleting (s : State) (c : ChanNo) (slot number : Nat) (r : Record) : State :=
  (s.accessing c (.remove slot number) (.reply c .done
    (bytesBE 3 (min (r.used + s.pendingOf slot + s.closedUnits slot) 16777215) ++ bytesBE 3 r.previous))).modArbiter
      fun a => a.forget slot

theorem State.serveDelete_unused (hl : s.lookup number = some slot) (hr : s.recordAt slot = some r)
    (hc : (s.presenceOf slot).count = 0) (hm : s.meterOpen slot = false) : s.serveDelete c number =
      ((((s.deleting c slot number r).dropItem slot).dropEntry slot).setPresence slot {}).settle := by
  rw [State.serveDelete, hl]
  dsimp only
  rw [hr]
  dsimp only
  rw [if_neg (by simp [hc, hm])]
  rfl

/-- What a served DELETE empties and what it leaves (R135, R157, R158). -/
theorem State.serveDelete_spec {t : State} (hl : t.lookup number = some slot) (hr : t.recordAt slot = some r)
    (hc : (t.presenceOf slot).count = 0) (hm : t.meterOpen slot = false) (hw : t.cache.waiting = items)
    (hlen : items.length ≤ 1) (hall : ∀ i ∈ items, i.slot = slot) :
    ∃ u, t.serveDelete c number = u ∧ u.arbiter = (t.deleting c slot number r).arbiter ∧ u.presenceOf slot = {} ∧
      (∀ j, j ≠ slot → u.presenceOf j = t.presenceOf j) ∧ u.cache.waiting = [] ∧
      (∀ e, t.entryOf slot = some e → u.entry e = {}) ∧ (∀ e, t.entryOf slot ≠ some e → u.entry e = t.entry e) ∧
      u.lines = t.lines ∧ u.store = t.store ∧ u.rating = t.rating ∧
      ∀ i ∈ items, ∀ w ∈ i.charges, t.cache.flush.get w.channel = none → ∀ a rest,
        (t.chan w.channel).orders = a :: rest →
        (u.chan w.channel).reply = some { outcome := .notFound, seq := a.seq, body := [] } := by
  obtain ⟨w, hw1, warb, wpres, wlines, wstore, wrating, wentries, wwait, wflush, wreply⟩ :=
    State.dropItem_facts (v := t.deleting c slot number r) hw hlen hall
  have hentryOf : w.entryOf slot = t.entryOf slot := by
    unfold State.entryOf State.entry
    rw [wentries]
    rfl
  obtain ⟨x, hx1, xarb, xpres, xlines, xstore, xrating, xwait, xfree, xkeep, xreply⟩ :=
    State.dropEntry_facts hentryOf wentries wwait
  have hpresence : ∀ j, x.presenceOf j = t.presenceOf j := fun j => by
    unfold State.presenceOf
    rw [xpres, wpres]
    rfl
  refine ⟨x.setPresence slot {}, ?_, xarb.trans warb, State.presenceOf_setPresence .., fun j hj => ?_, xwait, xfree, xkeep,
    xlines.trans wlines, xstore.trans wstore, xrating.trans wrating, fun i hi v hv hfl a rest ho => ?_⟩
  · rw [State.serveDelete_unused hl hr hc hm, hw1, hx1, State.settle_empty (s := x.setPresence slot {}) xwait]
  · rw [State.presenceOf_setPresence_ne _ _ hj, hpresence]
  · exact (xreply _ (by rw [wflush]; exact hfl)).trans (wreply i hi v hv a rest ho)

end

/-- Settles O51: the right, the offer, the refusal, then what the served access empties. -/
theorem deleteFreesTheAccount : Obligations.DeleteFreesTheAccount := by
  intro s c f n1 n0 ha hfp hf hb number t o
  have hright : s.rightFor c (orderOf 11 f) = (s.right c number).edits :=
    State.rightFor_number hb (by rw [hf.2]; decide)
  refine ⟨fun hno => congrArg Host.Outcome.next
    (ha.refuse_account hfp hf rfl (by decide) (by decide) (hright.trans hno)), fun hyes => ?_⟩
  have hrun : o = .next (t.offerOrder c).started := congrArg Host.Outcome.next
    (ha.run_account hfp hf rfl (by decide) (by decide) (hright.trans hyes))
  have hbody : bodyField (orderOf 11 f).body 0 2 = number := by
    rw [orderOf_body hf (by decide)]
    exact bodyField_number hb
  have hserve : t.serveOrder c = t.serveDelete c number := by
    rw [State.serveOrder, State.orders_inExecution, ← hbody]
    rfl
  refine ⟨fun hbusy => ?_, fun hown => ?_, fun hi => ⟨fun hl => ?_, fun slot r hl hr => ⟨fun hu => ?_, ?_⟩⟩⟩
  · rw [hrun, State.storeBusy.offer (s := t) hbusy]
  · rw [hrun, State.ownAccess.offer (s := t) hown]
  · rw [hrun, State.offerOrder_idle (s := t) hi, hserve, State.serveDelete_none (s := t) hl]
  · rw [hrun, State.offerOrder_idle (s := t) hi, hserve, State.serveDelete_inUse (s := t) hl hr hu]
  · intro hc hm items hw hlen hall closed used
    obtain ⟨u, hu, harb, hgone, hkept, hwait, hfree, hkeep, hlines, hstore, hrating, hreplies⟩ :=
      State.serveDelete_spec (t := t) (c := c) hl hr hc hm hw hlen hall
    refine ⟨u, by rw [hrun, State.offerOrder_idle (s := t) hi, hserve, hu], harb.trans ?_, hgone, hkept, hwait, hfree,
      hkeep, State.line_of_lines hlines, hstore, hrating, hreplies⟩
    rw [State.deleting, State.closedUnits_only (s := t) hw hlen hall]
    rfl

end Sys2Proof.Machine
end


section
/-! EDIT: the settings written, the revision, and what HELD and a changed budget do (R32, R154 to R156). -/

namespace Sys2Proof.Machine

section

variable {s : State} {c : ChanNo} {f : OrderFrame} {slot : Nat} {r : Record} {a : EditFields}

/-- An order that comes into execution changes no channel's state, wait queue or ports (R171). -/
theorem State.inExecution_keeps (code : Byte) (d : ChanNo) :
    ((s.inExecution c code f).chan d).state = (s.chan d).state ∧
      ((s.inExecution c code f).chan d).queue = (s.chan d).queue ∧
      ((s.inExecution c code f).chan d).ports = (s.chan d).ports := by
  rw [State.inExecution, State.chan_modChan]
  split
  next hd => rw [← hd]; exact ⟨rfl, rfl, rfl⟩
  next => exact ⟨rfl, rfl, rfl⟩

/-- The account write access of an EDIT in execution (R35, R154). -/
theorem State.serveOrder_edit (h : parseEdit (orderOf 10 f).body = some a) :
    (s.inExecution c 10 f).serveOrder c = (s.inExecution c 10 f).serveEdit c a := by
  rw [State.serveOrder, State.orders_inExecution]
  dsimp only
  rw [h]
  rfl

theorem State.serveEdit_none (h : s.lookup a.number = none) :
    s.serveEdit c a = s.accessing c .nothing (.reply c .notFound []) := by
  rw [State.serveEdit, h]
  rfl

theorem State.serveEdit_stale (hl : s.lookup a.number = some slot) (hr : s.recordAt slot = some r)
    (hrev : a.revision ≠ r.revision) :
    s.serveEdit c a = s.accessing c .nothing (.reply c .stale (bytesBE 2 r.revision)) := by
  rw [State.serveEdit, hl]
  dsimp only
  rw [hr]
  dsimp only
  rw [if_pos hrev]
  rfl

/-- The account write of an EDIT is in progress (R154). -/
def State.editing (s : State) (c : ChanNo) (slot : Nat) (n : Record) : State :=
  s.accessing c (.put slot n) (.reply c .done (bytesBE 2 n.revision))

theorem State.serveEdit_current (hl : s.lookup a.number = some slot) (hr : s.recordAt slot = some r)
    (hrev : a.revision = r.revision) {n : Record} (hn : r.edited a = n) :
    s.serveEdit c a =
      (let t := if n.state = .held ∧ r.state ≠ .held then
          (s.editing c slot n).clearLines (s.signedOn slot) .accountHeld
        else s.editing c slot n
      if n.budget = r.budget then t else t.recompute slot) := by
  subst hn
  rw [State.serveEdit, hl]
  dsimp only
  rw [hr]
  dsimp only
  rw [if_neg (not_not.2 hrev)]
  rfl

/-- An EDIT that does not hold an account with lines signed on clears no line (R156). -/
theorem State.serveEdit_keeps (hl : s.lookup a.number = some slot) (hr : s.recordAt slot = some r)
    (hrev : a.revision = r.revision) {n : Record} (hn : r.edited a = n)
    (h : n.state = r.state ∨ n.state = .active ∨ s.signedOn slot = []) :
    s.serveEdit c a =
      if n.budget = r.budget then s.editing c slot n else (s.editing c slot n).recompute slot := by
  have hclear : (if n.state = .held ∧ r.state ≠ .held then
      (s.editing c slot n).clearLines (s.signedOn slot) .accountHeld else s.editing c slot n) = s.editing c slot n := by
    rcases h with h | h | h
    · exact if_neg fun k => k.2 (h.symm.trans k.1)
    · exact if_neg fun k => nomatch (h.symm.trans k.1 : AccountState.active = .held)
    · rw [h]
      exact ite_self _
  rw [State.serveEdit_current hl hr hrev hn]
  dsimp only
  rw [hclear]

/-- An EDIT that holds an account clears the line signed on with it (R156). -/
theorem State.serveEdit_holds {l : LineNo} (hl : s.lookup a.number = some slot) (hr : s.recordAt slot = some r)
    (hrev : a.revision = r.revision) {n : Record} (hn : r.edited a = n) (hheld : n.state = .held)
    (hwas : r.state ≠ .held) (hb : n.budget = r.budget) (hs : s.signedOn slot = [l]) :
    s.serveEdit c a = (s.editing c slot n).clearLine l .accountHeld := by
  rw [State.serveEdit_current hl hr hrev hn]
  dsimp only
  rw [if_pos hb, if_pos ⟨hheld, hwas⟩, hs]
  rfl

/-- The budget of an account that an access is writing is judged by what the access writes (R136). -/
theorem State.budgetRecord_editing (n : Record) : (s.editing c slot n).budgetRecord slot = some n := by
  show (if slot = slot then some n else _) = some n
  exact if_pos rfl

theorem State.total_editing {n : Record} (hn : n.used = r.used) :
    (s.editing c slot n).total slot = r.used + s.pendingOf slot := by
  rw [State.total, State.budgetRecord_editing, ← hn]
  rfl

/-- A clear of a line that is signed on, has no session and nothing left to send, and does not wait (R15, R64, R86). -/
theorem State.clearLine_signedOn {l : LineNo} {cause : Cause} (ha : (s.unit l).state.active = true)
    (hcounted : (s.dialog l).counted = some slot) (hphase : (s.dialog l).phase ≠ .checking)
    (hstack : (s.ctx l).stack = []) (hw : s.NotWaiting l) (hmsg : (s.unit l).partMsg = [])
    (hg : (s.presenceOf slot).budget ≠ some .grace) :
    s.clearLine l cause =
      (((s.setPresence slot { s.presenceOf slot with count := (s.presenceOf slot).count - 1 }).modDialog l fun d =>
        { d.ended with counted := none }).modCtx l fun _ => {}).modUnit l fun u => u.cleared cause := by
  have hless : s.Sessionless l :=
    { check := hphase, stack := hstack, openings := hw.openings
      grace := fun k hk => by rw [Option.some.inj (hk.symm.trans hcounted)]; exact hg }
  rw [State.clearLine_cleared cause ha hless, State.cleared_notWaiting cause hw, State.uncounted, hcounted]
  refine State.modUnit_congr ?_
  rw [State.unit_modCtx, State.unit_modDialog]
  exact if_pos (.inr hmsg)

end

/-- Settles O50: the right, the values, the offer, then the directory, the revision and what the settings change. -/
theorem editWritesTheSettings : Obligations.EditWritesTheSettings := by
  intro s c f n1 n0 v1 v0 set st p3 p2 p1 p0 k h hs b3 b2 b1 b0 lim ha hfp hf hb number pass units valid t o served
  have hright : s.rightFor c (orderOf 10 f) = (s.right c number).edits :=
    State.rightFor_number hb (by rw [hf.2]; decide)
  let fields := editFieldsOf number (v1.toNat * 256 + v0.toNat) set st pass k h hs units lim
  have hparse : parseEdit (orderOf 10 f).body = if valid then some fields else none := by
    rw [orderOf_body hf (by decide)]
    exact (edit_parse hb number pass units rfl rfl rfl).2
  refine ⟨fun hno => congrArg Host.Outcome.next
    (ha.refuse_account hfp hf rfl (by decide) (by decide) (hright.trans hno)), fun hyes => ?_⟩
  have hrun : o = .next (t.orderEdit c (orderOf 10 f)).started := congrArg Host.Outcome.next
    (ha.run_account hfp hf rfl (by decide) (by decide) (hright.trans hyes))
  have hoffer : valid → o = .next (t.offerOrder c).started := fun hv => by
    rw [hrun, State.orderEdit, hparse, if_pos hv]
  have hidle : valid → s.arbiter.current = none → o = .next (t.serveEdit c fields).started := fun hv hi => by
    rw [hoffer hv, State.offerOrder_idle (s := t) hi, State.serveOrder_edit (hparse.trans (if_pos hv))]
  refine ⟨fun hv => ?_, fun hv hbusy => ?_, fun hv hown => ?_, fun hv hi => ⟨fun hl => ?_, fun slot r hl hr =>
    ⟨fun hrev => ?_, ?_⟩⟩⟩
  · rw [hrun, State.orderEdit, hparse, if_neg hv]
    exact congrArg (fun u : State => Host.Outcome.next u.started) (State.answer_inExecution (code := 10) _ _)
  · rw [hoffer hv, State.storeBusy.offer (s := t) hbusy]
  · rw [hoffer hv, State.ownAccess.offer (s := t) hown]
  · show o = _
    rw [hidle hv hi, State.serveEdit_none (s := t) (a := fields) hl]
  · show o = _
    rw [hidle hv hi, State.serveEdit_stale (s := t) (a := fields) hl hr (Ne.symm hrev)]
  intro hrev n p
  have hn : r.edited fields = n := Record.edited_settled ..
  refine ⟨fun hkeeps => ⟨fun hsame => ?_, ?_⟩, fun hheld hwas hsame l hsigned hact hphase hstack hw hmsg hg => ?_⟩
  · show o = _
    rw [hidle hv hi, State.serveEdit_keeps (s := t) (a := fields) hl hr hrev.symm hn hkeeps, if_pos hsame]
    rfl
  · intro hdiff hsigned hcount hg total b
    obtain ⟨u, hu, harb, hbudget, hcnt, hline, hcache, hstore, hchan⟩ := State.recompute_absent
      (v := t.editing c slot n) (State.budgetRecord_editing n) (p := p) rfl (State.total_editing (r := r) rfl) hsigned
      hcount hg
    refine ⟨u, ?_, ?_, hbudget, hcnt, hline, hcache, hstore, fun d => ?_⟩
    · rw [hidle hv hi, State.serveEdit_keeps (s := t) (a := fields) hl hr hrev.symm hn hkeeps, if_neg hdiff, hu]
    · rw [harb]
      rfl
    · have hstate : ((t.editing c slot n).chan d).state = (s.chan d).state := (State.inExecution_keeps 10 d).1
      rw [hchan d, hstate]
      rfl
  · have hcounted : (s.dialog l).counted = some slot :=
      State.mem_signedOn.1 (by rw [hsigned]; exact List.mem_singleton_self l)
    have hw' : (t.editing c slot n).NotWaiting l := hw.of_queues_ports
      (fun d => (State.inExecution_keeps 10 d).2.1) (fun d => (State.inExecution_keeps 10 d).2.2)
    rw [hidle hv hi, State.serveEdit_holds (s := t) (a := fields) hl hr hrev.symm hn hheld hwas hsame hsigned,
      State.clearLine_signedOn (s := t.editing c slot n) hact hcounted hphase hstack hw' hmsg hg]
    rfl

end Sys2Proof.Machine
end


section
/-! The arbiter's round, and what completes: the access of an order, and a write-back that leaves its entry gathering, FREE
or due again (R36 to R38, R131). -/

namespace Sys2Proof.Machine

/-! ## The round -/

/-- The place of a requester in the round (R38). -/
def Requester.place : Requester → Nat
  | .signOn => 0
  | .writeBack => 1
  | .roll => 2
  | .chan c => 3 + c.val

/-- How long a requester waits for its turn after `last` has been served (R38). -/
def Requester.distance (last q : Requester) : Nat := (q.place + 6 - last.place) % 7

theorem roundAfter_rises (last : Requester) : (roundAfter last).Pairwise fun p q => last.distance p < last.distance q := by
  cases last with
  | chan c => revert c; decide
  | _ => decide

theorem mem_roundAfter (last q : Requester) : q ∈ roundAfter last := by
  have hchan : ∀ c d : ChanNo, Requester.chan d ∈ roundAfter (.chan c) := by decide
  cases last with
  | chan c =>
    cases q with
    | chan d => exact hchan c d
    | _ => revert c; decide
  | _ =>
    cases q with
    | chan d => revert d; decide
    | _ => decide

/-- The first of a rising list that passes a test is the least of those that pass it. -/
theorem find_first_iff {α : Type} {L : List α} {d : α → Nat} (hL : L.Pairwise fun p q => d p < d q) (hall : ∀ q, q ∈ L)
    (test : α → Bool) (r : α) :
    L.find? test = some r ↔ test r = true ∧ ∀ q, test q = true → d r ≤ d q := by
  constructor
  · intro h
    obtain ⟨hr, a, b, hab, hfail⟩ := List.find?_eq_some_iff_append.1 h
    refine ⟨hr, fun q hq => ?_⟩
    have hmem := hall q
    rw [hab, List.mem_append, List.mem_cons] at hmem
    rw [hab, List.pairwise_append, List.pairwise_cons] at hL
    rcases hmem with hqa | rfl | hqb
    · have := hfail q hqa
      rw [hq] at this
      cases this
    · exact Nat.le_refl _
    · exact (hL.2.1.1 q hqb).le
  · rintro ⟨hr, hleast⟩
    obtain ⟨a, b, hab⟩ := List.append_of_mem (hall r)
    refine List.find?_eq_some_iff_append.2 ⟨hr, a, b, hab, fun q hqa => ?_⟩
    rw [hab, List.pairwise_append] at hL
    cases hq : test q with
    | false => rfl
    | true => exact absurd (hL.2.2 q hqa r List.mem_cons_self) (Nat.not_lt.2 (hleast q hq))

section

variable {s : State} {e : Fin 32} {slot : Nat} {r : Record}

/-! ## Completion -/

/-- The access in progress has taken effect and its result has gone; the arbiter has not chosen the next (R36). -/
def State.taken (s : State) (who : Requester) : State :=
  { s with store := s.storeCompleted,
           arbiter := { s.arbiter with current := some { who := who, write := .nothing, result := .taken } } }

theorem State.completeAccess_taken {a : Access} (h : s.arbiter.current = some a) :
    s.completeAccess = ((s.taken a.who).takeResult a.result).serveNext a.who := by
  have hdone : ((s.modStore fun st => st.apply a.write).modArbiter fun b =>
      { b with current := some { a with write := .nothing, result := .taken } }) = s.taken a.who := by
    simp only [State.modStore, State.modArbiter, State.taken, State.storeCompleted, Arbiter.write, h]
    rfl
  simp only [State.completeAccess, h]
  rw [hdone]

theorem State.completeAccess_none (h : s.arbiter.current = none) : s.completeAccess = s := by
  rw [State.completeAccess, h]

theorem exec_accessComplete (hp : s.powered = true) : exec .accessComplete s = .next s.completeAccess.started :=
  exec_on hp rfl rfl

/-- WRITE_BACK_COMPLETED completes a write-back (R131). -/
theorem exec_writeBackCompleted {a : Access} (hp : s.powered = true) (h : s.arbiter.current = some a)
    (hw : a.who = .writeBack) : exec .writeBackCompleted s = .next s.completeAccess.started := by
  obtain ⟨who, write, result⟩ := a
  obtain rfl : who = .writeBack := hw
  refine exec_on hp rfl ?_
  rw [h]

/-- WRITE_BACK_COMPLETED does nothing where no write-back is in progress (assumption 23). -/
theorem exec_writeBackCompleted_other (hp : s.powered = true)
    (h : ∀ a, s.arbiter.current = some a → a.who ≠ .writeBack) : exec .writeBackCompleted s = .next s.started := by
  refine exec_on hp rfl ?_
  cases hc : s.arbiter.current with
  | none => rfl
  | some a =>
    obtain ⟨who, write, result⟩ := a
    cases who with
    | writeBack => exact absurd rfl (h _ hc)
    | _ => rfl

/-- With one access in progress and none waiting, the arbiter is idle once its result is taken (R38). -/
theorem State.serveNext_taken {who : Requester} {a : Access} (h : s.arbiter = { current := some a }) :
    s.serveNext who = { s with arbiter := {} } := by
  rw [State.serveNext_idle]
  · simp only [State.modArbiter, h]
  · intro q
    rw [h]
    cases q with
    | chan c => simp [Arbiter.waits]
    | _ => rfl

/-- The channel whose account order waits is served in the next round (R38). -/
theorem State.serveNext_chan {who : Requester} {a : Access} {d : ChanNo}
    (h : s.arbiter = { current := some a, chans := (Vector.replicate 4 false).set d true }) :
    s.serveNext who = ({ s with arbiter := {} } : State).serveOrder d := by
  have hwaits : ∀ q, ({ s.arbiter with current := none } : Arbiter).waits q = true ↔ q = .chan d := by
    intro q
    rw [h]
    cases q with
    | chan k =>
      show ((Vector.replicate 4 false).set d.val true d.isLt).get k = true ↔ _
      rw [vector_get_set]
      by_cases hk : k = d <;> simp [hk]
    | _ => simp [Arbiter.waits]
  have hfind : (roundAfter who).find? ({ s.arbiter with current := none } : Arbiter).waits = some (.chan d) :=
    (find_first_iff (roundAfter_rises who) (mem_roundAfter who) _ _).2
      ⟨(hwaits _).2 rfl, fun q hq => by rw [(hwaits q).1 hq]⟩
  have hcleared : ∀ d : ChanNo,
      ((Vector.replicate 4 false).set d.val true d.isLt).set d.val false d.isLt = Vector.replicate 4 false := by decide
  rw [State.serveNext, show (s.modArbiter fun a => { a with current := none }).arbiter =
    { s.arbiter with current := none } from rfl, hfind]
  simp only [State.serveWaiting, State.modArbiter, h, hcleared d]

/-! ## The access of an order -/

/-- An access of an order has completed and its reply is given (R36). -/
theorem State.completeAccess_reply {c : ChanNo} {w : StoreWrite} {o : Outcome} {body : List Byte} {a : Order}
    {rest : List Order} (ho : (s.chan c).orders = a :: rest)
    (h : s.arbiter.current = some { who := .chan c, write := w, result := .reply c o body }) :
    s.completeAccess = ((s.taken (.chan c)).modChan c fun ch =>
      { ch with reply := some { outcome := o, seq := a.seq, body := body } }).serveNext (.chan c) := by
  rw [State.completeAccess_taken h]
  exact congrArg (fun t : State => t.serveNext (.chan c)) (State.answer_at (s := s.taken (.chan c)) ho)

theorem State.started_store (s : State) : s.started.store = s.store := by
  have h : s.started = { s with lines := s.started.lines, channels := s.started.channels } :=
    (State.turns_frame allLines s).2
  rw [h]

/-! ## A write-back -/

/-- The look at an entry that no FLUSH names and that is not on the queue (R131). -/
theorem State.isDue_iff (hst : (s.entry e).state = .gathering) (hslot : (s.entry e).slot = some slot)
    (hev : (s.entry e).evicted = false) (hq : s.cache.queue = []) (hfl : ∀ c, s.cache.flush.get c = none)
    (hre : s.cache.restarting = false) :
    s.isDue e = true ↔ 0 < (s.entry e).pending ∧ (64 ≤ (s.entry e).pending ∨ s.meterOpen slot = false) := by
  simp only [State.isDue, hst, hslot, hev, hq, hre, Cache.flushNames_none hfl]
  simp [Config.dueAt]

/-- The entry of a completed write-back, and nothing else, as the write-back is done (R131). -/
def State.unsnapped (s : State) (e : Fin 32) : State := s.modEntry e Entry.afterWrite

/-- A completed write-back of an entry that no FLUSH names (R131). -/
theorem State.writeBackDone_unnamed (hslot : (s.entry e).slot = some slot) (hfl : ∀ c, s.cache.flush.get c = none) :
    s.writeBackDone e =
      ((((if (s.entry e).pending - (s.entry e).snapshot = 0 ∧ ((s.entry e).evicted = true ∨ s.meterOpen slot = false) then
          (s.unsnapped e).freeEntry e
        else (s.unsnapped e).lookDue e).recompute slot).offerWriteBack).settle) := by
  have hfold : ∀ frees, allChans.foldl (fun t c => t.flushWrittenOf c e frees) (s.unsnapped e) = s.unsnapped e :=
    fun frees => State.flushWritten_nil allChans fun d _ => hfl d
  have hunfold : s.writeBackDone e =
      (let frees := decide ((s.entry e).pending - (s.entry e).snapshot = 0) &&
        ((s.entry e).evicted || !((s.entry e).slot.any fun k => s.meterOpen k))
      let s2 := allChans.foldl (fun t c => t.flushWrittenOf c e frees) (s.unsnapped e)
      (((if frees then s2.freeEntry e else s2.lookDue e).recompute slot).offerWriteBack).settle) := by
    simp only [State.writeBackDone, hslot]
    rfl
  rw [hunfold]
  dsimp only
  rw [hfold, hslot]
  simp

end

end Sys2Proof.Machine
end


section
/-! What follows a completed access: a write-back that leaves its entry gathering, FREE, due again or evicted, and the roll's
next slot (R128 to R131, R145, R146). -/

namespace Sys2Proof.Machine

section

variable {s : State} {e : Fin 32} {slot : Nat} {r : Record}

/-! ## The write-back of an account without a budget -/

/-- A write-back in progress with no other access behind it, of an account without a budget and of an entry that no FLUSH
names. -/
structure State.WritesBack (s : State) (e : Fin 32) (slot : Nat) (r : Record) : Prop where
  busy       : s.arbiter = { current := some { who := .writeBack, write := .put slot r, result := .writeBack e } }
  holder     : (s.entry e).slot = some slot
  queue      : s.cache.queue = []
  flush      : ∀ c, s.cache.flush.get c = none
  restarting : s.cache.restarting = false
  budget     : r.budget = none
  normal     : (s.presenceOf slot).budget = some .normal

/-- The state in which a completed write-back has been taken off its entry (R131). -/
def State.unpended (s : State) (e : Fin 32) : State := s.writtenBack.unsnapped e

theorem State.unpended_entry (j : Fin 32) :
    (s.unpended e).entry j = if e = j then (s.entry e).afterWrite else s.entry j := by
  rw [State.unpended, State.unsnapped, State.entry_modEntry]
  split
  next h => rw [← h]; rfl
  next => rfl

theorem State.WritesBack.record (h : s.WritesBack e slot r) : (s.unpended e).recordAt slot = some r := by
  show tabGet slot s.storeCompleted.records = some r
  rw [State.storeCompleted, Arbiter.write, h.busy]
  exact tabGet_tabPut_self slot r _

theorem State.WritesBack.completed (h : s.WritesBack e slot r) : s.completeAccess =
    ((((if (s.entry e).pending - (s.entry e).snapshot = 0 ∧ ((s.entry e).evicted = true ∨ s.meterOpen slot = false) then
        (s.unpended e).freeEntry e
      else (s.unpended e).lookDue e).recompute slot).offerWriteBack).settle).serveNext .writeBack := by
  rw [State.completeAccess_writeBack h.busy, State.writeBackDone_unnamed (s := s.writtenBack) h.holder h.flush]
  rfl

/-- A write-back that leaves nothing pending and no meter open: the entry becomes FREE (R131). -/
theorem State.WritesBack.frees (h : s.WritesBack e slot r) (hw : s.cache.waiting = [])
    (hleft : (s.entry e).pending - (s.entry e).snapshot = 0) (hm : s.meterOpen slot = false) :
    s.completeAccess = ((s.unpended e).freeEntry e).modArbiter fun _ => {} := by
  rw [h.completed, if_pos ⟨hleft, .inr hm⟩]
  exact State.writeBackDone_idle (s := (s.unpended e).freeEntry e) h.queue hw rfl h.record h.budget h.normal

theorem State.WritesBack.isDue (h : s.WritesBack e slot r) (hev : (s.entry e).evicted = false) :
    (s.unpended e).isDue e = true ↔ 0 < (s.entry e).pending - (s.entry e).snapshot ∧
      (64 ≤ (s.entry e).pending - (s.entry e).snapshot ∨ s.meterOpen slot = false) := by
  have he : (s.unpended e).entry e = (s.entry e).afterWrite := by rw [State.unpended_entry, if_pos rfl]
  have := State.isDue_iff (s := s.unpended e) (e := e) (slot := slot) (by rw [he]; rfl) (by rw [he]; exact h.holder)
    (by rw [he]; exact hev) h.queue h.flush h.restarting
  rw [he] at this
  exact this

/-- A write-back that leaves fewer units than make an entry due, with a meter open: the entry goes on gathering (R131). -/
theorem State.WritesBack.gathers (h : s.WritesBack e slot r) (hw : s.cache.waiting = [])
    (hev : (s.entry e).evicted = false) (hleft : (s.entry e).pending - (s.entry e).snapshot < 64)
    (hm : s.meterOpen slot = true) : s.completeAccess = (s.unpended e).modArbiter fun _ => {} := by
  have hdue : ¬ (s.unpended e).isDue e = true := fun k => by
    rcases ((h.isDue hev).1 k).2 with h64 | hno
    · omega
    · exact Bool.false_ne_true (hno.symm.trans hm)
  rw [h.completed, if_neg (by rw [hev, hm]; simp), State.lookDue, if_neg hdue]
  exact State.writeBackDone_idle (s := s.unpended e) h.queue hw rfl h.record h.budget h.normal

/-- A write-back that leaves an entry due again: it is written back again (R131). -/
theorem State.WritesBack.repeats (h : s.WritesBack e slot r) (hw : s.cache.waiting = [])
    (hev : (s.entry e).evicted = false) (hleft : 64 ≤ (s.entry e).pending - (s.entry e).snapshot ∨
      0 < (s.entry e).pending - (s.entry e).snapshot ∧ s.meterOpen slot = false) :
    s.completeAccess = (s.unpended e).writingAgain e slot r := by
  have hdue : (s.unpended e).isDue e = true := (h.isDue hev).2 (by
    rcases hleft with h64 | ⟨hpos, hno⟩
    · exact ⟨by omega, .inl h64⟩
    · exact ⟨hpos, .inr hno⟩)
  rw [h.completed, if_neg (fun k => by have := k.1; omega), State.lookDue, if_pos hdue]
  refine State.writeBackDone_again (s := s.unpended e) h.queue hw rfl ?_ h.record h.budget h.normal
  rw [State.unpended_entry, if_pos rfl]
  exact h.holder

/-! ## An entry for an item of the waiting list -/

theorem State.entry_freeEntry (s : State) (e j : Fin 32) :
    (s.freeEntry e).entry j = if j = e then {} else s.entry j := vector_get_set ..

theorem State.entry_giveSlot (s : State) (e : Fin 32) (slot : Nat) (j : Fin 32) :
    (s.giveSlot e slot).entry j = if e = j then { slot := some slot, state := .gathering } else s.entry j :=
  State.entry_modEntry s e (fun _ => { slot := some slot, state := .gathering }) j

/-- The only FREE entry is the one that an item is given (assumption 18). -/
theorem State.freeEntry_only (he : (s.entry e).state = .free) (h : ∀ i, i ≠ e → (s.entry i).state ≠ .free) :
    s.freeEntry? = some e := by
  unfold State.freeEntry?
  cases hf : (List.finRange 32).find? fun e => (s.entry e).state = .free with
  | none => exact absurd (decide_eq_true he) (List.find?_eq_none.1 hf e (List.mem_finRange e))
  | some i =>
    by_cases hi : i = e
    · rw [hi]
    · have hfree := List.find?_some hf
      exact absurd (of_decide_eq_true hfree) (h i hi)

/-- An item that is alone on the waiting list is given the FREE entry, and the cache is at rest (R128). -/
theorem State.settle_gives {item : Item} (hw : s.cache.waiting = [item]) (hf : s.freeEntry? = some e)
    (hrest : (s.giveEntry e item).cache.waiting = []) : s.settle = s.giveEntry e item := by
  have honce : s.settleOnce = some (s.giveEntry e item) := by
    rw [State.settleOnce, hw]
    dsimp only
    rw [hf]
  have hnone : (s.giveEntry e item).settleOnce = none := by rw [State.settleOnce, hrest]
  rw [State.settle, hw]
  show (match s.settleOnce with | none => s | some t => State.settleLoop 2 t) = _
  rw [honce]
  show (match (s.giveEntry e item).settleOnce with | none => s.giveEntry e item | some t => State.settleLoop 1 t) = _
  rw [hnone]

/-- The entry that an item has been given, before its CHARGE is posted (R128). -/
def State.given (s : State) (e : Fin 32) (slot : Nat) : State :=
  (s.modCache fun c => { c with waiting := c.waiting.tail }).giveSlot e slot

/-- An item that holds one CHARGE alone, of an account whose meters have nothing unposted (R128). -/
theorem State.giveEntry_charge {c : ChanNo} {n : Nat} (hm : ∀ m ∈ s.rating.meters, m.slot = slot → m.unposted = 0) :
    s.giveEntry e { slot := slot, charges := [{ channel := c, amount := n }] } =
      (let p := (s.given e slot).postCharge e slot c n
      (p.1.answerCharge c p.2.1 p.2.2).lookFree e) := by
  have hzero : ∀ d : ChanNo, ({ slot := slot, charges := [{ channel := c, amount := n }] } : Item).closed.get d = 0 :=
    (by decide : ∀ d : ChanNo, (Vector.replicate 4 0 : Vector Nat 4).get d = 0)
  have hclosed : ∀ L : List ChanNo, L.foldl (fun t d =>
      if 0 < ({ slot := slot, charges := [{ channel := c, amount := n }] } : Item).closed.get d then
        (t.postFor e slot d (({ slot := slot, charges := [{ channel := c, amount := n }] } : Item).closed.get d)).1
      else t) (s.given e slot) = s.given e slot := fun L => by
    induction L with
    | nil => rfl
    | cons d L ih => rw [List.foldl_cons, if_neg (by rw [hzero]; decide), ih]
  have hmeters : (s.given e slot).rating.meters.filter (fun m => m.slot = slot ∧ 0 < m.unposted) = [] :=
    List.filter_eq_nil_iff.2 fun m hmem k => by
      obtain ⟨hs, hu⟩ := of_decide_eq_true k
      exact absurd hu (by rw [hm m hmem hs]; decide)
  have hclosed' := hclosed allChans
  unfold State.giveEntry
  dsimp only at hclosed' ⊢
  rw [show (s.modCache fun c => { c with waiting := c.waiting.tail }).giveSlot e slot = s.given e slot from rfl, hclosed',
    hmeters]
  rfl

end

end Sys2Proof.Machine
end


section
/-! Posting a CHARGE, the evicted entry that an item gets, the roll's next slot, and what completes (R128 to R130, R145,
R146, R162). -/

namespace Sys2Proof.Machine

section

variable {s : State} {e : Fin 32} {slot : Nat} {r : Record} {c : ChanNo}

/-! ## Posting a CHARGE -/

/-- An entry's pending has grown by `n`, and the entry is the most recently used one (R126, R127). -/
def State.gained (s : State) (e : Fin 32) (n : Nat) : State :=
  (s.modEntry e fun x => { x with pending := x.pending + n }).modCache fun c =>
    { c with recency := c.recency.erase e ++ [e] }

theorem State.entry_gained (s : State) (e : Fin 32) (n : Nat) (j : Fin 32) : (s.gained e n).entry j =
    if e = j then { s.entry j with pending := (s.entry j).pending + n } else s.entry j :=
  State.entry_modEntry s e (fun x => { x with pending := x.pending + n }) j

/-- A CHARGE is posted as far as the room goes; what is discarded raises SATURATE before the recompute (R127, R162,
R163). -/
theorem State.postCharge_eq {n : Nat} (h : (s.entry e).slot = some slot) :
    s.postCharge e slot c n =
      (let taken := min n (s.room slot)
      let t := (s.gained e taken).saturateChannel c slot (n - taken)
      ((if 0 < taken then t.recompute slot else t).lookDue e, if taken < n then .saturated else .done,
        chargeBody (s.total slot) taken)) := by
  have hadd : s.addPending e n = (s.gained e (min n (s.room slot)), min n (s.room slot)) := by
    rw [State.addPending, h]
    rfl
  have hslot : ∀ lost, (((s.gained e (min n (s.room slot))).saturateChannel c slot lost).entry e).slot = some slot := by
    intro lost
    have hent : ((s.gained e (min n (s.room slot))).entry e).slot = some slot := by
      rw [State.entry_gained, if_pos rfl]
      exact h
    have hframe : ∀ t : State, (t.saturateChannel c slot lost).entry e = t.entry e := fun t => by
      unfold State.saturateChannel State.raiseException State.postFault
      split
      · split
        · rfl
        · rfl
        all_goals
          split
          · rfl
          · dsimp only
            split <;> rfl
      · rfl
    rw [hframe, hent]
  simp only [State.postCharge, State.postFor, hadd, State.posted, hslot]

/-- A CHARGE for which there is room, of an account without a budget (R127, R162). -/
theorem State.postCharge_room {n : Nat} (h : (s.entry e).slot = some slot) (hroom : n ≤ s.room slot)
    (hb : s.budget slot = none) (hp : (s.presenceOf slot).budget = some .normal) :
    s.postCharge e slot c n = ((s.gained e n).lookDue e, .done, chargeBody (s.total slot) n) := by
  rw [State.postCharge_eq h, Nat.min_eq_left hroom]
  have hsat : (s.gained e n).saturateChannel c slot (n - n) = s.gained e n := by
    rw [Nat.sub_self]
    rfl
  have hrec : (if 0 < n then (s.gained e n).recompute slot else s.gained e n) = s.gained e n := by
    split
    · exact State.recompute_unlimited (s := s.gained e n) hb hp
    · rfl
  dsimp only
  rw [hsat, hrec, if_neg (Nat.lt_irrefl n)]

theorem State.lookFree_pending (h : 0 < (s.entry e).pending) : s.lookFree e = s :=
  if_neg fun k => absurd k.2.1 (by omega)

/-! ## The evicted entry -/

theorem State.serveNext_writeBack {a : Access} (h : s.arbiter = { current := some a, writeBack := some (e, some slot) }) :
    s.serveNext .writeBack = ({ s with arbiter := {} } : State).serveWriteBack e (some slot) := by
  have hfind : (roundAfter .writeBack).find? (s.modArbiter fun a => { a with current := none }).arbiter.waits =
      some .writeBack := by
    rw [State.modArbiter_arbiter, h]
    rfl
  rw [State.serveNext, hfind]
  simp only [State.serveWaiting, State.modArbiter, h]

/-- Nothing but one entry's write-back, what is queued for it, and the arbiter differ. -/
structure State.WritesOnly (s t : State) (e : Fin 32) : Prop where
  lines    : t.lines = s.lines
  channels : t.channels = s.channels
  store    : t.store = s.store
  waiting  : t.cache.waiting = s.cache.waiting
  evicting : t.cache.evicting = s.cache.evicting
  slot     : (t.entry e).slot = (s.entry e).slot
  pending  : (t.entry e).pending = (s.entry e).pending
  others   : ∀ i, i ≠ e → t.entry i = s.entry i

theorem State.WritesOnly.serveWriteBack (t : State) (e : Fin 32) (slot : Nat) :
    t.WritesOnly (t.serveWriteBack e (some slot)) e := by
  unfold State.serveWriteBack
  dsimp only
  split
  · have hent : ∀ i, (((t.modCache fun c => { c with queue := c.queue.erase e }).modEntry e fun x =>
        { x with state := .writing, snapshot := (t.entry e).pending }).entry i) =
          if e = i then { t.entry i with state := .writing, snapshot := (t.entry e).pending } else t.entry i :=
      fun i => State.entry_modEntry ..
    have hself := (hent e).trans (if_pos rfl)
    have hslot := congrArg Entry.slot hself
    have hpending := congrArg Entry.pending hself
    exact ⟨rfl, rfl, rfl, rfl, rfl, hslot, hpending,
      fun i hi => (hent i).trans (if_neg (Ne.symm hi))⟩
  · exact ⟨rfl, rfl, rfl, rfl, rfl, rfl, rfl, fun _ _ => rfl⟩

/-- What a write-back that has just been taken leaves for the next round: an entry that is due is served (R38, R131). -/
theorem State.lookDue_serveNext (hq : s.cache.queue = []) (ha : s.arbiter = { current := some takenWriteBack })
    (he : (s.entry e).slot = some slot) (f : Channel → Channel) :
    (s.modChan c f).WritesOnly (((s.lookDue e).modChan c f).serveNext .writeBack) e := by
  by_cases hdue : s.isDue e = true
  · rw [State.lookDue, if_pos hdue, State.enqueueEntry_taken hq ha he]
    generalize ht : (((s.modCache fun k => { k with queue := [e] }).modArbiter fun a =>
      { a with writeBack := some (e, some slot) }).modChan c f) = t
    have harb : t.arbiter = { current := some takenWriteBack, writeBack := some (e, some slot) } := by
      rw [← ht]
      simp only [State.modChan_arbiter, State.modArbiter_arbiter, State.modCache_arbiter, ha]
    have hserved : (s.modChan c f).WritesOnly t e := by
      rw [← ht]
      exact ⟨rfl, rfl, rfl, rfl, rfl, rfl, rfl, fun _ _ => rfl⟩
    rw [State.serveNext_writeBack harb]
    have hback : t.WritesOnly (({ t with arbiter := {} } : State).serveWriteBack e (some slot)) e :=
      have h := State.WritesOnly.serveWriteBack { t with arbiter := {} } e slot
      ⟨h.lines, h.channels, h.store, h.waiting, h.evicting, h.slot, h.pending, h.others⟩
    exact ⟨hback.lines.trans hserved.lines, hback.channels.trans hserved.channels, hback.store.trans hserved.store,
      hback.waiting.trans hserved.waiting, hback.evicting.trans hserved.evicting, hback.slot.trans hserved.slot,
      hback.pending.trans hserved.pending, fun i hi => (hback.others i hi).trans (hserved.others i hi)⟩
  · rw [State.lookDue, if_neg hdue, State.serveNext_taken (s := s.modChan c f) ha]
    exact ⟨rfl, rfl, rfl, rfl, rfl, rfl, rfl, fun _ _ => rfl⟩

end

end Sys2Proof.Machine
end


section
/-! An evicted entry's write-back, the roll's next slot, and the obligation about completed accesses (R36 to R38, R128 to
R131, R145, R146). -/

namespace Sys2Proof.Machine

section

variable {s t : State} {e : Fin 32} {slot j n : Nat} {r q : Record} {c : ChanNo}

/-! ## The evicted entry -/

theorem State.slot_ne_of_entryOf (h : s.entryOf slot = none) (i : Fin 32) : (s.entry i).slot ≠ some slot := fun k =>
  List.find?_eq_none.1 h i (List.mem_finRange i) (decide_eq_true k)

theorem State.entryOf_only (he : (s.entry e).slot = some slot) (h : ∀ i, i ≠ e → (s.entry i).slot ≠ some slot) :
    s.entryOf slot = some e := by
  cases hf : s.entryOf slot with
  | none => exact absurd he (State.slot_ne_of_entryOf hf e)
  | some i =>
    by_cases hi : i = e
    · rw [hi]
    · exact absurd (State.entryOf_slot hf) (h i hi)

theorem State.answerCharge_taken {o : Outcome} {body : List Byte} (h : s.arbiter.current = some takenWriteBack) :
    s.answerCharge c o body = s.answer c o body := by
  rw [State.answerCharge, h]
  rfl

/-- What the entry of a completed eviction, given to an item with one CHARGE, is found with (R127, R128). -/
structure State.Posts (s : State) (e : Fin 32) (j n : Nat) (q : Record) : Prop where
  entry  : s.entry e = { slot := some j, state := .gathering }
  alone  : ∀ i, i ≠ e → (s.entry i).slot ≠ some j
  record : s.recordAt j = some q
  budget : s.budget j = none
  normal : (s.presenceOf j).budget = some .normal
  room   : q.used + n ≤ 16777215

theorem State.Posts.pendingOf (h : s.Posts e j n q) : s.pendingOf j = 0 := by
  rw [State.pendingOf, State.entryOf_only (by rw [h.entry]) h.alone]
  exact congrArg Entry.pending h.entry

theorem State.Posts.postCharge (h : s.Posts e j n q) (hb : s.budgetRecord j = some q) :
    s.postCharge e j c n = ((s.gained e n).lookDue e, .done, bytesBE 3 q.used ++ bytesBE 3 n) := by
  have hroom : n ≤ s.room j := by
    rw [State.room, h.record, h.pendingOf, Option.map_some, Option.getD_some]
    have := h.room
    show n ≤ 16777215 - (q.used + 0)
    omega
  have htotal : s.total j = q.used := by
    rw [State.total, hb, h.pendingOf]
    rfl
  rw [State.postCharge_room (by rw [h.entry]) hroom h.budget h.normal, htotal]
  rfl

/-- The state in which an evicted entry has become FREE and been given to another account (R128, R131). -/
def State.regiven (s : State) (e : Fin 32) (j : Nat) : State := ((s.unpended e).freeEntry e).given e j

theorem State.regiven_entry (i : Fin 32) : (s.regiven e j).entry i =
    if e = i then { slot := some j, state := .gathering } else s.entry i := by
  rw [State.regiven, State.given, State.entry_giveSlot]
  split
  · rfl
  · next hi =>
    refine (State.entry_freeEntry (s.unpended e) e i).trans ?_
    rw [if_neg (Ne.symm hi), State.unpended_entry, if_neg hi]

theorem State.regiven_channels : (s.regiven e j).channels = s.channels := rfl

theorem State.regiven_arbiter : (s.regiven e j).arbiter = { current := some takenWriteBack } := rfl

theorem State.gained_channels : (s.gained e n).channels = s.channels := rfl

theorem State.gained_arbiter : (s.gained e n).arbiter = s.arbiter := rfl

/-- The write-back of an evicted entry: the entry goes to the item at the head of the waiting list, whose CHARGE is posted
and answered (R128 to R130). -/
theorem State.WritesBack.regives {a : Order} {rest : List Order} (h : s.WritesBack e slot r)
    (hev : (s.entry e).evicted = true) (hsnap : (s.entry e).pending = (s.entry e).snapshot)
    (hw : s.cache.waiting = [{ slot := j, charges := [{ channel := c, amount := n }] }])
    (hfree : ∀ i, i ≠ e → (s.entry i).state ≠ .free) (hnone : s.entryOf j = none)
    (hq : tabGet j s.storeCompleted.records = some q) (hqb : q.budget = none)
    (hp : (s.presenceOf j).budget = some .normal) (hm : ∀ m ∈ s.rating.meters, m.slot = j → m.unposted = 0)
    (hn : 0 < n) (hroom : q.used + n ≤ 16777215) (ho : (s.chan c).orders = a :: rest) :
    (((s.regiven e j).gained e n).modChan c fun ch =>
      { ch with reply := some { outcome := .done, seq := a.seq, body := bytesBE 3 q.used ++ bytesBE 3 n } }).WritesOnly
        s.completeAccess e := by
  have hfreed : ((s.unpended e).freeEntry e).freeEntry? = some e := by
    refine State.freeEntry_only (by rw [State.entry_freeEntry, if_pos rfl]) fun i hi => ?_
    rw [State.entry_freeEntry, if_neg hi, State.unpended_entry, if_neg (Ne.symm hi)]
    exact hfree i hi
  have hposts : (s.regiven e j).Posts e j n q :=
    { entry := by rw [State.regiven_entry, if_pos rfl]
      alone := fun i hi => by
        rw [State.regiven_entry, if_neg (Ne.symm hi)]
        exact State.slot_ne_of_entryOf hnone i
      record := hq
      budget := by
        show (tabGet j s.storeCompleted.records).bind (·.budget) = none
        rw [hq]
        exact hqb
      normal := hp
      room := hroom }
  have hbusy : KeepsBusy ((s.regiven e j).gained e n) (((s.regiven e j).gained e n).lookDue e) :=
    keepsBusy_lookDue e (by rw [State.gained_arbiter, State.regiven_arbiter]; rfl)
  have hchannels : ((s.regiven e j).gained e n).channels = s.channels :=
    State.gained_channels.trans State.regiven_channels
  have horders : ((((s.regiven e j).gained e n).lookDue e).chan c).orders = a :: rest := by
    rw [State.chan_of_channels (hbusy.channels.trans hchannels)]
    exact ho
  have harb : ((s.regiven e j).gained e n).arbiter = { current := some takenWriteBack } :=
    State.gained_arbiter.trans State.regiven_arbiter
  have hcurrent : (((s.regiven e j).gained e n).lookDue e).arbiter.current = some takenWriteBack :=
    hbusy.current.trans (by rw [harb])
  have hgained : ((s.regiven e j).gained e n).entry e = { slot := some j, pending := n, state := .gathering } := by
    rw [State.entry_gained, if_pos rfl, State.regiven_entry, if_pos rfl]
    simp
  generalize hf : (fun ch : Channel =>
    { ch with reply := some { outcome := .done, seq := a.seq, body := bytesBE 3 q.used ++ bytesBE 3 n } }) = f
  have hcharge : ((((s.regiven e j).postCharge e j c n).1.answerCharge c ((s.regiven e j).postCharge e j c n).2.1
      ((s.regiven e j).postCharge e j c n).2.2).lookFree e) =
        (((s.regiven e j).gained e n).lookDue e).modChan c f := by
    rw [hposts.postCharge hq]
    dsimp only
    rw [State.answerCharge_taken hcurrent, State.answer_at horders, hf]
    refine State.lookFree_pending ?_
    show 0 < ((((s.regiven e j).gained e n).lookDue e).entry e).pending
    rw [State.entry, hbusy.entries]
    exact (congrArg Entry.pending hgained).symm ▸ hn
  have hgive : ((s.unpended e).freeEntry e).giveEntry e { slot := j, charges := [{ channel := c, amount := n }] } =
      (((s.regiven e j).gained e n).lookDue e).modChan c f :=
    (State.giveEntry_charge (s := (s.unpended e).freeEntry e) hm).trans hcharge
  have hwait : ((((s.regiven e j).gained e n).lookDue e).modChan c f).cache.waiting = [] := by
    refine hbusy.waiting.trans ?_
    show s.cache.waiting.tail = []
    rw [hw]
    rfl
  rw [h.completed, if_pos ⟨by omega, .inl hev⟩,
    State.recompute_taken (s := (s.unpended e).freeEntry e) rfl h.record h.budget h.normal,
    State.offerWriteBack_nil (s := (s.unpended e).freeEntry e) h.queue,
    State.settle_gives (s := (s.unpended e).freeEntry e) hw hfreed (by rw [hgive]; exact hwait), hgive]
  exact State.lookDue_serveNext (s := (s.regiven e j).gained e n) h.queue harb (by rw [hgained]) f

/-! ## The roll -/

theorem State.leaveFlush_none (hfl : ∀ c, s.cache.flush.get c = none) : s.leaveFlush e = s := by
  have hof : ∀ c, s.leaveFlushOf c e = s := fun c => by rw [State.leaveFlushOf, hfl c]
  unfold State.leaveFlush
  generalize allChans = L
  induction L with
  | nil => rfl
  | cons c L ih => rw [List.foldl_cons, hof, ih]

/-- The roll of an account without a budget takes what its entry has pending (R146). -/
theorem State.serveRoll_takes (hr : s.recordAt slot = some r) (hs : r.stamp ≠ s.store.periodNumber)
    (hb : r.budget = none) (hw : s.cache.waiting = []) (hfl : ∀ c, s.cache.flush.get c = none)
    (hp : (s.presenceOf slot).budget = some .normal) :
    ∃ t, s.serveRoll slot = t ∧
      t.arbiter = { s.arbiter with current := some { who := .roll, write := .put slot { r with
        previous := r.used + s.pendingOf slot, used := 0, stamp := s.store.periodNumber }, result := .roll slot } } ∧
      (∀ e, s.entryOf slot = some e → (t.entry e).pending = 0) ∧
      (∀ e, s.entryOf slot ≠ some e → t.entry e = s.entry e) ∧ t.lines = s.lines ∧ t.channels = s.channels ∧
      t.rating = s.rating ∧ t.store = s.store := by
  cases he : s.entryOf slot with
  | none =>
    rw [State.serveRoll_plain hr hs hb hw he hp, State.pendingOf_none he]
    exact ⟨_, rfl, rfl, (fun _ h => nomatch h), fun _ _ => rfl, rfl, rfl, rfl, rfl⟩
  | some e =>
    have hpend : s.pendingOf slot = (s.entry e).pending := by rw [State.pendingOf, he]
    generalize ht : (s.serve .roll (.put slot (r.rolled (s.entry e).pending s.store.periodNumber)) (.roll slot)).modEntry e
      (fun x => { x with pending := x.pending - (s.entry e).pending }) = t
    have hentry : ∀ i, t.entry i = if e = i then { s.entry i with pending := (s.entry i).pending - (s.entry e).pending }
        else s.entry i := fun i => by rw [← ht]; exact State.entry_modEntry ..
    have hslots : t.entryOf slot = some e := by
      rw [← he]
      refine State.entryOf_of_slots (fun i => ?_) slot
      rw [hentry]
      split <;> rfl
    have hzero : (t.entry e).pending = 0 := by rw [hentry, if_pos rfl]; exact Nat.sub_self _
    have hflush : ∀ c, t.cache.flush.get c = none := fun c => by rw [← ht]; exact hfl c
    have hleave : (if 0 < (s.entry e).pending then t.leaveFlush e else t) = t := by
      rw [State.leaveFlush_none hflush]
      exact ite_self _
    have hbudget : t.budget slot = none := by
      rw [← ht]
      simp [State.budget, State.budgetRecord, State.serve, State.modArbiter, State.modEntry, State.modCache, Record.rolled, hb]
    have hrec : t.recompute slot = t := State.recompute_unlimited hbudget (by rw [← ht]; exact hp)
    have hdue : t.lookDue e = t := by
      rw [State.lookDue, if_neg]
      simp [State.isDue, hzero, Cache.flushNames_none hflush]
    have hlook : t.lookAccount slot = t.lookFree e := by rw [State.lookAccount, hslots]; dsimp only; rw [hdue]
    have hroll : s.serveRoll slot = t.lookFree e := by
      have hwait : (t.lookFree e).cache.waiting = [] := by
        rw [(quiet_lookFree t e).waiting, ← ht]
        exact hw
      simp only [State.serveRoll, hr, if_neg hs, he, hpend, ht]
      rw [hleave, hrec, hlook, State.settle_empty hwait]
    have hkeep : t.lookFree e = t ∨ t.lookFree e = t.freeEntry e := by
      unfold State.lookFree
      dsimp only
      split
      · exact .inr rfl
      · exact .inl rfl
    refine ⟨t.lookFree e, hroll, ?_, fun i hi => ?_, fun i hi => ?_, ?_⟩
    · rw [hpend]
      rcases hkeep with h | h <;> rw [h, ← ht] <;> rfl
    · obtain rfl := Option.some.inj hi
      rcases hkeep with h | h <;> rw [h]
      · exact hzero
      · rw [State.entry_freeEntry, if_pos rfl]
    · have hne : e ≠ i := fun k => hi (by rw [k])
      rcases hkeep with h | h <;> rw [h]
      · rw [hentry, if_neg hne]
      · rw [State.entry_freeEntry, if_neg (Ne.symm hne), hentry, if_neg hne]
    · rcases hkeep with h | h <;> rw [h, ← ht] <;> exact ⟨rfl, rfl, rfl, rfl⟩

end

end Sys2Proof.Machine
end


section
/-! The obligation about completed accesses (R36 to R38, R128 to R131, R145, R146). -/

namespace Sys2Proof.Machine

section

variable {s : State} {e : Fin 32} {slot : Nat} {c : ChanNo} {w : StoreWrite} {o : Outcome} {body : List Byte}

/-- The state in which the reply of a completed access waits for the link, the arbiter idle (R36). -/
def State.replyTaken (s : State) (c : ChanNo) (r : Reply) : State :=
  ({ s with store := s.storeCompleted, arbiter := {} } : State).modChan c fun ch => { ch with reply := some r }

/-- An access of an order completes with none waiting (R36, R38). -/
theorem State.completeAccess_last {a : Order} {rest : List Order} (ho : (s.chan c).orders = a :: rest)
    (h : s.arbiter = { current := some { who := .chan c, write := w, result := .reply c o body } }) :
    s.completeAccess = s.replyTaken c { outcome := o, seq := a.seq, body := body } := by
  rw [State.completeAccess_reply ho (by rw [h]), State.serveNext_taken (a := { who := .chan c, write := .nothing, result := .taken })]
  · rfl
  · simp only [State.modChan_arbiter, State.taken, h]

/-- An access of an order completes, and the READ that waits is served, here of a number that no account has (R36, R38). -/
theorem State.completeAccess_thenRead {a : Order} {rest : List Order} {d : ChanNo} {n1 n0 : Byte} {f : OrderFrame}
    (ho : (s.chan c).orders = a :: rest)
    (h : s.arbiter = { current := some { who := .chan c, write := w, result := .reply c o body },
                       chans := (Vector.replicate 4 false).set d true })
    (hd : d ≠ c) (hread : (s.chan d).orders = [orderOf 12 f]) (hf : f.fits 2) (hb : f.body = [n1, n0])
    (hnone : tabGet (n1.toNat * 256 + n0.toNat) s.storeCompleted.directory = none) :
    s.completeAccess = (s.replyTaken c { outcome := o, seq := a.seq, body := body }).accessing d .nothing
      (.reply d .notFound []) := by
  rw [State.completeAccess_reply ho (by rw [h]),
    State.serveNext_chan (a := { who := .chan c, write := .nothing, result := .taken }) (d := d)]
  · have hbody : bodyField (orderOf 12 f).body 0 2 = n1.toNat * 256 + n0.toNat := by
      rw [orderOf_body hf (by decide)]
      exact bodyField_number hb
    have horders : ((s.replyTaken c { outcome := o, seq := a.seq, body := body }).chan d).orders = [orderOf 12 f] := by
      rw [State.replyTaken, State.chan_modChan_ne _ _ hd]
      exact hread
    refine Eq.trans (b := (s.replyTaken c { outcome := o, seq := a.seq, body := body }).serveOrder d) rfl ?_
    rw [State.serveOrder, horders]
    show State.serveRead _ d (bodyField (orderOf 12 f).body 0 2) = _
    rw [hbody, State.serveRead_none]
    exact hnone
  · simp only [State.modChan_arbiter, State.taken, h]

/-! ## A completed write-back -/

/-- A completed write-back has written the store, and changed one entry and the arbiter. -/
structure State.WroteOnly (s t : State) (e : Fin 32) : Prop where
  store    : t.store = s.storeCompleted
  others   : ∀ j, j ≠ e → t.entry j = s.entry j
  lines    : t.lines = s.lines
  channels : t.channels = s.channels

theorem State.WroteOnly.freed : s.WroteOnly (((s.unpended e).freeEntry e).modArbiter fun _ => {}) e :=
  ⟨rfl, fun j hj => (State.entry_freeEntry (s.unpended e) e j).trans (by
    rw [if_neg hj, State.unpended_entry, if_neg (Ne.symm hj)]), rfl, rfl⟩

theorem State.WroteOnly.gathering : s.WroteOnly ((s.unpended e).modArbiter fun _ => {}) e :=
  ⟨rfl, fun j hj => (State.unpended_entry j).trans (if_neg (Ne.symm hj)), rfl, rfl⟩

theorem State.entry_writingAgain (r : Record) (j : Fin 32) : (s.writingAgain e slot r).entry j =
    if e = j then { s.entry j with state := .writing, snapshot := (s.entry j).pending } else s.entry j :=
  State.entry_modEntry s e (fun x => { x with state := .writing, snapshot := x.pending }) j

theorem State.WroteOnly.again (r : Record) : s.WroteOnly ((s.unpended e).writingAgain e slot r) e :=
  ⟨rfl, fun j hj => by
    rw [State.entry_writingAgain, if_neg (Ne.symm hj), State.unpended_entry, if_neg (Ne.symm hj)], rfl, rfl⟩

/-- Whatever becomes of its entry, a completed write-back of an entry that is not evicted writes nothing else (R131). -/
theorem State.WritesBack.wroteOnly {r : Record} (h : s.WritesBack e slot r) (hw : s.cache.waiting = [])
    (hev : (s.entry e).evicted = false) : s.WroteOnly s.completeAccess e := by
  cases hm : s.meterOpen slot with
  | true =>
    by_cases hleft : (s.entry e).pending - (s.entry e).snapshot < 64
    · exact h.gathers hw hev hleft hm ▸ State.WroteOnly.gathering
    · exact h.repeats hw hev (.inl (Nat.not_lt.1 hleft)) ▸ State.WroteOnly.again r
  | false =>
    by_cases hleft : (s.entry e).pending - (s.entry e).snapshot = 0
    · exact h.frees hw hleft hm ▸ State.WroteOnly.freed
    · exact h.repeats hw hev (.inr ⟨Nat.pos_of_ne_zero hleft, hm⟩) ▸ State.WroteOnly.again r

theorem State.regiven_waiting (j : Nat) : (s.regiven e j).cache.waiting = s.cache.waiting.tail := rfl

theorem State.given_evicting (j : Nat) : (s.given e j).cache.evicting = s.cache.evicting := rfl

theorem State.freeEntry_evicting : (s.freeEntry e).cache.evicting = (s.cache.evicting && !(s.entry e).evicted) := rfl

/-- An eviction that waited for an entry has ended when the entry is given to another account (R130). -/
theorem State.regiven_evicting (j : Nat) (hev : (s.entry e).evicted = true) :
    (s.regiven e j).cache.evicting = false := by
  have h : ((s.unpended e).entry e).evicted = true := by
    rw [State.unpended_entry, if_pos rfl]
    exact hev
  rw [State.regiven, State.given_evicting, State.freeEntry_evicting, h, Bool.not_true, Bool.and_false]

theorem State.gained_evicting (n : Nat) : (s.gained e n).cache.evicting = s.cache.evicting := rfl

theorem State.gained_waiting (n : Nat) : (s.gained e n).cache.waiting = s.cache.waiting := rfl

theorem State.regiven_lines (j : Nat) : (s.regiven e j).lines = s.lines := rfl

theorem State.gained_lines (n : Nat) : (s.gained e n).lines = s.lines := rfl

theorem State.regiven_store (j : Nat) : (s.regiven e j).store = s.storeCompleted := rfl

theorem State.gained_store (n : Nat) : (s.gained e n).store = s.store := rfl

/-- What the completed write-back of an evicted entry leaves, where an item with one CHARGE waits for the entry (R128 to
R130). -/
theorem State.WritesBack.regives_spec {r q : Record} {j n : Nat} {a : Order} {rest : List Order}
    (h : s.WritesBack e slot r) (hev : (s.entry e).evicted = true) (hsnap : (s.entry e).pending = (s.entry e).snapshot)
    (hw : s.cache.waiting = [{ slot := j, charges := [{ channel := c, amount := n }] }])
    (hfree : ∀ i, i ≠ e → (s.entry i).state ≠ .free) (hnone : s.entryOf j = none)
    (hq : tabGet j s.storeCompleted.records = some q) (hqb : q.budget = none)
    (hp : (s.presenceOf j).budget = some .normal) (hm : ∀ m ∈ s.rating.meters, m.slot = j → m.unposted = 0)
    (hn : 0 < n) (hroom : q.used + n ≤ 16777215) (ho : (s.chan c).orders = a :: rest) :
    let t := s.completeAccess
    t.store = s.storeCompleted ∧ t.cache.waiting = [] ∧ t.cache.evicting = false ∧ (t.entry e).slot = some j ∧
      (t.entry e).pending = n ∧ (∀ i, i ≠ e → t.entry i = s.entry i) ∧ (∀ l, t.line l = s.line l) ∧
      t.chan c = { s.chan c with
        reply := some { outcome := .done, seq := a.seq, body := bytesBE 3 q.used ++ bytesBE 3 n } } ∧
      ∀ d, d ≠ c → t.chan d = s.chan d := by
  intro t
  have hentry : ((s.regiven e j).gained e n).entry e = { slot := some j, pending := n, state := .gathering } := by
    rw [State.entry_gained, if_pos rfl, State.regiven_entry, if_pos rfl]
    simp
  have hchannels : ((s.regiven e j).gained e n).channels = s.channels :=
    State.gained_channels.trans State.regiven_channels
  obtain ⟨hlines, hchans, hstore, hwaiting, hevicting, hslot, hpending, hothers⟩ :=
    h.regives hev hsnap hw hfree hnone hq hqb hp hm hn hroom ho
  refine ⟨hstore.trans ?_, hwaiting.trans ?_, hevicting.trans ?_, hslot.trans (congrArg Entry.slot hentry),
    hpending.trans (congrArg Entry.pending hentry), fun i hi => (hothers i hi).trans ?_,
    State.line_of_lines (hlines.trans ?_), ?_, fun d hd => ?_⟩
  · rw [State.modChan_store, State.gained_store, State.regiven_store]
  · rw [State.modChan_cache, State.gained_waiting, State.regiven_waiting, hw]
    rfl
  · rw [State.modChan_cache, State.gained_evicting, State.regiven_evicting j hev]
  · refine Eq.trans (b := ((s.regiven e j).gained e n).entry i) rfl ?_
    rw [State.entry_gained, if_neg (Ne.symm hi), State.regiven_entry, if_neg (Ne.symm hi)]
  · rw [State.modChan_lines, State.gained_lines, State.regiven_lines]
  · rw [State.chan_of_channels hchans, State.chan_modChan_self, State.chan_of_channels hchannels]
  · rw [State.chan_of_channels hchans, State.chan_modChan_ne _ _ hd, State.chan_of_channels hchannels]

/-! ## What a completed write leaves -/

theorem State.storeCompleted_of {a : Access} (h : s.arbiter.current = some a) : s.storeCompleted = s.store.apply a.write := by
  rw [State.storeCompleted, Arbiter.write, h]
  rfl

/-! ## The roll -/

/-- The state in which an access of the roll has been taken (R146). -/
def State.rolledOn (s : State) (slot : Nat) : State :=
  (s.taken .roll).modStore fun st => { st with rollIndex := slot + 1 }

theorem State.rolledOn_arbiter (h : s.arbiter = { current := some { who := .roll, write := w, result := .roll slot } }) :
    (s.rolledOn slot).arbiter = { current := some { who := .roll, write := .nothing, result := .taken } } := by
  show (s.taken .roll).arbiter = _
  rw [State.taken, h]

theorem State.completeAccess_roll (h : s.arbiter.current = some { who := .roll, write := w, result := .roll slot }) :
    s.completeAccess = (s.rolledOn slot).rollVisit.serveNext .roll := State.completeAccess_taken h

/-- The roll's next slot is served where nothing else waits (R38, R145). -/
theorem State.serveNext_roll {a : Access} {k : Nat} (h : s.arbiter = { current := some a, roll := some k }) :
    s.serveNext .roll = ({ s with arbiter := {} } : State).serveRoll k := by
  have hfind : (roundAfter .roll).find? (s.modArbiter fun a => { a with current := none }).arbiter.waits = some .roll := by
    rw [State.modArbiter_arbiter, h]
    rfl
  rw [State.serveNext, hfind]
  simp only [State.serveWaiting, State.modArbiter, h]

/-- The last access of the roll completes: the close ends, and the UP channels are told (R145). -/
theorem State.completeAccess_rollEnds
    (h : s.arbiter = { current := some { who := .roll, write := w, result := .roll slot } })
    (hclose : (s.rolledOn slot).store.periodState = .closing) (hnone : (s.rolledOn slot).store.nextDue = none) :
    let t := s.completeAccess
    t.store = { s.storeCompleted with rollIndex := 4096, periodState := .opened } ∧ t.arbiter = {} ∧
      (∀ c, t.chan c =
        if (s.chan c).state = .up then
          (s.chan c).noted (noticePeriodClosed s.storeCompleted.periodNumber s.rating.calendar)
        else s.chan c) ∧
      (∀ l, t.line l = s.line l) ∧ t.cache = s.cache ∧ t.rating = s.rating := by
  generalize hu : ((s.rolledOn slot).modStore fun st => { st with rollIndex := 4096, periodState := .opened }) = u
  generalize hn : noticePeriodClosed s.storeCompleted.periodNumber s.rating.calendar = n
  have harb : u.arbiter = { current := some { who := .roll, write := .nothing, result := .taken } } := by
    rw [← hu]
    exact State.rolledOn_arbiter h
  have hstore : u.store = { s.storeCompleted with rollIndex := 4096, periodState := .opened } := by rw [← hu]; rfl
  have hchannels : u.channels = s.channels := by rw [← hu]; rfl
  have hlines : u.lines = s.lines := by rw [← hu]; rfl
  have hcache : u.cache = s.cache := by rw [← hu]; rfl
  have hrating : u.rating = s.rating := by rw [← hu]; rfl
  have hvisit : (s.rolledOn slot).rollVisit = u.noticeToUp n := by
    rw [State.rollVisit_ends hclose hnone, hu, ← hn]
    rfl
  have hnoted : ∀ c, (u.noticeToUp n).chan c = if (s.chan c).state = .up then (s.chan c).noted n else s.chan c :=
    fun c => by rw [State.chan_noticeToUp, State.chan_of_channels hchannels]
  obtain ⟨x, hx⟩ := u.noticeToUp_eq n
  rw [hx] at hvisit hnoted
  have hdone : s.completeAccess = { u with channels := x, arbiter := {} } := by
    rw [State.completeAccess_roll (by rw [h]), hvisit]
    exact State.serveNext_taken (s := { u with channels := x }) harb
  rw [hdone]
  exact ⟨hstore, rfl, hnoted, State.line_of_lines hlines, hcache, hrating⟩

/-- The state in which the roll's next slot is served (R145). -/
def State.rollsAt (s : State) (k : Nat) : State :=
  { s with store := { s.storeCompleted with rollIndex := k }, arbiter := {} }

/-- What the roll of a slot finds once the access before it has completed (R145, R146). -/
theorem State.rollsAt_serveRoll {k : Nat} {r : Record} (hget : tabGet k s.storeCompleted.records = some r)
    (hr : r.stamp ≠ s.storeCompleted.periodNumber) (hb : r.budget = none) (hw : s.cache.waiting = [])
    (hfl : ∀ c, s.cache.flush.get c = none) (hp : (s.presenceOf k).budget = some .normal) :
    ∃ t, (s.rollsAt k).serveRoll k = t ∧
      t.store = { s.storeCompleted with rollIndex := k } ∧
      t.arbiter.current = some
        { who := .roll,
          write := .put k { r with previous := r.used + s.pendingOf k, used := 0, stamp := s.storeCompleted.periodNumber },
          result := .roll k } ∧
      (∀ e, s.entryOf k = some e → (t.entry e).pending = 0) ∧ (∀ e, s.entryOf k ≠ some e → t.entry e = s.entry e) ∧
      (∀ l, t.line l = s.line l) ∧ (∀ c, t.chan c = s.chan c) ∧ t.rating = s.rating := by
  obtain ⟨t, ht, harb, hzero, hkeep, hlines, hchannels, hrating, hstore⟩ :=
    State.serveRoll_takes (s := s.rollsAt k) (slot := k) hget hr hb hw hfl hp
  exact ⟨t, ht, hstore, by rw [harb]; rfl, hzero, hkeep, State.line_of_lines hlines, State.chan_of_channels hchannels, hrating⟩

theorem Store.apply_periodState (st : Store) (w : StoreWrite) : (st.apply w).periodState = st.periodState := by
  cases w <;> rfl

end

/-- Settles O53: the round is a rising list; each clause is what one requester's result leaves. -/
theorem completedAccessesWriteTheStore : Obligations.CompletedAccessesWriteTheStore := by
  refine ⟨fun a last r => ?_, fun s hp => ⟨fun hi => ⟨?_, ?_⟩, fun a ha hwho => ?_, ?_, ?_, ?_, ?_⟩⟩
  · exact find_first_iff (roundAfter_rises last) (mem_roundAfter last) a.waits r
  · rw [exec_accessComplete hp, State.completeAccess_none hi]
  · exact exec_writeBackCompleted_other hp fun a ha => nomatch (hi.symm.trans ha)
  · exact exec_writeBackCompleted_other hp fun b hb => by rw [← Option.some.inj (ha.symm.trans hb)]; exact hwho
  · intro c w o body a rest ho t
    refine ⟨fun h => ⟨?_, fun hok hadmits => ?_⟩, fun d n1 n0 f h hd hread hf hb hnone => ?_⟩
    · rw [exec_accessComplete hp, State.completeAccess_last ho h]
      rfl
    · refine ⟨_, exec_accessComplete hp, ?_⟩
      have hstore : s.completeAccess.started.store = s.store.apply w := by
        rw [State.started_store, State.completeAccess_last ho h]
        exact State.storeCompleted_of (by rw [h])
      have hrec : ∀ j, s.completeAccess.started.recordAt j = tabGet j (s.store.apply w).records := fun j => by
        rw [State.recordAt, hstore]
      have hlook : ∀ n, s.completeAccess.started.lookup n = tabGet n (s.store.apply w).directory := fun n => by
        rw [State.lookup, hstore]
      refine ⟨fun hw => ?_, fun slot r hw => ?_, fun slot r hw => ?_, fun slot number hw => ?_⟩
      · rw [hstore, hw]
        rfl
      · subst hw
        exact ⟨(hrec slot).trans (tabGet_tabPut_self ..),
          fun j hj => (hrec j).trans ((tabGet_tabPut ..).trans (if_neg (Ne.symm hj))), hlook⟩
      · subst hw
        exact ⟨(hrec slot).trans (tabGet_tabPut_self ..), (hlook _).trans (tabGet_tabPut_self ..),
          fun j hj => (hrec j).trans ((tabGet_tabPut ..).trans (if_neg (Ne.symm hj))),
          fun n hn => (hlook n).trans ((tabGet_tabPut ..).trans (if_neg (Ne.symm hn)))⟩
      · subst hw
        exact ⟨(hrec slot).trans ((tabGet_tabErase ..).trans (if_pos rfl)),
          (hlook number).trans ((tabGet_tabErase ..).trans (if_pos rfl)),
          fun j hj => (hrec j).trans ((tabGet_tabErase ..).trans (if_neg (Ne.symm hj))),
          fun n hn => (hlook n).trans ((tabGet_tabErase ..).trans (if_neg (Ne.symm hn)))⟩
    · rw [exec_accessComplete hp, State.completeAccess_thenRead ho h hd hread hf hb hnone]
      rfl
  · intro e slot r x left harb hslot hst hev hq hw hfl hre hb hnormal
    have h : s.WritesBack e slot r := ⟨harb, hslot, hq, hfl, hre, hb, hnormal⟩
    have hcur : s.arbiter.current = some { who := .writeBack, write := .put slot r, result := .writeBack e } := by rw [harb]
    refine ⟨s.completeAccess, exec_accessComplete hp, exec_writeBackCompleted hp hcur rfl, ?_⟩
    obtain ⟨hstore, hothers, hlines, hchannels⟩ := h.wroteOnly hw hev
    refine ⟨hstore, hothers, State.line_of_lines hlines, State.chan_of_channels hchannels, fun hleft hm => ?_,
      fun hleft hm => ?_, fun hleft => ?_⟩
    · rw [h.frees hw hleft hm]
      exact ⟨(State.entry_freeEntry (s.unpended e) e e).trans (if_pos rfl), rfl⟩
    · rw [h.gathers hw hev hleft hm]
      exact ⟨(State.unpended_entry e).trans (if_pos rfl), rfl⟩
    · have hent : (s.unpended e).entry e = x.afterWrite := (State.unpended_entry e).trans (if_pos rfl)
      rw [h.repeats hw hev hleft]
      refine ⟨?_, ?_⟩
      · rw [State.entry_writingAgain, if_pos rfl, hent]
        rfl
      · rw [State.writingAgain, hent]
        rfl
  · intro e slot r j n c q a rest x harb hslot hst hev hsnap hq hfl hre hb hnormal hw hfree hnone hrec hqb hpj hm hn hroom ho
    have h : s.WritesBack e slot r := ⟨harb, hslot, hq, hfl, hre, hb, hnormal⟩
    have hcur : s.arbiter.current = some { who := .writeBack, write := .put slot r, result := .writeBack e } := by rw [harb]
    exact ⟨s.completeAccess, exec_accessComplete hp, exec_writeBackCompleted hp hcur rfl,
      h.regives_spec hev hsnap hw hfree hnone hrec hqb hpj hm hn hroom ho⟩
  · intro slot w harb hclosing st
    have hcur : s.arbiter.current = some { who := .roll, write := w, result := .roll slot } := by rw [harb]
    have hclose : (s.rolledOn slot).store.periodState = .closing := by
      rw [← hclosing, ← Store.apply_periodState s.store s.arbiter.write]
      rfl
    refine ⟨fun hall => ⟨s.completeAccess, exec_accessComplete hp, ?_⟩,
      fun a b k r hst ha hk hr hget hb hnormal hw hfl => ?_⟩
    · exact State.completeAccess_rollEnds harb hclose (Store.nextDue_none fun e he hle => hall e he hle)
    · have hdue : (s.rolledOn slot).store.nextDue = some k :=
        Store.nextDue_first (st := (s.rolledOn slot).store) hst ha hk hr
      have hbusy : (s.rolledOn slot).arbiter.current.isSome = true := by
        rw [State.rolledOn_arbiter harb]
        rfl
      have hdone : s.completeAccess = (s.rollsAt k).serveRoll k := by
        rw [State.completeAccess_roll hcur, State.rollVisit_busy hclose hdue hbusy, State.serveNext_roll (k := k)
          (a := { who := .roll, write := .nothing, result := .taken })]
        · rfl
        · rw [State.modArbiter_arbiter, State.modStore_arbiter, State.rolledOn_arbiter harb]
      obtain ⟨t, ht, hspec⟩ := State.rollsAt_serveRoll hget hr hb hw hfl hnormal
      exact ⟨t, by rw [exec_accessComplete hp, hdone, ht], hspec⟩

end Sys2Proof.Machine
end


section
/-! What a recompute of the budget state does to an account, to its line and to the computers (R101, R136, R138, R139). -/

namespace Sys2Proof.Machine

section

variable {s t : State} {l : LineNo} {slot total b : Nat} {r : Record} {p : Presence}

/-! ## The withdrawal of a line -/

theorem State.waits_not (h : s.NotWaiting l) : s.waits l = false := by
  unfold State.waits
  refine List.any_eq_false.2 fun c _ => ?_
  rw [State.portsFor_nil (h.openings c), List.any_eq_false.2 fun w hw => by simpa using h.queues c w hw]
  decide

theorem State.waits_queue {c : ChanNo} {w : WaitEntry} (hw : w ∈ (s.chan c).queue) (hl : w.line = l) : s.waits l = true :=
  List.any_eq_true.2 ⟨c, List.mem_finRange c, by
    rw [List.any_eq_true.2 ⟨w, hw, decide_eq_true hl⟩]
    rfl⟩

theorem State.waits_opening {c : ChanNo} (h : s.portsFor c .opening l ≠ []) : s.waits l = true :=
  List.any_eq_true.2 ⟨c, List.mem_finRange c, by
    rw [List.isEmpty_eq_false_iff.2 h]
    simp⟩

/-- The line of an account that enters GRACE is shown the text and, if it waits, withdrawn (R101, R139): it does not wait,
it waits in a queue, or it waits for the ACCEPT of a port. -/
inductive State.Withdrawn (s : State) (l : LineNo) (cs : List Code) : State → Prop
  | idle (hs : (s.unit l).state = .command ∨ (s.unit l).state = .connected) (hw : s.NotWaiting l) :
      s.Withdrawn l cs (s.shown l cs)
  | queued {c : ChanNo} {v : WaitEntry} (hs : (s.unit l).state = .waiting) (hv : v ∈ (s.chan c).queue) (hl : v.line = l)
      (ho : ∀ d q y, s.port? d q = some y → y.state = .opening → y.line ≠ some l) :
      s.Withdrawn l cs ((s.unqueued l).returned l cs)
  | opening {c : ChanNo} {q : Nat} {y : Port} (hs : (s.unit l).state = .waiting)
      (hq : ∀ d, ∀ v ∈ (s.chan d).queue, v.line ≠ l) (hy : s.port? c q = some y) (ho : y.state = .opening)
      (hl : y.line = some l)
      (hu : ∀ d' q' z, s.port? d' q' = some z → z.state = .opening → z.line = some l → d' = c ∧ q' = q) :
      s.Withdrawn l cs (((s.modPort c q fun z =>
        { z with state := .closing, cause := some .budget, timer := true, flow := none }).modChan c fun ch =>
          ch.noted (circuitClosedOf q y.circuit l .budget)).returned l cs)

theorem State.showText_atPrompt (h : (s.unit l).state = .command ∨ (s.unit l).state = .connected) (cs : List Code) :
    s.showText l cs = s.shown l cs := by
  rcases h with h | h
  · exact State.showText_command h cs
  · have hshown : s.shown l cs = s.place l ([13, 10] ++ cs) := if_neg (by rw [h]; decide)
    rw [State.showText, h, hshown]
    rfl

theorem State.showText_waiting (h : (s.unit l).state = .waiting) (cs : List Code) : s.showText l cs = s.placeLine l cs := by
  rw [State.showText, h]

theorem State.placeLine_modPort (cs : List Code) (c : ChanNo) (q : Nat) (g : Port → Port) :
    (s.placeLine l cs).modPort c q g = (s.modPort c q g).placeLine l cs := by
  unfold State.modPort
  rw [show (s.placeLine l cs).port? c q = s.port? c q from rfl]
  cases s.port? c q <;> rfl

theorem State.Withdrawn.withdrawLine {cs : List Code} {w : State} (h : s.Withdrawn l cs w) :
    (s.showText l cs).withdrawLine l = w := by
  have hreturned : ∀ u : State, (u.unit l).state = .waiting → (u.placeLine l cs).toCommand l = u.returned l cs :=
    fun u hu => by
      rw [← State.returnToCommand_waiting hu, State.returnToCommand, State.showText_waiting hu]
  cases h with
  | idle hs hw =>
    obtain ⟨m, hm⟩ := State.shown_eq (s := s) (l := l) cs
    rw [State.showText_atPrompt hs, State.withdrawLine, State.waits_not]
    · rfl
    · rw [hm]
      exact hw.of_eq (State.modUnit_channels ..)
  | queued hs hv hl ho =>
    have hwaits : (s.placeLine l cs).waits l = true := State.waits_queue (s := s.placeLine l cs) hv hl
    rw [State.showText_waiting hs, State.withdrawLine, if_pos hwaits, State.leaveQueues_unqueued,
      State.closeOpenings_self]
    · exact hreturned (s.unqueued l) hs
    · intro d q y hy
      rw [State.port?, State.chan_unqueued] at hy
      exact ho d q y hy
  | @opening c q y hs hq hy ho hl hu =>
    have hwaits : (s.placeLine l cs).waits l = true :=
      State.waits_opening (s := s.placeLine l cs) (c := c) (by
        rw [(State.portsFor_one (s := s.placeLine l cs) hy ho hl hu).1]
        exact List.cons_ne_nil _ _)
    have hclose : (s.placeLine l cs).closeOpenings l .budget = (s.placeLine l cs).portClosing c q .budget :=
      State.closeOpenings_one (s := s.placeLine l cs) hy ho hl hu
    rw [State.showText_waiting hs, State.withdrawLine, if_pos hwaits, State.leaveQueues_self (s := s.placeLine l cs) hq,
      hclose]
    have hyp : (s.placeLine l cs).port? c q = some y := hy
    simp only [State.portClosing, hyp, State.queueNotice, noticeCircuitClosed, hl]
    refine Eq.trans (congrArg (fun u : State => u.toCommand l) ?_) (hreturned _ ?_)
    · exact congrArg₂ (fun (u : State) n => u.modChan c fun ch => ch.noted n)
        (State.placeLine_modPort ..) rfl
    · rw [State.unit_modChan, State.unit_modPort]
      exact hs

theorem State.Withdrawn.showText {cs : List Code} {w : State} (h : s.Withdrawn l cs w) :
    ∃ f, s.showText l cs = s.modUnit l f := by
  cases h with
  | idle hs hw =>
    obtain ⟨m, hm⟩ := State.shown_eq (s := s) (l := l) cs
    exact ⟨_, (State.showText_atPrompt hs cs).trans hm⟩
  | queued hs hv hl ho =>
    rw [State.showText_waiting hs, State.placeLine, State.place]
    exact ⟨_, rfl⟩
  | opening hs hq hy ho hl hu =>
    rw [State.showText_waiting hs, State.placeLine, State.place]
    exact ⟨_, rfl⟩

theorem State.signedOn_modUnit (f : LineUnit → LineUnit) : (s.modUnit l f).signedOn slot = s.signedOn slot := by
  simp only [State.signedOn, State.dialog_modUnit]

/-! ## The recompute -/

/-- What the recompute of an account is about: its record, its total of units and its presence entry (R136). -/
structure State.Recomputes (s : State) (slot : Nat) (r : Record) (total : Nat) (p : Presence) : Prop where
  record   : s.budgetRecord slot = some r
  total    : s.total slot = total
  presence : s.presenceOf slot = p

theorem State.Recomputes.recompute (h : s.Recomputes slot r total p) :
    s.recompute slot = s.moveBudget slot p.budget (budgetStateFor total r.budget p.count p.budget) := by
  have hbudget : s.budget slot = r.budget := by rw [State.budget, h.record]; rfl
  rw [State.recompute, h.record]
  dsimp only
  rw [h.total, h.presence, hbudget]

theorem State.Recomputes.recompute_same (h : s.Recomputes slot r total p)
    (hb : p.budget = some (budgetStateFor total r.budget p.count p.budget)) : s.recompute slot = s := by
  rw [h.recompute]
  generalize budgetStateFor total r.budget p.count p.budget = b at hb ⊢
  rw [hb]
  unfold State.moveBudget
  exact if_pos rfl

theorem budgetStateFor_warned {count : Nat} {old : Option BudgetState} (hb : total < b) (hw : b * 9 ≤ total * 10) :
    budgetStateFor total (some b) count old = .warned := by
  unfold budgetStateFor
  dsimp only
  rw [if_pos hb, if_neg (Nat.not_lt.2 hw)]

theorem budgetStateFor_normal {count : Nat} {old : Option BudgetState} (hb : total < b) (hw : total * 10 < b * 9) :
    budgetStateFor total (some b) count old = .normal := by
  unfold budgetStateFor
  dsimp only
  rw [if_pos hb, if_pos hw]

theorem budgetStateFor_over {count : Nat} {old : Option BudgetState} (hb : b ≤ total)
    (ho : old = some .normal ∨ old = some .warned) :
    budgetStateFor total (some b) count old = if 0 < count then .grace else .spent := by
  unfold budgetStateFor
  dsimp only
  rw [if_neg (Nat.not_lt.2 hb)]
  rcases ho with rfl | rfl <;> rfl

/-- An account in NORMAL whose total reaches nine tenths of its budget is WARNED, and its line is told (R136, R138). -/
theorem State.Recomputes.recompute_warned (h : s.Recomputes slot r total p) (hr : r.budget = some b) (hb : total < b)
    (hw : b * 9 ≤ total * 10) (hp : p.budget = some .normal) (hs : s.signedOn slot = [l])
    (hl : (s.unit l).state = .command ∨ (s.unit l).state = .connected) :
    s.recompute slot = (s.setBudgetState slot .warned).shown l (text "BUDGET 90% USED") := by
  have hsigned : (s.setBudgetState slot .warned).signedOn slot = [l] :=
    (State.signedOn_of_lines (State.setPresence_lines ..)).trans hs
  rw [h.recompute, hr, budgetStateFor_warned hb hw, hp, State.moveBudget, if_neg (by decide), if_pos rfl, State.showToAccount, hsigned]
  exact State.showText_atPrompt (s := s.setBudgetState slot .warned) hl _

/-- An account over its budget that no line is signed on with is SPENT (R136, R139). -/
theorem State.Recomputes.recompute_spent (h : s.Recomputes slot r total p) (hr : r.budget = some b) (hb : b ≤ total)
    (hp : p.budget = some .normal ∨ p.budget = some .warned) (hc : p.count = 0) :
    s.recompute slot = (s.setBudgetState slot .spent).budgetNotice slot .spent := by
  have hnew : budgetStateFor total r.budget p.count p.budget = .spent := by
    rw [hr, budgetStateFor_over hb hp, hc]
    rfl
  rw [h.recompute, hnew]
  rcases hp with hp | hp <;> rw [hp] <;> rfl

/-- An account over its budget with a line signed on enters GRACE, and the line is told and withdrawn (R101, R136,
R139). -/
theorem State.Recomputes.recompute_grace {w : State} (h : s.Recomputes slot r total p) (hr : r.budget = some b)
    (hb : b ≤ total) (hp : p.budget = some .normal ∨ p.budget = some .warned) (hc : 0 < p.count)
    (hs : s.signedOn slot = [l])
    (hw : (s.setBudgetState slot .grace).Withdrawn l (text "BUDGET EXHAUSTED - SESSIONS END IN 5 MINUTES") w) :
    s.recompute slot = w.budgetNotice slot .grace := by
  have hnew : budgetStateFor total r.budget p.count p.budget = .grace := by
    rw [hr, budgetStateFor_over hb hp, if_pos hc]
  have hgraced : (s.setBudgetState slot .grace).signedOn slot = [l] :=
    (State.signedOn_of_lines (State.setPresence_lines ..)).trans hs
  have hshown : (((s.setBudgetState slot .grace).showText l (text "BUDGET EXHAUSTED - SESSIONS END IN 5 MINUTES")).signedOn
      slot) = [l] := by
    obtain ⟨f, hf⟩ := hw.showText
    rw [hf, State.signedOn_modUnit, hgraced]
  have hmove : s.moveBudget slot p.budget .grace = s.enterGrace slot := by
    rcases hp with hp | hp <;> rw [hp] <;> rfl
  rw [h.recompute, hnew, hmove, State.enterGrace, State.showToAccount, hgraced]
  dsimp only [List.foldl_cons, List.foldl_nil]
  rw [hshown]
  exact congrArg (fun u : State => u.budgetNotice slot .grace) hw.withdrawLine

end

end Sys2Proof.Machine
end


section
/-! A CHARGE that is posted at once: the entry it goes to, what is discarded, and the budget state it leads to (R127, R136,
R139, R162, R163). -/

namespace Sys2Proof.Machine

section

variable {s t u v : State} {l : LineNo} {c : ChanNo} {e : Fin 32} {slot n : Nat} {r : Record} {base : Entry}

/-! ## What a posting leaves as it was -/

/-- A state with the charge cache, the arbiter and the presence table of another. -/
def State.withCharges (s v : State) : State :=
  { s with cache := v.cache, dirtyMarker := v.dirtyMarker, arbiter := v.arbiter, presence := v.presence }

theorem State.shown_withCharges (cs : List Code) : (s.withCharges v).shown l cs = (s.shown l cs).withCharges v := by
  unfold State.shown
  rw [show (s.withCharges v).unit l = s.unit l from rfl]
  split <;> rfl

theorem State.modPort_withCharges (q : Nat) (g : Port → Port) :
    (s.withCharges v).modPort c q g = (s.modPort c q g).withCharges v := by
  unfold State.modPort
  rw [show (s.withCharges v).port? c q = s.port? c q from rfl]
  cases s.port? c q <;> rfl

theorem State.Withdrawn.withCharges {cs : List Code} {w : State} (h : s.Withdrawn l cs w) (v : State) :
    (s.withCharges v).Withdrawn l cs (w.withCharges v) := by
  cases h with
  | idle hs hw =>
    rw [← State.shown_withCharges]
    exact .idle hs (hw.of_eq rfl)
  | queued hs hv hl ho => exact .queued (s := s.withCharges v) hs hv hl ho
  | opening hs hq hy ho hl hu =>
    have h := State.Withdrawn.opening (s := s.withCharges v) (cs := cs) hs hq hy ho hl hu
    rw [State.modPort_withCharges] at h
    exact h

/-- Neither the store nor the arbiter is touched when a line is shown a text and withdrawn. -/
theorem State.Withdrawn.keeps {cs : List Code} {w : State} (h : s.Withdrawn l cs w) :
    w.store = s.store ∧ w.arbiter = s.arbiter ∧ w.setup = s.setup ∧ w.rating = s.rating ∧ w.cache = s.cache := by
  cases h with
  | idle hs hw =>
    obtain ⟨m, hm⟩ := State.shown_eq (s := s) (l := l) cs
    rw [hm]
    exact ⟨rfl, rfl, rfl, rfl, rfl⟩
  | queued hs hv hl ho => exact ⟨rfl, rfl, rfl, rfl, rfl⟩
  | @opening d q y hs hq hy ho hl hu =>
    have hkeep : ∀ g, (s.modPort d q g).store = s.store ∧ (s.modPort d q g).arbiter = s.arbiter ∧
        (s.modPort d q g).setup = s.setup ∧ (s.modPort d q g).rating = s.rating ∧ (s.modPort d q g).cache = s.cache :=
      fun g => by
        unfold State.modPort
        rw [hy]
        exact ⟨rfl, rfl, rfl, rfl, rfl⟩
    exact hkeep _

/-- BUDGET STATE is queued to the computers with the EDIT right (R139). -/
theorem State.budgetNotice_eq (s : State) (slot : Nat) (b : BudgetState) :
    ∃ x, s.budgetNotice slot b = { s with channels := x } ∧
      ∀ d, (s.budgetNotice slot b).chan d = s.budgetTold slot b (s.total slot) d := by
  obtain ⟨x, hx⟩ := State.noticeWhere_eq s (fun t c => (t.chan c).state = .up ∧ (t.right c (s.accountOf slot)).edits)
    (noticeBudget (s.accountOf slot) b (s.total slot) (s.budget slot))
  refine ⟨x, hx, fun d => (State.chan_noticeEdit _ _ _ _).trans ?_⟩
  cases b <;> rfl

/-! ## The entry that takes a CHARGE -/

/-- The access of a CHARGE is in progress (R162). -/
def State.charging (s : State) (c : ChanNo) : State := s.accessing c .nothing (.chargeWaits c)

theorem State.budgetRecord_charging (ha : v.arbiter = (s.charging c).arbiter) : v.budgetRecord slot = v.recordAt slot := by
  rw [State.budgetRecord, ha]
  rfl

/-- The entry `e` of `u` takes a CHARGE to an account: from `s` to `u` it may have been given to the account (R127). -/
structure State.Receives (s u : State) (c : ChanNo) (e : Fin 32) (slot : Nat) (base : Entry) : Prop where
  entryFor : (s.charging c).entryFor slot = some (e, u)
  beside   : u = s.withCharges u
  arbiter  : u.arbiter = (s.charging c).arbiter
  presence : u.presence = s.presence
  entry    : u.entry e = base
  others   : ∀ j, j ≠ e → u.entry j = s.entry j
  waiting  : u.cache.waiting = []
  entryOf  : u.entryOf slot = some e
  holder   : base.slot = some slot

theorem State.Receives.own (he : s.entryOf slot = some e) (hw : s.cache.waiting = []) :
    s.Receives (s.charging c) c e slot (s.entry e) where
  entryFor := by rw [State.entryFor, show (s.charging c).entryOf slot = s.entryOf slot from rfl, he]
  beside := rfl
  arbiter := rfl
  presence := rfl
  entry := rfl
  others _ _ := rfl
  waiting := hw
  entryOf := he
  holder := State.entryOf_slot he

theorem State.freeEntry_lowest (he : (s.entry e).state = .free) (h : ∀ j, j < e → (s.entry j).state ≠ .free) :
    s.freeEntry? = some e := by
  unfold State.freeEntry?
  refine (List.find?_eq_some_iff_getElem).2 ⟨decide_eq_true he, e.val, by simp, by simp, fun j hj => ?_⟩
  simpa using h ⟨j, by omega⟩ hj

theorem State.Receives.free (hnone : s.entryOf slot = none) (he : (s.entry e).state = .free)
    (hlow : ∀ j, j < e → (s.entry j).state ≠ .free) (hw : s.cache.waiting = []) :
    s.Receives ((s.charging c).giveSlot e slot) c e slot { slot := some slot, state := .gathering } := by
  have hentry : ∀ j, ((s.charging c).giveSlot e slot).entry j =
      if e = j then { slot := some slot, state := .gathering } else s.entry j := State.entry_giveSlot (s.charging c) e slot
  have hself : ((s.charging c).giveSlot e slot).entry e = { slot := some slot, state := .gathering } := by
    rw [hentry, if_pos rfl]
  refine ⟨?_, rfl, rfl, rfl, hself, fun j hj => by rw [hentry, if_neg (Ne.symm hj)], hw, ?_, rfl⟩
  · have hempty : (s.charging c).cache.waiting.isEmpty = true := by
      show s.cache.waiting.isEmpty = true
      rw [hw]
      rfl
    rw [State.entryFor, show (s.charging c).entryOf slot = s.entryOf slot from rfl, hnone]
    dsimp only
    rw [if_pos hempty, State.freeEntry_lowest (s := s.charging c) he hlow]
    rfl
  · exact State.entryOf_only (by rw [hself]) fun j hj => by
      rw [hentry, if_neg (Ne.symm hj)]
      exact State.slot_ne_of_entryOf hnone j

/-! ## The posting -/

theorem State.Receives.pending (h : s.Receives u c e slot base) : u.pendingOf slot = base.pending := by
  rw [State.pendingOf, h.entryOf]
  exact congrArg Entry.pending h.entry

theorem State.Receives.total (h : s.Receives u c e slot base) (hr : s.recordAt slot = some r) :
    u.total slot = r.used + base.pending := by
  have hrec : u.recordAt slot = some r := by rw [h.beside]; exact hr
  rw [State.total, State.budgetRecord_charging h.arbiter, hrec, h.pending]
  rfl

theorem State.Receives.room (h : s.Receives u c e slot base) (hr : s.recordAt slot = some r) :
    u.room slot = 16777215 - (r.used + base.pending) := by
  have hrec : u.recordAt slot = some r := by rw [h.beside]; exact hr
  rw [State.room, hrec, h.pending]
  rfl

/-- The cache is at rest after a posting: the entry is looked at, and the reply goes with the access (R36, R127, R131). -/
theorem State.settled_posting {x : State} {a : Access} {res : AccessResult} (ha : x.arbiter.current = some a)
    (hpos : 0 < (x.entry e).pending) (hw : x.cache.waiting = []) :
    ∃ y, (((x.lookDue e).lookFree e).setResult res).settle = y ∧ y.arbiter.current = some { a with result := res } ∧
      y.cache.entries = x.cache.entries ∧ y.store = x.store ∧ y.rating = x.rating ∧ y.presence = x.presence ∧
      y.lines = x.lines ∧ y.channels = x.channels := by
  have hbusy : KeepsBusy x (x.lookDue e) := keepsBusy_lookDue e (by rw [ha]; rfl)
  have hfree : (x.lookDue e).lookFree e = x.lookDue e := State.lookFree_pending (by
    rw [State.entry, hbusy.entries]
    exact hpos)
  have hwait : ((x.lookDue e).setResult res).cache.waiting = [] := hbusy.waiting.trans hw
  refine ⟨(x.lookDue e).setResult res, by rw [hfree, State.settle_empty hwait], ?_, hbusy.entries, hbusy.store,
    hbusy.rating, hbusy.presence, hbusy.lines, hbusy.channels⟩
  show (x.lookDue e).arbiter.current.map _ = _
  rw [hbusy.current, ha]
  rfl

end

end Sys2Proof.Machine
end


section
/-! The CHARGE that is posted at once, by the budget state it leads to (R127, R136, R139, R162, R163). -/

namespace Sys2Proof.Machine

section

variable {s u v w z : State} {l : LineNo} {c : ChanNo} {e : Fin 32} {slot amount applied number b : Nat} {r : Record}
  {base : Entry}

/-! ## What is discarded -/

/-- The channel is told of units that are discarded, where there are any (R163). -/
def State.chargeRaised (s : State) (c : ChanNo) (slot amount applied : Nat) : State :=
  if applied = amount then s
  else s.modChan c fun ch => ch.raised .saturate (s.accountOf slot) none s.rating.calendar

theorem State.chargeRaised_eq (s : State) (c : ChanNo) (slot amount applied : Nat) :
    ∃ x, s.chargeRaised c slot amount applied = { s with channels := x } := by
  unfold State.chargeRaised
  split
  · exact ⟨_, rfl⟩
  · exact ⟨_, rfl⟩

theorem Channel.raised_queue (ch : Channel) (kind : ExceptionKind) (account : Nat) (port : Option Nat) (now : Calendar) :
    (ch.raised kind account port now).queue = ch.queue := by
  simp only [Channel.raised, Channel.noted]
  cases kind <;> (repeat' split) <;> rfl

theorem State.chargeRaised_keeps (d : ChanNo) :
    ((s.chargeRaised c slot amount applied).chan d).queue = (s.chan d).queue ∧
      ((s.chargeRaised c slot amount applied).chan d).ports = (s.chan d).ports := by
  unfold State.chargeRaised
  split
  · exact ⟨rfl, rfl⟩
  · rw [State.chan_modChan]
    split
    next h => rw [← h]; exact ⟨Channel.raised_queue .., Channel.raised_ports ..⟩
    next => exact ⟨rfl, rfl⟩

/-- The state in which a CHARGE has been added to its entry, and what is discarded has been told (R127, R163). -/
def State.charged (s u : State) (c : ChanNo) (e : Fin 32) (slot amount applied : Nat) : State :=
  (s.chargeRaised c slot amount applied).withCharges (u.gained e applied)

theorem State.Receives.saturateChannel (h : s.Receives u c e slot base)
    (hlive : (s.chan c).state = .up ∨ (s.chan c).state = .quiescing) (hle : applied ≤ amount) :
    (u.gained e applied).saturateChannel c slot (amount - applied) = s.charged u c e slot amount applied := by
  have hgained : u.gained e applied = s.withCharges (u.gained e applied) :=
    (congrArg (fun x : State => x.gained e applied) h.beside).trans rfl
  unfold State.charged State.chargeRaised State.saturateChannel
  by_cases hall : applied = amount
  · rw [if_pos hall, if_neg (by omega)]
    exact hgained
  · rw [if_neg hall, if_pos (by omega), hgained, State.raiseException_live (s := s.withCharges (u.gained e applied)) hlive]
    rfl

/-! ## The recompute's reading -/

/-- A CHARGE that has been added to its entry, read beside anything that has the same store (R126, R136). -/
theorem State.Receives.total_after (h : s.Receives u c e slot base) (hr : s.recordAt slot = some r)
    (hstore : w.store = s.store) (harb : v.arbiter = (s.charging c).arbiter)
    (hcache : v.cache = (u.gained e applied).cache) :
    (w.withCharges v).budgetRecord slot = some r ∧
      (w.withCharges v).total slot = r.used + base.pending + applied := by
  have hrec : (w.withCharges v).budgetRecord slot = some r := by
    rw [State.budgetRecord_charging (v := w.withCharges v) (s := s) (c := c) harb]
    exact (congrArg (fun st : Store => tabGet slot st.records) hstore).trans hr
  have hent : ∀ j, (w.withCharges v).entry j = (u.gained e applied).entry j := fun j =>
    congrArg (fun k : Cache => k.entries.get j) hcache
  have hof : (w.withCharges v).entryOf slot = some e := by
    rw [← h.entryOf]
    refine State.entryOf_of_slots (fun j => ?_) slot
    rw [hent, State.entry_gained]
    split <;> rfl
  refine ⟨hrec, ?_⟩
  rw [State.total, hrec, State.pendingOf, hof]
  dsimp only
  rw [hent, State.entry_gained, if_pos rfl, h.entry, Option.map_some, Option.getD_some, Nat.add_assoc]

theorem State.Receives.recomputes (h : s.Receives u c e slot base) (hr : s.recordAt slot = some r) :
    (s.charged u c e slot amount applied).Recomputes slot r (r.used + base.pending + applied) (s.presenceOf slot) := by
  obtain ⟨x, hx⟩ := s.chargeRaised_eq c slot amount applied
  obtain ⟨hrec, htotal⟩ := h.total_after (applied := applied) (w := s.chargeRaised c slot amount applied)
    (v := u.gained e applied) hr (by rw [hx]) h.arbiter rfl
  refine ⟨hrec, htotal, ?_⟩
  show (u.gained e applied).presenceOf slot = s.presenceOf slot
  exact congrArg (fun x => (tabGet slot x).getD {}) h.presence

/-! ## The reply -/

/-- What a CHARGE that has been posted leaves, where `z` is what the recompute makes of it (R36, R127, R162). -/
theorem State.Receives.posts (h : s.Receives u c e slot base)
    (hlive : (s.chan c).state = .up ∨ (s.chan c).state = .quiescing) (hl : s.lookup number = some slot)
    (hr : s.recordAt slot = some r) (happlied : applied = min amount (16777215 - (r.used + base.pending)))
    (hpos : 0 < base.pending + applied)
    (hz : (if 0 < applied then (s.charged u c e slot amount applied).recompute slot
      else s.charged u c e slot amount applied) = z)
    (hcache : z.cache = (u.gained e applied).cache) (harb : z.arbiter = (s.charging c).arbiter) :
    ∃ y, s.serveCharge c number amount = y ∧
      y.arbiter.current = some
        { who := .chan c, write := .nothing,
          result := .reply c (if applied < amount then .saturated else .done)
            (bytesBE 3 (r.used + base.pending) ++ bytesBE 3 applied) } ∧
      y.entry e = { base with pending := base.pending + applied } ∧ (∀ j, j ≠ e → y.entry j = s.entry j) ∧
      y.store = z.store ∧ y.rating = z.rating ∧ y.presence = z.presence ∧ y.lines = z.lines ∧ y.channels = z.channels := by
  have hentry : ∀ j, z.entry j = (u.gained e applied).entry j := fun j =>
    congrArg (fun k : Cache => k.entries.get j) hcache
  have hself : z.entry e = { base with pending := base.pending + applied } := by
    rw [hentry, State.entry_gained, if_pos rfl, h.entry]
  obtain ⟨y, hy, hcur, hents, hstore, hrating, hpresence, hlines, hchannels⟩ := State.settled_posting (x := z) (e := e)
    (a := { who := .chan c, write := .nothing, result := .chargeWaits c })
    (res := .reply c (if applied < amount then .saturated else .done)
      (bytesBE 3 (r.used + base.pending) ++ bytesBE 3 applied))
    (by rw [harb]; rfl) (by rw [hself]; exact hpos) ((congrArg Cache.waiting hcache).trans h.waiting)
  have hyent : ∀ j, y.entry j = z.entry j := fun j => congrArg (fun x : Vector Entry 32 => x.get j) hents
  refine ⟨y, ?_, hcur, (hyent e).trans hself, fun j hj => ?_, hstore, hrating, hpresence, hlines, hchannels⟩
  · have hpost := State.postCharge_eq (c := c) (n := amount) (s := u) (e := e) (slot := slot) (by rw [h.entry]; exact h.holder)
    rw [h.room hr, h.total hr, ← happlied] at hpost
    dsimp only at hpost
    rw [h.saturateChannel hlive (happlied ▸ Nat.min_le_left ..), hz] at hpost
    have hserve : s.serveCharge c number amount =
        (((u.postCharge e slot c amount).1.lookFree e).setResult
          (.reply c (u.postCharge e slot c amount).2.1 (u.postCharge e slot c amount).2.2)).settle := by
      rw [State.serveCharge, hl]
      dsimp only
      rw [show s.serve (.chan c) .nothing (.chargeWaits c) = s.charging c from rfl, h.entryFor]
    rw [hserve, hpost]
    exact hy
  · rw [hyent, hentry, State.entry_gained, if_neg (Ne.symm hj), h.others j hj]

end

end Sys2Proof.Machine
end


section
/-! The budget state that a CHARGE leads to: what becomes of the account, its line and the computers (R101, R136, R138,
R139). -/

namespace Sys2Proof.Machine

section

variable {s u v w z : State} {l : LineNo} {c : ChanNo} {e : Fin 32} {slot amount applied b total : Nat} {r : Record}
  {base : Entry}

/-- `z` is what the recompute makes of a CHARGE that has been added to its entry; the charge cache, the arbiter, the store
and the rating unit are as the posting left them. -/
structure State.ChargeEnds (s u z : State) (c : ChanNo) (e : Fin 32) (slot amount applied : Nat) : Prop where
  ends    : (if 0 < applied then (s.charged u c e slot amount applied).recompute slot
    else s.charged u c e slot amount applied) = z
  cache   : z.cache = (u.gained e applied).cache
  arbiter : z.arbiter = (s.charging c).arbiter
  store   : z.store = s.store
  rating  : z.rating = s.rating

theorem State.chargeRaised_line (j : LineNo) : (s.chargeRaised c slot amount applied).line j = s.line j := by
  obtain ⟨x, hx⟩ := s.chargeRaised_eq c slot amount applied
  rw [hx]
  rfl

theorem State.chargeRaised_lines : (s.chargeRaised c slot amount applied).lines = s.lines := by
  obtain ⟨x, hx⟩ := s.chargeRaised_eq c slot amount applied
  rw [hx]

theorem State.chargeRaised_store : (s.chargeRaised c slot amount applied).store = s.store := by
  obtain ⟨x, hx⟩ := s.chargeRaised_eq c slot amount applied
  rw [hx]

theorem State.chargeRaised_rating : (s.chargeRaised c slot amount applied).rating = s.rating := by
  obtain ⟨x, hx⟩ := s.chargeRaised_eq c slot amount applied
  rw [hx]

theorem State.chargeRaised_arbiter : (s.chargeRaised c slot amount applied).arbiter = s.arbiter := by
  obtain ⟨x, hx⟩ := s.chargeRaised_eq c slot amount applied
  rw [hx]

/-- The budget state stays: nothing but the posting and what is told of a discard changes (R136). -/
theorem State.Receives.ends_same (h : s.Receives u c e slot base) (hr : s.recordAt slot = some r)
    (hb : (s.presenceOf slot).budget = some (budgetStateFor (r.used + base.pending + applied) r.budget
      (s.presenceOf slot).count (s.presenceOf slot).budget)) :
    s.ChargeEnds u (s.charged u c e slot amount applied) c e slot amount applied where
  ends := by
    rw [(h.recomputes hr).recompute_same hb]
    exact ite_self _
  cache := rfl
  arbiter := h.arbiter
  store := State.chargeRaised_store (c := c) (slot := slot) (amount := amount) (applied := applied)
  rating := State.chargeRaised_rating (c := c) (slot := slot) (amount := amount) (applied := applied)

/-- The account in a budget state of `b`, as a posting leaves it (R136). -/
def State.chargedAs (s u : State) (c : ChanNo) (e : Fin 32) (slot amount applied : Nat) (b : BudgetState) : State :=
  (s.charged u c e slot amount applied).setBudgetState slot b

theorem State.chargedAs_cache (b : BudgetState) :
    (s.chargedAs u c e slot amount applied b).cache = (u.gained e applied).cache := rfl

theorem State.Receives.chargedAs_arbiter (h : s.Receives u c e slot base) (b : BudgetState) :
    (s.chargedAs u c e slot amount applied b).arbiter = (s.charging c).arbiter := h.arbiter

theorem State.Receives.chargedAs_presence (h : s.Receives u c e slot base) (hr : s.recordAt slot = some r)
    (b : BudgetState) : (s.chargedAs u c e slot amount applied b).presenceOf slot =
      { s.presenceOf slot with budget := some b, graceTimer := b = .grace } := by
  rw [State.chargedAs, State.setBudgetState, State.presenceOf_setPresence, (h.recomputes hr).presence]

/-- The account becomes WARNED and its line is shown the text (R138). -/
theorem State.Receives.ends_warned (h : s.Receives u c e slot base) (hr : s.recordAt slot = some r)
    (hpos : 0 < applied) (hrb : r.budget = some b) (hb : r.used + base.pending + applied < b)
    (hw : b * 9 ≤ (r.used + base.pending + applied) * 10) (hp : (s.presenceOf slot).budget = some .normal)
    (hs : s.signedOn slot = [l]) (hl : (s.unit l).state = .command ∨ (s.unit l).state = .connected) :
    s.ChargeEnds u (((s.chargeRaised c slot amount applied).shown l (text "BUDGET 90% USED")).withCharges
      (s.chargedAs u c e slot amount applied .warned)) c e slot amount applied := by
  have hsigned : (s.charged u c e slot amount applied).signedOn slot = [l] :=
    (State.signedOn_of_lines State.chargeRaised_lines).trans hs
  have hunit : (s.charged u c e slot amount applied).unit l = s.unit l := congrArg Line.unit (State.chargeRaised_line l)
  have hrec := (h.recomputes (amount := amount) (applied := applied) hr).recompute_warned hrb hb hw hp hsigned
    (by rw [hunit]; exact hl)
  obtain ⟨m, hm⟩ := State.shown_eq (s := s.chargeRaised c slot amount applied) (l := l) (text "BUDGET 90% USED")
  refine ⟨?_, rfl, h.chargedAs_arbiter (amount := amount) (applied := applied) .warned, ?_, ?_⟩
  · rw [if_pos hpos, hrec, ← State.shown_withCharges]
    rfl
  · show ((s.chargeRaised c slot amount applied).shown l (text "BUDGET 90% USED")).store = s.store
    rw [hm]
    exact State.chargeRaised_store
  · show ((s.chargeRaised c slot amount applied).shown l (text "BUDGET 90% USED")).rating = s.rating
    rw [hm]
    exact State.chargeRaised_rating

/-! ## Telling the computers -/

theorem State.budgetTold_withCharges {b : BudgetState} {d : ChanNo} (h : (w.withCharges v).budget slot = w.budget slot) :
    (w.withCharges v).budgetTold slot b total d = w.budgetTold slot b total d := by
  unfold State.budgetTold
  rw [h]
  rfl

/-- BUDGET STATE of an account to which a CHARGE has been posted (R139). -/
theorem State.Receives.budgetNotice (h : s.Receives u c e slot base) (hr : s.recordAt slot = some r)
    (hidle : s.arbiter.current = none) (hws : w.store = s.store) (hwa : w.arbiter = s.arbiter) (b : BudgetState) :
    ∃ x, (w.withCharges (s.chargedAs u c e slot amount applied b)).budgetNotice slot b =
        { w.withCharges (s.chargedAs u c e slot amount applied b) with channels := x } ∧
      ∀ d, ((w.withCharges (s.chargedAs u c e slot amount applied b)).budgetNotice slot b).chan d =
        w.budgetTold slot b (r.used + base.pending + applied) d := by
  obtain ⟨hrec, htotal⟩ := h.total_after (applied := applied) (w := w) (v := s.chargedAs u c e slot amount applied b) hr hws
    (h.chargedAs_arbiter b) (State.chargedAs_cache b)
  obtain ⟨x, hx, hchan⟩ := State.budgetNotice_eq (w.withCharges (s.chargedAs u c e slot amount applied b)) slot b
  have hwrec : w.budgetRecord slot = some r := by
    rw [State.budgetRecord, hwa, hidle]
    exact (congrArg (fun st : Store => tabGet slot st.records) hws).trans hr
  refine ⟨x, hx, fun d => ?_⟩
  rw [hchan, htotal, State.budgetTold_withCharges]
  rw [State.budget, State.budget, hrec, hwrec]

/-- The account is SPENT and the computers are told (R139). -/
theorem State.Receives.ends_spent (h : s.Receives u c e slot base) (hr : s.recordAt slot = some r)
    (hidle : s.arbiter.current = none) (hpos : 0 < applied) (hrb : r.budget = some b)
    (hb : b ≤ r.used + base.pending + applied)
    (hp : (s.presenceOf slot).budget = some .normal ∨ (s.presenceOf slot).budget = some .warned)
    (hc : (s.presenceOf slot).count = 0) :
    ∃ z, s.ChargeEnds u z c e slot amount applied ∧
      z.presence = (s.chargedAs u c e slot amount applied .spent).presence ∧ z.lines = s.lines ∧
      ∀ d, z.chan d =
        (s.chargeRaised c slot amount applied).budgetTold slot .spent (r.used + base.pending + applied) d := by
  have hrec := (h.recomputes (amount := amount) (applied := applied) hr).recompute_spent hrb hb hp hc
  obtain ⟨x, hx, hchan⟩ := h.budgetNotice (amount := amount) (applied := applied)
    (w := s.chargeRaised c slot amount applied) hr hidle State.chargeRaised_store State.chargeRaised_arbiter .spent
  refine ⟨_, ⟨(if_pos hpos).trans (hrec.trans hx), rfl, h.chargedAs_arbiter (amount := amount) (applied := applied) .spent,
    State.chargeRaised_store (c := c) (slot := slot) (amount := amount) (applied := applied),
    State.chargeRaised_rating (c := c) (slot := slot) (amount := amount) (applied := applied)⟩, rfl, State.chargeRaised_lines, fun d => ?_⟩
  rw [← hchan d]
  exact State.chan_of_channels (congrArg State.channels hx).symm d

/-- The account enters GRACE: its line is told and withdrawn, and the computers are told (R101, R139). -/
theorem State.Receives.ends_grace (h : s.Receives u c e slot base) (hr : s.recordAt slot = some r)
    (hidle : s.arbiter.current = none) (hpos : 0 < applied) (hrb : r.budget = some b)
    (hb : b ≤ r.used + base.pending + applied)
    (hp : (s.presenceOf slot).budget = some .normal ∨ (s.presenceOf slot).budget = some .warned)
    (hc : 0 < (s.presenceOf slot).count) (hs : s.signedOn slot = [l])
    (hw : (s.chargeRaised c slot amount applied).Withdrawn l (text "BUDGET EXHAUSTED - SESSIONS END IN 5 MINUTES") w) :
    ∃ z, s.ChargeEnds u z c e slot amount applied ∧
      z.presence = (s.chargedAs u c e slot amount applied .grace).presence ∧ z.lines = w.lines ∧
      ∀ d, z.chan d = w.budgetTold slot .grace (r.used + base.pending + applied) d := by
  have hsigned : (s.charged u c e slot amount applied).signedOn slot = [l] :=
    (State.signedOn_of_lines State.chargeRaised_lines).trans hs
  obtain ⟨hstore, harb, -, hrating, -⟩ := hw.keeps
  have hrec := (h.recomputes (amount := amount) (applied := applied) hr).recompute_grace hrb hb hp hc hsigned
    (hw.withCharges (s.chargedAs u c e slot amount applied .grace))
  obtain ⟨x, hx, hchan⟩ := h.budgetNotice (amount := amount) (applied := applied) (w := w) hr hidle
    (hstore.trans State.chargeRaised_store) (harb.trans State.chargeRaised_arbiter) .grace
  refine ⟨_, ⟨(if_pos hpos).trans (hrec.trans hx), rfl, h.chargedAs_arbiter (amount := amount) (applied := applied) .grace,
    hstore.trans State.chargeRaised_store, hrating.trans State.chargeRaised_rating⟩, rfl, rfl, fun d => ?_⟩
  rw [← hchan d]
  exact State.chan_of_channels (congrArg State.channels hx).symm d

end

end Sys2Proof.Machine
end


section
/-! A CHARGE for which no entry is to be had: it waits in the account's item, and the cache evicts an entry (R128 to R130). -/

namespace Sys2Proof.Machine

section

variable {s t : State} {c : ChanNo} {e : Fin 32} {slot amount number : Nat} {r : Record} {item : Item}

/-! ## The cache comes to rest -/

theorem State.settleLoop_rest (h : s.settleOnce = none) : ∀ n, s.settleLoop n = s
  | 0 => rfl
  | n + 1 => by rw [State.settleLoop, h]

theorem State.settleLoop_move (h : s.settleOnce = some t) (n : Nat) : s.settleLoop (n + 1) = t.settleLoop n := by
  rw [State.settleLoop, h]

/-- While an eviction goes on and no entry is FREE, nothing moves (R130). -/
theorem State.settleOnce_evicting (hf : s.freeEntry? = none) (hev : s.cache.evicting = true) : s.settleOnce = none := by
  unfold State.settleOnce
  split
  · rfl
  · rw [hf]
    dsimp only
    rw [if_pos hev]

theorem State.freeEntry_none (h : ∀ e, (s.entry e).state ≠ .free) : s.freeEntry? = none :=
  List.find?_eq_none.2 fun e _ k => h e (of_decide_eq_true k)

/-- The least recently used GATHERING entry is chosen to be evicted (R130). -/
theorem State.recency_first {a d : List (Fin 32)} (hrec : s.cache.recency = a ++ e :: d)
    (ha : ∀ j ∈ a, (s.entry j).state ≠ .gathering) (he : (s.entry e).state = .gathering) :
    s.cache.recency.find? (fun e => (s.entry e).state = .gathering) = some e :=
  List.find?_eq_some_iff_append.2 ⟨decide_eq_true he, a, d, hrec, fun j hj => by simpa using ha j hj⟩

/-- The entry that is evicted is marked, and is on the write-back queue (R130). -/
def State.evict (s : State) (e : Fin 32) : State :=
  (s.modEntry e fun x => { x with evicted := true }).modCache fun c => { c with evicting := true }

theorem State.settleOnce_evicts (hw : s.cache.waiting = [item]) (hf : s.freeEntry? = none)
    (hev : s.cache.evicting = false)
    (hfirst : s.cache.recency.find? (fun e => (s.entry e).state = .gathering) = some e)
    (hpos : 0 < (s.entry e).pending) :
    s.settleOnce = some (if (s.evict e).cache.queue.contains e then s.evict e else (s.evict e).enqueueEntry e) := by
  unfold State.settleOnce
  rw [hw]
  dsimp only
  rw [hf]
  dsimp only
  rw [if_neg (by rw [hev]; decide), hfirst]
  dsimp only
  rw [if_neg (by omega)]
  rfl

theorem State.settleOnce_empties (hw : s.cache.waiting = [item]) (hf : s.freeEntry? = none)
    (hev : s.cache.evicting = false)
    (hfirst : s.cache.recency.find? (fun e => (s.entry e).state = .gathering) = some e)
    (hzero : (s.entry e).pending = 0) (hfl : ∀ k, s.cache.flush.get k = none) :
    s.settleOnce = some ((s.modCache fun c => { c with queue := c.queue.erase e }).freeEntry e) := by
  unfold State.settleOnce
  rw [hw]
  dsimp only
  rw [hf]
  dsimp only
  rw [if_neg (by rw [hev]; decide), hfirst]
  dsimp only
  rw [if_pos hzero, State.leaveFlush_none hfl]

/-- While an access is in progress an entry that joins the write-back queue is not served (R37). -/
theorem State.enqueueEntry_busy {a : Access} (h : s.arbiter.current = some a) :
    ∃ x, s.enqueueEntry e = { s.modCache fun c => { c with queue := c.queue ++ [e] } with arbiter := x } ∧
      x.current = some a := by
  unfold State.enqueueEntry State.offerWriteBack
  split
  · exact ⟨_, rfl, h⟩
  · split
    · exact ⟨_, rfl, h⟩
    · split
      · exact ⟨_, rfl, h⟩
      · split
        · next hn => exact absurd (h.symm.trans hn) (by simp)
        · exact ⟨_, rfl, h⟩

/-! ## The CHARGE that waits -/

/-- A CHARGE waits in its account's item (R128, R129). -/
def State.chargeItem (s : State) (c : ChanNo) (slot amount : Nat) : State :=
  (s.charging c).modCache fun k => { k with waiting := [{ slot := slot, charges := [{ channel := c, amount := amount }] }] }

theorem State.serveCharge_waits (hl : s.lookup number = some slot) (hnone : s.entryOf slot = none)
    (hfree : ∀ e, (s.entry e).state ≠ .free) (hw : s.cache.waiting = []) :
    s.serveCharge c number amount = (s.chargeItem c slot amount).settle := by
  have hfor : (s.charging c).entryFor slot = none := by
    rw [State.entryFor, show (s.charging c).entryOf slot = s.entryOf slot from rfl, hnone]
    dsimp only
    rw [State.freeEntry_none (s := s.charging c) hfree]
    exact ite_self _
  have hitem : ((s.charging c).modItem slot fun i =>
      { i with charges := i.charges ++ [{ channel := c, amount := amount }] }) = s.chargeItem c slot amount := by
    have hcw : (s.charging c).cache.waiting = [] := hw
    unfold State.modItem State.chargeItem State.modCache
    dsimp only
    rw [hcw]
    rfl
  rw [State.serveCharge, hl]
  dsimp only
  rw [show s.serve (.chan c) .nothing (.chargeWaits c) = s.charging c from rfl, hfor]
  exact congrArg State.settle hitem

/-- With an eviction in progress the CHARGE waits for it (R130). -/
theorem State.chargeItem_evicting (hfree : ∀ e, (s.entry e).state ≠ .free) (hev : s.cache.evicting = true) :
    (s.chargeItem c slot amount).settle = s.chargeItem c slot amount :=
  State.settleLoop_rest (State.settleOnce_evicting (State.freeEntry_none (s := s.chargeItem c slot amount) hfree) hev) _

/-- An entry with units pending is evicted by a write-back (R130). -/
theorem State.chargeItem_evicts {a d : List (Fin 32)} (hfree : ∀ e, (s.entry e).state ≠ .free)
    (hev : s.cache.evicting = false) (hrec : s.cache.recency = a ++ e :: d)
    (ha : ∀ j ∈ a, (s.entry j).state ≠ .gathering) (he : (s.entry e).state = .gathering)
    (hpos : 0 < (s.entry e).pending) :
    ∃ u, (s.chargeItem c slot amount).settle = u ∧
      u.cache.waiting = [{ slot := slot, charges := [{ channel := c, amount := amount }] }] ∧
      u.cache.evicting = true ∧ u.entry e = { s.entry e with evicted := true } ∧ e ∈ u.cache.queue ∧
      u.arbiter.current = (s.charging c).arbiter.current ∧ (∀ j, j ≠ e → u.entry j = s.entry j) ∧
      u.lines = s.lines ∧ u.channels = s.channels ∧ u.store = s.store ∧ u.rating = s.rating ∧ u.presence = s.presence := by
  generalize hx : (s.chargeItem c slot amount).evict e = x
  have hentry : ∀ j, x.entry j = if e = j then { s.entry j with evicted := true } else s.entry j := fun j => by
    rw [← hx]
    exact State.entry_modEntry (s.chargeItem c slot amount) e (fun x => { x with evicted := true }) j
  have hcur : x.arbiter.current = some { who := .chan c, write := .nothing, result := .chargeWaits c } := by rw [← hx]; rfl
  have hwait : x.cache.waiting = [{ slot := slot, charges := [{ channel := c, amount := amount }] }] := by rw [← hx]; rfl
  have hevx : x.cache.evicting = true := by rw [← hx]; rfl
  have hkeep : x.lines = s.lines ∧ x.channels = s.channels ∧ x.store = s.store ∧ x.rating = s.rating ∧
      x.presence = s.presence := by rw [← hx]; exact ⟨rfl, rfl, rfl, rfl, rfl⟩
  have hnofree : ∀ j, (x.entry j).state ≠ .free := fun j => by
    rw [hentry]
    split <;> exact hfree j
  have hself := (hentry e).trans (if_pos rfl)
  have hothers : ∀ j, j ≠ e → x.entry j = s.entry j := fun j hj => (hentry j).trans (if_neg (Ne.symm hj))
  have honce := State.settleOnce_evicts (s := s.chargeItem c slot amount) (e := e) rfl
    (State.freeEntry_none (s := s.chargeItem c slot amount) hfree) hev
    (State.recency_first (s := s.chargeItem c slot amount) hrec ha he) hpos
  rw [hx] at honce
  have hsettle : ∀ u, (if x.cache.queue.contains e then x else x.enqueueEntry e) = u → u.settleOnce = none →
      (s.chargeItem c slot amount).settle = u := fun u hu hrest => by
    rw [hu] at honce
    exact (State.settleLoop_move honce 2).trans (State.settleLoop_rest hrest 2)
  by_cases hq : x.cache.queue.contains e = true
  · exact ⟨x, hsettle x (if_pos hq) (State.settleOnce_evicting (State.freeEntry_none hnofree) hevx), hwait, hevx, hself,
      List.contains_iff_mem.1 hq, hcur, hothers, hkeep⟩
  · obtain ⟨y, hy, hycur⟩ := State.enqueueEntry_busy (e := e) hcur
    refine ⟨x.enqueueEntry e, hsettle _ (if_neg hq) ?_, ?_⟩
    · rw [hy]
      exact State.settleOnce_evicting (State.freeEntry_none (s := { x.modCache fun c => { c with queue := c.queue ++ [e] } with
        arbiter := y }) hnofree) hevx
    · rw [hy]
      exact ⟨hwait, hevx, hself, List.mem_append_right _ List.mem_cons_self, hycur, hothers, hkeep⟩

theorem State.answerCharge_waits {o : Outcome} {body : List Byte}
    (h : s.arbiter.current = some { who := .chan c, write := .nothing, result := .chargeWaits c }) :
    s.answerCharge c o body = s.setResult (.reply c o body) := by
  rw [State.answerCharge, h]
  dsimp only
  rw [if_pos rfl, State.setResult, State.modArbiter, State.modArbiter, h]
  rfl

/-- An entry with nothing pending goes to the item at once, and the CHARGE is posted (R128 to R130). -/
theorem State.chargeItem_empties {a d : List (Fin 32)} (hfree : ∀ e, (s.entry e).state ≠ .free)
    (hnone : s.entryOf slot = none) (hr : s.recordAt slot = some r) (hb : r.budget = none)
    (hp : (s.presenceOf slot).budget = some .normal) (hroom : r.used + amount ≤ 16777215) (hpos : 0 < amount)
    (hm : ∀ m ∈ s.rating.meters, m.slot = slot → m.unposted = 0) (hfl : ∀ k, s.cache.flush.get k = none)
    (hev : s.cache.evicting = false) (hrec : s.cache.recency = a ++ e :: d)
    (ha : ∀ j ∈ a, (s.entry j).state ≠ .gathering) (he : (s.entry e).state = .gathering)
    (hzero : (s.entry e).pending = 0) :
    ∃ u, (s.chargeItem c slot amount).settle = u ∧ u.cache.waiting = [] ∧
      u.entry e = { slot := some slot, pending := amount, state := .gathering } ∧
      u.arbiter.current = some
        { who := .chan c, write := .nothing, result := .reply c .done (bytesBE 3 r.used ++ bytesBE 3 amount) } ∧
      (∀ j, j ≠ e → u.entry j = s.entry j) ∧
      u.lines = s.lines ∧ u.channels = s.channels ∧ u.store = s.store ∧ u.rating = s.rating ∧ u.presence = s.presence := by
  generalize hx : ((s.chargeItem c slot amount).modCache fun c => { c with queue := c.queue.erase e }).freeEntry e = x
  have hentry : ∀ j, x.entry j = if j = e then {} else s.entry j := fun j => by
    rw [← hx]
    exact State.entry_freeEntry ((s.chargeItem c slot amount).modCache fun c => { c with queue := c.queue.erase e }) e j
  have harb : x.arbiter = (s.charging c).arbiter := by rw [← hx]; rfl
  have hwait : x.cache.waiting = [{ slot := slot, charges := [{ channel := c, amount := amount }] }] := by rw [← hx]; rfl
  have hrating : x.rating = s.rating := by rw [← hx]; rfl
  have hstore : x.store = s.store := by rw [← hx]; rfl
  have hpresence : x.presence = s.presence := by rw [← hx]; rfl
  have hlines : x.lines = s.lines := by rw [← hx]; rfl
  have hchannels : x.channels = s.channels := by rw [← hx]; rfl
  have hxfree : x.freeEntry? = some e := by
    refine State.freeEntry_only (by rw [hentry, if_pos rfl]) fun j hj => ?_
    rw [hentry, if_neg hj]
    exact hfree j
  have honce : (s.chargeItem c slot amount).settleOnce = some x := by
    rw [← hx]
    exact State.settleOnce_empties (s := s.chargeItem c slot amount) rfl
      (State.freeEntry_none (s := s.chargeItem c slot amount) hfree) hev
      (State.recency_first (s := s.chargeItem c slot amount) hrec ha he) hzero hfl
  clear hx
  have hgentry : ∀ j, (x.given e slot).entry j = if e = j then { slot := some slot, state := .gathering } else s.entry j :=
    fun j => (State.entry_giveSlot (x.modCache fun c => { c with waiting := c.waiting.tail }) e slot j).trans (by
      split
      · rfl
      · next hj => exact (hentry j).trans (if_neg (Ne.symm hj)))
  have hgarb : (x.given e slot).arbiter = (s.charging c).arbiter := harb
  have hgrec : (x.given e slot).recordAt slot = some r :=
    (congrArg (fun st : Store => tabGet slot st.records) hstore).trans hr
  have hgbrec : (x.given e slot).budgetRecord slot = some r := (State.budgetRecord_charging hgarb).trans hgrec
  have hposts : (x.given e slot).Posts e slot amount r :=
    { entry := by rw [hgentry, if_pos rfl]
      alone := fun j hj => by
        rw [hgentry, if_neg (Ne.symm hj)]
        exact State.slot_ne_of_entryOf hnone j
      record := hgrec
      budget := by rw [State.budget, hgbrec]; exact hb
      normal := (congrArg (fun x => ((tabGet slot x).getD ({} : Presence)).budget) hpresence).trans hp
      room := hroom }
  generalize hy : (x.given e slot).gained e amount = y
  have hyentry : ∀ j, y.entry j =
      if e = j then { slot := some slot, pending := amount, state := .gathering } else s.entry j := fun j => by
    rw [← hy, State.entry_gained, hgentry]
    split
    · simp
    · rfl
  have hycur : y.arbiter.current = some { who := .chan c, write := .nothing, result := .chargeWaits c } := by
    rw [← hy, State.gained_arbiter, hgarb]
    rfl
  have hywait : y.cache.waiting = [] := by
    rw [← hy, State.gained_waiting]
    exact (congrArg List.tail hwait)
  have hbusy : KeepsBusy y (y.lookDue e) := keepsBusy_lookDue e (by rw [hycur]; rfl)
  have hlent : ∀ j, (y.lookDue e).entry j = y.entry j := fun j =>
    congrArg (fun k : Vector Entry 32 => k.get j) hbusy.entries
  have hgive : x.giveEntry e { slot := slot, charges := [{ channel := c, amount := amount }] } =
      (y.lookDue e).setResult (.reply c .done (bytesBE 3 r.used ++ bytesBE 3 amount)) := by
    rw [State.giveEntry_charge (by rw [hrating]; exact hm), hposts.postCharge hgbrec, hy]
    dsimp only
    rw [State.answerCharge_waits (hbusy.current.trans hycur)]
    refine State.lookFree_pending ?_
    show 0 < ((y.lookDue e).entry e).pending
    rw [hlent, hyentry, if_pos rfl]
    exact hpos
  generalize hz : (y.lookDue e).setResult (.reply c .done (bytesBE 3 r.used ++ bytesBE 3 amount)) = z at hgive
  have hzwait : z.cache.waiting = [] := by rw [← hz]; exact hbusy.waiting.trans hywait
  have hmove : x.settleOnce = some z := by
    unfold State.settleOnce
    rw [hwait]
    dsimp only
    rw [hxfree]
    exact congrArg some hgive
  have hrest : z.settleOnce = none := by
    unfold State.settleOnce
    rw [hzwait]
  refine ⟨z, ((State.settleLoop_move honce 2).trans (State.settleLoop_move hmove 1)).trans (State.settleLoop_rest hrest 1),
    hzwait, ?_, ?_, fun j hj => ?_, ?_⟩
  · rw [← hz]
    exact ((hlent e).trans (hyentry e)).trans (if_pos rfl)
  · rw [← hz]
    show (y.lookDue e).arbiter.current.map _ = _
    rw [hbusy.current, hycur]
    rfl
  · rw [← hz]
    exact ((hlent j).trans (hyentry j)).trans (if_neg (Ne.symm hj))
  · have hyx : y.lines = x.lines ∧ y.channels = x.channels ∧ y.store = x.store ∧ y.rating = x.rating ∧
        y.presence = x.presence := by
      rw [← hy]
      exact ⟨rfl, rfl, rfl, rfl, rfl⟩
    obtain ⟨h1, h2, h3, h4, h5⟩ := hyx
    rw [← hz]
    exact ⟨hbusy.lines.trans (h1.trans hlines), hbusy.channels.trans (h2.trans hchannels), hbusy.store.trans (h3.trans hstore),
      hbusy.rating.trans (h4.trans hrating), hbusy.presence.trans (h5.trans hpresence)⟩

end

end Sys2Proof.Machine
end


section
/-! The obligation about CHARGE (R101, R127 to R130, R136, R138, R139, R162, R163). -/

namespace Sys2Proof.Machine

section

variable {s t u : State} {l : LineNo} {c : ChanNo} {e : Fin 32} {slot amount applied : Nat} {f : OrderFrame}

/-- The queue and the ports of a channel, after a CHARGE has come into execution and its discard been told. -/
theorem State.chargeRaised_execution (d : ChanNo) :
    (((s.inExecution c 15 f).chargeRaised c slot amount applied).chan d).queue = (s.chan d).queue ∧
      (((s.inExecution c 15 f).chargeRaised c slot amount applied).chan d).ports = (s.chan d).ports := by
  obtain ⟨hq, hp⟩ := State.chargeRaised_keeps (s := s.inExecution c 15 f) (c := c) (slot := slot) (amount := amount)
    (applied := applied) d
  obtain ⟨-, hq', hp'⟩ := State.inExecution_keeps (s := s) (c := c) (f := f) 15 d
  exact ⟨hq.trans hq', hp.trans hp'⟩

theorem State.port_chargeRaised (d : ChanNo) (q : Nat) :
    ((s.inExecution c 15 f).chargeRaised c slot amount applied).port? d q = s.port? d q := by
  rw [State.port?, State.port?, (State.chargeRaised_execution d).2]

/-- Text for a line changes no channel and no other line. -/
theorem State.shown_others (cs : List Code) :
    (∀ j, j ≠ l → (s.shown l cs).line j = s.line j) ∧ (s.shown l cs).channels = s.channels := by
  obtain ⟨m, hm⟩ := State.shown_eq (s := s) (l := l) cs
  rw [hm]
  exact ⟨fun j hj => by rw [State.line_modUnit, if_neg (Ne.symm hj)], rfl⟩

theorem State.presenceOf_of_table {x y : State} (h : x.presence = y.presence) : x.presenceOf slot = y.presenceOf slot :=
  congrArg (fun t => (tabGet slot t).getD ({} : Presence)) h

end

/-- Settles O52: the right, the amount, the offer, then the entry that takes the CHARGE or the item in which it waits. -/
theorem chargePostsUnits : Obligations.ChargePostsUnits := by
  intro s c f n1 n0 a1 a0 ha hfp hf hb number amount t o
  have hright : s.rightFor c (orderOf 15 f) = (s.right c number).charges :=
    State.rightFor_number hb (by rw [hf.2]; decide)
  have hnumber : bodyField (orderOf 15 f).body 0 2 = number := by
    rw [orderOf_body hf (by decide)]
    exact bodyField_number hb
  have hamount : bodyField (orderOf 15 f).body 2 2 = amount := by
    rw [orderOf_body hf (by decide), hb]
    exact bodyField_eq (beNat_two a1 a0)
  refine ⟨fun hno => congrArg Host.Outcome.next
    (ha.refuse_account hfp hf rfl (by decide) (by decide) (hright.trans hno)), fun hyes => ?_⟩
  have hrun : o = .next (t.orderCharge c (orderOf 15 f)).started := congrArg Host.Outcome.next
    (ha.run_account hfp hf rfl (by decide) (by decide) (hright.trans hyes))
  have hoffer : amount ≠ 0 → o = .next (t.offerOrder c).started := fun hne => by
    rw [hrun, State.orderCharge, hamount, if_neg hne]
  have hserve : t.serveOrder c = t.serveCharge c number amount := by
    rw [State.serveOrder, State.orders_inExecution, ← hnumber, ← hamount]
    rfl
  have hidle : amount ≠ 0 → s.arbiter.current = none → o = .next (t.serveCharge c number amount).started := fun hne hi => by
    rw [hoffer hne, State.offerOrder_idle (s := t) hi, hserve]
  refine ⟨fun hz => ?_, fun hne hbusy => ?_, fun hne hown => ?_, fun hne hi => ⟨fun hl => ?_, ?_⟩⟩
  · rw [hrun, State.orderCharge, hamount, if_pos hz]
    exact congrArg (fun u : State => Host.Outcome.next u.started) (State.answer_inExecution (code := 15) _ _)
  · rw [hoffer hne, State.storeBusy.offer (s := t) hbusy]
  · rw [hoffer hne, State.ownAccess.offer (s := t) hown]
  · rw [hidle hne hi, State.serveCharge, show t.lookup number = none from hl]
    rfl
  intro slot r hl hr hw p
  have hlive : (t.chan c).state = .up ∨ (t.chan c).state = .quiescing := by
    rw [(State.inExecution_keeps (s := s) (f := f) 15 c).1]
    exact ha.live
  have hpos : 0 < amount := Nat.pos_of_ne_zero hne
  refine ⟨?_, ?_⟩
  · intro e base hbase prior applied total raised posted plain
    have hreceives : (∃ u, t.Receives u c e slot base) ∧ 0 < base.pending + applied := by
      rcases hbase with ⟨he, rfl, hpend⟩ | ⟨hnone, hfree, hlow, rfl, hroom⟩
      · exact ⟨⟨_, State.Receives.own (s := t) he hw⟩, by omega⟩
      · refine ⟨⟨_, State.Receives.free (s := t) hnone hfree hlow hw⟩, ?_⟩
        show 0 < 0 + min amount (16777215 - (r.used + 0))
        omega
    obtain ⟨⟨u, h⟩, hsum⟩ := hreceives
    have finish : ∀ z, t.ChargeEnds u z c e slot amount applied → ∃ y, posted y ∧ y.presence = z.presence ∧
        y.lines = z.lines ∧ y.channels = z.channels := fun z hz => by
      obtain ⟨y, hy, hcur, hself, hothers, hstore, hrating, hpresence, hlines, hchannels⟩ :=
        h.posts (number := number) (amount := amount) (applied := applied) hlive hl hr rfl hsum hz.ends hz.cache hz.arbiter
      refine ⟨y, ⟨by rw [hidle hne hi, hy], hcur, ?_, hothers, hstore.trans hz.store, hrating.trans hz.rating⟩, hpresence,
        hlines, hchannels⟩
      rw [hself, show base.pending + applied = total - r.used by omega]
    refine ⟨fun hcase => ?_, fun happ b hrb => ⟨fun hlt h90 hpn l hs hst => ?_, fun hover hpb => ⟨fun hcount => ?_, ?_⟩⟩⟩
    · have hsame : (t.presenceOf slot).budget = some (budgetStateFor (r.used + base.pending + applied) r.budget
          (t.presenceOf slot).count (t.presenceOf slot).budget) := by
        rcases hcase with ⟨hpn, hnone | ⟨b, hrb, hlt, hlow⟩⟩ | ⟨hpw, b, hrb, hlt, h90⟩
        · rw [hnone]
          exact hpn
        · rw [hrb, budgetStateFor_normal hlt hlow]
          exact hpn
        · rw [hrb, budgetStateFor_warned hlt h90]
          exact hpw
      obtain ⟨y, hy, hpresence, hlines, hchannels⟩ := finish _ (h.ends_same hr hsame)
      exact ⟨y, hy, ⟨State.line_of_lines (hlines.trans State.chargeRaised_lines), State.chan_of_channels hchannels⟩,
        hpresence.trans h.presence⟩
    · obtain ⟨y, hy, hpresence, hlines, hchannels⟩ := finish _ (h.ends_warned hr happ hrb hlt h90 hpn hs hst)
      obtain ⟨hothers, hchans⟩ := State.shown_others (s := raised) (l := l) (text "BUDGET 90% USED")
      have hline : ∀ j, raised.line j = s.line j := State.chargeRaised_line (s := t)
      refine ⟨y, hy, ?_, ?_, fun j hj => ?_, State.chan_of_channels (hchannels.trans hchans)⟩
      · exact (State.presenceOf_of_table hpresence).trans (h.chargedAs_presence hr .warned)
      · exact (State.line_of_lines hlines l).trans (State.shown_congr (hline l) _)
      · exact (State.line_of_lines hlines j).trans ((hothers j hj).trans (hline j))
    · obtain ⟨z, hz, hzp, hzl, hzc⟩ := h.ends_spent hr hi happ hrb hover hpb hcount
      obtain ⟨y, hy, hpresence, hlines, hchannels⟩ := finish z hz
      refine ⟨y, hy, ?_, State.line_of_lines (hlines.trans hzl), fun d => (State.chan_of_channels hchannels d).trans (hzc d)⟩
      exact (State.presenceOf_of_table (hpresence.trans hzp)).trans (h.chargedAs_presence hr .spent)
    · intro l w hcount hs cs hwhere
      have hwithdrawn : raised.Withdrawn l cs w := by
        have hunit : raised.unit l = s.unit l := congrArg Line.unit (State.chargeRaised_line (s := t) l)
        have hport : ∀ d q, raised.port? d q = s.port? d q := State.port_chargeRaised
        have hqueue : ∀ d, (raised.chan d).queue = (s.chan d).queue := fun d => (State.chargeRaised_execution d).1
        rcases hwhere with ⟨hst, hwait, rfl⟩ | ⟨hst, ⟨d, v, hv, hvl⟩, hno, rfl⟩ | ⟨hst, hq, d, q, y, hy, hyo, hyl, hone, rfl⟩
        · exact .idle (by rw [hunit]; exact hst)
            (hwait.of_queues_ports hqueue fun d => (State.chargeRaised_execution d).2)
        · exact .queued (c := d) (v := v) (by rw [hunit]; exact hst) (by rw [hqueue]; exact hv) hvl
            fun d q y hy => hno d q y ((hport d q).symm.trans hy)
        · exact .opening (by rw [hunit]; exact hst) (fun d v hv => hq d v (by rw [← hqueue]; exact hv))
            ((hport d q).trans hy) hyo hyl fun d' q' z hz => hone d' q' z ((hport d' q').symm.trans hz)
      obtain ⟨z, hz, hzp, hzl, hzc⟩ := h.ends_grace hr hi happ hrb hover hpb hcount hs hwithdrawn
      obtain ⟨y, hy, hpresence, hlines, hchannels⟩ := finish z hz
      refine ⟨y, hy, ?_, State.line_of_lines (hlines.trans hzl), fun d => (State.chan_of_channels hchannels d).trans (hzc d)⟩
      exact (State.presenceOf_of_table (hpresence.trans hzp)).trans (h.chargedAs_presence hr .grace)
  · intro hnone hfree item waits
    have hsettles : o = .next (t.chargeItem c slot amount).settle.started := by
      rw [hidle hne hi, State.serveCharge_waits (s := t) hl hnone hfree hw]
    refine ⟨fun hev => ?_, fun a e d hev hrec hfirst he => ?_⟩
    · rw [hsettles, State.chargeItem_evicting (s := t) hfree hev]
      rfl
    intro kept
    refine ⟨fun hpend => ?_, fun hzero hfl hrb hpn hroom hm => ?_⟩
    · obtain ⟨y, hy, hwait, hevy, hself, hq, hcur, hothers, hlines, hchannels, hstore, hrating, hpresence⟩ :=
        State.chargeItem_evicts (s := t) (c := c) (slot := slot) (amount := amount) hfree hev hrec hfirst he hpend
      exact ⟨y, by rw [hsettles, hy], hwait, hevy, hself, hq, hcur, hothers, State.line_of_lines hlines,
        State.chan_of_channels hchannels, hstore, hrating, hpresence⟩
    · obtain ⟨y, hy, hwait, hself, hcur, hothers, hlines, hchannels, hstore, hrating, hpresence⟩ :=
        State.chargeItem_empties (s := t) (c := c) (slot := slot) (amount := amount) hfree hnone hr hrb hpn hroom hpos hm hfl
          hev hrec hfirst he hzero
      exact ⟨y, by rw [hsettles, hy], hwait, hself, hcur, hothers, State.line_of_lines hlines,
        State.chan_of_channels hchannels, hstore, hrating, hpresence⟩

end Sys2Proof.Machine
end
